-- ==== Sys2Proof/Word.lean ====
section
/-!
DEFINITION. Word types of the machine (00 R4, 02 R41): bytes, 32-bit and 64-bit words, a fetch slot, and the
plainest arithmetic on them.
-/

namespace Sys2Proof

abbrev Byte := BitVec 8
abbrev W32 := BitVec 32
abbrev W64 := BitVec 64
/-- One instruction, 96 bits (03 R71). -/
abbrev Slot := BitVec 96

/-- The pair `lo` in bits [31:0], `hi` in bits [63:32] (02 R41: element 0, the low word, first). -/
abbrev joinWords (hi lo : W32) : W64 := hi ++ lo

end Sys2Proof
end

