-- ==== Sys2Proof/Config.lean ====
section
/-!
DEFINITION. Configuration: the figures the spec fixes for every device (00 R2, 01 R13, 10 R276, 12 R308, 15 R361),
and the free values, which the spec leaves open. A free value is an opaque constant: no proof can see what it is.
-/

namespace Sys2Proof.Config

abbrev numCores : Nat := 192
abbrev coresPerDie : Nat := 48
abbrev slotsPerCore : Nat := 96
abbrev slotsPerPartition : Nat := 12
abbrev partitions : Nat := 8
abbrev lanes : Nat := 32
abbrev maxVregs : Nat := 384
abbrev maxKregs : Nat := 160
abbrev fileRegs : Nat := 1024
abbrev numSlices : Nat := 96
abbrev slicesPerDie : Nat := 24
abbrev maxOutstanding : Nat := 768
abbrev l1Ways : Nat := 16
abbrev l1Sets : Nat := 128
abbrev tlbEntries : Nat := 2048
abbrev walkCacheEntries : Nat := 128
abbrev recordsPerSlice : Nat := 4096
/-- Lines of a slice's L2 of 3 MiB (00 R2). -/
abbrev l2Lines : Nat := 24576
abbrev leaseTable : Nat := 64
abbrev leaseQueue : Nat := 256
abbrev coreLeases : Nat := 64
abbrev atomicUnit : Nat := 32
abbrev pageFaultQueue : Nat := 64
abbrev sampleQueue : Nat := 1024
abbrev contextQueue : Nat := 16
abbrev numQueues : Nat := 64
abbrev icacheLines : Nat := 2048
/-- Words of a core's constant cache, 64 KiB (00 R2). -/
abbrev ccacheWords : Nat := 16384
abbrev replayBytes : Nat := 2097152
/-- HBM4: rows of a bank, bytes of a row and of an atom (12 R308). -/
abbrev hbmRows : Nat := 65536
abbrev rowBytes : Nat := 1024
abbrev atomBytes : Nat := 32
/-- LPDDR-6 channels (00 R1, 12 R315). -/
abbrev tierChannels : Nat := 24

/-- What a read of device or host MMIO returns: the spec gives those registers no contents (12 R307). Fresh by the
counter `State.fresh`. DESIGN CHOICE, log 9. -/
opaque mmioByte : Nat → Byte

/-- Which of `n` candidates a full cache replaces: the spec leaves the victim open (10 R277, R285, 12 R320). -/
opaque victim : Nat → Nat → Nat

/-- Does its home slice's L2 hold a line that it may hold (`State.l2`)? Which lines a slice keeps is left open (10 R279); it
affects timing, a sample's L2 flag (12 R324), the choice between near and far (10 R302) and whether a channel that retrains
holds the access (12 R312) only. DESIGN CHOICE, log 103. -/
opaque l2Hit : Nat → Bool

/-- Token values: the spec asks only that they are not zero and differ from the gang's pending ones (07 R207). -/
opaque token : Nat → W32

/-- The module's PUF secret, 32 bytes (21 R431). -/
opaque pufSecret : Nat

/-- The Naruedex firmware public key in the boot ROM, 32 bytes read little-endian (21 R429). -/
opaque firmwareKey : Nat

/-- The built-in default of a type's configuration record, the identity certificate's among them (21 R430). -/
opaque defaultRecord : Nat → List Byte

/-- The boot ROM's bytes, whose digest is measurement 1 (21 R432). -/
opaque bootRom : List Byte

/-- Sensor readings (21 R433) and other values an out-of-band read returns that the spec does not state. -/
opaque sensor : Nat → W32

/-- The reply to an MCTP control message, and the message that an SPDM response signs over a nonce (0 a challenge, 1
measurements): external standards fix them (21 R432, R433). -/
opaque mctpReply : List Byte → List Byte
opaque spdmTranscript : Nat → List Byte → List Byte

/-- Offsets of the queue table and of the halt control register in the CXL.io space, which an error-log record names
(16 R383); the spec gives no place to either (15 R347, R360). -/
opaque queueTableOffset : Nat
opaque haltControlOffset : Nat

/-- What a core's time-sync monitor finds: its view of the time base minus its die's time base (10 R294). -/
opaque drift : Nat → Nat → Int

/-- By how much a die's time base is ahead of the hub's, in ticks (00 R6, 01 R25): at most 4 of any other's. DESIGN CHOICE,
log 81. -/
opaque dieSkew : Nat → Fin 5

/-- The free frame that the firmware gives the migration engine in a tier, as a 64 KiB frame number, when
`State.freeFrames` lists none: which frames are free is the firmware's own record (12 R326). -/
opaque spareFrame : Nat → Bool → Nat

/-- The PA of a save frame, by its number: where the firmware has memory free (16 R385). -/
opaque frameArea : Nat → Nat

/-- The PA of the staging area that the firmware reserves for a population, by its launch (18 R403). -/
opaque stagingArea : Nat → Nat

/-- How many HBM frames the firmware holds free beyond `State.freeFrames` (15 R373). -/
opaque spareCount : Nat

end Sys2Proof.Config
end

