-- ==== Sys2Proof/Syntax.lean ====
section
/-!
DEFINITION. The syntax of the machine: the fields of the five instruction formats (03 R78, R84-R92) and `Instr`, one
constructor per row of the table of operations and events. An instruction row carries the common fields and the
fields of its format, every bit of the 96; an event row carries what it happens to.
-/

namespace Sys2Proof

/-- Operand kinds (03 R84). -/
inductive Kind where
  | vec | scl | win | imm
  deriving DecidableEq, Repr

/-- The common fields of every format, bits [81:77] and [85:82] (03 R78). -/
structure Hdr where
  stall : BitVec 4
  y : Bool
  guard : BitVec 3
  neg : Bool
  deriving DecidableEq, Repr

/-- Format A: registers and three sources (03 R86). -/
structure FmtA where
  d : BitVec 9
  a : BitVec 9
  b : BitVec 9
  c : BitVec 9
  kA : Kind
  kB : Kind
  kC : Kind
  ty : BitVec 5
  rnd : BitVec 3
  sat : Bool
  mods : BitVec 6
  opnd : BitVec 20
  deriving DecidableEq, Repr

/-- Format I: long immediate (03 R87). -/
structure FmtI where
  d : BitVec 9
  a : BitVec 9
  kA : Kind
  ty : BitVec 5
  rnd : BitVec 3
  sat : Bool
  mods : BitVec 16
  imm : BitVec 32
  deriving DecidableEq, Repr

/-- Format M: memory (03 R88). -/
structure FmtM where
  d : BitVec 9
  a : BitVec 9
  b : BitVec 9
  c : BitVec 9
  kA : Kind
  kB : Kind
  width : BitVec 3
  scope : BitVec 4
  order : BitVec 3
  op : BitVec 4
  mark : Bool
  space : BitVec 2
  off : BitVec 20
  deriving DecidableEq, Repr

/-- Format C: control (03 R91). -/
structure FmtC where
  d : BitVec 9
  a : BitVec 9
  kA : Kind
  weir : BitVec 5
  wv : Bool
  mods : BitVec 19
  off : BitVec 32
  deriving DecidableEq, Repr

/-- Format X: matrix and engines (03 R92). -/
structure FmtX where
  eng : BitVec 2
  weir : BitVec 4
  wv : Bool
  rowBase : BitVec 10
  kP : BitVec 8
  kQ : BitVec 8
  kS : BitVec 8
  sfmt : BitVec 6
  tfmt : BitVec 6
  rows : BitVec 8
  tok : BitVec 8
  mods : BitVec 8
  deriving DecidableEq, Repr

/-- The host registers of the CXL.io space that a write only stores (15 R352, 16 R379, R380, R383). -/
inductive HostReg where
  | journalBase | journalSize | logBase | logSize | emulationTableBase | emulationLeaseBase
  deriving DecidableEq, Repr

/-- What a peer device's access does to this device's memory (21 R422). -/
inductive PeerOp where
  | store | red (op : BitVec 4) (releases : Bool) | release
  deriving DecidableEq, Repr

/-- A peer access as it arrives: source device, 48-bit sequence number, and the parts of the line that it writes, each with
its address, or the operands of a reduction, lowest lane first (10 R303, 21 R422). -/
structure PeerAccess where
  source : Nat
  seq : Nat
  op : PeerOp
  parts : List (Nat × List Byte)
  deriving DecidableEq, Repr

/-- What a memory controller finds on the data lanes of a channel: the corrected errors it has counted, and a lane of the
pseudo-channels that fails (12 R311, R312). -/
structure LaneReport where
  errors : Nat
  failing : Option Nat
  deriving DecidableEq, Repr

/-- What an out-of-band vendor message reads (21 R433). -/
inductive VendorItem where
  | errorLog (index : Nat) | journal (index : Nat) | temperature (channel : Nat) | supply | emberState
  deriving DecidableEq, Repr

/-- One constructor per row of the table: 147 instructions, then 90 steps of the device and its boundary. -/
inductive Instr where
  /-- NOP (R115). Does nothing beyond consuming its stall count and honouring its Y bit. -/
  | nop (h : Hdr) (f : FmtC)
  /-- BRA (R110). Branches each lane whose guard holds to a slot-relative target, checked under R76. -/
  | bra (h : Hdr) (f : FmtC)
  /-- BRX (R111). Branches each lane of Act to the 64-bit target in a vector or scalar register pair. -/
  | brx (h : Hdr) (f : FmtC)
  /-- BRS (R112). Branches the whole gang uniformly on a scalar register, in non-zero, zero or table mode. -/
  | brs (h : Hdr) (f : FmtC)
  /-- CALL (R113). Writes the start of the next line as the link into a vector pair and branches. -/
  | call (h : Hdr) (f : FmtC)
  /-- RET (R111). Returns each lane of Act to the target held in a register pair. -/
  | ret (h : Hdr) (f : FmtC)
  /-- EXIT (R114). Clears the live flag of each lane of Act, ends its leases, and may complete weir rounds, dissolve pairs or release the gang slot. -/
  | exit (h : Hdr) (f : FmtC)
  /-- YIELD (R115). Acts as a NOP with the Y bit set, dropping its group to the lowest priority in its gang. -/
  | yield (h : Hdr) (f : FmtC)
  /-- SLEEP (R116). Makes the group of Act not ready for a given count of cycles. -/
  | sleep (h : Hdr) (f : FmtC)
  /-- TRAP (R117). Raises fault 0x1B precisely in each lane of Act, with the trap code in EADDR. -/
  | trap (h : Hdr) (f : FmtC)
  /-- IADD (R131). Adds two integers per lane, wrapping or saturating. -/
  | iadd (h : Hdr) (f : FmtA)
  /-- ISUB (R131). Subtracts two integers per lane, wrapping or saturating. -/
  | isub (h : Hdr) (f : FmtA)
  /-- IADDX (R132). Adds with a carry-in predicate and writes a carry-out predicate. -/
  | iaddx (h : Hdr) (f : FmtA)
  /-- ISUBX (R132). Subtracts with a borrow-in predicate and writes a borrow-out predicate. -/
  | isubx (h : Hdr) (f : FmtA)
  /-- IMUL (R131). Multiplies two integers per lane, wrapping or saturating. -/
  | imul (h : Hdr) (f : FmtA)
  /-- IMULH (R133). Writes the high half of the exact product. -/
  | imulh (h : Hdr) (f : FmtA)
  /-- IMAD (R131). Computes A times B plus C per lane, wrapping or saturating. -/
  | imad (h : Hdr) (f : FmtA)
  /-- IMADW (R134). Computes a 32 by 32 product plus a 64-bit addend into a register pair. -/
  | imadw (h : Hdr) (f : FmtA)
  /-- IMIN (R135). Writes the smaller of two integers. -/
  | imin (h : Hdr) (f : FmtA)
  /-- IMAX (R135). Writes the larger of two integers. -/
  | imax (h : Hdr) (f : FmtA)
  /-- IABS (R135). Writes the absolute value of a signed integer. -/
  | iabs (h : Hdr) (f : FmtA)
  /-- INEG (R135). Writes the negation of a signed integer. -/
  | ineg (h : Hdr) (f : FmtA)
  /-- IDOT4 (R136). Adds a four-way byte dot product to C. -/
  | idot4 (h : Hdr) (f : FmtA)
  /-- ISAD (R137). Adds the absolute difference of A and B to C. -/
  | isad (h : Hdr) (f : FmtA)
  /-- AND (R139). Bitwise AND. -/
  | and (h : Hdr) (f : FmtA)
  /-- OR (R139). Bitwise OR. -/
  | or (h : Hdr) (f : FmtA)
  /-- XOR (R139). Bitwise exclusive OR. -/
  | xor (h : Hdr) (f : FmtA)
  /-- ANDN (R139). Bitwise A AND NOT B. -/
  | andn (h : Hdr) (f : FmtA)
  /-- NOT (R139). Bitwise complement. -/
  | not (h : Hdr) (f : FmtA)
  /-- BLOG (R139). Computes any three-input bitwise function given by an 8-bit truth table. -/
  | blog (h : Hdr) (f : FmtA)
  /-- SHL (R140). Shifts left. -/
  | shl (h : Hdr) (f : FmtA)
  /-- SHR (R140). Shifts right, filling with zeros. -/
  | shr (h : Hdr) (f : FmtA)
  /-- SAR (R140). Shifts right, filling with copies of the sign bit. -/
  | sar (h : Hdr) (f : FmtA)
  /-- ROT (R140). Rotates left. -/
  | rot (h : Hdr) (f : FmtA)
  /-- FSHF (R140). Funnel-shifts two words joined into 64 bits. -/
  | fshf (h : Hdr) (f : FmtA)
  /-- BFE (R141). Extracts a bit field, zero- or sign-extended. -/
  | bfe (h : Hdr) (f : FmtA)
  /-- BFI (R141). Inserts a bit field into C. -/
  | bfi (h : Hdr) (f : FmtA)
  /-- POPC (R142). Counts one bits. -/
  | popc (h : Hdr) (f : FmtA)
  /-- CLZ (R142). Counts leading zero bits. -/
  | clz (h : Hdr) (f : FmtA)
  /-- BREV (R142). Reverses the bit order. -/
  | brev (h : Hdr) (f : FmtA)
  /-- ICMP (R143). Compares two integers and writes a predicate. -/
  | icmp (h : Hdr) (f : FmtA)
  /-- ISEL (R144). Selects A or B by a predicate. -/
  | isel (h : Hdr) (f : FmtA)
  /-- PLOP (R145). Computes a three-input predicate function from a truth table. -/
  | plop (h : Hdr) (f : FmtA)
  /-- LEA (R146). Computes a 64-bit address from a base pair and a shifted index. -/
  | lea (h : Hdr) (f : FmtA)
  /-- MOV (R147). Copies a source to the destination. -/
  | mov (h : Hdr) (f : FmtA)
  /-- MOVI (R147). Writes a 32-bit immediate, extended for 64-bit types. -/
  | movi (h : Hdr) (f : FmtI)
  /-- BSWZ (R148). Builds a word from selected bytes of an eight-byte pool. -/
  | bswz (h : Hdr) (f : FmtA)
  /-- FADD (R151). Adds two floating-point values with one rounding. -/
  | fadd (h : Hdr) (f : FmtA)
  /-- FMUL (R151). Multiplies two floating-point values with one rounding. -/
  | fmul (h : Hdr) (f : FmtA)
  /-- FFMA (R151). Fused multiply-add with one rounding. -/
  | ffma (h : Hdr) (f : FmtA)
  /-- FMIN (R152). Returns minimumNumber of two values. -/
  | fmin (h : Hdr) (f : FmtA)
  /-- FMAX (R152). Returns maximumNumber of two values. -/
  | fmax (h : Hdr) (f : FmtA)
  /-- FCMP (R153). Compares two floating-point values and writes a predicate. -/
  | fcmp (h : Hdr) (f : FmtA)
  /-- FCLASS (R154). Writes a one-hot classification mask. -/
  | fclass (h : Hdr) (f : FmtA)
  /-- FDOT2 (R155). Computes a two-element dot product plus an FP32 addend with one rounding. -/
  | fdot2 (h : Hdr) (f : FmtA)
  /-- FSCALE (R156). Multiplies by a power of two with one rounding. -/
  | fscale (h : Hdr) (f : FmtA)
  /-- FRCP (R158). Correctly rounded reciprocal. -/
  | frcp (h : Hdr) (f : FmtA)
  /-- FRSQ (R158). Correctly rounded reciprocal square root. -/
  | frsq (h : Hdr) (f : FmtA)
  /-- FSQRT (R158). Correctly rounded square root. -/
  | fsqrt (h : Hdr) (f : FmtA)
  /-- FDIV (R158). Correctly rounded division. -/
  | fdiv (h : Hdr) (f : FmtA)
  /-- FEX2 (R158). Correctly rounded power of two. -/
  | fex2 (h : Hdr) (f : FmtA)
  /-- FLG2 (R158). Correctly rounded base-2 logarithm. -/
  | flg2 (h : Hdr) (f : FmtA)
  /-- FSIN (R158). Correctly rounded sine of an argument in turns. -/
  | fsin (h : Hdr) (f : FmtA)
  /-- FCOS (R158). Correctly rounded cosine of an argument in turns. -/
  | fcos (h : Hdr) (f : FmtA)
  /-- FTANH (R158). Correctly rounded hyperbolic tangent. -/
  | ftanh (h : Hdr) (f : FmtA)
  /-- FRND (R159). Rounds to an integral value in the given mode. -/
  | frnd (h : Hdr) (f : FmtA)
  /-- CVT (R161). Converts between integer, IEEE, E4M3 and binary8 types, with stochastic rounding drawing once per lane. -/
  | cvt (h : Hdr) (f : FmtA)
  /-- CVTN (R162). Converts each element to a binary8 format under R57. -/
  | cvtn (h : Hdr) (f : FmtA)
  /-- PACK (R163). Packs two values into one word. -/
  | pack (h : Hdr) (f : FmtA)
  /-- UNPK (R164). Unpacks one element, byte or half of a word. -/
  | unpk (h : Hdr) (f : FmtA)
  /-- LXCH (R167). Gives each lane the value of another lane of its segment. -/
  | lxch (h : Hdr) (f : FmtA)
  /-- CONS (R168). Writes a predicate consensus over the lanes of Act. -/
  | cons (h : Hdr) (f : FmtA)
  /-- PMASK (R168). Forms a 32-bit mask of a predicate over the lanes of Act. -/
  | pmask (h : Hdr) (f : FmtA)
  /-- REDUX (R169). Reduces a register over the lanes of Act in ascending lane order. -/
  | redux (h : Hdr) (f : FmtA)
  /-- SCAN (R169). Computes an inclusive or exclusive prefix over the lanes of Act. -/
  | scan (h : Hdr) (f : FmtA)
  /-- EQMASK (R170). Writes masks of lanes holding equal values. -/
  | eqmask (h : Hdr) (f : FmtA)
  /-- BCAST (R171). Broadcasts one lane's value to every lane of Act. -/
  | bcast (h : Hdr) (f : FmtA)
  /-- SMOV (R120). Moves a value into a scalar register. -/
  | smov (h : Hdr) (f : FmtA)
  /-- SMOVI (R120). Writes a 32-bit immediate into a scalar register or pair. -/
  | smovi (h : Hdr) (f : FmtI)
  /-- SADD (R121). Scalar addition. -/
  | sadd (h : Hdr) (f : FmtA)
  /-- SSUB (R121). Scalar subtraction. -/
  | ssub (h : Hdr) (f : FmtA)
  /-- SMUL (R121). Scalar multiplication. -/
  | smul (h : Hdr) (f : FmtA)
  /-- SMAD (R121). Scalar multiply-add. -/
  | smad (h : Hdr) (f : FmtA)
  /-- SAND (R122). Scalar bitwise AND. -/
  | sand (h : Hdr) (f : FmtA)
  /-- SOR (R122). Scalar bitwise OR. -/
  | sor (h : Hdr) (f : FmtA)
  /-- SXOR (R122). Scalar bitwise exclusive OR. -/
  | sxor (h : Hdr) (f : FmtA)
  /-- SSHL (R122). Scalar shift left. -/
  | sshl (h : Hdr) (f : FmtA)
  /-- SSHR (R122). Scalar logical or arithmetic shift right. -/
  | sshr (h : Hdr) (f : FmtA)
  /-- SCMP (R123). Scalar compare writing 1 or 0. -/
  | scmp (h : Hdr) (f : FmtA)
  /-- SSEL (R123). Scalar select by a scalar condition. -/
  | ssel (h : Hdr) (f : FmtA)
  /-- SLD (R124). Loads scalar registers from memory once per issue as an access of the Issuer. -/
  | sld (h : Hdr) (f : FmtM)
  /-- SST (R124). Stores scalar registers to memory once per issue as an access of the Issuer. -/
  | sst (h : Hdr) (f : FmtM)
  /-- RDLANE (R125). Copies one lane's vector value into a scalar register. -/
  | rdlane (h : Hdr) (f : FmtA)
  /-- SRD (R126). Reads a special register into a vector or scalar destination. -/
  | srd (h : Hdr) (f : FmtA)
  /-- LD (R177). Loads per lane from global, scratch or window space, relaxed or acquire. -/
  | ld (h : Hdr) (f : FmtM)
  /-- ST (R177). Stores per lane to global or scratch space, relaxed or release. -/
  | st (h : Hdr) (f : FmtM)
  /-- LDF (R178). Loads an element converted from its page or segment format, optionally block-scaled. -/
  | ldf (h : Hdr) (f : FmtM)
  /-- STF (R178). Stores a value converted to its page or segment format. -/
  | stf (h : Hdr) (f : FmtM)
  /-- LDS (R179). Loads from scratch with a scaled index. -/
  | lds (h : Hdr) (f : FmtM)
  /-- STS (R179). Stores to scratch with a scaled index. -/
  | sts (h : Hdr) (f : FmtM)
  /-- LDC (R180). Loads 1, 2 or 4 words through the constant cache from a window. -/
  | ldc (h : Hdr) (f : FmtM)
  /-- PREF (R181). Prefetches a line into L1 or L2 without observable effect. -/
  | pref (h : Hdr) (f : FmtM)
  /-- CCTL (R182). Invalidates the constant or instruction cache or writes back L1 lines. -/
  | cctl (h : Hdr) (f : FmtM)
  /-- ATOM (R187). Performs a value-returning atomic read-modify-write per lane under an implicit lease. -/
  | atom (h : Hdr) (f : FmtM)
  /-- CAS (R188). Compares and swaps per lane, a failed compare being a relaxed or acquire load. -/
  | cas (h : Hdr) (f : FmtM)
  /-- RED (R187). Sends a non-returning reduction to the line's home. -/
  | red (h : Hdr) (f : FmtM)
  /-- ATOMS (R189). Performs an atomic read-modify-write on scratch. -/
  | atoms (h : Hdr) (f : FmtM)
  /-- CASS (R189). Compares and swaps on scratch. -/
  | cass (h : Hdr) (f : FmtM)
  /-- LSE (R192). Requests a lease on a line and loads from it, writing a grant predicate. -/
  | lse (h : Hdr) (f : FmtM)
  /-- STL (R193). Stores under a held lease and writes a success predicate. -/
  | stl (h : Hdr) (f : FmtM)
  /-- LSEND (R194). Writes a leased line through to its home and ends the lease. -/
  | lsend (h : Hdr) (f : FmtM)
  /-- MRED (R197). Issues a bank-node reduction with optional wait and publish, returning a token. -/
  | mred (h : Hdr) (f : FmtX)
  /-- FENCE (R200). Performs an acquire, release or full fence per lane, optionally ordering later page walks. -/
  | fence (h : Hdr) (f : FmtM)
  /-- BAR (R201). Arrives at a block barrier and waits for the phase, or with .wait only waits. -/
  | bar (h : Hdr) (f : FmtC)
  /-- BARA (R201). Arrives at a block barrier without waiting. -/
  | bara (h : Hdr) (f : FmtC)
  /-- WDECL (R204). Sets a weir's declared set and opens it. -/
  | wdecl (h : Hdr) (f : FmtC)
  /-- WSIGN (R205). Signs a weir round and continues. -/
  | wsign (h : Hdr) (f : FmtC)
  /-- WJOIN (R206). Signs a weir round and waits for completion or timeout. -/
  | wjoin (h : Hdr) (f : FmtC)
  /-- TKWAIT (R207). Waits until a token is not pending and raises a recorded fault. -/
  | tkwait (h : Hdr) (f : FmtC)
  /-- RGN (R208). Changes the region-directory state of a 4 KiB region. -/
  | rgn (h : Hdr) (f : FmtM)
  /-- MLD (R213). Loads a stationary tile and optional scales into the shadow plane. -/
  | mld (h : Hdr) (f : FmtX)
  /-- MSWP (R213). Exchanges the shadow and active planes. -/
  | mswp (h : Hdr) (f : FmtX)
  /-- MMA (R214). Streams rows through the active plane and accumulates in the R68 order. -/
  | mma (h : Hdr) (f : FmtX)
  /-- MMAP (R216). Streams both gangs' rows of a guide pair through one plane in one pass. -/
  | mmap (h : Hdr) (f : FmtX)
  /-- MGUIDE (R216). Writes guided rows C := w(C-U)+U in the accumulator. -/
  | mguide (h : Hdr) (f : FmtX)
  /-- ACCZ (R217). Clears accumulator rows to +0. -/
  | accz (h : Hdr) (f : FmtX)
  /-- ACCRD (R218). Reads accumulator rows into vector registers with one rounding. -/
  | accrd (h : Hdr) (f : FmtX)
  /-- ACCWR (R218). Writes FP32 values from vector registers into accumulator rows. -/
  | accwr (h : Hdr) (f : FmtX)
  /-- ACC2S (R219). Converts accumulator rows and writes them to scratch, setting segment tags. -/
  | acc2s (h : Hdr) (f : FmtX)
  /-- SCLD (R220). Copies E4M3 scales from scratch into scale memory. -/
  | scld (h : Hdr) (f : FmtX)
  /-- CPY (R229). Creates a linear copy job. -/
  | cpy (h : Hdr) (f : FmtX)
  /-- CPY2D (R230). Creates a strided two-dimensional copy job. -/
  | cpy2d (h : Hdr) (f : FmtX)
  /-- GATH (R231). Creates an indexed gather job into scratch. -/
  | gath (h : Hdr) (f : FmtX)
  /-- SCAT (R232). Creates an indexed scatter job to global memory. -/
  | scat (h : Hdr) (f : FmtX)
  /-- QDUAL (R233). Creates a job quantising one tile row-blocked and column-blocked with scales. -/
  | qdual (h : Hdr) (f : FmtX)
  /-- CAST (R234). Creates a job converting elements in scratch. -/
  | cast (h : Hdr) (f : FmtX)
  /-- RSMP (R236). Arrives at a population-wide resample barrier. -/
  | rsmp (h : Hdr) (f : FmtX)
  /-- PDISS (R239). Dissolves the issuing gang's guide pair and makes it solo. -/
  | pdiss (h : Hdr) (f : FmtC)
  /-- SPAWN (R240). Starts gangs from the spawn pool and returns their number. -/
  | spawn (h : Hdr) (f : FmtC)
  /-- RNG (R241). Writes one or two random draws per lane. -/
  | rng (h : Hdr) (f : FmtA)
  /-- HALT (R246). Stops every live lane of the gang and records a halt event. -/
  | halt (h : Hdr) (f : FmtC)
  /-- RTT (R247). Returns from a trap to EPC and restores privilege. -/
  | rtt (h : Hdr) (f : FmtC)
  /-- CSRR (R245). Reads a CSR into a vector or scalar destination. -/
  | csrr (h : Hdr) (f : FmtM)
  /-- CSRW (R245). Writes a CSR, with clamping and effects for particular CSRs. -/
  | csrw (h : Hdr) (f : FmtM)
  /-- TINV (R248). Removes translations from every TLB and walk cache of the device. -/
  | tinv (h : Hdr) (f : FmtM)
  /-- PMIG (R249). Asks the migration engine to move a page between tiers and returns a status. -/
  | pmig (h : Hdr) (f : FmtM)
  /-- DBRK (R250). Raises fault 0x1C precisely with a break code. -/
  | dbrk (h : Hdr) (f : FmtC)
  /-- RELEASE_RECORD_REGISTER (R284). A release registration (c, e) arriving at a line's home updates its record. -/
  | releaseRecordRegister (msg : Nat)
  /-- DRAIN_PROBE (R287). A probed core writes back dirty lines up to the probe's epoch and acknowledges. -/
  | drainProbe (msg : Nat)
  /-- DRAIN_ACK (R288). A drain acknowledgement reaches the home, which returns the line after the last one. -/
  | drainAck (msg : Nat)
  /-- WRITE_BACK_ACK (R277). The home acknowledges a byte-masked write-back. -/
  | writeBackAck (msg : Nat)
  /-- CORE_LEAVE (R289). A core about to power-gate writes back its L1 and sends leave to every home. -/
  | coreLeave (core : Nat)
  /-- CORE_JOIN (R290). A powered-up core's join message sets its bit in a home's present-cores mask. -/
  | coreJoin (core : Nat)
  /-- LEASE_GRANT (R291). The home grants a waiting lease request and the line moves to the lease buffer. -/
  | leaseGrant (line : Nat)
  /-- LEASE_EXPIRY (R292). A lease counter reaches LEASEMAX and the core writes the line through. -/
  | leaseExpiry (core line : Nat)
  /-- LEASE_WRITE_THROUGH (R293). A lease write-through reaches the home and is accepted or refused. -/
  | leaseWriteThrough (msg : Nat)
  /-- LEASE_REVOCATION (R293). The home revokes a lease at its tick ceiling, frees the entry and notifies the core. -/
  | leaseRevocation (line : Nat)
  /-- REVOCATION_NOTICE (R293). The core receives a revocation notice, discards STL bytes and sets the revoked bit. -/
  | revocationNotice (msg : Nat)
  /-- IMPLICIT_LEASE_END (R295). An ATOM or CAS implicit lease ends with a write-through. -/
  | implicitLeaseEnd (core line : Nat)
  /-- TIME_SYNC_CHECK (R294). The time-sync monitor compares the core's time view with its die's time base. -/
  | timeSyncCheck (core : Nat)
  /-- TIME_SYNC_RELOAD (R294). The monitor reloads the core's time view, bringing it inside the guard band. -/
  | timeSyncReload (core : Nat)
  /-- RED_ROUTER_HOLD_EXPIRY (R297). A router forwards a RED, merged or not, after holding it up to 8 cycles. -/
  | redRouterHoldExpiry (msg : Nat)
  /-- RED_HOME_APPLY (R297). The home applies a RED, merged or not, and acknowledges every contributor. -/
  | redHomeApply (msg : Nat)
  /-- REGION_DRAIN (R300). A core answers a region drain by writing back the region's dirty bytes. -/
  | regionDrain (msg : Nat)
  /-- REGION_TRANSITION_APPLY (R300). The home sets the region state once drains end or pending reaches 0. -/
  | regionTransitionApply (region : Nat)
  /-- PAGE_FAULT_RECORD (R321). A page-fault record reaches the management core. -/
  | pageFaultRecord (core : Nat)
  /-- UNPARK (R321). The firmware unparks a parked sub-group, which reissues its instruction. -/
  | unpark (record : Nat)
  /-- DELIVER_PAGE_FAULT (R321). The firmware turns a page-fault record into a precise fault 0x10. -/
  | deliverPageFault (record : Nat)
  /-- MIGRATION_START (R326). The migration engine starts moving a 64 KiB page between tiers. -/
  | migrationStart (mig : Nat)
  /-- MIGRATION_COPY (R326). After in-flight accesses and drains end, the engine copies the page and rewrites the PTE. -/
  | migrationCopy (mig : Nat)
  /-- MIGRATION_WINDOW_END (R373). At the end of a policy window the firmware promotes and demotes pages. -/
  | migrationWindowEnd
  /-- SAMPLE_RECORD (R325). The hub's sampler writes a 32-byte sample record into the ring. -/
  | sampleRecord
  /-- MRED_DISPATCH (R330). The root dispatches a far MRED to the named context of each source bank node. -/
  | mredDispatch (op : Nat)
  /-- MRED_WAIT_POLL (R332). The lead context re-reads its wait flag with an acquire read. -/
  | mredWaitPoll (op : Nat)
  /-- MRED_WAIT_LIMIT (R332). A waiting MRED reaches its wait limit and is aborted with fault 0x1D. -/
  | mredWaitLimit (op : Nat)
  /-- MRED_COMPLETE (R197). An MRED writes its destination, publishes and completes its token. -/
  | mredComplete (op : Nat)
  /-- JOB_COMPLETE (R225). A copy-engine job finishes and its token completes. -/
  | jobComplete (core channel : Nat)
  /-- MATRIX_COMPLETE (R397). A class 0xA instruction's last write is performed and its token completes. -/
  | matrixComplete (core engine : Nat)
  /-- RSMP_STAGE_OUT_COMPLETE (R404). Every core has reported its staging writes, so the cores read images into their slots. -/
  | rsmpStageOutComplete (launch : Nat)
  /-- RSMP_RESUME (R404). The population unit releases the population after stage-in. -/
  | rsmpResume (launch : Nat)
  /-- SLEEP_END (R116). A sleeping group's count reaches zero and it becomes ready. -/
  | sleepEnd (core group : Nat)
  /-- WEIR_TIMEOUT (R206). A weir's timeout reaches zero and resumes the timed joiners with false. -/
  | weirTimeout (core slot weir : Nat)
  /-- FAIRNESS_TIMER_EXPIRY (R37). The gang's fairness count reaches FAIRTIME and the longest-waiting group takes priority. -/
  | fairnessTimerExpiry (core slot : Nat)
  /-- QUANTUM_EXPIRY (R359). A gang's quantum clock reaches the quantum and the gang ends with fault 0x1D. -/
  | quantumExpiry (core slot : Nat)
  /-- QUEUE_WAKE (R350). The host's tail write invalidates the tail copy and wakes a firmware hart to read pending records. -/
  | queueWake (queue : Nat)
  /-- QUEUE_POLL (R350). The firmware polls every enabled queue at least once every 10^6 ticks. -/
  | queuePoll
  /-- COMMAND_START (R351). A held-back command starts once earlier commands have completed or faulted. -/
  | commandStart (seq : Nat)
  /-- LAUNCH (R349). Checks a kernel header and grid and dispatches the launch's blocks. -/
  | launch (seq : Nat)
  /-- WAIT (R349). Holds its queue until a word meets a condition. -/
  | wait (seq : Nat)
  /-- WAIT_TIMEOUT (R349). A WAIT's timeout expires and the command faults with 0x1D. -/
  | waitTimeout (seq : Nat)
  /-- SIGNAL (R349). Stores a value to a word with a release at system scope. -/
  | signal (seq : Nat)
  /-- REGION_CREATE (R358). Links a region control block into the tree. -/
  | regionCreate (seq : Nat)
  /-- REGION_MODIFY (R358). Changes a region, taking effect at the next dispatch decision. -/
  | regionModify (seq : Nat)
  /-- REGION_DELETE (R358). Removes a region and its descendants when none holds a block. -/
  | regionDelete (seq : Nat)
  /-- EMBER_ENTER (R425). Saves every core, writes back caches, puts memory in self-refresh and gates the dies. -/
  | emberEnter (seq : Nat)
  /-- EMBER_ARM (R424). Arms the supply-warning policy and exit on supply-good. -/
  | emberArm (seq : Nat)
  /-- EMBER_DISARM (R424). Disarms the supply-warning policy. -/
  | emberDisarm (seq : Nat)
  /-- RESUME (R426). Powers the dies, retrains memory, joins cores and restores every save frame. -/
  | resume (seq : Nat)
  /-- FIRMWARE (R429). Saves blocks, checks and starts a new firmware image, then restores the blocks. -/
  | firmware (seq : Nat)
  /-- MIGRATE_POLICY (R373). Installs the firmware's tier-migration policy and sampling setup. -/
  | migratePolicy (seq : Nat)
  /-- BLOCK_DISPATCH (R363). When a waiting block fits, the firmware writes bind records and a start command. -/
  | blockDispatch (seq block : Nat)
  /-- PREEMPTION_REQUEST (R371). Stops the affected gangs at an instruction boundary and starts saving their state. -/
  | preemptionRequest (core : Nat) (blocks : List Nat)
  /-- SAVE_COMPLETE (R371). Draining work has finished and the core's save frame is complete. -/
  | saveComplete (core : Nat)
  /-- BLOCK_RESTORE (R387). Restores a whole save frame once its slots and register bases are free. -/
  | blockRestore (frame : Nat)
  /-- HALT_RESUME (R360). A halt-control resume lets the halted gang continue at its saved PCs. -/
  | haltResume (slot : Nat)
  /-- HALT_RELEASE (R360). A halt-control release ends the halted gang as though every lane had exited. -/
  | haltRelease (slot : Nat)
  /-- HALT_CONTROL_NO_EFFECT (R360). A halt-control write with action 0 or 3 or without a halted gang; invalid ones are logged. -/
  | haltControlNoEffect (value : BitVec 64)
  /-- QUEUE_TABLE_WRITE (R347). The host writes a queue-table entry, enabling or disabling a queue, with bad sizes logged. -/
  | queueTableWrite (queue field : Nat) (value : BitVec 64)
  /-- HALF_WIDTH_REQUEST (R312). The host's request bit puts a channel into half-width mode by retraining it. -/
  | halfWidthRequest (channel : Nat) (value : BitVec 32)
  /-- HALF_WIDTH_LEAVE (R312). The host clears the request bit and the channel returns to full width when no policy holds. -/
  | halfWidthLeave (channel : Nat) (value : BitVec 32)
  /-- LANE_ERROR_LIMIT (R312). An armed lane-error limit is reached and the channel enters half width. -/
  | laneErrorLimit (channel : Nat) (errors : LaneReport)
  /-- TEMPERATURE_LIMIT (R312). An armed temperature limit is reached and the channel enters half width. -/
  | temperatureLimit (channel degrees : Nat)
  /-- CHANNEL_RETRAIN_DONE (R312). Retraining ends; held requests are released and the change is logged. -/
  | channelRetrainDone (channel : Nat) (good : Bool)
  /-- REGISTER_WRITE (R352). A host write to a CXL.io register with no behaviour of its own, such as the journal or log registers. -/
  | registerWrite (reg : HostReg) (value : BitVec 64)
  /-- RECOVERY_IMAGE_LOAD (R429). In recovery the host writes an image address and length, and the boot ROM reads and checks the image. -/
  | recoveryImageLoad (addr length : Nat)
  /-- POWER_UP (R429). At power-up the boot ROM checks the firmware image and reads configuration records. -/
  | powerUp
  /-- HOST_MEM_WRITE (R420). A host CXL.mem write back-invalidates the line and is applied at the home. -/
  | hostMemWrite (pa : Nat) (data : List Byte)
  /-- HOST_MEM_READ (R420). A host CXL.mem read is served at the home after draining any record. -/
  | hostMemRead (pa count : Nat)
  /-- PEER_ACCESS_ARRIVE (R422). A peer access arrives and is applied in sequence order, duplicates discarded. -/
  | peerAccessArrive (acc : PeerAccess)
  /-- END_TO_END_ACK (R422). The destination's end-to-end acknowledgement frees the access from the replay buffer. -/
  | endToEndAck (peer seq : Nat)
  /-- FLIT_RETRY (R421). A flit not acknowledged by the next hop is sent again. -/
  | flitRetry (port : Nat)
  /-- HOP_FAILURE (R423). A failed hop is logged and the source resends its replay buffer over another path. -/
  | hopFailure (port : Nat)
  /-- LINK_RETRY_TIMER (R423). With no path to a destination, the source retries its kept accesses every 10^6 ticks. -/
  | linkRetryTimer
  /-- SUPPLY_WARNING (R424). An armed supply warning starts ember entry. -/
  | supplyWarning
  /-- SUPPLY_GOOD (R426). An armed supply-good signal starts ember exit. -/
  | supplyGood
  /-- GET_VERSION (R432). The SPDM responder returns its supported versions. -/
  | getVersion
  /-- GET_CAPABILITIES (R432). The SPDM responder returns its capabilities. -/
  | getCapabilities
  /-- NEGOTIATE_ALGORITHMS (R432). The SPDM responder settles on Ed25519 and SHA-512. -/
  | negotiateAlgorithms (sigs hashes : List Nat)
  /-- GET_DIGESTS (R432). The SPDM responder returns certificate chain digests. -/
  | getDigests
  /-- GET_CERTIFICATE (R432). The SPDM responder returns the identity certificate. -/
  | getCertificate (offset length : Nat)
  /-- CHALLENGE (R432). The SPDM responder signs a challenge with the device identity key. -/
  | challenge (nonce : List Byte)
  /-- GET_MEASUREMENTS (R432). The SPDM responder returns the three measurements. -/
  | getMeasurements (index : Nat) (nonce : List Byte)
  /-- MCTP_CONTROL (R433). The I3C target answers an MCTP control message. -/
  | mctpControl (message : List Byte)
  /-- VENDOR_READ (R433). An out-of-band vendor message reads logs, journal, temperatures, supply or ember state. -/
  | vendorRead (item : VendorItem)
  /-- ILLEGAL_INSTRUCTION (R94). A group issues a slot whose opcode is unassigned, or of class 0xE or 0xF, and raises fault 0x01 precisely. -/
  | illegalInstruction (word : BitVec 96)
  /-- HOME_READ (R286). A read, fill, acquire, write check or far request from a core reaches its line's home, which serves it or first starts a drain of the line's release record. -/
  | homeRead (msg : Nat)
  /-- FILL (R277). The reply to a core's memory request returns, filling the non-dirty bytes, writing the interlocked destination and letting a waiting acquire proceed. -/
  | fill (msg : Nat)
  deriving DecidableEq, Repr

end Sys2Proof
end

