-- ==== Sys2Proof/WellFormed.lean ====
section
/-!
DEFINITION. Which instructions are well formed: the checks of 03 R84, R85, R88-R92 and of the encoding tables of the
instruction chapters that do not depend on the running kernel. An instruction that is not well formed raises fault
0x02 when it issues (03 R97). For an event, the check says that its arguments name parts the device has.
-/

namespace Sys2Proof

/-! Type codes (02 R41). -/

def isIntTy (t : BitVec 5) : Bool := t.toNat < 8
/-- 64-bit types: .n64, .s64, .b64. -/
def is64Ty (t : BitVec 5) : Bool := t == 3 || t == 7 || t == 9
def isBTy (t : BitVec 5) : Bool := t == 8 || t == 9
/-- .f32, .f16, .bf16. -/
def isScalarFTy (t : BitVec 5) : Bool := t == 0x10 || t == 0x11 || t == 0x12
/-- .f16x2, .bf16x2. -/
def isPackedTy (t : BitVec 5) : Bool := t == 0x13 || t == 0x14
def isFTy (t : BitVec 5) : Bool := isScalarFTy t || isPackedTy t
def isHalfTy (t : BitVec 5) : Bool := t == 0x11 || t == 0x12 || isPackedTy t
/-- .n32, .s32, .n64, .s64. -/
def isWordIntTy (t : BitVec 5) : Bool := t == 2 || t == 6 || t == 3 || t == 7
/-- .s8, .s16, .s32, .s64. -/
def isSignedTy (t : BitVec 5) : Bool := t == 4 || t == 5 || t == 6 || t == 7

/-- A binary8 format code (02 R60). -/
def isB8 (c : BitVec 6) : Bool := 0x20 ≤ c.toNat && c.toNat % 8 < 7

/-! Register fields (03 R84). -/

def vregOk (r : BitVec 9) (pair : Bool) : Bool := r.toNat < Config.maxVregs && (!pair || r.toNat % 2 == 0)
def kregOk (r : BitVec 9) (pair : Bool) : Bool := r.toNat < Config.maxKregs && (!pair || r.toNat % 2 == 0)
/-- A predicate number, 7 being pt. -/
def predOk (r : BitVec 9) : Bool := r.toNat < 8
def isWide (k : Kind) : Bool := k == .win || k == .imm

/-- A used source: its kind is allowed and its field legal for that kind. -/
def srcOk (k : Kind) (r : BitVec 9) (pair : Bool) (allowed : List Kind) : Bool :=
  allowed.contains k &&
    match k with
    | .vec => vregOk r pair
    | .scl => kregOk r pair
    | .win | .imm => r == 0

abbrev anyKind : List Kind := [.vec, .scl, .win, .imm]
abbrev sclKinds : List Kind := [.scl, .win, .imm]

/-- An unused source field with its kind (03 R85). -/
def noSrc (k : Kind) (r : BitVec 9) : Bool := k == .vec && r == 0

/-- How an immediate in bits [19:0] is read, for the checks of 05 R128 and the entries. -/
inductive ImmUse where
  | word | half | byte | shift | lane | clampLane
  deriving DecidableEq, Repr

def immUseOk (u : ImmUse) (v : BitVec 20) : Bool :=
  match u with
  | .word => true
  | .half => v.extractLsb' 16 4 == (if v.getLsbD 15 then 0xF#4 else 0#4)
  | .byte => v.toNat < 256
  | .shift => v.toNat < 64
  | .lane => v.toNat < 32
  | .clampLane => v.toNat < 32 || 2 ^ 20 - 31 ≤ v.toNat

/-- One used source of format A with the width and reading of its operand. -/
structure Use where
  k : Kind
  r : BitVec 9
  pair : Bool
  allowed : List Kind := anyKind
  imm : ImmUse := .word

/-- The sources of a format A instruction: each legal, at most one of kind 10 or 11, the operand field zero when none
is, a 64-bit window operand with both words below 2^17 (03 R84, R86, 04 R119, 05 R128). -/
def usesOk (us : List Use) (opnd : BitVec 20) : Bool :=
  us.all (fun u => srcOk u.k u.r u.pair u.allowed) &&
    match us.filter (fun u => isWide u.k) with
    | [] => opnd == 0
    | [u] => if u.k == .imm then immUseOk u.imm opnd
             else !u.pair || (opnd.extractLsb' 0 17).toNat + 1 < 2 ^ 17
    | _ => false

/-- The reading of an immediate of float or integer type (05 R128). -/
def immUseOf (t : BitVec 5) : ImmUse := if isHalfTy t then .half else .word

namespace FmtA

def useA (f : FmtA) (pair : Bool) (allowed : List Kind := anyKind) (imm : ImmUse := .word) : Use :=
  ⟨f.kA, f.a, pair, allowed, imm⟩
def useB (f : FmtA) (pair : Bool) (allowed : List Kind := anyKind) (imm : ImmUse := .word) : Use :=
  ⟨f.kB, f.b, pair, allowed, imm⟩
def useC (f : FmtA) (pair : Bool) (allowed : List Kind := anyKind) (imm : ImmUse := .word) : Use :=
  ⟨f.kC, f.c, pair, allowed, imm⟩

def noA (f : FmtA) : Bool := noSrc f.kA f.a
def noB (f : FmtA) : Bool := noSrc f.kB f.b
def noC (f : FmtA) : Bool := noSrc f.kC f.c
/-- Neither saturation nor a rounding mode. -/
def plain (f : FmtA) : Bool := !f.sat && f.rnd == 0
/-- A rounding mode 000-011 (02 R49). -/
def rnd4 (f : FmtA) : Bool := f.rnd.toNat < 4
/-- A rounding mode 000-100. -/
def rnd5 (f : FmtA) : Bool := f.rnd.toNat < 5
/-- Only bit [25] of the modifiers, `.ftz`. -/
def ftzOnly (f : FmtA) : Bool := f.mods == 0 || f.mods == 0x20
def is64 (f : FmtA) : Bool := is64Ty f.ty
def dVec (f : FmtA) : Bool := vregOk f.d f.is64
def dScl (f : FmtA) : Bool := kregOk f.d f.is64

/-- Integer and logic entries with two sources of the type. -/
def two (f : FmtA) (tys : BitVec 5 → Bool) : Bool :=
  tys f.ty && f.dVec && usesOk [f.useA f.is64, f.useB f.is64] f.opnd && f.noC
def three (f : FmtA) (tys : BitVec 5 → Bool) : Bool :=
  tys f.ty && f.dVec && usesOk [f.useA f.is64, f.useB f.is64, f.useC f.is64] f.opnd
def one (f : FmtA) (tys : BitVec 5 → Bool) : Bool :=
  tys f.ty && f.dVec && usesOk [f.useA f.is64] f.opnd && f.noB && f.noC
/-- Shifts: B is a 32-bit count whose immediate lies in 0 to 63 (05 R140); FSHF's immediate B is data. DESIGN CHOICE, log
93. -/
def shifts (f : FmtA) (tys : BitVec 5 → Bool) : Bool :=
  tys f.ty && f.dVec && usesOk [f.useA f.is64, f.useB false anyKind .shift] f.opnd && f.noC && f.plain && f.mods == 0
/-- Float entries with `n` sources of the type. -/
def floats (f : FmtA) (n : Nat) (tys : BitVec 5 → Bool) : Bool :=
  let u := immUseOf f.ty
  tys f.ty && vregOk f.d false &&
    (match n with
     | 1 => usesOk [f.useA false anyKind u] f.opnd && f.noB && f.noC
     | 2 => usesOk [f.useA false anyKind u, f.useB false anyKind u] f.opnd && f.noC
     | _ => usesOk [f.useA false anyKind u, f.useB false anyKind u, f.useC false anyKind u] f.opnd)
def blank (f : FmtA) : Bool := f.noA && f.noB && f.noC && f.opnd == 0

/-- Scalar entries (04 R119). -/
def stwo (f : FmtA) (tys : BitVec 5 → Bool) : Bool :=
  tys f.ty && usesOk [f.useA f.is64 sclKinds, f.useB f.is64 sclKinds] f.opnd && f.noC
def sthree (f : FmtA) (tys : BitVec 5 → Bool) : Bool :=
  tys f.ty && usesOk [f.useA f.is64 sclKinds, f.useB f.is64 sclKinds, f.useC f.is64 sclKinds] f.opnd
def sshift (f : FmtA) (tys : BitVec 5 → Bool) : Bool :=
  tys f.ty && f.dScl && usesOk [f.useA f.is64 [.scl, .win], f.useB false [.scl, .imm] .shift] f.opnd && f.noC &&
    f.plain && f.mods == 0

/-- The source of CVT in bits [25:20] (05 R160): a type code or a binary8 code. -/
def cvtSrcOk (f : FmtA) : Bool :=
  if f.mods.getLsbD 5 then isB8 f.mods
  else
    let t := f.mods.extractLsb' 0 5
    isIntTy t || isScalarFTy t || t == 0x15
def cvtSrcTy (f : FmtA) : BitVec 5 := if f.mods.getLsbD 5 then 0x16 else f.mods.extractLsb' 0 5
def cvtImm (f : FmtA) : ImmUse :=
  let t := f.cvtSrcTy
  if t == 0x15 || t == 0x16 then .byte else immUseOf t

/-- Rounding and saturation of CVT by its source and destination (05 R161). -/
def cvtModeOk (f : FmtA) : Bool :=
  if isIntTy f.ty then
    if isIntTy f.cvtSrcTy then f.rnd == 0 else !f.sat && f.rnd5
  else f.rnd5

/-- REDUX and SCAN operations with their types (06 R166). -/
def reduceOk (f : FmtA) : Bool :=
  let op := f.mods.extractLsb' 0 3
  (if op.toNat < 3 then isWordIntTy f.ty || f.ty == 0x10
   else op.toNat < 6 && isBTy f.ty) &&
  (!f.sat || (op == 0 && isWordIntTy f.ty)) &&
  (if op == 0 && f.ty == 0x10 then f.rnd4 else f.rnd == 0)

end FmtA

/-! Format I. -/
def FmtI.movOk (f : FmtI) : Bool :=
  (f.ty == 8 || f.ty == 3 || f.ty == 7) && f.a == 0 && f.kA == .vec && f.rnd == 0 && !f.sat && f.mods == 0

/-! Format M. -/

/-- A scope code of R33 (01 R33). -/
def scopeCode (s : BitVec 4) : Bool := s.toNat < 7 || (8 ≤ s.toNat && s.toNat < 11)
def scopeIn (s : BitVec 4) (lo hi : Nat) : Bool := lo ≤ s.toNat && s.toNat ≤ hi

/-- How many consecutive registers a datum of the width field fills (03 R88). -/
def widthRegs (w : BitVec 3) : Nat := if w == 3 then 2 else if w == 4 then 4 else 1

def vecRun (r : BitVec 9) (w : BitVec 3) : Bool := r.toNat < Config.maxVregs && r.toNat % widthRegs w == 0
def sclRun (r : BitVec 9) (w : BitVec 3) : Bool := r.toNat < Config.maxKregs && r.toNat % widthRegs w == 0

/-- A register source of format M: kinds 00 and 01 only. -/
def regOk (k : Kind) (r : BitVec 9) (pair : Bool) : Bool := srcOk k r pair [.vec, .scl]
/-- Data of an access: 128 bits start on a multiple of 4 in vector registers only (03 R84, R88). -/
def dataOk (k : Kind) (r : BitVec 9) (w : BitVec 3) : Bool :=
  match k with
  | .vec => vecRun r w
  | .scl => r.toNat < Config.maxKregs && (w != 3 || r.toNat % 2 == 0)
  | _ => false

namespace FmtM

/-- The address: a pair for global space, one register for scratch and window space (03 R88). -/
def addrOk (f : FmtM) : Bool := regOk f.kA f.a (f.space == 0)
def noB (f : FmtM) : Bool := f.b == 0 && f.kB == .vec
def noC (f : FmtM) : Bool := f.c == 0
def noA (f : FmtM) : Bool := f.a == 0 && f.kA == .vec

/-- Order and scope by space, for a non-atomic access (03 R90, 06 R175). -/
def orderOk (f : FmtM) (other : BitVec 3) : Bool :=
  if f.order == 0 then f.scope == 0
  else f.order == other &&
    (if f.space == 0 then scopeCode f.scope
     else if f.space == 1 then scopeIn f.scope 1 3 else false)

def ldCommon (f : FmtM) : Bool := f.orderOk 1 && f.noB && f.noC
def markOk (f : FmtM) : Bool := !f.mark || f.space == 0
/-- Only the bits of `op` that `keep` covers. -/
def opOnly (f : FmtM) (keep : BitVec 4) : Bool := f.op &&& ~~~keep == 0

def isW48 (f : FmtM) : Bool := f.width == 2 || f.width == 3
def isW2416 (f : FmtM) : Bool := f.isW48 || f.width == 4
/-- Atomic operation codes with their widths (06 R183). -/
def atomOpOk (f : FmtM) : Bool := f.op.toNat < 9 || (f.op.toNat < 12 && f.width == 2)
def atomCommon (f : FmtM) : Bool :=
  f.isW48 && f.order.toNat < 4 && regOk f.kA f.a (f.space == 0) && dataOk f.kB f.b f.width
def atomScope (f : FmtM) : Bool := if f.space == 0 then scopeIn f.scope 1 6 else scopeIn f.scope 1 3
def facqOk (f : FmtM) : Bool := f.opOnly 1 && (f.op == 0 || f.order == 1 || f.order == 3)
def cOk (f : FmtM) : Bool := dataOk f.kB f.c f.width

end FmtM

/-! CSR numbers with their width and whether a thread holds them (08 R244). -/

/-- Width in bits of a CSR number, 0 where no CSR has the number. -/
def csrWidth (n : Nat) : Nat :=
  match n with
  | 0x000 | 0x002 | 0x010 | 0x011 | 0x012 | 0x020 | 0x031 | 0x040 | 0x041 => 32
  | 0x001 | 0x003 | 0x004 | 0x021 | 0x022 | 0x030 => 64
  | _ => 0
def csrThreadHeld (n : Nat) : Bool := n < 4
def csrFieldOk (f : FmtM) : Bool :=
  f.off.toNat < 4096 && (if f.width == 2 then csrWidth f.off.toNat == 32
                         else f.width == 3 && csrWidth f.off.toNat == 64)
def sysMOk (f : FmtM) : Bool := f.order == 0 && !f.mark && f.space == 0 && f.noC

/-! Special registers (04 R126). -/
def srd64 (n : Nat) : Bool := n == 6 || n == 8 || n == 9 || n == 10 || n == 15
def srdThread (n : Nat) : Bool := n == 0 || n == 10 || n == 11

/-! Format C. -/
namespace FmtC
def noD (f : FmtC) : Bool := f.d == 0
def noA (f : FmtC) : Bool := f.a == 0 && f.kA == .vec
def noW (f : FmtC) : Bool := f.weir == 0 && !f.wv
def aOk (f : FmtC) (pair : Bool) (allowed : List Kind) : Bool := srcOk f.kA f.a pair allowed
def weirOk (f : FmtC) : Bool := f.wv && f.weir.toNat < 16
def bare (f : FmtC) : Bool := f.noD && f.noA && f.noW && f.mods == 0 && f.off == 0
/-- BRS modes with their table size (04 R112). -/
def brsOk (f : FmtC) : Bool :=
  let mode := f.mods.extractLsb' 17 2
  !f.mods.getLsbD 16 && (if mode == 2 then true else mode.toNat < 2 && f.mods.extractLsb' 0 16 == 0)
def sleepOk (f : FmtC) : Bool :=
  if f.mods.getLsbD 18 then f.mods.extractLsb' 0 18 == 0 && f.aOk false [.vec, .scl] else f.noA
end FmtC

/-! Format X. -/

/-- Format pairs of a matrix instruction (02 R63). -/
def pairFmt (s t : BitVec 6) : Bool :=
  ((s == 2 || s == 3) && (t == 2 || t == 3)) || (isB8 s && isB8 t)
def floatFmt (c : BitVec 6) : Bool := c == 1 || c == 2 || c == 3

namespace FmtX
def kOk (r : BitVec 8) (n : Nat) : Bool := r.toNat + n ≤ Config.maxKregs
def weirOk (f : FmtX) : Bool := f.wv || f.weir == 0
def tk (f : FmtX) : Bool := f.mods.getLsbD 7
def bs (f : FmtX) : Bool := f.mods.getLsbD 0
def sc (f : FmtX) : Bool := f.mods.getLsbD 2
def pairBit (f : FmtX) : Bool := f.mods.getLsbD 1
def satBit (f : FmtX) : Bool := f.mods.getLsbD 6
def rndBits (f : FmtX) : BitVec 3 := f.mods.extractLsb' 3 3
def tokOk (f : FmtX) : Bool := if f.tk then kOk f.tok 1 else f.tok == 0
def modsOnly (f : FmtX) (keep : BitVec 8) : Bool := f.mods &&& ~~~keep == 0
def noP (f : FmtX) : Bool := f.kP == 0
def noQ (f : FmtX) : Bool := f.kQ == 0
def noS (f : FmtX) : Bool := f.kS == 0
def matrix (f : FmtX) (keep : BitVec 8) : Bool := f.weirOk && f.tokOk && f.modsOnly keep
/-- Direction bits [2:1] of class 0xB (08 R222). -/
def srcScr (f : FmtX) : Bool := f.mods.getLsbD 2
def dstScr (f : FmtX) : Bool := f.mods.getLsbD 1
def even (r : BitVec 8) : Bool := r.toNat % 2 == 0
/-- A scratch operand is one register, a global one an even pair (08 R223). -/
def placeOk (r : BitVec 8) (scr : Bool) : Bool := if scr then kOk r 1 else even r && kOk r 2
def engine (f : FmtX) : Bool := f.weirOk && kOk f.tok 1 && f.rowBase == 0
/-- Scale registers of MMA and MMAP that the entry reads (07 R214). -/
def scaleRegs (f : FmtX) : Nat := if f.sc then 5 else if f.bs then 3 else 2
def mmaOk (f : FmtX) : Bool :=
  f.matrix 0x85 && kOk f.kP 1 && kOk f.kQ 1 && kOk f.kS f.scaleRegs && pairFmt f.sfmt f.tfmt &&
    (!f.bs || isB8 f.sfmt) && (!f.sc || (f.bs && f.eng == 0 && even f.kS))
def castFmt (c : BitVec 6) : Bool := floatFmt c || c == 4 || isB8 c
/-- Publish and wait scopes of MRED (06 R196). -/
def mredScope (on : Bool) (s : BitVec 4) : Bool := if on then s == 5 || scopeIn s 8 10 else s == 0
def mredOk (f : FmtX) : Bool :=
  let pub := f.mods.getLsbD 3
  let wait := f.mods.getLsbD 2
  f.eng.toNat < 2 && f.weirOk && f.rowBase == 0 && floatFmt f.sfmt && f.tfmt == 0 &&
    f.mods.extractLsb' 4 4 == 0 && f.mods.extractLsb' 0 2 != 3 &&
    mredScope pub (f.rows.extractLsb' 4 4) && mredScope wait (f.rows.extractLsb' 0 4) &&
    even f.kP && kOk f.kP 3 && even f.kQ && kOk f.kQ (if pub then 4 else 2) && kOk f.tok 1 &&
    (!wait || (even f.kS && kOk f.kS 3)) && (!pub || kOk f.kS 4)
end FmtX

def coreOk (c : Nat) : Bool := c < Config.numCores
def slotOk (s : Nat) : Bool := s < Config.slotsPerCore

/-- The field checks that do not depend on the running kernel. The limit of an immediate count is on SHL, SHR, SAR and ROT
(05 R140). DESIGN CHOICE, log 93. -/
def Instr.wellFormed : Instr → Bool
  | .nop _ f => f.bare
  | .bra _ f => f.noD && f.noA && f.noW && f.mods == 0
  | .brx _ f => f.noD && f.noW && f.mods == 0 && f.off == 0 && f.aOk true [.vec, .scl]
  | .brs _ f => f.noD && f.noW && f.aOk false [.scl] && f.brsOk
  | .call _ f => vregOk f.d true && f.noA && f.noW && f.mods == 0
  | .ret _ f => f.noD && f.noW && f.mods == 0 && f.off == 0 && f.aOk true [.vec, .scl]
  | .exit _ f => f.bare
  | .yield _ f => f.bare
  | .sleep _ f => f.noD && f.noW && f.off == 0 && f.sleepOk
  | .trap _ f => f.noD && f.noA && f.noW && f.off == 0 && f.mods.extractLsb' 16 3 == 0
  | .iadd _ f => f.two isIntTy && f.rnd == 0 && f.mods == 0
  | .isub _ f => f.two isIntTy && f.rnd == 0 && f.mods == 0
  | .iaddx _ f => f.two (fun t => t == 2 || t == 3) && f.plain
  | .isubx _ f => f.two (fun t => t == 2 || t == 3) && f.plain
  | .imul _ f => f.two isIntTy && f.rnd == 0 && f.mods == 0
  | .imulh _ f => f.two isIntTy && f.plain && f.mods == 0
  | .imad _ f => f.three isIntTy && f.rnd == 0 && f.mods == 0
  | .imadw _ f =>
    (f.ty == 2 || f.ty == 6) && vregOk f.d true &&
      usesOk [f.useA false, f.useB false, f.useC true] f.opnd && f.rnd == 0 && f.mods == 0
  | .imin _ f => f.two isIntTy && f.plain && f.mods == 0
  | .imax _ f => f.two isIntTy && f.plain && f.mods == 0
  | .iabs _ f => f.one isSignedTy && f.rnd == 0 && f.mods == 0
  | .ineg _ f => f.one isSignedTy && f.rnd == 0 && f.mods == 0
  | .idot4 _ f => f.three (· == 6) && f.rnd == 0 && f.mods.toNat < 4
  | .isad _ f => f.three (fun t => isIntTy t && !is64Ty t) && f.rnd == 0 && f.mods == 0
  | .and _ f => f.two isBTy && f.plain && f.mods == 0
  | .or _ f => f.two isBTy && f.plain && f.mods == 0
  | .xor _ f => f.two isBTy && f.plain && f.mods == 0
  | .andn _ f => f.two isBTy && f.plain && f.mods == 0
  | .not _ f => f.one isBTy && f.plain && f.mods == 0
  | .blog _ f =>
    isBTy f.ty && f.dVec && srcOk f.kA f.a f.is64 [.vec, .scl] && srcOk f.kB f.b f.is64 [.vec, .scl] &&
      srcOk f.kC f.c f.is64 [.vec, .scl] && f.opnd.extractLsb' 0 12 == 0 && f.plain && f.mods == 0
  | .shl _ f => f.shifts isBTy
  | .shr _ f => f.shifts isBTy
  | .sar _ f => f.shifts (fun t => t == 6 || t == 7)
  | .rot _ f => f.shifts isBTy
  | .fshf _ f => f.three (· == 8) && f.plain && f.mods.toNat < 2
  | .bfe _ f =>
    isWordIntTy f.ty && f.dVec && usesOk [f.useA f.is64, f.useB false] f.opnd && f.noC && f.plain && f.mods == 0
  | .bfi _ f =>
    isBTy f.ty && f.dVec && usesOk [f.useA f.is64, f.useB false, f.useC f.is64] f.opnd && f.plain && f.mods == 0
  | .popc _ f =>
    isBTy f.ty && vregOk f.d false && usesOk [f.useA f.is64] f.opnd && f.noB && f.noC && f.plain && f.mods == 0
  | .clz _ f =>
    isBTy f.ty && vregOk f.d false && usesOk [f.useA f.is64] f.opnd && f.noB && f.noC && f.plain && f.mods == 0
  | .brev _ f => f.one isBTy && f.plain && f.mods == 0
  | .icmp _ f =>
    isIntTy f.ty && predOk f.d && usesOk [f.useA f.is64, f.useB f.is64] f.opnd && f.noC && f.plain && f.mods.toNat < 6
  | .isel _ f =>
    isBTy f.ty && f.dVec && usesOk [f.useA f.is64, f.useB f.is64] f.opnd && f.kC == .vec && predOk f.c && f.plain &&
      f.mods.toNat < 2
  | .plop _ f =>
    predOk f.d && f.kA == .vec && f.kB == .vec && f.kC == .vec && predOk f.a && predOk f.b && predOk f.c &&
      f.ty == 0 && f.opnd.extractLsb' 0 12 == 0 && f.plain && f.mods == 0
  | .lea _ f =>
    (f.ty == 2 || f.ty == 6) && vregOk f.d true && usesOk [f.useA true [.vec, .scl], f.useB false] f.opnd && f.noC &&
      f.plain && f.mods.toNat < 8
  | .mov _ f => f.one isBTy && f.plain && f.mods == 0
  | .movi _ f => f.movOk && vregOk f.d (f.ty != 8)
  | .bswz _ f => f.three (· == 8) && f.plain && f.mods == 0
  | .fadd _ f => f.floats 2 isFTy && f.rnd4 && f.ftzOnly
  | .fmul _ f => f.floats 2 isFTy && f.rnd4 && f.ftzOnly
  | .ffma _ f => f.floats 3 isFTy && f.rnd4 && f.ftzOnly
  | .fmin _ f => f.floats 2 isFTy && f.plain && f.ftzOnly
  | .fmax _ f => f.floats 2 isFTy && f.plain && f.ftzOnly
  | .fcmp _ f =>
    isScalarFTy f.ty && predOk f.d &&
      usesOk [f.useA false anyKind (immUseOf f.ty), f.useB false anyKind (immUseOf f.ty)] f.opnd && f.noC && f.plain &&
      f.mods.extractLsb' 3 2 == 0
  | .fclass _ f => f.floats 1 isScalarFTy && f.plain && f.ftzOnly
  | .fdot2 _ f =>
    isPackedTy f.ty && vregOk f.d false &&
      usesOk [f.useA false anyKind .half, f.useB false anyKind .half, f.useC false] f.opnd && f.rnd4 && f.ftzOnly
  | .fscale _ f =>
    isScalarFTy f.ty && vregOk f.d false && usesOk [f.useA false anyKind (immUseOf f.ty), f.useB false] f.opnd &&
      f.noC && f.rnd4 && f.ftzOnly
  | .frcp _ f => f.floats 1 isScalarFTy && f.rnd4 && f.ftzOnly
  | .frsq _ f => f.floats 1 isScalarFTy && f.rnd4 && f.ftzOnly
  | .fsqrt _ f => f.floats 1 isScalarFTy && f.rnd4 && f.ftzOnly
  | .fdiv _ f => f.floats 2 isScalarFTy && f.rnd4 && f.ftzOnly
  | .fex2 _ f => f.floats 1 isScalarFTy && f.rnd4 && f.ftzOnly
  | .flg2 _ f => f.floats 1 isScalarFTy && f.rnd4 && f.ftzOnly
  | .fsin _ f => f.floats 1 isScalarFTy && f.rnd4 && f.ftzOnly
  | .fcos _ f => f.floats 1 isScalarFTy && f.rnd4 && f.ftzOnly
  | .ftanh _ f => f.floats 1 isScalarFTy && f.rnd4 && f.ftzOnly
  | .frnd _ f => f.floats 1 isScalarFTy && !f.sat && f.rnd4 && f.ftzOnly
  | .cvt _ f =>
    (isIntTy f.ty || isScalarFTy f.ty || f.ty == 0x15) && f.cvtSrcOk && f.dVec &&
      usesOk [f.useA (is64Ty f.cvtSrcTy) anyKind f.cvtImm] f.opnd && f.noB && f.noC && f.cvtModeOk
  | .cvtn _ f => f.floats 1 isFTy && f.rnd5 && isB8 f.mods
  | .pack _ f =>
    vregOk f.d false && usesOk [f.useA false, f.useB false] f.opnd && f.noC &&
      (if f.ty == 8 then f.plain && f.mods == 0 else isPackedTy f.ty && f.rnd4 && f.ftzOnly)
  | .unpk _ f =>
    vregOk f.d false && usesOk [f.useA false anyKind (immUseOf f.ty)] f.opnd && f.noB && f.noC && f.plain &&
      (if f.ty == 8 then f.mods.toNat < 6
       else isPackedTy f.ty && f.mods.extractLsb' 3 2 == 0 && (f.mods.extractLsb' 0 3).toNat < 2)
  | .lxch _ f =>
    isBTy f.ty && f.dVec &&
      usesOk [f.useA f.is64 [.vec], f.useB false anyKind (if f.mods.extractLsb' 0 2 == 3 then .clampLane else .lane)]
        f.opnd && f.noC && f.plain && !f.mods.getLsbD 5 && (f.mods.extractLsb' 2 3).toNat < 6
  | .cons _ f =>
    predOk f.d && f.kA == .vec && predOk f.a && f.noB && f.noC && f.opnd == 0 && f.ty == 0 && f.plain && f.mods.toNat < 4
  | .pmask _ f =>
    (if f.mods.getLsbD 5 then kregOk f.d false else vregOk f.d false) && f.kA == .vec && predOk f.a && f.noB && f.noC &&
      f.opnd == 0 && f.ty == 0 && f.plain && f.mods.extractLsb' 0 5 == 0
  | .redux _ f =>
    (if f.mods.getLsbD 5 then f.dScl else f.dVec) && usesOk [f.useA f.is64 [.vec]] f.opnd && f.noB && f.noC &&
      f.mods.extractLsb' 3 2 == 0 && f.reduceOk
  | .scan _ f =>
    f.dVec && usesOk [f.useA f.is64 [.vec]] f.opnd && f.noB && f.noC && f.mods.extractLsb' 4 2 == 0 && f.reduceOk
  | .eqmask _ f =>
    isBTy f.ty && vregOk f.d false && usesOk [f.useA f.is64 [.vec]] f.opnd && f.noB && f.noC && f.plain &&
      f.mods.toNat < 2
  | .bcast _ f =>
    isBTy f.ty && f.dVec && usesOk [f.useA f.is64 [.vec], f.useB false [.scl, .imm] .lane] f.opnd && f.noC &&
      f.plain && f.mods == 0
  | .smov _ f =>
    isBTy f.ty && f.dScl && usesOk [f.useA f.is64 sclKinds] f.opnd && f.noB && f.noC && f.plain && f.mods == 0
  | .smovi _ f => f.movOk && kregOk f.d (f.ty != 8)
  | .sadd _ f => f.dScl && f.stwo isWordIntTy && f.rnd == 0 && f.mods == 0
  | .ssub _ f => f.dScl && f.stwo isWordIntTy && f.rnd == 0 && f.mods == 0
  | .smul _ f => f.dScl && f.stwo isWordIntTy && f.rnd == 0 && f.mods == 0
  | .smad _ f => f.dScl && f.sthree isWordIntTy && f.rnd == 0 && f.mods == 0
  | .sand _ f => f.dScl && f.stwo isBTy && f.plain && f.mods == 0
  | .sor _ f => f.dScl && f.stwo isBTy && f.plain && f.mods == 0
  | .sxor _ f => f.dScl && f.stwo isBTy && f.plain && f.mods == 0
  | .sshl _ f => f.sshift isBTy
  | .sshr _ f => f.sshift isWordIntTy
  | .scmp _ f => kregOk f.d false && f.stwo isWordIntTy && f.plain && f.mods.toNat < 6
  | .ssel _ f =>
    f.dScl && isBTy f.ty && usesOk [f.useA f.is64 sclKinds, f.useB f.is64 sclKinds, f.useC false [.scl]] f.opnd &&
      f.plain && f.mods == 0
  | .sld _ f =>
    f.kA == .scl && f.addrOk && f.space.toNat < 2 && f.isW2416 && sclRun f.d f.width && f.noB && f.noC && f.op == 0 &&
      !f.mark && f.orderOk 1
  | .sst _ f =>
    f.kA == .scl && f.addrOk && f.space.toNat < 2 && f.isW2416 && f.d == 0 && f.kB == .scl && sclRun f.b f.width &&
      f.noC && f.op == 0 && !f.mark && f.orderOk 2
  | .rdlane _ f =>
    isBTy f.ty && f.dScl && usesOk [f.useA f.is64 [.vec], f.useB false [.scl, .imm] .lane] f.opnd && f.noC && f.plain &&
      f.mods == 0
  | .srd _ f =>
    let n := (f.mods.extractLsb' 0 5).toNat
    let k := f.mods.getLsbD 5
    f.blank && f.ty == 0 && f.plain && n < 16 && (if k then kregOk f.d (srd64 n) && !srdThread n else vregOk f.d (srd64 n))
  | .ld _ f =>
    f.width.toNat < 5 && vecRun f.d f.width && f.addrOk && f.ldCommon && f.markOk && f.space.toNat < 3 &&
      f.opOnly 1 && (f.op == 0 || f.width.toNat < 2) && (f.space != 2 || f.isW48)
  | .st _ f =>
    f.width.toNat < 5 && f.d == 0 && f.addrOk && dataOk f.kB f.b f.width && f.noC && f.orderOk 2 && f.markOk &&
      f.space.toNat < 2 && f.op == 0
  | .ldf _ f =>
    f.width == 5 && vregOk f.d false && f.addrOk && f.ldCommon && f.markOk && f.space.toNat < 2 && f.opOnly 1
  | .stf _ f =>
    f.width == 5 && f.d == 0 && f.addrOk && regOk f.kB f.b false && f.noC && f.orderOk 2 && f.markOk &&
      f.space.toNat < 2 && (f.op.extractLsb' 0 3).toNat < 4
  | .lds _ f =>
    f.width.toNat < 5 && vecRun f.d f.width && f.space == 1 && f.addrOk && regOk f.kB f.b false && f.noC &&
      f.orderOk 1 && !f.mark && f.opOnly 1 && (f.op == 0 || f.width.toNat < 2)
  | .sts _ f =>
    f.width.toNat < 5 && f.d == 0 && f.space == 1 && f.addrOk && dataOk f.kB f.b f.width && regOk f.kB f.c false &&
      f.orderOk 2 && !f.mark && f.op == 0
  | .ldc _ f =>
    f.isW2416 && vecRun f.d f.width && f.space == 2 && f.addrOk && f.noB && f.noC && f.order == 0 && f.scope == 0 &&
      f.op == 0 && !f.mark
  | .pref _ f =>
    f.width == 0 && f.d == 0 && f.space == 0 && f.addrOk && f.noB && f.noC && f.order == 0 && f.scope == 0 &&
      f.opOnly 1 && !f.mark
  | .cctl _ f =>
    let op := f.op.extractLsb' 0 3
    f.width == 0 && f.d == 0 && f.space == 0 && f.noB && f.noC && f.order == 0 && f.scope == 0 && !f.mark &&
      f.op.toNat < 5 && (if op == 2 || op == 3 then f.addrOk else f.noA && f.off == 0)
  | .atom _ f =>
    f.atomCommon && f.space == 0 && f.atomScope && vecRun f.d f.width && f.noC && f.atomOpOk
  | .cas _ f => f.atomCommon && f.space == 0 && f.atomScope && vecRun f.d f.width && f.cOk && f.facqOk
  | .red _ f =>
    f.atomCommon && f.space == 0 && f.atomScope && f.d == 0 && f.noC && f.atomOpOk && f.op != 8 &&
      (f.order == 0 || f.order == 2)
  | .atoms _ f =>
    f.atomCommon && f.space == 1 && f.atomScope && vecRun f.d f.width && f.noC && f.atomOpOk && !f.mark
  | .cass _ f =>
    f.atomCommon && f.space == 1 && f.atomScope && vecRun f.d f.width && f.cOk && f.facqOk && !f.mark
  | .lse _ f =>
    f.isW2416 && vecRun f.d f.width && f.space == 0 && f.addrOk && f.noB && f.noC && !f.op.getLsbD 3 &&
      f.order.toNat < 2 && !f.mark && scopeIn f.scope 1 5
  | .stl _ f =>
    f.isW2416 && f.d == 0 && f.space == 0 && f.addrOk && dataOk f.kB f.b f.width && f.noC && !f.op.getLsbD 3 &&
      f.order == 0 && f.scope == 0 && !f.mark
  | .lsend _ f =>
    f.width == 0 && f.d == 0 && f.space == 0 && f.addrOk && f.noB && f.noC && !f.op.getLsbD 3 && !f.mark &&
      (f.order == 0 || f.order == 2) && (scopeIn f.scope 1 5 || (f.scope == 0 && f.order == 0))
  | .mred _ f => f.mredOk
  | .fence _ f =>
    f.d == 0 && f.noA && f.noB && f.noC && f.width == 0 && !f.mark && f.space == 0 && f.off == 0 &&
      (1 ≤ f.order.toNat && f.order.toNat ≤ 3) && scopeCode f.scope && f.scope != 0 && f.opOnly 1 &&
      (f.op == 0 || (f.order != 1 && f.scope == 5))
  | .bar _ f => f.noD && f.noA && f.noW && f.mods.toNat < 32 && f.off == 0
  | .bara _ f => f.noD && f.noA && f.noW && f.mods.toNat < 16 && f.off == 0
  | .wdecl _ f =>
    f.noD && f.weirOk && f.off == 0 && f.mods.toNat < 2 && (if f.mods == 1 then f.noA else f.aOk false [.scl])
  | .wsign _ f => f.noD && f.noA && f.weirOk && f.mods == 0 && f.off == 0
  | .wjoin _ f => predOk f.d && f.noA && f.weirOk && f.off == 0
  | .tkwait _ f => f.noD && f.noW && f.mods == 0 && f.off == 0 && f.aOk false [.scl]
  | .rgn _ f =>
    f.d == 0 && f.space == 0 && f.kA == .scl && f.addrOk && f.noB && f.noC && f.order == 3 && f.scope == 5 &&
      f.op.toNat < 3 && f.width == 0 && !f.mark
  | .mld _ f =>
    f.matrix 0x83 && f.rowBase == 0 && f.sfmt == 0 && f.rows == 0 && FmtX.kOk f.kP 1 && FmtX.kOk f.kQ 1 &&
      (if f.bs then isB8 f.tfmt && FmtX.kOk f.kS 1 else (f.tfmt == 2 || f.tfmt == 3 || isB8 f.tfmt) && f.noS)
  | .mswp _ f =>
    f.matrix 0x82 && f.rowBase == 0 && f.sfmt == 0 && f.tfmt == 0 && f.rows == 0 && f.noP && f.noQ && f.noS
  | .mma _ f => f.mmaOk
  | .mmap _ f => f.mmaOk
  | .mguide _ f => f.matrix 0x80 && f.sfmt == 0 && f.tfmt == 0 && f.noP && f.noQ && FmtX.kOk f.kS 1
  | .accz _ f => f.matrix 0x80 && f.sfmt == 0 && f.tfmt == 0 && f.noP && f.noQ && f.noS
  | .accrd _ f =>
    f.matrix 0xF8 && floatFmt f.sfmt && f.tfmt == 0 && FmtX.kOk f.kP 1 && f.noQ && f.noS && f.rndBits.toNat < 4
  | .accwr _ f => f.matrix 0x80 && f.sfmt == 1 && f.tfmt == 0 && FmtX.kOk f.kP 1 && f.noQ && f.noS
  | .acc2s _ f =>
    f.matrix 0xF8 && (floatFmt f.sfmt || isB8 f.sfmt) && f.tfmt == 0 && FmtX.kOk f.kP 1 && FmtX.kOk f.kQ 1 && f.noS &&
      f.rndBits.toNat < 4
  | .scld _ f =>
    f.matrix 0x80 && f.rowBase == 0 && f.sfmt == 4 && f.tfmt == 0 && FmtX.kOk f.kP 1 && FmtX.kOk f.kQ 1 && f.noS
  | .cpy _ f =>
    f.engine && f.sfmt == 0 && f.tfmt == 0 && f.rows == 0 && f.modsOnly 6 && FmtX.placeOk f.kP f.srcScr &&
      FmtX.placeOk f.kQ f.dstScr && FmtX.kOk f.kS 1
  | .cpy2d _ f =>
    f.engine && f.sfmt == 0 && f.tfmt == 0 && f.modsOnly 6 && FmtX.placeOk f.kP f.srcScr &&
      FmtX.placeOk f.kQ f.dstScr && FmtX.kOk f.kS 3
  | .gath _ f =>
    f.engine && f.sfmt == 0 && f.tfmt == 0 && f.mods == 2 && FmtX.placeOk f.kP false && FmtX.placeOk f.kQ true &&
      FmtX.kOk f.kS 3
  | .scat _ f =>
    f.engine && f.sfmt == 0 && f.tfmt == 0 && f.mods == 4 && FmtX.placeOk f.kP true && FmtX.placeOk f.kQ false &&
      FmtX.kOk f.kS 3
  | .qdual _ f =>
    f.engine && floatFmt f.sfmt && isB8 f.tfmt && f.rows == 0 && f.mods == 6 && FmtX.kOk f.kP 2 && FmtX.kOk f.kQ 2 &&
      FmtX.kOk f.kS 2
  | .cast _ f =>
    f.engine && FmtX.castFmt f.sfmt && FmtX.castFmt f.tfmt && f.rows == 0 && f.modsOnly 0x7E &&
      f.mods.extractLsb' 1 2 == 3 && f.rndBits.toNat < 5 && FmtX.kOk f.kP 1 && FmtX.kOk f.kQ 1 && FmtX.kOk f.kS 1
  | .rsmp h f =>
    h.guard == 7 && !h.neg && f.eng == 0 && f.weir == 0 && !f.wv && f.rowBase == 0 && FmtX.kOk f.kP 1 &&
      FmtX.kOk f.kQ 1 && FmtX.kOk f.kS 1 && f.sfmt == 0 && f.tfmt == 0 && f.rows == 0 && f.tok == 0 && f.mods == 0
  | .pdiss _ f => f.bare
  | .spawn _ f => kregOk f.d false && f.aOk false [.scl] && f.noW && f.mods.toNat < 16 && f.off == 0
  | .rng _ f => isBTy f.ty && f.dVec && f.blank && f.plain && f.mods == 0
  | .halt _ f => f.bare
  | .rtt _ f => f.bare
  | .csrr _ f =>
    sysMOk f && f.noA && f.noB && f.scope == 0 && f.opOnly 1 && csrFieldOk f &&
      (if f.op == 1 then sclRun f.d f.width && !csrThreadHeld f.off.toNat else vecRun f.d f.width)
  | .csrw _ f => sysMOk f && f.d == 0 && f.noA && f.scope == 0 && f.op == 0 && csrFieldOk f && dataOk f.kB f.b f.width
  | .tinv _ f =>
    sysMOk f && f.d == 0 && f.noB && f.width == 0 && f.scope == 5 && f.op.toNat < 3 &&
      (if f.op == 0 then f.kA == .vec && vregOk f.a true
       else f.off == 0 && (if f.op == 1 then f.kA == .scl && kregOk f.a false else f.noA))
  | .pmig _ f =>
    sysMOk f && vregOk f.d false && f.addrOk && f.noB && f.width == 0 && f.scope == 0 && f.opOnly 1
  | .dbrk _ f => f.noD && f.noA && f.noW && f.off == 0 && f.mods.extractLsb' 16 3 == 0
  | .releaseRecordRegister _ | .drainProbe _ | .drainAck _ | .writeBackAck _ => true
  | .coreLeave c | .coreJoin c => coreOk c
  | .leaseGrant _ => true
  | .leaseExpiry c _ => coreOk c
  | .leaseWriteThrough _ | .leaseRevocation _ | .revocationNotice _ => true
  | .implicitLeaseEnd c _ | .timeSyncCheck c | .timeSyncReload c => coreOk c
  | .redRouterHoldExpiry _ | .redHomeApply _ | .regionDrain _ | .regionTransitionApply _ => true
  | .pageFaultRecord c => coreOk c
  | .unpark _ | .deliverPageFault _ | .migrationStart _ | .migrationCopy _ | .migrationWindowEnd | .sampleRecord => true
  | .mredDispatch _ | .mredWaitPoll _ | .mredWaitLimit _ | .mredComplete _ => true
  | .jobComplete c ch => coreOk c && ch < 4
  | .matrixComplete c e => coreOk c && e < 4
  | .rsmpStageOutComplete _ | .rsmpResume _ => true
  | .sleepEnd c _ => coreOk c
  | .weirTimeout c s w => coreOk c && slotOk s && w < 16
  | .fairnessTimerExpiry c s | .quantumExpiry c s => coreOk c && slotOk s
  | .queueWake q => q < Config.numQueues
  | .queuePoll => true
  | .commandStart _ | .launch _ | .wait _ | .waitTimeout _ | .signal _ | .regionCreate _ | .regionModify _
  | .regionDelete _ | .emberEnter _ | .emberArm _ | .emberDisarm _ | .resume _ | .firmware _ | .migratePolicy _ => true
  | .blockDispatch _ _ => true
  | .preemptionRequest c _ | .saveComplete c => coreOk c
  | .blockRestore _ => true
  | .haltResume n | .haltRelease n => n < Config.numCores * Config.slotsPerCore
  | .haltControlNoEffect _ => true
  | .queueTableWrite q f _ => q < Config.numQueues && f < 4
  | .halfWidthRequest c _ | .halfWidthLeave c _ | .temperatureLimit c _ => c < 256
  | .laneErrorLimit c r => c < 256 && r.failing.all (fun l => l < 32)
  | .channelRetrainDone c _ => c < 256 + Config.tierChannels
  | .registerWrite _ _ | .recoveryImageLoad _ _ | .powerUp => true
  | .hostMemWrite pa d => pa + d.length ≤ 2 ^ 41 || (2 ^ 52 ≤ pa && pa + d.length ≤ 2 ^ 52 + 2 ^ 50)
  | .hostMemRead pa n => pa + n ≤ 2 ^ 41
  | .peerAccessArrive a => a.source < 256 && a.seq < 2 ^ 48 && a.parts.all (fun p => p.1 + p.2.length ≤ 2 ^ 41)
  | .endToEndAck p _ => p < 256
  | .flitRetry p | .hopFailure p => p < 20
  | .linkRetryTimer | .supplyWarning | .supplyGood => true
  | .getVersion | .getCapabilities | .negotiateAlgorithms _ _ | .getDigests | .getCertificate _ _ | .challenge _
  | .getMeasurements _ _ | .mctpControl _ | .vendorRead _ => true
  | .illegalInstruction w => !(w.toNat / 2 ^ 86 ∈ assigned)
  | .homeRead _ | .fill _ => true
where
  /-- The assigned 10-bit opcodes (03 R94). -/
  assigned : List Nat :=
    List.range' 0x000 10 ++ List.range' 0x040 14 ++ List.range' 0x080 16 ++ List.range' 0x090 7 ++
      List.range' 0x0C0 9 ++ List.range' 0x100 14 ++ List.range' 0x140 7 ++ List.range' 0x180 17 ++
      List.range' 0x1C0 9 ++ List.range' 0x200 9 ++ List.range' 0x240 8 ++ List.range' 0x280 10 ++
      List.range' 0x2C0 6 ++ List.range' 0x300 4 ++ List.range' 0x340 7

end Sys2Proof
end

