-- ==== Sys2Proof/Decode.lean ====
section
/-!
DEFINITION. The decoder and the encoder of the 96-bit instruction (03 R78, R86-R92, R94), and the fetch line that
holds five of them (03 R71). Decoding is total: an unassigned opcode gives the illegal instruction, and bytes that
do not hold a whole slot are refused by name.
-/

namespace Sys2Proof

/-- Operand kinds by their two bits (03 R84). -/
def kindOf (b : BitVec 2) : Kind :=
  if b == 0 then .vec else if b == 1 then .scl else if b == 2 then .win else .imm
def kindBits : Kind → BitVec 2
  | .vec => 0 | .scl => 1 | .win => 2 | .imm => 3

/-- The 10-bit opcode: class × 0x40 + function (03 R78). -/
def opcodeOf (w : Slot) : Nat := (w.extractLsb' 86 10).toNat

def hdrOf (w : Slot) : Hdr :=
  { stall := w.extractLsb' 82 4, y := w.getLsbD 81, guard := w.extractLsb' 78 3, neg := w.getLsbD 77 }

/-- Format A (03 R86). -/
def fmtAOf (w : Slot) : FmtA :=
  { d := w.extractLsb' 68 9, a := w.extractLsb' 59 9, b := w.extractLsb' 50 9, c := w.extractLsb' 41 9
    kA := kindOf (w.extractLsb' 39 2), kB := kindOf (w.extractLsb' 37 2), kC := kindOf (w.extractLsb' 35 2)
    ty := w.extractLsb' 30 5, rnd := w.extractLsb' 27 3, sat := w.getLsbD 26
    mods := w.extractLsb' 20 6, opnd := w.extractLsb' 0 20 }

/-- Format I (03 R87). -/
def fmtIOf (w : Slot) : FmtI :=
  { d := w.extractLsb' 68 9, a := w.extractLsb' 59 9, kA := kindOf (w.extractLsb' 57 2), ty := w.extractLsb' 52 5
    rnd := w.extractLsb' 49 3, sat := w.getLsbD 48, mods := w.extractLsb' 32 16, imm := w.extractLsb' 0 32 }

/-- Format M (03 R88). -/
def fmtMOf (w : Slot) : FmtM :=
  { d := w.extractLsb' 68 9, a := w.extractLsb' 59 9, b := w.extractLsb' 50 9, c := w.extractLsb' 41 9
    kA := kindOf (w.extractLsb' 39 2), kB := kindOf (w.extractLsb' 37 2), width := w.extractLsb' 34 3
    scope := w.extractLsb' 30 4, order := w.extractLsb' 27 3, op := w.extractLsb' 23 4, mark := w.getLsbD 22
    space := w.extractLsb' 20 2, off := w.extractLsb' 0 20 }

/-- Format C (03 R91). -/
def fmtCOf (w : Slot) : FmtC :=
  { d := w.extractLsb' 68 9, a := w.extractLsb' 59 9, kA := kindOf (w.extractLsb' 57 2)
    weir := w.extractLsb' 52 5, wv := w.getLsbD 51, mods := w.extractLsb' 32 19, off := w.extractLsb' 0 32 }

/-- Format X (03 R92). -/
def fmtXOf (w : Slot) : FmtX :=
  { eng := w.extractLsb' 75 2, weir := w.extractLsb' 71 4, wv := w.getLsbD 70, rowBase := w.extractLsb' 60 10
    kP := w.extractLsb' 52 8, kQ := w.extractLsb' 44 8, kS := w.extractLsb' 36 8, sfmt := w.extractLsb' 30 6
    tfmt := w.extractLsb' 24 6, rows := w.extractLsb' 16 8, tok := w.extractLsb' 8 8, mods := w.extractLsb' 0 8 }

/-- Class 0x0 of the opcode map (03 R94). -/
def decodeControl (fn : Nat) (w : Slot) : Instr :=
  match fn with
  | 0x00 => .nop (hdrOf w) (fmtCOf w)
  | 0x01 => .bra (hdrOf w) (fmtCOf w)
  | 0x02 => .brx (hdrOf w) (fmtCOf w)
  | 0x03 => .brs (hdrOf w) (fmtCOf w)
  | 0x04 => .call (hdrOf w) (fmtCOf w)
  | 0x05 => .ret (hdrOf w) (fmtCOf w)
  | 0x06 => .exit (hdrOf w) (fmtCOf w)
  | 0x07 => .yield (hdrOf w) (fmtCOf w)
  | 0x08 => .sleep (hdrOf w) (fmtCOf w)
  | 0x09 => .trap (hdrOf w) (fmtCOf w)
  | _ => .illegalInstruction w

/-- Class 0x1 of the opcode map (03 R94). -/
def decodeInteger (fn : Nat) (w : Slot) : Instr :=
  match fn with
  | 0x00 => .iadd (hdrOf w) (fmtAOf w)
  | 0x01 => .isub (hdrOf w) (fmtAOf w)
  | 0x02 => .iaddx (hdrOf w) (fmtAOf w)
  | 0x03 => .isubx (hdrOf w) (fmtAOf w)
  | 0x04 => .imul (hdrOf w) (fmtAOf w)
  | 0x05 => .imulh (hdrOf w) (fmtAOf w)
  | 0x06 => .imad (hdrOf w) (fmtAOf w)
  | 0x07 => .imadw (hdrOf w) (fmtAOf w)
  | 0x08 => .imin (hdrOf w) (fmtAOf w)
  | 0x09 => .imax (hdrOf w) (fmtAOf w)
  | 0x0A => .iabs (hdrOf w) (fmtAOf w)
  | 0x0B => .ineg (hdrOf w) (fmtAOf w)
  | 0x0C => .idot4 (hdrOf w) (fmtAOf w)
  | 0x0D => .isad (hdrOf w) (fmtAOf w)
  | _ => .illegalInstruction w

/-- Class 0x2 of the opcode map (03 R94). -/
def decodeLogic (fn : Nat) (w : Slot) : Instr :=
  match fn with
  | 0x00 => .and (hdrOf w) (fmtAOf w)
  | 0x01 => .or (hdrOf w) (fmtAOf w)
  | 0x02 => .xor (hdrOf w) (fmtAOf w)
  | 0x03 => .andn (hdrOf w) (fmtAOf w)
  | 0x04 => .not (hdrOf w) (fmtAOf w)
  | 0x05 => .blog (hdrOf w) (fmtAOf w)
  | 0x06 => .shl (hdrOf w) (fmtAOf w)
  | 0x07 => .shr (hdrOf w) (fmtAOf w)
  | 0x08 => .sar (hdrOf w) (fmtAOf w)
  | 0x09 => .rot (hdrOf w) (fmtAOf w)
  | 0x0A => .fshf (hdrOf w) (fmtAOf w)
  | 0x0B => .bfe (hdrOf w) (fmtAOf w)
  | 0x0C => .bfi (hdrOf w) (fmtAOf w)
  | 0x0D => .popc (hdrOf w) (fmtAOf w)
  | 0x0E => .clz (hdrOf w) (fmtAOf w)
  | 0x0F => .brev (hdrOf w) (fmtAOf w)
  | 0x10 => .icmp (hdrOf w) (fmtAOf w)
  | 0x11 => .isel (hdrOf w) (fmtAOf w)
  | 0x12 => .plop (hdrOf w) (fmtAOf w)
  | 0x13 => .lea (hdrOf w) (fmtAOf w)
  | 0x14 => .mov (hdrOf w) (fmtAOf w)
  | 0x15 => .movi (hdrOf w) (fmtIOf w)
  | 0x16 => .bswz (hdrOf w) (fmtAOf w)
  | _ => .illegalInstruction w

/-- Class 0x3 of the opcode map (03 R94). -/
def decodeFloat (fn : Nat) (w : Slot) : Instr :=
  match fn with
  | 0x00 => .fadd (hdrOf w) (fmtAOf w)
  | 0x01 => .fmul (hdrOf w) (fmtAOf w)
  | 0x02 => .ffma (hdrOf w) (fmtAOf w)
  | 0x03 => .fmin (hdrOf w) (fmtAOf w)
  | 0x04 => .fmax (hdrOf w) (fmtAOf w)
  | 0x05 => .fcmp (hdrOf w) (fmtAOf w)
  | 0x06 => .fclass (hdrOf w) (fmtAOf w)
  | 0x07 => .fdot2 (hdrOf w) (fmtAOf w)
  | 0x08 => .fscale (hdrOf w) (fmtAOf w)
  | _ => .illegalInstruction w

/-- Class 0x4 of the opcode map (03 R94). -/
def decodeSpecial (fn : Nat) (w : Slot) : Instr :=
  match fn with
  | 0x00 => .frcp (hdrOf w) (fmtAOf w)
  | 0x01 => .frsq (hdrOf w) (fmtAOf w)
  | 0x02 => .fsqrt (hdrOf w) (fmtAOf w)
  | 0x03 => .fdiv (hdrOf w) (fmtAOf w)
  | 0x04 => .fex2 (hdrOf w) (fmtAOf w)
  | 0x05 => .flg2 (hdrOf w) (fmtAOf w)
  | 0x06 => .fsin (hdrOf w) (fmtAOf w)
  | 0x07 => .fcos (hdrOf w) (fmtAOf w)
  | 0x08 => .ftanh (hdrOf w) (fmtAOf w)
  | 0x09 => .frnd (hdrOf w) (fmtAOf w)
  | 0x0A => .cvt (hdrOf w) (fmtAOf w)
  | 0x0B => .cvtn (hdrOf w) (fmtAOf w)
  | 0x0C => .pack (hdrOf w) (fmtAOf w)
  | 0x0D => .unpk (hdrOf w) (fmtAOf w)
  | _ => .illegalInstruction w

/-- Class 0x5 of the opcode map (03 R94). -/
def decodeLanes (fn : Nat) (w : Slot) : Instr :=
  match fn with
  | 0x00 => .lxch (hdrOf w) (fmtAOf w)
  | 0x01 => .cons (hdrOf w) (fmtAOf w)
  | 0x02 => .pmask (hdrOf w) (fmtAOf w)
  | 0x03 => .redux (hdrOf w) (fmtAOf w)
  | 0x04 => .scan (hdrOf w) (fmtAOf w)
  | 0x05 => .eqmask (hdrOf w) (fmtAOf w)
  | 0x06 => .bcast (hdrOf w) (fmtAOf w)
  | _ => .illegalInstruction w

/-- Class 0x6 of the opcode map (03 R94). -/
def decodeScalar (fn : Nat) (w : Slot) : Instr :=
  match fn with
  | 0x00 => .smov (hdrOf w) (fmtAOf w)
  | 0x01 => .smovi (hdrOf w) (fmtIOf w)
  | 0x02 => .sadd (hdrOf w) (fmtAOf w)
  | 0x03 => .ssub (hdrOf w) (fmtAOf w)
  | 0x04 => .smul (hdrOf w) (fmtAOf w)
  | 0x05 => .smad (hdrOf w) (fmtAOf w)
  | 0x06 => .sand (hdrOf w) (fmtAOf w)
  | 0x07 => .sor (hdrOf w) (fmtAOf w)
  | 0x08 => .sxor (hdrOf w) (fmtAOf w)
  | 0x09 => .sshl (hdrOf w) (fmtAOf w)
  | 0x0A => .sshr (hdrOf w) (fmtAOf w)
  | 0x0B => .scmp (hdrOf w) (fmtAOf w)
  | 0x0C => .ssel (hdrOf w) (fmtAOf w)
  | 0x0D => .sld (hdrOf w) (fmtMOf w)
  | 0x0E => .sst (hdrOf w) (fmtMOf w)
  | 0x0F => .rdlane (hdrOf w) (fmtAOf w)
  | 0x10 => .srd (hdrOf w) (fmtAOf w)
  | _ => .illegalInstruction w

/-- Class 0x7 of the opcode map (03 R94). -/
def decodeMemory (fn : Nat) (w : Slot) : Instr :=
  match fn with
  | 0x00 => .ld (hdrOf w) (fmtMOf w)
  | 0x01 => .st (hdrOf w) (fmtMOf w)
  | 0x02 => .ldf (hdrOf w) (fmtMOf w)
  | 0x03 => .stf (hdrOf w) (fmtMOf w)
  | 0x04 => .lds (hdrOf w) (fmtMOf w)
  | 0x05 => .sts (hdrOf w) (fmtMOf w)
  | 0x06 => .ldc (hdrOf w) (fmtMOf w)
  | 0x07 => .pref (hdrOf w) (fmtMOf w)
  | 0x08 => .cctl (hdrOf w) (fmtMOf w)
  | _ => .illegalInstruction w

/-- Class 0x8 of the opcode map (03 R94). -/
def decodeAtomics (fn : Nat) (w : Slot) : Instr :=
  match fn with
  | 0x00 => .atom (hdrOf w) (fmtMOf w)
  | 0x01 => .cas (hdrOf w) (fmtMOf w)
  | 0x02 => .red (hdrOf w) (fmtMOf w)
  | 0x03 => .atoms (hdrOf w) (fmtMOf w)
  | 0x04 => .cass (hdrOf w) (fmtMOf w)
  | 0x05 => .lse (hdrOf w) (fmtMOf w)
  | 0x06 => .stl (hdrOf w) (fmtMOf w)
  | 0x07 => .lsend (hdrOf w) (fmtMOf w)
  | 0x08 => .mred (hdrOf w) (fmtXOf w)
  | _ => .illegalInstruction w

/-- Class 0x9 of the opcode map (03 R94). -/
def decodeSync (fn : Nat) (w : Slot) : Instr :=
  match fn with
  | 0x00 => .fence (hdrOf w) (fmtMOf w)
  | 0x01 => .bar (hdrOf w) (fmtCOf w)
  | 0x02 => .bara (hdrOf w) (fmtCOf w)
  | 0x03 => .wdecl (hdrOf w) (fmtCOf w)
  | 0x04 => .wsign (hdrOf w) (fmtCOf w)
  | 0x05 => .wjoin (hdrOf w) (fmtCOf w)
  | 0x06 => .tkwait (hdrOf w) (fmtCOf w)
  | 0x07 => .rgn (hdrOf w) (fmtMOf w)
  | _ => .illegalInstruction w

/-- Class 0xA of the opcode map (03 R94). -/
def decodeMatrix (fn : Nat) (w : Slot) : Instr :=
  match fn with
  | 0x00 => .mld (hdrOf w) (fmtXOf w)
  | 0x01 => .mswp (hdrOf w) (fmtXOf w)
  | 0x02 => .mma (hdrOf w) (fmtXOf w)
  | 0x03 => .mmap (hdrOf w) (fmtXOf w)
  | 0x04 => .mguide (hdrOf w) (fmtXOf w)
  | 0x05 => .accz (hdrOf w) (fmtXOf w)
  | 0x06 => .accrd (hdrOf w) (fmtXOf w)
  | 0x07 => .accwr (hdrOf w) (fmtXOf w)
  | 0x08 => .acc2s (hdrOf w) (fmtXOf w)
  | 0x09 => .scld (hdrOf w) (fmtXOf w)
  | _ => .illegalInstruction w

/-- Class 0xB of the opcode map (03 R94). -/
def decodeEngines (fn : Nat) (w : Slot) : Instr :=
  match fn with
  | 0x00 => .cpy (hdrOf w) (fmtXOf w)
  | 0x01 => .cpy2d (hdrOf w) (fmtXOf w)
  | 0x02 => .gath (hdrOf w) (fmtXOf w)
  | 0x03 => .scat (hdrOf w) (fmtXOf w)
  | 0x04 => .qdual (hdrOf w) (fmtXOf w)
  | 0x05 => .cast (hdrOf w) (fmtXOf w)
  | _ => .illegalInstruction w

/-- Class 0xC of the opcode map (03 R94). -/
def decodePopulation (fn : Nat) (w : Slot) : Instr :=
  match fn with
  | 0x00 => .rsmp (hdrOf w) (fmtXOf w)
  | 0x01 => .pdiss (hdrOf w) (fmtCOf w)
  | 0x02 => .spawn (hdrOf w) (fmtCOf w)
  | 0x03 => .rng (hdrOf w) (fmtAOf w)
  | _ => .illegalInstruction w

/-- Class 0xD of the opcode map (03 R94). -/
def decodeSystem (fn : Nat) (w : Slot) : Instr :=
  match fn with
  | 0x00 => .halt (hdrOf w) (fmtCOf w)
  | 0x01 => .rtt (hdrOf w) (fmtCOf w)
  | 0x02 => .csrr (hdrOf w) (fmtMOf w)
  | 0x03 => .csrw (hdrOf w) (fmtMOf w)
  | 0x04 => .tinv (hdrOf w) (fmtMOf w)
  | 0x05 => .pmig (hdrOf w) (fmtMOf w)
  | 0x06 => .dbrk (hdrOf w) (fmtCOf w)
  | _ => .illegalInstruction w

/-- The meaning of one slot's bits: total, an unassigned opcode being an illegal instruction (03 R94). -/
def decodeSlot (w : Slot) : Instr :=
  let op := opcodeOf w
  match op / 64 with
  | 0 => decodeControl (op % 64) w
  | 1 => decodeInteger (op % 64) w
  | 2 => decodeLogic (op % 64) w
  | 3 => decodeFloat (op % 64) w
  | 4 => decodeSpecial (op % 64) w
  | 5 => decodeLanes (op % 64) w
  | 6 => decodeScalar (op % 64) w
  | 7 => decodeMemory (op % 64) w
  | 8 => decodeAtomics (op % 64) w
  | 9 => decodeSync (op % 64) w
  | 10 => decodeMatrix (op % 64) w
  | 11 => decodeEngines (op % 64) w
  | 12 => decodePopulation (op % 64) w
  | 13 => decodeSystem (op % 64) w
  | _ => .illegalInstruction w

/-- Why bytes are not an instruction. -/
inductive DecodeError where
  /-- Fewer than the twelve bytes of a slot (03 R71). -/
  | truncated
  deriving DecidableEq, Repr

/-- Little-endian value of bytes (00 R4). -/
def leNat : List Byte → Nat
  | [] => 0
  | b :: bs => b.toNat + 256 * leNat bs

/-- The low `n` bytes of a value, lowest first (00 R4). -/
def leBytes : Nat → Nat → List Byte
  | 0, _ => []
  | n + 1, v => BitVec.ofNat 8 v :: leBytes n (v / 256)

/-- The instruction at the head of a byte string and the bytes after its slot. -/
def decode (bs : List Byte) : Except DecodeError (Instr × List Byte) :=
  if bs.length < 12 then .error .truncated
  else .ok (decodeSlot (BitVec.ofNat 96 (leNat (bs.take 12))), bs.drop 12)

/-- The bits of a row of the table, bit 0 the least significant of byte 0 of the slot, given to the decoder as the
bytes the slot stores. -/
def decodeTableWord (nbits w : Nat) : Option Instr :=
  match decode (leBytes 12 (w % 2 ^ nbits)) with
  | .ok (i, _) => some i
  | .error _ => none

/-! The encoder, from the same field maps. -/

def bitsA (f : FmtA) : BitVec 77 :=
  f.d ++ f.a ++ f.b ++ f.c ++ kindBits f.kA ++ kindBits f.kB ++ kindBits f.kC ++ f.ty ++ f.rnd ++
    BitVec.ofBool f.sat ++ f.mods ++ f.opnd
def bitsI (f : FmtI) : BitVec 77 :=
  f.d ++ f.a ++ kindBits f.kA ++ f.ty ++ f.rnd ++ BitVec.ofBool f.sat ++ f.mods ++ f.imm
def bitsM (f : FmtM) : BitVec 77 :=
  f.d ++ f.a ++ f.b ++ f.c ++ kindBits f.kA ++ kindBits f.kB ++ f.width ++ f.scope ++ f.order ++ f.op ++
    BitVec.ofBool f.mark ++ f.space ++ f.off
def bitsC (f : FmtC) : BitVec 77 :=
  f.d ++ f.a ++ kindBits f.kA ++ f.weir ++ BitVec.ofBool f.wv ++ f.mods ++ f.off
def bitsX (f : FmtX) : BitVec 77 :=
  f.eng ++ f.weir ++ BitVec.ofBool f.wv ++ f.rowBase ++ f.kP ++ f.kQ ++ f.kS ++ f.sfmt ++ f.tfmt ++ f.rows ++ f.tok ++
    f.mods

/-- A slot from its opcode, common fields and body. -/
def slot (op : BitVec 10) (h : Hdr) (body : BitVec 77) : Slot :=
  op ++ h.stall ++ BitVec.ofBool h.y ++ h.guard ++ BitVec.ofBool h.neg ++ body

/-- The 96 bits of an instruction; an event of the device has none. -/
def encode : Instr → Option Slot
  | .nop h f => some (slot 0x000 h (bitsC f))
  | .bra h f => some (slot 0x001 h (bitsC f))
  | .brx h f => some (slot 0x002 h (bitsC f))
  | .brs h f => some (slot 0x003 h (bitsC f))
  | .call h f => some (slot 0x004 h (bitsC f))
  | .ret h f => some (slot 0x005 h (bitsC f))
  | .exit h f => some (slot 0x006 h (bitsC f))
  | .yield h f => some (slot 0x007 h (bitsC f))
  | .sleep h f => some (slot 0x008 h (bitsC f))
  | .trap h f => some (slot 0x009 h (bitsC f))
  | .iadd h f => some (slot 0x040 h (bitsA f))
  | .isub h f => some (slot 0x041 h (bitsA f))
  | .iaddx h f => some (slot 0x042 h (bitsA f))
  | .isubx h f => some (slot 0x043 h (bitsA f))
  | .imul h f => some (slot 0x044 h (bitsA f))
  | .imulh h f => some (slot 0x045 h (bitsA f))
  | .imad h f => some (slot 0x046 h (bitsA f))
  | .imadw h f => some (slot 0x047 h (bitsA f))
  | .imin h f => some (slot 0x048 h (bitsA f))
  | .imax h f => some (slot 0x049 h (bitsA f))
  | .iabs h f => some (slot 0x04A h (bitsA f))
  | .ineg h f => some (slot 0x04B h (bitsA f))
  | .idot4 h f => some (slot 0x04C h (bitsA f))
  | .isad h f => some (slot 0x04D h (bitsA f))
  | .and h f => some (slot 0x080 h (bitsA f))
  | .or h f => some (slot 0x081 h (bitsA f))
  | .xor h f => some (slot 0x082 h (bitsA f))
  | .andn h f => some (slot 0x083 h (bitsA f))
  | .not h f => some (slot 0x084 h (bitsA f))
  | .blog h f => some (slot 0x085 h (bitsA f))
  | .shl h f => some (slot 0x086 h (bitsA f))
  | .shr h f => some (slot 0x087 h (bitsA f))
  | .sar h f => some (slot 0x088 h (bitsA f))
  | .rot h f => some (slot 0x089 h (bitsA f))
  | .fshf h f => some (slot 0x08A h (bitsA f))
  | .bfe h f => some (slot 0x08B h (bitsA f))
  | .bfi h f => some (slot 0x08C h (bitsA f))
  | .popc h f => some (slot 0x08D h (bitsA f))
  | .clz h f => some (slot 0x08E h (bitsA f))
  | .brev h f => some (slot 0x08F h (bitsA f))
  | .icmp h f => some (slot 0x090 h (bitsA f))
  | .isel h f => some (slot 0x091 h (bitsA f))
  | .plop h f => some (slot 0x092 h (bitsA f))
  | .lea h f => some (slot 0x093 h (bitsA f))
  | .mov h f => some (slot 0x094 h (bitsA f))
  | .movi h f => some (slot 0x095 h (bitsI f))
  | .bswz h f => some (slot 0x096 h (bitsA f))
  | .fadd h f => some (slot 0x0C0 h (bitsA f))
  | .fmul h f => some (slot 0x0C1 h (bitsA f))
  | .ffma h f => some (slot 0x0C2 h (bitsA f))
  | .fmin h f => some (slot 0x0C3 h (bitsA f))
  | .fmax h f => some (slot 0x0C4 h (bitsA f))
  | .fcmp h f => some (slot 0x0C5 h (bitsA f))
  | .fclass h f => some (slot 0x0C6 h (bitsA f))
  | .fdot2 h f => some (slot 0x0C7 h (bitsA f))
  | .fscale h f => some (slot 0x0C8 h (bitsA f))
  | .frcp h f => some (slot 0x100 h (bitsA f))
  | .frsq h f => some (slot 0x101 h (bitsA f))
  | .fsqrt h f => some (slot 0x102 h (bitsA f))
  | .fdiv h f => some (slot 0x103 h (bitsA f))
  | .fex2 h f => some (slot 0x104 h (bitsA f))
  | .flg2 h f => some (slot 0x105 h (bitsA f))
  | .fsin h f => some (slot 0x106 h (bitsA f))
  | .fcos h f => some (slot 0x107 h (bitsA f))
  | .ftanh h f => some (slot 0x108 h (bitsA f))
  | .frnd h f => some (slot 0x109 h (bitsA f))
  | .cvt h f => some (slot 0x10A h (bitsA f))
  | .cvtn h f => some (slot 0x10B h (bitsA f))
  | .pack h f => some (slot 0x10C h (bitsA f))
  | .unpk h f => some (slot 0x10D h (bitsA f))
  | .lxch h f => some (slot 0x140 h (bitsA f))
  | .cons h f => some (slot 0x141 h (bitsA f))
  | .pmask h f => some (slot 0x142 h (bitsA f))
  | .redux h f => some (slot 0x143 h (bitsA f))
  | .scan h f => some (slot 0x144 h (bitsA f))
  | .eqmask h f => some (slot 0x145 h (bitsA f))
  | .bcast h f => some (slot 0x146 h (bitsA f))
  | .smov h f => some (slot 0x180 h (bitsA f))
  | .smovi h f => some (slot 0x181 h (bitsI f))
  | .sadd h f => some (slot 0x182 h (bitsA f))
  | .ssub h f => some (slot 0x183 h (bitsA f))
  | .smul h f => some (slot 0x184 h (bitsA f))
  | .smad h f => some (slot 0x185 h (bitsA f))
  | .sand h f => some (slot 0x186 h (bitsA f))
  | .sor h f => some (slot 0x187 h (bitsA f))
  | .sxor h f => some (slot 0x188 h (bitsA f))
  | .sshl h f => some (slot 0x189 h (bitsA f))
  | .sshr h f => some (slot 0x18A h (bitsA f))
  | .scmp h f => some (slot 0x18B h (bitsA f))
  | .ssel h f => some (slot 0x18C h (bitsA f))
  | .sld h f => some (slot 0x18D h (bitsM f))
  | .sst h f => some (slot 0x18E h (bitsM f))
  | .rdlane h f => some (slot 0x18F h (bitsA f))
  | .srd h f => some (slot 0x190 h (bitsA f))
  | .ld h f => some (slot 0x1C0 h (bitsM f))
  | .st h f => some (slot 0x1C1 h (bitsM f))
  | .ldf h f => some (slot 0x1C2 h (bitsM f))
  | .stf h f => some (slot 0x1C3 h (bitsM f))
  | .lds h f => some (slot 0x1C4 h (bitsM f))
  | .sts h f => some (slot 0x1C5 h (bitsM f))
  | .ldc h f => some (slot 0x1C6 h (bitsM f))
  | .pref h f => some (slot 0x1C7 h (bitsM f))
  | .cctl h f => some (slot 0x1C8 h (bitsM f))
  | .atom h f => some (slot 0x200 h (bitsM f))
  | .cas h f => some (slot 0x201 h (bitsM f))
  | .red h f => some (slot 0x202 h (bitsM f))
  | .atoms h f => some (slot 0x203 h (bitsM f))
  | .cass h f => some (slot 0x204 h (bitsM f))
  | .lse h f => some (slot 0x205 h (bitsM f))
  | .stl h f => some (slot 0x206 h (bitsM f))
  | .lsend h f => some (slot 0x207 h (bitsM f))
  | .mred h f => some (slot 0x208 h (bitsX f))
  | .fence h f => some (slot 0x240 h (bitsM f))
  | .bar h f => some (slot 0x241 h (bitsC f))
  | .bara h f => some (slot 0x242 h (bitsC f))
  | .wdecl h f => some (slot 0x243 h (bitsC f))
  | .wsign h f => some (slot 0x244 h (bitsC f))
  | .wjoin h f => some (slot 0x245 h (bitsC f))
  | .tkwait h f => some (slot 0x246 h (bitsC f))
  | .rgn h f => some (slot 0x247 h (bitsM f))
  | .mld h f => some (slot 0x280 h (bitsX f))
  | .mswp h f => some (slot 0x281 h (bitsX f))
  | .mma h f => some (slot 0x282 h (bitsX f))
  | .mmap h f => some (slot 0x283 h (bitsX f))
  | .mguide h f => some (slot 0x284 h (bitsX f))
  | .accz h f => some (slot 0x285 h (bitsX f))
  | .accrd h f => some (slot 0x286 h (bitsX f))
  | .accwr h f => some (slot 0x287 h (bitsX f))
  | .acc2s h f => some (slot 0x288 h (bitsX f))
  | .scld h f => some (slot 0x289 h (bitsX f))
  | .cpy h f => some (slot 0x2C0 h (bitsX f))
  | .cpy2d h f => some (slot 0x2C1 h (bitsX f))
  | .gath h f => some (slot 0x2C2 h (bitsX f))
  | .scat h f => some (slot 0x2C3 h (bitsX f))
  | .qdual h f => some (slot 0x2C4 h (bitsX f))
  | .cast h f => some (slot 0x2C5 h (bitsX f))
  | .rsmp h f => some (slot 0x300 h (bitsX f))
  | .pdiss h f => some (slot 0x301 h (bitsC f))
  | .spawn h f => some (slot 0x302 h (bitsC f))
  | .rng h f => some (slot 0x303 h (bitsA f))
  | .halt h f => some (slot 0x340 h (bitsC f))
  | .rtt h f => some (slot 0x341 h (bitsC f))
  | .csrr h f => some (slot 0x342 h (bitsM f))
  | .csrw h f => some (slot 0x343 h (bitsM f))
  | .tinv h f => some (slot 0x344 h (bitsM f))
  | .pmig h f => some (slot 0x345 h (bitsM f))
  | .dbrk h f => some (slot 0x346 h (bitsC f))
  | .releaseRecordRegister _ => none
  | .drainProbe _ => none
  | .drainAck _ => none
  | .writeBackAck _ => none
  | .coreLeave _ => none
  | .coreJoin _ => none
  | .leaseGrant _ => none
  | .leaseExpiry _ _ => none
  | .leaseWriteThrough _ => none
  | .leaseRevocation _ => none
  | .revocationNotice _ => none
  | .implicitLeaseEnd _ _ => none
  | .timeSyncCheck _ => none
  | .timeSyncReload _ => none
  | .redRouterHoldExpiry _ => none
  | .redHomeApply _ => none
  | .regionDrain _ => none
  | .regionTransitionApply _ => none
  | .pageFaultRecord _ => none
  | .unpark _ => none
  | .deliverPageFault _ => none
  | .migrationStart _ => none
  | .migrationCopy _ => none
  | .migrationWindowEnd => none
  | .sampleRecord => none
  | .mredDispatch _ => none
  | .mredWaitPoll _ => none
  | .mredWaitLimit _ => none
  | .mredComplete _ => none
  | .jobComplete _ _ => none
  | .matrixComplete _ _ => none
  | .rsmpStageOutComplete _ => none
  | .rsmpResume _ => none
  | .sleepEnd _ _ => none
  | .weirTimeout _ _ _ => none
  | .fairnessTimerExpiry _ _ => none
  | .quantumExpiry _ _ => none
  | .queueWake _ => none
  | .queuePoll => none
  | .commandStart _ => none
  | .launch _ => none
  | .wait _ => none
  | .waitTimeout _ => none
  | .signal _ => none
  | .regionCreate _ => none
  | .regionModify _ => none
  | .regionDelete _ => none
  | .emberEnter _ => none
  | .emberArm _ => none
  | .emberDisarm _ => none
  | .resume _ => none
  | .firmware _ => none
  | .migratePolicy _ => none
  | .blockDispatch _ _ => none
  | .preemptionRequest _ _ => none
  | .saveComplete _ => none
  | .blockRestore _ => none
  | .haltResume _ => none
  | .haltRelease _ => none
  | .haltControlNoEffect _ => none
  | .queueTableWrite _ _ _ => none
  | .halfWidthRequest _ _ => none
  | .halfWidthLeave _ _ => none
  | .laneErrorLimit _ _ => none
  | .temperatureLimit _ _ => none
  | .channelRetrainDone _ _ => none
  | .registerWrite _ _ => none
  | .recoveryImageLoad _ _ => none
  | .powerUp => none
  | .hostMemWrite _ _ => none
  | .hostMemRead _ _ => none
  | .peerAccessArrive _ => none
  | .endToEndAck _ _ => none
  | .flitRetry _ => none
  | .hopFailure _ => none
  | .linkRetryTimer => none
  | .supplyWarning => none
  | .supplyGood => none
  | .getVersion => none
  | .getCapabilities => none
  | .negotiateAlgorithms _ _ => none
  | .getDigests => none
  | .getCertificate _ _ => none
  | .challenge _ => none
  | .getMeasurements _ _ => none
  | .mctpControl _ => none
  | .vendorRead _ => none
  | .illegalInstruction w => some w
  | .homeRead _ => none
  | .fill _ => none

/-! Fetch lines (03 R71, R72). A line is 512 bits, byte 0 least significant. -/

abbrev Line := BitVec 512

/-- Number of one bits. -/
def onesCount : (w : Nat) → BitVec w → Nat := fun w b => (List.range w).countP b.getLsbD

def lineSlot (l : Line) (i : Nat) : Slot := l.extractLsb' (96 * i) 96
def lineWord (l : Line) : W32 := l.extractLsb' 480 32
/-- Word parity and the five slot parities (03 R71, first check of R72). -/
def lineParityOk (l : Line) : Bool :=
  onesCount 32 (lineWord l) % 2 == 0 &&
    (List.range 5).all (fun i => (onesCount 96 (lineSlot l i) + ((lineWord l).getLsbD (9 + i)).toNat) % 2 == 0)
/-- The reserved bits of the line word (03 R71, second check of R72). -/
def lineFormatOk (l : Line) : Bool := (lineWord l).extractLsb' 15 17 == 0
/-- Slot i is a legal branch target (03 R71). -/
def lineTarget (l : Line) (i : Nat) : Bool := i < 5 && (lineWord l).getLsbD i
/-- Slots j and j+1 may issue together (03 R71, R80). -/
def linePair (l : Line) (j : Nat) : Bool := j < 4 && (lineWord l).getLsbD (5 + j)

/-- A line of five slots with a target mask and pair bits, its parities computed (03 R71). -/
def mkLine (s : List Slot) (mask : BitVec 5) (pairs : BitVec 4) : Line :=
  let at' := fun i => s.getD i 0
  let par := fun i => BitVec.ofNat 1 (onesCount 96 (at' i))
  let low : BitVec 14 := par 4 ++ par 3 ++ par 2 ++ par 1 ++ par 0 ++ pairs ++ mask
  let word : W32 := 0#17 ++ BitVec.ofNat 1 (onesCount 14 low) ++ low
  word ++ at' 4 ++ at' 3 ++ at' 2 ++ at' 1 ++ at' 0

end Sys2Proof
end

