-- ==== Sys2Proof/Machine/Tab.lean ====
section
/-!
DEFINITION. Sparse tables: lists of (key, value) pairs with strictly rising keys. A canonical table lists no entry equal
to its default, so equal contents are equal lists. Memory, registers and every keyed part of the machine use them.
-/

namespace Sys2Proof.Machine

abbrev Tab (α : Type) := List (Nat × α)

/-- The value listed at a key. -/
def tfind {α : Type} : Tab α → Nat → Option α
  | [], _ => none
  | (j, v) :: t, k => if j == k then some v else tfind t k

/-- List a value at a key, in order. -/
def tput {α : Type} : Tab α → Nat → α → Tab α
  | [], k, v => [(k, v)]
  | (j, w) :: t, k, v =>
    if k < j then (k, v) :: (j, w) :: t else if k == j then (k, v) :: t else (j, w) :: tput t k v

/-- Unlist a key. -/
def tdel {α : Type} : Tab α → Nat → Tab α
  | [], _ => []
  | (j, w) :: t, k => if j == k then tdel t k else (j, w) :: tdel t k

/-- The value at a key of a canonical table with default `d`. -/
def tget {α : Type} (d : α) (t : Tab α) (k : Nat) : α := (tfind t k).getD d

/-- Write a canonical table: writing the default removes the entry. -/
def tset {α : Type} [DecidableEq α] (d : α) (t : Tab α) (k : Nat) (v : α) : Tab α :=
  if v = d then tdel t k else tput t k v

/-- Apply a function to the value listed at a key, if any. -/
def tmod {α : Type} (t : Tab α) (k : Nat) (f : α → α) : Tab α :=
  match tfind t k with
  | some v => tput t k (f v)
  | none => t

/-- Keys rise strictly from above `lo`. -/
def risingFrom {α : Type} : Option Nat → Tab α → Bool
  | _, [] => true
  | lo, (k, _) :: t => (match lo with | some l => l < k | none => true) && risingFrom (some k) t

/-- The canonical form: strictly rising keys and no entry equal to the default. -/
def canonical {α : Type} [DecidableEq α] (d : α) (t : Tab α) : Bool :=
  risingFrom none t && t.all (fun p => p.2 != d)

/-- `n` consecutive values of a table whose keys are not below `k`. -/
def run {α : Type} (d : α) : Nat → Nat → Tab α → List α
  | 0, _, _ => []
  | n + 1, k, [] => d :: run d n (k + 1) []
  | n + 1, k, (j, v) :: t => if j == k then v :: run d n (k + 1) t else d :: run d n (k + 1) ((j, v) :: t)
/-- `n` consecutive values from a key. -/
def tgets {α : Type} (d : α) (t : Tab α) (k n : Nat) : List α := run d n k (t.dropWhile (fun p => p.1 < k))

/-- Entries for consecutive values from a key, defaults left out. -/
def entriesFrom {α : Type} [DecidableEq α] (d : α) : Nat → List α → Tab α
  | _, [] => []
  | k, v :: vs => if v = d then entriesFrom d (k + 1) vs else (k, v) :: entriesFrom d (k + 1) vs
/-- Write consecutive values from a key. -/
def tsets {α : Type} [DecidableEq α] (d : α) (t : Tab α) (k : Nat) (vs : List α) : Tab α :=
  t.takeWhile (fun p => p.1 < k) ++ entriesFrom d k vs ++ t.dropWhile (fun p => p.1 < k + vs.length)

end Sys2Proof.Machine
end

