-- ==== Sys2Proof/Machine/Bits.lean ====
section
/-!
DEFINITION. Bit-level helpers of several chapters: Mix64 and the draw (02 R52), CRC-32 (15 R353), sign extension,
byte packing, and the slot arithmetic of 03 R74-R75.
-/

namespace Sys2Proof.Machine

/-- Mix64 (02 R52). -/
def mix64 (z : W64) : W64 :=
  let z := z ^^^ (z >>> 33)
  let z := z * 0xB5A34C1D77E92F61
  let z := z ^^^ (z >>> 29)
  let z := z * 0xD1C46A3F29B857E3
  z ^^^ (z >>> 32)

/-- One draw with its key (02 R52). -/
def drawOf (seed : W64) (generation : BitVec 16) (popindex : W32) (n : BitVec 24) : W32 :=
  let key := seed ^^^ (generation.zeroExtend 64 <<< 48) ^^^ (popindex.zeroExtend 64 <<< 24) ^^^ n.zeroExtend 64
  (mix64 key).extractLsb' 32 32

/-- One byte into a CRC-32, reflected, polynomial 0xEDB8_8320. -/
def crcByte (c : W32) (b : Byte) : W32 :=
  (List.range 8).foldl (fun c _ => if c.getLsbD 0 then (c >>> 1) ^^^ 0xEDB88320 else c >>> 1) (c ^^^ b.zeroExtend 32)
/-- CRC-32 with the IEEE 802.3 polynomial (15 R353). -/
def crc32 (bs : List Byte) : W32 := ~~~(bs.foldl crcByte 0xFFFFFFFF)

/-- Little-endian bytes of a value (00 R4). -/
def le4 (x : Nat) : List Byte := leBytes 4 x
def le8 (x : Nat) : List Byte := leBytes 8 x

/-- The value of a `w`-bit field read as two's complement. -/
def signed (w : Nat) (x : Nat) : Int := if x % 2 ^ w < 2 ^ (w - 1) then (x % 2 ^ w : Nat) else ((x % 2 ^ w : Nat) : Int) - 2 ^ w
/-- The low `w` bits of an integer. -/
def wrap (w : Nat) (x : Int) : Nat := (x % 2 ^ w).toNat
/-- Sign-extend from `w` bits to `n` bits. -/
def sextNat (w n x : Nat) : Nat := wrap n (signed w x)

/-! Program counters (03 R74, R75). -/

def pcOk (pc : W64) : Bool := (pc.toNat % 64) % 12 == 0 && pc.toNat % 64 ≤ 48
def pcSlot (pc : W64) : Nat := pc.toNat % 64 / 12
def slotNumber (pc : W64) : Nat := pc.toNat / 64 * 5 + pcSlot pc
/-- The PC of a slot number, computed without bound. -/
def slotPC (t : Nat) : Nat := t / 5 * 64 + 12 * (t % 5)
/-- The sequential successor. -/
def nextPc (pc : W64) : W64 := if pcSlot pc == 4 then pc + 16 else pc + 12
/-- Bits [63:57] all equal bit 56 (01 R28). -/
def canonicalVa (a : W64) : Bool := a.extractLsb' 56 8 == 0 || a.extractLsb' 56 8 == 0xFF

/-! Physical addresses (12 R307): key = host bit × 2^52 + PA. -/

inductive Target where
  | hbm | lpddr | mmio | host | hostMmio | peer | reserved
  deriving DecidableEq, Repr

def hostBase : Nat := 2 ^ 52
def targetOf (key : Nat) : Target :=
  if key < hostBase then
    if key < 2 ^ 39 then .hbm else if key < 2 ^ 41 then .lpddr else if key < 2 ^ 42 then .mmio else .reserved
  else
    match (key - hostBase) / 2 ^ 50 with
    | 0 => .host | 1 => .hostMmio | 2 => .peer | _ => .reserved
def isDevMem (key : Nat) : Bool := targetOf key == .hbm || targetOf key == .lpddr
/-- Lines that L1 may hold (10 R276). -/
def cacheable (key : Nat) : Bool := isDevMem key || targetOf key == .host

/-- The home slice 24 × die + slice of a line (10 R279); lines beyond the device have a port of their own. -/
def homeOf (line : Nat) : Nat :=
  let key := line * 128
  let h := (mix64 (BitVec.ofNat 64 line)).toNat
  let slice := h / 2 ^ 32 * 24 / 2 ^ 32
  match targetOf key with
  | .hbm => 24 * (key / 2 ^ 36 / 2) + slice
  | .lpddr => 24 * (h % 4) + slice
  | .host | .hostMmio => 96
  | .peer => 97 + (key - hostBase) / 2 ^ 42 % 256
  | _ => 96

/-- The first `n` of a list that satisfy nothing twice: distinct elements in order of first appearance. -/
def dedup {α : Type} [DecidableEq α] (l : List α) : List α :=
  l.foldl (fun acc x => if acc.contains x then acc else acc ++ [x]) []

/-- Insertion sort by a Nat measure, stable. -/
def insertBy {α : Type} (f : α → Nat) (x : α) : List α → List α
  | [] => [x]
  | y :: ys => if f x < f y then x :: y :: ys else y :: insertBy f x ys
def sortBy {α : Type} (f : α → Nat) (l : List α) : List α := l.foldl (fun acc x => insertBy f x acc) []

/-! Fields of a page-table entry (12 R317). -/

def pteBit (p : W64) (n : Nat) : Bool := p.getLsbD n
def pteFormat (p : W64) : BitVec 6 := p.extractLsb' 55 6
def pteGeometry (p : W64) : Nat := (p.extractLsb' 61 2).toNat
def pteIl (p : W64) : Nat := (p.extractLsb' 52 3).toNat
def ptePa (p : W64) : Nat := (p.extractLsb' 16 36).toNat * 2 ^ 16
def pteHost (p : W64) : Bool := pteBit p 9
/-- Near-memory capable, which a page of the tier is not (12 R315). -/
def pteNear (p : W64) : Bool := pteBit p 63 && !pteBit p 10
def pteMigrating (p : W64) : Bool := pteBit p 11
def pageBits (level : Nat) : Nat := 16 + 10 * level

end Sys2Proof.Machine
end

