-- ==== Sys2Proof/Machine/Crypto.lean ====
section
/-!
DEFINITION. SHA-512 and Ed25519, which firmware images, configuration records and attestation use (21 R429-R432). The
spec names RFC 8032 and SHA-512; their text is outside it. PRESUMED: the definitions below, notes/assumptions row.
-/

namespace Sys2Proof.Machine

/-! ### SHA-512. -/

/-- The integer `k`-th root, `bits` bits of it still to find. -/
def intRoot (k x : Nat) : Nat → Nat → Nat
  | 0, r => r
  | b + 1, r => intRoot k x b (if (r + 2 ^ b) ^ k ≤ x then r + 2 ^ b else r)
/-- The first 80 primes. -/
def primes80 : List Nat := (List.range 410).filter (fun p => 2 ≤ p && (List.range p).all (fun d => d < 2 || p % d != 0))
/-- Fractional parts of cube roots, and of square roots, of the primes. -/
def shaK : List W64 := primes80.map (fun p => BitVec.ofNat 64 (intRoot 3 (p * 2 ^ 192) 68 0))
def shaInit : List W64 := (primes80.take 8).map (fun p => BitVec.ofNat 64 (intRoot 2 (p * 2 ^ 128) 70 0))

def rotr (x : W64) (n : Nat) : W64 := (x >>> n) ||| (x <<< (64 - n))
/-- Bytes of a number, highest first. -/
def beBytes (n x : Nat) : List Byte := (leBytes n x).reverse
def beNat (bs : List Byte) : Nat := leNat bs.reverse
def shaPad (m : List Byte) : List Byte :=
  m ++ [0x80] ++ List.replicate ((239 - m.length % 128) % 128) 0 ++ beBytes 16 (8 * m.length)
/-- The message schedule: `n` words more, the newest first. -/
def shaSchedule : Nat → List W64 → List W64
  | 0, w => w
  | n + 1, w =>
    let g := fun i => w.getD i 0
    let s0 := let x := g 14; rotr x 1 ^^^ rotr x 8 ^^^ (x >>> 7)
    let s1 := let x := g 1; rotr x 19 ^^^ rotr x 61 ^^^ (x >>> 6)
    shaSchedule n ((g 15 + s0 + g 6 + s1) :: w)
def shaRound (v : List W64) (kw : W64 × W64) : List W64 :=
  let g := fun i => v.getD i 0
  let e := g 4
  let a := g 0
  let t1 := g 7 + (rotr e 14 ^^^ rotr e 18 ^^^ rotr e 41) + ((e &&& g 5) ^^^ (~~~e &&& g 6)) + kw.1 + kw.2
  let t2 := (rotr a 28 ^^^ rotr a 34 ^^^ rotr a 39) + ((a &&& g 1) ^^^ (a &&& g 2) ^^^ (g 1 &&& g 2))
  [t1 + t2, a, g 1, g 2, g 3 + t1, e, g 5, g 6]
def shaBlock (h : List W64) (b : List Byte) : List W64 :=
  let w := (List.range 16).map (fun i => (BitVec.ofNat 64 (beNat ((b.drop (8 * i)).take 8)) : W64))
  let v := (shaK.zip (shaSchedule 64 w.reverse).reverse).foldl shaRound h
  (h.zip v).map (fun p => p.1 + p.2)
/-- SHA-512: 64 bytes. PRESUMED, log 74. -/
def sha512 (m : List Byte) : List Byte :=
  let p := shaPad m
  ((List.range (p.length / 128)).foldl (fun h i => shaBlock h ((p.drop (128 * i)).take 128)) shaInit).flatMap
    (fun x => beBytes 8 x.toNat)

/-! ### Ed25519. -/

def edP : Nat := 2 ^ 255 - 19
def edL : Nat := 2 ^ 252 + 27742317777372353535851937790883648493
/-- Power modulo p, `n` bits of the exponent. -/
def edPow (b : Nat) : Nat → Nat → Nat
  | 0, _ => 1
  | n + 1, e => let h := edPow (b * b % edP) n (e / 2); if e % 2 == 1 then b * h % edP else h
def edInv (x : Nat) : Nat := edPow x 256 (edP - 2)
def edD : Nat := (edP - 121665) * edInv 121666 % edP
/-- A point in extended coordinates X, Y, Z, T. -/
abbrev EdPoint := Nat × Nat × Nat × Nat
def edZero : EdPoint := (0, 1, 1, 0)
def edSub (a b : Nat) : Nat := (a + edP - b % edP) % edP
def edAdd (p q : EdPoint) : EdPoint :=
  let a := edSub p.2.1 p.1 * edSub q.2.1 q.1 % edP
  let b := (p.2.1 + p.1) * (q.2.1 + q.1) % edP
  let c := p.2.2.2 * 2 * edD % edP * q.2.2.2 % edP
  let d := p.2.2.1 * 2 * q.2.2.1 % edP
  let e := edSub b a
  let f := edSub d c
  let g := (d + c) % edP
  let h := (b + a) % edP
  (e * f % edP, g * h % edP, f * g % edP, e * h % edP)
/-- A multiple of a point, `n` bits of the factor. -/
def edMul : Nat → Nat → EdPoint → EdPoint
  | 0, _, _ => edZero
  | n + 1, k, p => let r := edMul n (k / 2) (edAdd p p); if k % 2 == 1 then edAdd r p else r
def edSame (p q : EdPoint) : Bool :=
  p.1 * q.2.2.1 % edP == q.1 * p.2.2.1 % edP && p.2.1 * q.2.2.1 % edP == q.2.1 * p.2.2.1 % edP
/-- The x of a point with this y and this low bit of x. -/
def edX (y sign : Nat) : Option Nat :=
  if edP ≤ y then none
  else
    let x2 := edSub (y * y) 1 * edInv ((edD * (y * y) + 1) % edP) % edP
    if x2 == 0 then (if sign == 1 then none else some 0)
    else
      let x := edPow x2 256 ((edP + 3) / 8)
      let x := if x * x % edP == x2 then x else x * edPow 2 256 ((edP - 1) / 4) % edP
      if x * x % edP != x2 then none else some (if x % 2 == sign then x else edP - x)
def edDecode (bs : List Byte) : Option EdPoint :=
  let v := leNat (bs.take 32)
  let y := v % 2 ^ 255
  (edX y (v / 2 ^ 255)).map (fun x => (x, y, 1, x * y % edP))
def edEncode (p : EdPoint) : List Byte :=
  let z := edInv p.2.2.1
  leBytes 32 (p.2.1 * z % edP + p.1 * z % edP % 2 * 2 ^ 255)
def edBase : EdPoint := let y := 4 * edInv 5 % edP; let x := (edX y 0).getD 0; (x, y, 1, x * y % edP)

/-- The secret scalar and the prefix of a seed. -/
def edExpand (seed : List Byte) : Nat × List Byte :=
  let h := sha512 seed
  (leNat (h.take 32) % 2 ^ 254 / 8 * 8 + 2 ^ 254, h.drop 32)
def edPublic (seed : List Byte) : List Byte := edEncode (edMul 256 (edExpand seed).1 edBase)
/-- Sign (RFC 8032, 5.1.6). -/
def edSign (seed msg : List Byte) : List Byte :=
  let x := edExpand seed
  let pub := edPublic seed
  let r := leNat (sha512 (x.2 ++ msg)) % edL
  let rp := edEncode (edMul 256 r edBase)
  let k := leNat (sha512 (rp ++ pub ++ msg)) % edL
  rp ++ leBytes 32 ((r + k * x.1) % edL)
/-- Verify (RFC 8032, 5.1.7). -/
def edVerify (pub msg sig : List Byte) : Bool :=
  let sv := leNat ((sig.drop 32).take 32)
  match edDecode pub, edDecode (sig.take 32) with
  | some a, some r =>
    let k := leNat (sha512 (sig.take 32 ++ pub ++ msg)) % edL
    sig.length == 64 && sv < edL && edSame (edMul 4 8 (edMul 256 sv edBase)) (edMul 4 8 (edAdd r (edMul 256 k a)))
  | _, _ => false

end Sys2Proof.Machine
end

