-- ==== Sys2Proof/Machine/Dram.lean ====
section
/-!
DEFINITION. Where a byte of device memory lies: the stacks, channels, banks and rows of HBM4 under the interleave schemes
(12 R308, R313), and the channels of the LPDDR-6 tier (12 R315).
-/

namespace Sys2Proof.Machine

def bitsAt (x lo n : Nat) : Nat := x / 2 ^ lo % 2 ^ n

/-- A byte of HBM4. -/
structure HbmAt where
  stack : Nat
  channel : Nat
  pch : Nat
  group : Nat
  bank : Nat
  row : Nat
  atom : Nat
  byte : Nat
  deriving DecidableEq, Repr
/-- The place is one that the stacks have: 8 stacks of 32 channels of 2 pseudo-channels, of 4 groups of 4 banks, of 65,536
rows of 1 KiB, of 32 atoms of 32 bytes (12 R308). -/
def HbmAt.ok (a : HbmAt) : Bool :=
  a.stack < 8 && a.channel < 32 && a.pch < 2 && a.group < 4 && a.bank < 4 && a.row < Config.hbmRows &&
    a.atom < Config.rowBytes / Config.atomBytes && a.byte < Config.atomBytes
/-- The place of an HBM address under an interleave scheme (12 R313). -/
def hbmAt (il pa : Nat) : HbmAt :=
  let b := bitsAt pa
  let at' := fun (atom stack channel pch bank group row : Nat) =>
    { stack := stack, channel := channel, pch := pch, group := group, bank := bank, row := row, atom := atom, byte := b 0 5 : HbmAt }
  match il with
  | 0 => at' (b 17 2 * 8 + b 5 3) (b 8 3) (b 11 5) (b 16 1) (b 19 2) (b 21 2) (b 23 16)
  | 1 => at' (b 14 2 * 8 + b 5 3) (b 36 3) (b 8 5) (b 13 1) (b 16 2) (b 18 2) (b 20 16)
  | 2 => at' (b 5 5) (b 10 3) (b 13 5) (b 18 1) (b 19 2) (b 21 2) (b 23 16)
  | 3 => at' (b 5 5) (b 36 3) (b 10 5) (b 15 1) (b 16 2) (b 18 2) (b 20 16)
  | 4 => at' (b 5 5) (b 12 3) (b 15 5) (b 20 1) (b 10 2) (b 21 2) (b 23 16)
  | 5 => at' (b 5 5) (b 36 3) (b 12 5) (b 17 1) (b 10 2) (b 18 2) (b 20 16)
  | 6 => at' (b 5 5) (b 20 3) (b 16 4 * 2 + b 15 1) (b 14 1) (b 10 2) (b 12 2) (b 23 16)
  | _ => at' (b 5 5) (b 22 3) (b 17 5) (b 16 1) (b 10 2) (b 12 2) (b 25 14 * 4 + b 14 2)

/-- Bank-node number: (((stack × 32 + channel) × 2 + pseudo-channel) × 4 + bank group) × 4 + bank. -/
def nodeAt (stack ch pch bg bank : Nat) : Nat := (((stack * 32 + ch) * 2 + pch) * 4 + bg) * 4 + bank
/-- The bank node of an HBM address under an interleave scheme (13 R329). -/
def nodeOf (il pa : Nat) : Nat := let a := hbmAt il pa; nodeAt a.stack a.channel a.pch a.group a.bank
def nodeStack (n : Nat) : Nat := n / 1024

/-- The channel of an address of the tier, and its address in the channel (12 R315). -/
def tierChannel (pa : Nat) : Nat := (pa - 2 ^ 39) / 4096 % Config.tierChannels
def tierPa (pa : Nat) : Nat := (pa - 2 ^ 39) / 4096 / Config.tierChannels * 4096 + pa % 4096
/-- Memory channels by number: HBM4 32 × stack + channel, then those of the tier. -/
def hbmChannels : Nat := 256
def memChannels : Nat := hbmChannels + Config.tierChannels
/-- The channel of an address of device memory under an interleave scheme, which the tier ignores. -/
def channelOf (il key : Nat) : Option Nat :=
  match targetOf key with
  | .hbm => let a := hbmAt il key; some (32 * a.stack + a.channel)
  | .lpddr => some (hbmChannels + tierChannel key)
  | _ => none

end Sys2Proof.Machine
end

