-- ==== Sys2Proof/Machine/State.lean ====
section
/-!
DEFINITION. The state of the machine, as plain data: every piece of state the spec names, the messages in flight, and
the schedule that says which agent moves next. `State.reset` is the machine right after a good power-up, before any
command.

Keys of the tables: a core by its number, a gang by its slot number 96c + s (15 R361), a thread by 32 × slot number +
lane, a memory byte by host bit × 2^52 + PA (12 R307), a line by its first byte's key div 128.
-/

namespace Sys2Proof.Machine

/-- Why the machine stops. No instruction of this hardware leaves the machine without a next state: every fault the spec
names is a transfer to a handler or the end of a gang (16 R375-R377), which are next states. -/
inductive Fault where
  /-- Raised by `step` when the schedule names an event that is not well formed (its arguments name parts the device
  does not have). Safe: the hardware has no such step. -/
  | noSuchEvent
  deriving DecidableEq, Repr

inductive Refusal where
  /-- An instruction without a meaning, by its mnemonic. Raised by `exec` only. Safe: nothing follows. -/
  | notModelled (mnemonic : String)
  deriving DecidableEq, Repr

/-- A register as R83 numbers it: vector n, scalar 0x200 + n, predicate 0x300 + n. -/
inductive RegRef where
  | v (n : Nat) | k (n : Nat) | p (n : Nat)
  deriving DecidableEq, Repr

/-- A fixed-latency result that a thread does not read yet (03 R81). -/
structure Pend where
  reg : RegRef
  value : W32
  due : Nat
  deriving DecidableEq, Repr

/-- A thread, but for the PC, which its group holds (01 R10, R25, 08 R244). -/
structure Lane where
  live : Bool
  v : Tab W32
  p : BitVec 7
  status : W32
  epc : W64
  ecause : W32
  eaddr : W64
  rng : BitVec 24
  lineage : W64
  popindex : W32
  /-- The latest time that it has read (01 R25). -/
  timeRead : Nat
  /-- Sum of the stall counts of the instructions the thread has executed (03 R81). -/
  nd : Nat
  pend : List Pend
  /-- Registers whose variable-latency result is not present yet (03 R81). -/
  lock : List RegRef
  deriving DecidableEq, Repr

/-- What holds a group back (15 R369). -/
inductive Status where
  | ready
  /-- SLEEP, cycles left (04 R116). -/
  | sleep (left : Nat)
  /-- Parked after a page fault, with its record's number (12 R321). -/
  | parked (record : Nat)
  /-- Stands at BAR or BARA until the gang has gathered and its earlier phase is complete (07 R201), or, no barrier, at an
  instruction that waits for parked lanes of the gang (01 R18). -/
  | gather (barrier : Bool)
  /-- Waits for a phase of a barrier (07 R201). -/
  | barrier (id phase : Nat)
  /-- Waits in WJOIN for a weir; timed when its T runs (07 R206). -/
  | join (weir : Nat) (timed : Bool) (dst : BitVec 3)
  /-- Waits for requests to be answered (10 R277, R281). -/
  | requests (ids : List Nat)
  /-- Waits at a paired instruction for the partner (07 R215). -/
  | pairWait
  /-- Stands at an entry of a kernel, or of a handler, whose line is not there yet: the check of its target mask waits for
  the line (03 R76). -/
  | entering (handler : Bool)
  /-- Arrived at RSMP (08 R236): its operand registers and stall count. -/
  | rsmp (kW kM kU stall : Nat)
  /-- Waits for a region transition (07 R208). -/
  | region (msg : Nat)
  /-- Waits at LSE (06 R192). -/
  | lease
  deriving DecidableEq, Repr

/-- The group stands where lanes of its gang gather. -/
def Status.gathers : Status → Bool
  | .gather _ => true
  | _ => false
/-- Waits on a barrier, a weir or a memory result, which ends a fairness priority (01 R37). -/
def Status.endsPrio : Status → Bool
  | .gather b => b
  | .barrier .. | .join .. | .requests _ | .lease | .rsmp .. => true
  | _ => false

/-- An issue group (01 R14, 15 R368): threads of one partition at one PC. -/
structure Group where
  core : Nat
  pc : W64
  /-- Thread keys, rising. -/
  members : List Nat
  status : Status
  /-- The slot was entered by a branch (03 R80). -/
  branched : Bool
  loose : Bool
  waitCount : Nat
  yielded : Bool
  /-- Cycles of stall left before the next issue (03 R78). -/
  hold : Nat
  /-- Fairness priority in force: issues left (01 R37). -/
  prio : Option Nat
  /-- Region states that write checks have answered for lines: (line, state) (10 R299). -/
  answers : List (Nat × Nat)
  /-- The eager write-back of the release at its PC is done (10 R283). -/
  flushed : Bool := false
  /-- It parked at an entry whose target mask is still to be checked; true: the entry is a handler's (03 R76, 12 R321). -/
  toEnter : Option Bool := none
  deriving DecidableEq, Repr

/-- A scalar result (04 R118): who wrote it, with the distance at which each writer's own group reads it. -/
structure KPend where
  reg : Nat
  value : W32
  writers : List (Nat × Nat)
  deriving DecidableEq, Repr

/-- An instruction that issues once on behalf of a set of lanes (01 R18, 07 R203): what it captured when it issued. -/
structure Once where
  slot : Nat
  instr : Instr
  /-- The issuing set. -/
  lanes : W32
  thread : Nat
  /-- The guard held (03 R79). -/
  act : Bool
  /-- The scalar registers it reads, as they stood (07 R434). -/
  regs : Tab W32
  /-- Registers of lanes that signed and went on, interlocked until it is done (07 R203). -/
  locked : List (Nat × RegRef)
  deriving DecidableEq, Repr

/-- The descriptor of a paired instruction whose partner has not come (18 R401), with the scale bytes it read. -/
structure PairOp where
  op : Once
  scale : List Byte
  deriving DecidableEq, Repr

/-- The state of a weir (01 R19): complete after a round until the next signature or declaration; signatures see it open. -/
inductive WeirState where
  | idle | opened | complete
  deriving DecidableEq, Repr

/-- A weir (01 R19, 07 R203). -/
structure Weir where
  declared : W32
  signed : W32
  state : WeirState
  /-- 0: no timeout runs; else one more than the cycles left (15 R370). -/
  timeout : Nat
  /-- none: no round open; some none: a join round; some (some (pc, i)): an instruction round. -/
  round : Option (Option (W64 × Instr))
  /-- The guard held in a lane of a signing group of the round. -/
  guardHeld : Bool
  /-- Registers of lanes that signed and went on, interlocked until the round's instruction is done (07 R203). -/
  locked : List (Nat × RegRef)
  deriving DecidableEq, Repr

def Weir.idle : Weir :=
  { declared := 0, signed := 0, state := .idle, timeout := 0, round := none, guardHeld := false, locked := [] }

/-- Who completes a token. -/
inductive TokenUnit where
  | engine (e : Nat) | channel (c : Nat) | mred
  deriving DecidableEq, Repr

/-- A token (07 R207): done when its own job has finished, complete when every earlier one of its unit has too. -/
structure Token where
  value : W32
  unit : TokenUnit
  job : Nat
  thread : Nat
  done : Bool
  fault : Option (Nat × W64)
  deriving DecidableEq, Repr

/-- A gang's part in a barrier (07 R201, 16 R386). -/
structure GangBar where
  /-- The next phase the gang has not arrived at. -/
  nextPhase : Nat
  /-- The phase of a pending BARA. -/
  bara : Option Nat
  deriving DecidableEq, Repr

/-- Pair state (16 R386). -/
inductive PairState where
  | paired | dissolved | solo | unpaired
  deriving DecidableEq, Repr

/-- A gang's slot (01 R11, 15 R362, 16 R386). -/
structure Gang where
  launch : Nat
  block : Nat
  index : BitVec 11
  regBase : Nat
  allocRegs : Nat
  age : Nat
  k : Tab W32
  kpend : List KPend
  klock : List Nat
  weirs : Tab Weir
  fairtime : Nat
  fairCount : Nat
  /-- The last count reached FAIRTIME (01 R26, R37). -/
  fairDue : Bool
  tokens : List Token
  bars : Tab GangBar
  pair : PairState
  partner : Option Nat
  role : BitVec 2
  pairCount : Nat
  /-- The paired instruction the gang waits at (18 R401). -/
  pairOp : Option PairOp
  spawned : W32
  spawnPool : Bool
  quantum : Nat
  /-- A fault that the gang's next class 0xA instruction on an engine raises, by engine (07 R209): code, EADDR. -/
  engineFault : Tab (Nat × W64)
  halted : Bool
  /-- The phase from which the gang is a member of a barrier, by id, when it is not 0 (07 R201). -/
  barrierMember : Tab Nat
  deriving DecidableEq, Repr

/-- Kernel header fields (03 R106). -/
structure Header where
  addr : W64
  version : Nat
  population : Bool
  pairFlag : Bool
  progress : Bool
  check : Bool
  vregs : Nat
  kregs : Nat
  argCount : Nat
  entryCount : Nat
  spawnpool : Nat
  weirs : Nat
  scratch : Nat
  fairtime : Nat
  accrows : Nat
  windows : List W64
  entries : List W64
  deriving DecidableEq, Repr

/-- A core's part of a block: scratch with its tags, accumulator reservation (01 R29-R32). -/
structure BlockPart where
  core : Nat
  scratch : Tab Byte
  tags : Tab (BitVec 6)
  accBase : Nat
  slots : List Nat
  deriving DecidableEq, Repr

/-- Barrier phases of a block: (phase, arrived gang slots). -/
structure BarState where
  phase : Nat
  arrived : List Nat
  deriving DecidableEq, Repr

/-- A resident or saved block (15 R363, 01 R20). -/
structure Block where
  launch : Nat
  index : Nat
  tile : W64
  threads : Nat
  gangs : Nat
  scope : BitVec 4
  parts : List BlockPart
  bars : Tab BarState
  /-- The cycle in which it started. -/
  started : Nat
  saved : Bool
  deriving DecidableEq, Repr

/-- RSMP of a population (18 R404): after the stage-out, the PC and the stand of its gangs, and the copies whose images lie in
the staging area: old index and ordinal of each new index. -/
inductive RsmpPhase where
  | idle
  | stageIn (pc : W64) (stand : Status) (copies : List (Nat × Nat))
  deriving DecidableEq, Repr

/-- A launch (15 R349, R362). -/
structure Launch where
  seq : Nat
  queue : Nat
  region : Nat
  header : Header
  grid : Nat × Nat × Nat
  threads : Nat
  args : List W32
  seed : W64
  nblocks : W32
  popsize : W32
  place : Option (List (BitVec 16))
  nextBlock : Nat
  /-- Blocks below `nextBlock` that wait for room. -/
  waiting : List Nat
  generation : BitVec 16
  rsmp : RsmpPhase
  faulted : Bool
  /-- Spawn-pool slots reserved and not in use: (slot number, register base). -/
  pool : List (Nat × Nat)
  /-- Cores that ran a gang of the launch, and the final write-backs awaited (15 R351). -/
  ranOn : List Nat
  ending : Option (List Nat)
  /-- The staging area of a population: its first byte and its size (18 R403). -/
  staging : Option (Nat × Nat)
  deriving DecidableEq, Repr

/-! ### Caches and the memory system. -/

/-- An L1 line: bytes with their dirty bits; a byte not listed is not valid (10 R276). -/
structure L1Line where
  cells : Tab (Byte × Bool)
  epoch : Option Nat
  cConf : Bool
  sFilled : Bool
  deriving DecidableEq, Repr

def L1Line.empty : L1Line := { cells := [], epoch := none, cConf := false, sFilled := false }

/-- A leaf translation (12 R320). -/
structure TlbEntry where
  asid : Nat
  level : Nat
  vpn : Nat
  pte : W64
  pteAt : Nat
  deriving DecidableEq, Repr

structure WalkEntry where
  asid : Nat
  level : Nat
  above : Nat
  table : Nat
  deriving DecidableEq, Repr

/-- A lease in the core's lease buffer or atomic unit (10 R292, R295). -/
structure Lease where
  line : Nat
  /-- Thread key; none: the atomic unit. -/
  holder : Option Nat
  /-- The core's clock at the grant's arrival: the cycle counter starts there. -/
  granted : Nat
  /-- LEASEMAX at the grant (06 R192, 08 R245). -/
  leasemax : Nat
  /-- The STL byte mask: offsets in the line. -/
  stl : List Nat
  revoked : Bool
  ending : Bool
  farLine : Bool
  /-- An LSEND waits for the write-through: its predicate, its stall count, the line's address (10 R292, R293). -/
  notify : Option (Nat × Nat × W64)
  /-- The write-through waits for the acknowledgement of a release record of the line (10 R283), or for a free entry of the
  core's outstanding requests (10 R277). -/
  record : Bool := false
  /-- Write-backs that go home before the write-through: those of an LSEND that is an eager release (10 R283). -/
  flush : List Nat := []
  /-- The instruction that asked for it, by the count of issues (06 R192). -/
  issue : Nat := 0
  deriving DecidableEq, Repr

/-- How loaded bytes become a register value. -/
inductive LoadConv where
  | zext | sext
  /-- Format-decoded with the element format and the scale's code (06 R178). -/
  | fmt (code : BitVec 6) (scale : Option (BitVec 8))
  deriving DecidableEq, Repr

/-- One lane's load, waiting for its bytes. -/
structure LaneLoad where
  thread : Nat
  dst : Nat
  /-- The destination is a scalar register of the gang. -/
  scalar : Bool
  key : Nat
  size : Nat
  conv : LoadConv
  deriving DecidableEq, Repr

/-- One lane's store or atomic operation. -/
structure LaneOp where
  thread : Nat
  dst : Nat
  key : Nat
  size : Nat
  /-- Operation code of 06 R183; 16 store, 17 compare and swap, 18 the same with `.facq`. -/
  op : Nat
  operand : Nat
  expected : Nat
  deriving DecidableEq, Repr

inductive ReqKind where
  | load | farLoad | farStore | writeCheck | atomicFar | atomic | leaseLoad
  deriving DecidableEq, Repr

/-- An outstanding request of a core (10 R277). -/
structure Request where
  core : Nat
  line : Nat
  kind : ReqKind
  loads : List LaneLoad
  ops : List LaneOp
  va : W64
  /-- Acquire to perform when answered: scope is die or wider. -/
  acquire : Bool
  /-- Registration (core, epoch) that travels with a releasing atomic. -/
  release : Option Nat
  near : Bool
  /-- Since it was sent the core has dropped its clean bytes of the line: the reply is not kept in L1 (10 R278, R281). -/
  stale : Bool := false
  /-- The headgate performs it far: its reply is not kept in L1 (10 R302). -/
  far : Bool := false
  /-- Interleave scheme of the page (12 R313). -/
  il : Nat := 0
  /-- The slot of the gang whose PREF made it (06 R181). -/
  pref : Option Nat := none
  deriving DecidableEq, Repr

/-- A message in flight between a core and a home (10 R280), by its body. -/
inductive MsgBody where
  | read (req : Nat)
  | fill (req : Nat) (bytes : List Byte) (state : Nat)
  | register (epoch : Nat)
  | probe (epoch : Option Nat)
  | drainAck
  /-- Dirty bytes by offset, and offsets whose bytes were lost to an error (10 R304). -/
  | writeBack (cells : List (Nat × Byte)) (lost : List Nat)
  | leaseWrite (cells : List (Nat × Byte)) (lost : List Nat) (holder : Option Nat)
  | revoked (holder : Option Nat)
  /-- A reduction of one line: address and operand of each lane's operation, lowest lane first; the slots of the gangs it
  acts for. -/
  | red (cells : List (Nat × Nat)) (size op : Nat) (release : Option Nat) (held : Bool) (contributors : List Nat)
  | regionDrain (region : Nat)
  deriving DecidableEq, Repr

/-- A message: from or to `core`, about `line`, to the home when `toHome`. -/
structure Msg where
  core : Nat
  toHome : Bool
  line : Nat
  body : MsgBody
  deriving DecidableEq, Repr

/-- A release record (10 R284). -/
inductive Record where
  | pointer (entries : List (Nat × Nat))
  | coarse (vec : BitVec 24)
  deriving DecidableEq, Repr

/-- A drain in progress at a home (10 R286-R288). -/
structure Drain where
  /-- Cores whose acknowledgement is still awaited. -/
  await : List Nat
  /-- Messages served at the end: reads of the line, and reductions whose record waits for the room that the drain makes. -/
  reads : List Msg
  /-- Registrations that count after it: line, core, epoch (10 R284, R285). -/
  regs : List (Nat × Nat × Nat)
  deriving DecidableEq, Repr

/-- A home lease-table entry (10 R291). -/
structure HomeLease where
  core : Nat
  holder : Option Nat
  tick : Nat
  leasemax : Nat
  deriving DecidableEq, Repr

/-- A waiting lease request (10 R291): an LSE of a thread, or an implicit-lease request of a core. -/
structure LeaseReq where
  core : Nat
  line : Nat
  holder : Option Nat
  req : Nat
  /-- Grant predicate and stall count of the LSE. -/
  pred : Nat
  stall : Nat
  leasemax : Nat
  /-- The instruction that asks, by the count of issues. -/
  issue : Nat := 0
  deriving DecidableEq, Repr

/-- A region directory entry (10 R299). -/
structure RegionDir where
  state : Nat
  pending : Nat
  /-- Transitions waiting in arrival order: (target, core, group, cores still to answer, started). -/
  queue : List (Nat × Nat × Nat)
  await : Option (List Nat)
  deriving DecidableEq, Repr

/-- A probe or region drain being answered by a core (10 R287). -/
structure Probe where
  line : Nat
  epoch : Option Nat
  /-- Region drain of this region instead of a probe. -/
  region : Option Nat
  started : Bool
  /-- Write-back messages whose acknowledgement is awaited. -/
  await : List Nat
  deriving DecidableEq, Repr

/-! ### Jobs and engines. -/

/-- What a job computes. -/
inductive JobOp where
  | copy
  /-- QDUAL: formats and source stride. -/
  | quant (src dst : BitVec 6) (stride : Nat)
  /-- CAST: formats, rounding, saturation, and the draw's seed, generation, population index and first counter. -/
  | cast (src dst : BitVec 6) (rnd : Nat) (sat : Bool) (seed : W64) (gen : BitVec 16) (pop : W32) (first : BitVec 24)
  deriving DecidableEq, Repr

/-- A stretch of bytes of a job: scratch offset or memory key. -/
structure Span where
  scr : Bool
  start : Nat
  len : Nat
  deriving DecidableEq, Repr

/-- A copy-engine job with its captured operands (08 R221-R228). -/
structure Job where
  /-- Its number, rising in issue order. -/
  id : Nat
  channel : Nat
  block : Nat
  gang : Nat
  thread : Nat
  token : W32
  op : JobOp
  /-- Bytes moved, in order: source and destination of each piece. -/
  moves : List (Span × Span)
  reads : List Span
  writes : List Span
  /-- Scratch offsets that QDUAL and CAST use, in the order of their entries. -/
  offsets : List Nat
  /-- Tags of the segments it writes. -/
  tags : List (Nat × BitVec 6)
  /-- The virtual page of each physical page of a global source. -/
  pages : List (Nat × W64)
  deriving DecidableEq, Repr

/-- A weight plane (07 R213): 64 × 64 elements, format, 128 stationary scales (none: all 1). -/
structure Plane where
  elems : Tab (BitVec 16)
  format : BitVec 6
  scales : Option (List Byte)
  deriving DecidableEq, Repr

def Plane.zero : Plane := { elems := [], format := 0, scales := none }

/-- A class 0xA instruction in an engine's queue, with what it read at issue (07 R209). -/
structure EngineOp where
  /-- Its number, rising in issue order. -/
  id : Nat
  instr : Instr
  block : Nat
  gang : Nat
  thread : Nat
  /-- Lanes of the issuing set, as a mask. -/
  lanes : W32
  token : Option W32
  /-- Values of the scalar registers the entry reads, in the order kP, kQ, kS… -/
  scalars : List W32
  /-- Paired form: the other gang, its instruction, its scalars, its token. -/
  other : Option (Nat × Instr × List W32 × Option W32)
  /-- The rows of this gang and of the other are processed. -/
  doSelf : Bool
  doOther : Bool
  /-- This gang is the conditional one of the pair (07 R216). -/
  selfCond : Bool
  accBase : Nat
  /-- Values of the vector registers that ACCWR reads, in the order register, lane. -/
  values : List (Nat × W32)
  /-- Scale bytes read at issue for `.sc`, rows in order, this gang's then the other's. -/
  scale : List Byte
  scaleOther : List Byte
  /-- Registers interlocked until the instruction is done. -/
  locked : List (Nat × RegRef)
  deriving DecidableEq, Repr

structure Engine where
  active : Plane
  shadow : Plane
  acc : Tab (BitVec 34)
  scaleMem : Tab Byte
  queue : List EngineOp
  /-- ME0's scale cache: lines by key div 128 (18 R399). -/
  cache : Tab (List Byte)
  deriving DecidableEq, Repr

/-- DESIGN CHOICE, log 2. DESIGN CHOICE, log 3. DEDUCED, log 75. -/
def Engine.reset : Engine :=
  { active := Plane.zero, shadow := Plane.zero, acc := [], scaleMem := [], queue := [], cache := [] }

/-- A page-fault record (12 R321). -/
structure PfRecord where
  core : Nat
  slot : Nat
  /-- The gang's age, which with its core tells it from later gangs of the slot. -/
  age : Nat
  lanes : W32
  /-- The address each thread met the fault at; the record names the first. -/
  at' : List (Nat × W64)
  access : Nat
  asid : Nat
  region : Nat
  sent : Bool
  /-- The record of an instruction that no lane stands at (07 R434). -/
  issue : Option Once
  deriving DecidableEq, Repr

/-- The virtual address that a page-fault record names. -/
def PfRecord.va (r : PfRecord) : W64 := (r.at'.head?.map (fun a => a.2)).getD 0

structure Core where
  powered : Bool
  leaving : Bool
  /-- The machine's cycle at the core's last join: %clock counts from it (01 R25). -/
  joined : Nat
  check : Bool
  leasemax : Nat
  epoch : Nat
  l1 : Tab L1Line
  icache : Tab Line
  ccache : Tab W32
  tlb : List TlbEntry
  walks : List WalkEntry
  leases : List Lease
  timeView : Int
  outside : Bool
  refusalLogged : Bool
  sampleCount : Nat
  /-- Numbers of page-fault records in the core's queue, oldest first. -/
  pfQueue : List Nat
  jobs : List Job
  engines : Tab Engine
  probes : List Probe
  /-- Lines whose store is registered and not acknowledged (10 R282). -/
  pinned : List Nat
  nextAge : Nat
  /-- Slots stopped to be saved, and whether the save is for dispatch (15 R371). -/
  saving : List Nat
  savingFor : Bool
  /-- The save's eager write-back: none, not all of it is sent; else the messages it waits for (10 R283). -/
  saveFlush : Option (List Nat)
  deriving DecidableEq, Repr

def Core.reset : Core :=
  { powered := true, leaving := false, joined := 0, check := false, leasemax := 256, epoch := 0, l1 := [], icache := []
    ccache := [], tlb := [], walks := [], leases := [], timeView := 0, outside := false, refusalLogged := false
    sampleCount := 0, pfQueue := [], jobs := [], engines := [], probes := [], pinned := [], nextAge := 0
    saving := [], savingFor := false, saveFlush := none }

/-! ### Storage that failed (16 R381). -/

inductive FailedWord where
  | dram (key8 : Nat) | l2 (key8 : Nat) | l1 (core key8 : Nat) | const (core key8 : Nat)
  | vreg (thread reg : Nat) | scratch (block core off8 : Nat) | scale (core engine off8 : Nat)
  | acc (core engine row col : Nat)
  /-- State or a partial result of a bank node, by its number (13 R329, R342). -/
  | bank (node : Nat)
  /-- A dirty L1 byte that was lost when its line was written back; the core's next access to it faults (10 R304). -/
  | lost (core key : Nat)
  /-- The thread CSRs that a handler's entry writes (16 R384). -/
  | entry (thread : Nat)
  deriving DecidableEq, Repr

/-- What goes to the command journal and belongs to no command: dirty L1 bytes that were lost, with core, line and offsets
(10 R304), and a bank node's uncorrectable error, with its place (13 R342). -/
inductive JournalNote where
  | loss (core line : Nat) (lost : List Nat)
  | bankNode (stack channel pch group bank row : Nat)
  deriving DecidableEq, Repr

/-! ### The management core. -/

/-- A queue-table entry (15 R347). -/
structure Queue where
  base : W64
  tail : W64
  head : W64
  ctl : W64
  deriving DecidableEq, Repr

def Queue.reset : Queue := { base := 0, tail := 0, head := 0, ctl := 0 }

/-- A command (15 R348, R353). -/
structure Command where
  queue : Nat
  index : Nat
  bytes : List Byte
  state : Nat
  before : Nat
  fault : Nat
  time : Nat
  slot : W64
  detail : W64
  updates : Nat
  startTime : Nat
  deriving DecidableEq, Repr

/-- A region of the tree (15 R355): the control block's fields, its usage, and the CSRs that dispatch loads from it. -/
structure Region where
  parent : Nat
  cores : BitVec 192
  gangBudget : Nat
  rowBudget : Nat
  vregBudget : Nat
  scratchBudget : Nat
  quantum : Nat
  faultDomain : W64
  walkbase : W64
  asid : BitVec 16
  salt : W64
  inherit : BitVec 16
  privilege : Bool
  priority : Nat
  usedGangs : Nat
  usedRows : Nat
  usedVregs : Nat
  usedScratch : Nat
  /-- CSRs of the fault domain and the region (08 R244), as CSRW left them. -/
  csrTrapvec : Option W64
  csrWalkbase : Option W64
  csrAsid : Option (BitVec 16)
  /-- The effective quantum and the fault domain of its gangs, as the last dispatch decision took them (15 R358). -/
  quantumNow : Option Nat
  domainNow : Option Nat
  deriving DecidableEq, Repr

/-- A channel's memory-policy register and what the controller does (12 R311, R312). -/
structure Channel where
  reg : W32
  half : Bool
  /-- In half width, the upper half of the data lanes is in use. -/
  upper : Bool
  /-- A data lane of the pseudo-channels that fails, as the controller found. -/
  failing : Option Nat
  cause : Nat
  /-- Retraining: target width (true: half) and cause. -/
  retraining : Option (Bool × Nat)
  errors : Nat
  degrees : Nat
  deriving DecidableEq, Repr

def Channel.reset : Channel :=
  { reg := 0, half := false, upper := false, failing := none, cause := 0, retraining := none, errors := 0, degrees := 0 }

/-- A migration (12 R326). -/
structure Migration where
  va : W64
  asid : Nat
  pteAt : Nat
  pte : W64
  toTier : Nat
  step : Nat
  frame : Nat
  await : List Nat
  deriving DecidableEq, Repr

/-- The migration policy (15 R373). -/
structure Policy where
  enable : Bool
  cold : Nat
  hot : Nat
  window : Nat
  most : Nat
  reserve : Nat
  started : Nat
  deriving DecidableEq, Repr

/-- An MRED in progress (06 R197, 13 R330-R342); its key numbers the operations in issue order. -/
structure Mred where
  core : Nat
  gang : Nat
  thread : Nat
  region : Nat
  token : W32
  src : Span
  fmt : BitVec 6
  operator : Nat
  dst : Nat
  /-- Flag key, value, scope. -/
  wait : Option (Nat × W32 × BitVec 4)
  publish : Option (Nat × W32 × BitVec 4)
  /-- Placed at the banks. -/
  far : Bool
  /-- 0 queued at the root, 1 waiting for its flag, 2 running. -/
  phase : Nat
  since : Nat
  /-- Regions in whose pending counts it is registered. -/
  regions : List Nat
  /-- Interleave schemes of the pages of the source, the destination and the flags, waited for and published. -/
  il : Nat
  dstIl : Nat
  waitIl : Nat
  pubIl : Nat
  /-- The lead context, and every context the operation occupies. -/
  lead : Nat
  contexts : List Nat
  deriving DecidableEq, Repr

/-- A save frame of a core (16 R386): where its bytes lie, and the parts that they say. Scratch with its tags stays in the
blocks too. -/
structure Frame where
  core : Nat
  time : Nat
  /-- Where its bytes lie, and how many. -/
  base : Nat
  size : Nat
  /-- Saved for dispatch (15 R354, R359). -/
  dispatch : Bool
  /-- Keys of the blocks whose parts it holds. -/
  blocks : List Nat
  gangs : List (Nat × Gang)
  groups : List (Nat × Group)
  lanes : List (Nat × Lane)
  /-- Engines whose planes and scale memory it holds. -/
  engines : List (Nat × Engine)
  /-- Accumulator words of the blocks' reservations: engine, then row × 64 + column. -/
  acc : List (Nat × Tab (BitVec 34))
  deriving DecidableEq, Repr

/-- Where the device stands (21 R425, R426, R429); `loading`: a FIRMWARE command has stopped the cores. -/
inductive PowerState where
  | recovery | running | loading | entering (step : Nat) | ember | exiting (step : Nat)
  deriving DecidableEq, Repr

/-- An access in a link replay buffer, kept until the destination acknowledges it (21 R422, R423). -/
structure Replayed where
  access : PeerAccess
  /-- A release that is sent again end to end. -/
  endToEnd : Bool
  /-- The slot of the gang that made it. -/
  slot : Nat
  /-- The first hop has accepted it. -/
  accepted : Bool
  deriving DecidableEq, Repr

/-- What the device keeps about one peer device (21 R422, R423). -/
structure Peer where
  /-- Sequence number of the next access sent to it. -/
  nextSeq : Nat
  /-- Accesses kept until acknowledged, oldest first. -/
  replay : List Replayed
  /-- The port that serves it: none, no path is left. -/
  path : Option Nat
  /-- Sequence number of the next access expected from it, and accesses that arrived early. -/
  expect : Nat
  held : List PeerAccess
  deriving DecidableEq, Repr

/-- A link port 0-15, or a die bridge, 16-19 for F0-F3 to H (21 R421, R423). DESIGN CHOICE, log 102. -/
structure Port where
  up : Bool
  /-- A bridge that runs at half its lanes. -/
  half : Bool
  /-- Retries of the flit in flight, in a row. -/
  retries : Nat
  /-- The tick from which no flit was acknowledged. -/
  since : Nat
  deriving DecidableEq, Repr

def Port.reset : Port := { up := true, half := false, retries := 0, since := 0 }

/-- The firmware that runs, and the module flash (21 R429, R430). -/
structure Firmware where
  version : Nat
  /-- Digest of the running image. -/
  digest : List Byte
  /-- Minimum version of the signed configuration, and the configuration records accepted. -/
  minVersion : Nat
  records : List (List Byte)
  image : List Byte
  flash : List Byte
  deriving DecidableEq, Repr

def Firmware.reset : Firmware := { version := 0, digest := [], minVersion := 0, records := [], image := [], flash := [] }

/-- What a management requester got back (21 R432, R433). -/
inductive Reply where
  | version | capabilities | algorithms (ok : Bool) | digests (d : List (List Byte)) | certificate (bytes : List Byte)
  | challengeAuth (bytes : List Byte) | measurements (m : List (Nat × List Byte)) (sig : List Byte) | mctp (bytes : List Byte)
  | vendor (words : List W64) | memory (bytes : List Byte) | error
  deriving DecidableEq, Repr

/-- An interrupt to the host. -/
inductive HostIrq where
  | journal (seq : Nat) | error | memoryEvent (channel : Nat)
  deriving DecidableEq, Repr

/-- One choice of the schedule: time passes, an event happens, a group issues, storage errs: a word fails, or an error of
a unit is corrected (16 R381), or the first hop of a port acknowledges the flits sent to it (21 R421). -/
inductive Choice where
  | wait (cycles : Nat)
  | event (i : Instr)
  | issue (core group : Nat)
  | fails (w : FailedWord)
  | corrected (source unit location : Nat)
  | flitAck (port : Nat)
  deriving DecidableEq, Repr

/-- The corrected errors of one unit and source (16 R383): when the last record of them was written, how many came since,
and where the first of these was. -/
structure Corrected where
  source : Nat
  unit : Nat
  last : Nat
  count : Nat
  location : Nat
  deriving DecidableEq, Repr

/-- What a partition has issued in the current cycle (15 R369). -/
structure CycleUse where
  core : Nat
  part : Nat
  /-- Groups that issued, and groups that were ready beside them. -/
  issuers : List Nat
  ready : List Nat
  /-- Slots of the gangs that issued. -/
  gangs : List Nat
  /-- Threads that issued, and the group that may still issue the second slot of a pair (03 R80). -/
  threads : List Nat
  pair : Option Nat
  /-- Ports taken: 1 the vector ALU, 2 memory, 3 engines; 4 an engine's instruction of class 0xA. -/
  ports : List Nat
  /-- Groups that were tried in the cycle and could not issue. -/
  tried : List Nat
  deriving DecidableEq, Repr

structure State where
  /-- Device time base, ticks, as the hub's die counts it (00 R6). -/
  time : Nat
  /-- Core cycles since reset: 13 of them are 10 ticks (00 R6). -/
  cycle : Nat
  mem : Tab Byte
  /-- Bytes the current step stores, newest first; the step commits them. -/
  writes : List (Nat × Byte)
  cores : Tab Core
  lanes : Tab Lane
  gangs : Tab Gang
  groups : Tab Group
  blocks : Tab Block
  launches : Tab Launch
  net : Tab Msg
  requests : Tab Request
  records : Tab Record
  drains : Tab Drain
  /-- The lines that each home slice's L2 may hold, newest first: those it has served and not replaced (00 R2, 10 R279). -/
  l2 : Tab (List Nat)
  /-- Device lines that the host holds in its cache (21 R420). -/
  hostLines : List Nat
  leaseTab : Tab HomeLease
  leaseQueue : List LeaseReq
  regionDir : Tab RegionDir
  /-- Cores missing from a home slice's present-cores mask, by slice (10 R289). -/
  absent : Tab (List Nat)
  failed : List FailedWord
  pfRecords : Tab PfRecord
  mreds : Tab Mred
  migrations : Tab Migration
  policy : Option Policy
  freeFrames : List Nat
  /-- HBM frames beyond `freeFrames` that migrations have taken (15 R373). -/
  spareUsed : Nat
  sampleK : Nat
  sampleBase : W64
  sampleHead : W64
  samples : List (List Byte)
  sampleLost : Bool
  regions : Tab Region
  queues : Tab Queue
  commands : Tab Command
  nextSeq : Nat
  journalBase : W64
  journalSize : Nat
  logBase : W64
  logSize : Nat
  logSeq : Nat
  corrected : List Corrected
  /-- What the journal writer has noted beside the commands' records. -/
  notes : List JournalNote
  haltControl : W64
  channels : Tab Channel
  emulationTable : W64
  emulationLease : W64
  recoveryAddr : Nat
  recoveryLength : Nat
  power : PowerState
  emberArmed : Bool
  /-- A supply warning, and a supply-good, that the device still has to act on (21 R424, R428). -/
  warned : Bool
  supplied : Bool
  /-- Configuration records that failed verification, by type and offset, to be reported (21 R430). -/
  badRecords : List (Nat × Nat)
  frames : Tab Frame
  peers : Tab Peer
  ports : Tab Port
  firmware : Firmware
  replies : List Reply
  irqs : List HostIrq
  /-- What each partition has issued in the current cycle. -/
  uses : List CycleUse
  /-- The model's own fields: numbers given so far, the counter of free values, instructions issued so far, the schedule, what is still due in
  the current cycle, and the group that issues as (core, group). -/
  nextId : Nat
  fresh : Nat
  issued : Nat
  agenda : List Choice
  turn : List Choice
  cur : Option (Nat × Nat)
  /-- Instructions of rounds completed by an exit that wait (07 R434). -/
  heldIssues : List Once
  deriving DecidableEq, Repr

/-- Where the firmware reserves the emulation lock table, 16 KiB, and the emulation lease area, 288 MiB, at bring-up: near the
end of HBM, in memory that it gives to nobody else (16 R379, R380). DESIGN CHOICE, log 99. -/
def lockTable : W64 := 0x7FE0000000
def leaseArea : W64 := 0x7FE0010000

/-- The machine right after reset and a good power-up: empty of work, every core joined, time base 0. -/
def State.reset : State :=
  { time := 0, cycle := 0, mem := [], writes := [], cores := [], lanes := [], gangs := [], groups := [], blocks := []
    launches := [], net := [], requests := [], records := [], drains := [], l2 := [], hostLines := [], leaseTab := [], leaseQueue := []
    regionDir := [], absent := [], failed := [], pfRecords := [], mreds := [], migrations := [], policy := none
    freeFrames := [], spareUsed := 0, sampleK := 31, sampleBase := 0, sampleHead := 0, samples := [], sampleLost := false, regions := []
    queues := [], commands := [], nextSeq := 1, journalBase := 0, journalSize := 0, logBase := 0, logSize := 0
    logSeq := 1, corrected := [], notes := [], haltControl := 0, channels := [], emulationTable := lockTable
    emulationLease := leaseArea, recoveryAddr := 0, recoveryLength := 0, power := .running, emberArmed := false, warned := false, supplied := false, badRecords := [], frames := [], peers := [], ports := []
    firmware := Firmware.reset, replies := [], irqs := [], uses := []
    nextId := 1, fresh := 0, issued := 0, agenda := [], turn := [], cur := none, heldIssues := [] }

end Sys2Proof.Machine
end

