-- ==== Sys2Proof/Machine/Access.lean ====
section
/-!
DEFINITION. Reading and writing the parts of the state: cores, gangs, threads and their registers with the
fixed latencies of 03 R81, memory bytes, messages, and fresh numbers.
-/

namespace Sys2Proof.Machine

/-! Numbers (15 R361). -/

def slotOf (t : Nat) : Nat := t / 32
def laneOf (t : Nat) : Nat := t % 32
def coreOf (slot : Nat) : Nat := slot / 96
def partOf (slot : Nat) : Nat := slot % 96 / 12
def dieOf (core : Nat) : Nat := core / 48
/-- The key of a block among the blocks of every launch. -/
def blockKey (launch index : Nat) : Nat := launch * 2 ^ 32 + index

/-- A mask of lanes from thread keys. -/
def laneMask (ts : List Nat) : W32 := ts.foldl (fun m t => m ||| (1#32 <<< laneOf t)) 0
/-- The lanes of a mask, lowest first. -/
def maskLanes (m : W32) : List Nat := (List.range 32).filter m.getLsbD

/-- Words of a value, lowest first, and a value from its words. -/
def wordsOf : Nat → Nat → List W32
  | 0, _ => []
  | n + 1, v => BitVec.ofNat 32 v :: wordsOf n (v / 2 ^ 32)
def ofWords : List W32 → Nat
  | [] => 0
  | w :: ws => w.toNat + 2 ^ 32 * ofWords ws

/-! Defaults of absent parts. -/

def Lane.reset : Lane :=
  { live := false, v := [], p := 0, status := 0, epc := 0, ecause := 0, eaddr := 0, rng := 0, lineage := 0, popindex := 0
    timeRead := 0, nd := 0, pend := [], lock := [] }

def Header.none : Header :=
  { addr := 0, version := 5, population := false, pairFlag := false, progress := true, check := false, vregs := 8
    kregs := 16, argCount := 0, entryCount := 1, spawnpool := 0, weirs := 0, scratch := 0, fairtime := 2048, accrows := 0
    windows := [], entries := [] }

def Gang.reset : Gang :=
  { launch := 0, block := 0, index := 0, regBase := 0, allocRegs := 8, age := 0, k := [], kpend := [], klock := []
    weirs := [], fairtime := 2048, fairCount := 0, fairDue := false, tokens := [], bars := [], pair := .unpaired
    partner := none, role := 3, pairCount := 0, pairOp := none, spawned := 0, spawnPool := false, quantum := 0
    engineFault := [], halted := false, barrierMember := [] }

def Launch.none : Launch :=
  { seq := 0, queue := 0, region := 0, header := Header.none, grid := (1, 1, 1), threads := 32, args := [], seed := 0
    nblocks := 0, popsize := 0, place := .none, nextBlock := 0, waiting := [], generation := 0, rsmp := .idle
    faulted := false, pool := [], ranOn := [], ending := .none, staging := .none }

def Region.none : Region :=
  { parent := 0, cores := 0, gangBudget := 0, rowBudget := 0, vregBudget := 0, scratchBudget := 0, quantum := 0
    faultDomain := 0, walkbase := 0, asid := 0, salt := 0, inherit := 0, privilege := false, priority := 0
    usedGangs := 0, usedRows := 0, usedVregs := 0, usedScratch := 0, csrTrapvec := .none, csrWalkbase := .none
    csrAsid := .none, quantumNow := .none, domainNow := .none }

def Block.none : Block :=
  { launch := 0, index := 0, tile := 0, threads := 0, gangs := 0, scope := 3, parts := [], bars := [], started := 0
    saved := false }

def BlockPart.none : BlockPart := { core := 0, scratch := [], tags := [], accBase := 0, slots := [] }

/-- The link port of a peer while every path is up: which port leads where is the links' layout, left open (21 R421). -/
def portOf (peer : Nat) : Nat := peer % 16
def Peer.reset (p : Nat) : Peer := { nextSeq := 0, replay := [], path := some (portOf p), expect := 0, held := [] }

namespace State

def core (s : State) (c : Nat) : Core := (tfind s.cores c).getD Core.reset
def setCore (s : State) (c : Nat) (v : Core) : State := { s with cores := tput s.cores c v }
def modCore (s : State) (c : Nat) (f : Core → Core) : State := s.setCore c (f (s.core c))
def lane (s : State) (t : Nat) : Lane := (tfind s.lanes t).getD Lane.reset
def setLane (s : State) (t : Nat) (v : Lane) : State := { s with lanes := tput s.lanes t v }
def modLane (s : State) (t : Nat) (f : Lane → Lane) : State := s.setLane t (f (s.lane t))
def gang (s : State) (n : Nat) : Gang := (tfind s.gangs n).getD Gang.reset
def setGang (s : State) (n : Nat) (v : Gang) : State := { s with gangs := tput s.gangs n v }
def modGang (s : State) (n : Nat) (f : Gang → Gang) : State :=
  match tfind s.gangs n with
  | some g => s.setGang n (f g)
  | none => s
def modGroup (s : State) (g : Nat) (f : Group → Group) : State := { s with groups := tmod s.groups g f }
def block (s : State) (k : Nat) : Block := (tfind s.blocks k).getD Block.none
def modBlock (s : State) (k : Nat) (f : Block → Block) : State := { s with blocks := tmod s.blocks k f }
def launch (s : State) (q : Nat) : Launch := (tfind s.launches q).getD Launch.none
def modLaunch (s : State) (q : Nat) (f : Launch → Launch) : State := { s with launches := tmod s.launches q f }
def region (s : State) (a : Nat) : Region := (tfind s.regions a).getD Region.none
def queue (s : State) (q : Nat) : Queue := (tfind s.queues q).getD Queue.reset
def channel (s : State) (c : Nat) : Channel := (tfind s.channels c).getD Channel.reset
def port (s : State) (p : Nat) : Port := (tfind s.ports p).getD Port.reset
/-- Another port that is up for a peer. -/
def otherPort (s : State) (port : Nat) : Option Nat := (List.range 16).find? (fun q => q != port && (s.port q).up)
/-- What is kept about a peer; one that is first used while its port is down goes another way (21 R423). -/
def peer (s : State) (p : Nat) : Peer :=
  (tfind s.peers p).getD (if (s.port (portOf p)).up then Peer.reset p else { Peer.reset p with path := s.otherPort (portOf p) })

/-- The cycle counter of a core (01 R25). -/
def clockOf (s : State) (c : Nat) : Nat := s.cycle - (s.core c).joined
/-- The kernel header of a gang. -/
def headerOf (s : State) (slot : Nat) : Header := (s.launch (s.gang slot).launch).header
/-- The block of a gang. -/
def blockOf (s : State) (slot : Nat) : Nat := blockKey (s.gang slot).launch (s.gang slot).block
/-- The region of a gang, by its control block's address. -/
def regionOf (s : State) (slot : Nat) : Nat := (s.launch (s.gang slot).launch).region

/-- A fresh number. -/
def fresh1 (s : State) : Nat × State := (s.nextId, { s with nextId := s.nextId + 1 })

/-- Memory as the current step sees it: the step's own stores first. DESIGN CHOICE, log 1. -/
def byteAt (s : State) (a : Nat) : Byte :=
  match s.writes.find? (fun w => w.1 == a) with
  | some w => w.2
  | none => tget 0 s.mem a
def bytesAt (s : State) (a n : Nat) : List Byte :=
  if s.writes.isEmpty then tgets 0 s.mem a n else (List.range n).map (fun i => s.byteAt (a + i))
def natAt (s : State) (a n : Nat) : Nat := leNat (s.bytesAt a n)
/-- Record a stored byte; the step commits it. A write covers a failed DRAM or L2 word (16 R381). -/
def storeByte (s : State) (a : Nat) (b : Byte) : State := { s with writes := (a, b) :: s.writes }
def storeBytes (s : State) : Nat → List Byte → State
  | _, [] => s
  | a, b :: bs => (s.storeByte a b).storeBytes (a + 1) bs
def storeCells (s : State) (base : Nat) (cells : List (Nat × Byte)) : State :=
  cells.foldl (fun s c => s.storeByte (base + c.1) c.2) s

/-- Send a message. DEDUCED, log 41. -/
def send (s : State) (m : Msg) : Nat × State :=
  (s.nextId, { s with nextId := s.nextId + 1, net := tput s.net s.nextId m })
def send' (s : State) (m : Msg) : State := (s.send m).2
def dropMsg (s : State) (id : Nat) : State := { s with net := tdel s.net id }

end State

/-- Memory after a step's stores, the oldest first. -/
def commitWrites (m : Tab Byte) (ws : List (Nat × Byte)) : Tab Byte := ws.foldr (fun w m => tset 0 m w.1 w.2) m

/-! ### Registers of a thread. -/

def Lane.base (l : Lane) : RegRef → W32
  | .v n => tget 0 l.v n
  | .p n => if l.p.getLsbD n then 1 else 0
  | .k _ => 0
def Lane.setBase (l : Lane) (r : RegRef) (x : W32) : Lane :=
  match r with
  | .v n => { l with v := tset 0 l.v n x }
  | .p n => if n < 7 then { l with p := if x == 0 then l.p &&& ~~~(1#7 <<< n) else l.p ||| (1#7 <<< n) } else l
  | .k _ => l

/-- A register as the thread's next instruction reads it: the latest result whose distance is reached (03 R81). -/
def Lane.read (l : Lane) (r : RegRef) : W32 :=
  match l.pend.find? (fun e => e.reg == r && e.due ≤ l.nd) with
  | some e => e.value
  | none => l.base r
def Lane.vreg (l : Lane) (n : Nat) : W32 := l.read (.v n)
def Lane.vpair (l : Lane) (n : Nat) : W64 := joinWords (l.vreg (n + 1)) (l.vreg n)
/-- Predicate 7 reads true (01 R10). -/
def Lane.pred (l : Lane) (n : Nat) : Bool := n == 7 || l.read (.p n) != 0

/-- Write a result of latency `lat`, or at once when it is interlocked; predicate 7 discards (01 R10). -/
def Lane.write (l : Lane) (r : RegRef) (x : W32) (lat : Option Nat) : Lane :=
  if r == .p 7 then l
  else
    match lat with
    | some n => { l with pend := ⟨r, x, l.nd + n⟩ :: l.pend }
    | none => { (l.setBase r x) with pend := l.pend.filter (fun e => e.reg != r) }

/-- Move results whose distance is reached into the registers, oldest first (03 R81). -/
def Lane.settle (l : Lane) : Lane :=
  let step := fun (e : Pend) (acc : Lane × List Pend) =>
    if e.due ≤ l.nd then (acc.1.setBase e.reg e.value, acc.2.filter (fun o => o.reg != e.reg))
    else (acc.1, e :: acc.2)
  let r := l.pend.foldr step (l, [])
  { r.1 with pend := r.2 }
/-- Count a stall count (03 R81). -/
def Lane.advance (l : Lane) (stall : Nat) : Lane := { l with nd := l.nd + stall }.settle

/-- A thread's registers with every result that is on its way. -/
def Lane.drained (l : Lane) : Lane := { l.pend.foldr (fun e l => l.setBase e.reg e.value) l with pend := [] }
/-- The latest fixed-latency result of a register is not reached (03 R83). -/
def Lane.tooSoon (l : Lane) (r : RegRef) : Bool := (l.pend.find? (fun e => e.reg == r)).any (fun e => l.nd < e.due)

/-! ### Scalar registers of a gang (04 R118). -/

/-- Does the result reach a reading group: at once outside the writer's group, by R81 inside it? DESIGN CHOICE, log 89. -/
def KPend.visible (e : KPend) (ts : List Nat) (nd : Nat → Nat) : Bool :=
  if ts.all (fun t => e.writers.any (fun w => w.1 == t)) then
    match e.writers.find? (fun w => some w.1 == ts.head?) with
    | some w => w.2 ≤ nd w.1
    | none => true
  else true
def Gang.kread (g : Gang) (ts : List Nat) (nd : Nat → Nat) (r : Nat) : W32 :=
  match g.kpend.find? (fun e => e.reg == r && e.visible ts nd) with
  | some e => e.value
  | none => tget 0 g.k r
def Gang.kwrite (g : Gang) (ts : List Nat) (nd : Nat → Nat) (r : Nat) (x : W32) (lat : Option Nat) : Gang :=
  match lat with
  | some n => { g with kpend := ⟨r, x, ts.map (fun t => (t, nd t + n))⟩ :: g.kpend }
  | none => { g with k := tset 0 g.k r x, kpend := g.kpend.filter (fun e => e.reg != r) }
/-- Move scalar results that every group reads into the registers. -/
def Gang.settle (g : Gang) (nd : Nat → Nat) (live : Nat → Bool) : Gang :=
  let step := fun (e : KPend) (acc : Tab W32 × List KPend) =>
    if e.writers.all (fun w => w.2 ≤ nd w.1 || !live w.1) then
      (tset 0 acc.1 e.reg e.value, acc.2.filter (fun o => o.reg != e.reg))
    else (acc.1, e :: acc.2)
  let r := g.kpend.foldr step (g.k, [])
  { g with k := r.1, kpend := r.2 }

namespace State

def ndOf (s : State) (t : Nat) : Nat := (s.lane t).nd
/-- Scalar register n as threads `ts` of a gang read it. -/
def kreg (s : State) (ts : List Nat) (slot n : Nat) : W32 := (s.gang slot).kread ts s.ndOf n
def kpair (s : State) (ts : List Nat) (slot n : Nat) : W64 := joinWords (s.kreg ts slot (n + 1)) (s.kreg ts slot n)
def writeK (s : State) (ts : List Nat) (slot n : Nat) (x : W32) (lat : Option Nat) : State :=
  s.modGang slot (fun g => g.kwrite ts s.ndOf n x lat)
def writeKs (s : State) (ts : List Nat) (slot : Nat) (lat : Option Nat) : Nat → List W32 → State
  | _, [] => s
  | n, x :: xs => (s.writeK ts slot n x lat).writeKs ts slot lat (n + 1) xs
def writeV (s : State) (t n : Nat) (x : W32) (lat : Option Nat) : State := s.modLane t (fun l => l.write (.v n) x lat)
def writeVs (s : State) (t : Nat) (lat : Option Nat) : Nat → List W32 → State
  | _, [] => s
  | n, x :: xs => (s.writeV t n x lat).writeVs t lat (n + 1) xs
def writeP (s : State) (t n : Nat) (b : Bool) (lat : Option Nat) : State :=
  s.modLane t (fun l => l.write (.p n) (if b then 1 else 0) lat)

/-- The groups of a core. -/
def groupsOf (s : State) (c : Nat) : List (Nat × Group) := s.groups.filter (fun g => g.2.core == c)
/-- Live threads of a gang. -/
def liveOf (s : State) (slot : Nat) : List Nat :=
  (List.range 32).filterMap (fun l => if (s.lane (32 * slot + l)).live then some (32 * slot + l) else none)
/-- The group that holds a thread. -/
def groupWith (s : State) (t : Nat) : Option (Nat × Group) := s.groups.find? (fun g => g.2.members.contains t)

end State

end Sys2Proof.Machine
end

