-- ==== Sys2Proof/Machine/Home.lean ====
section
/-!
DEFINITION. L1 lines, write-backs, requests, and the homes: release records, drains and probes (10 R276-R290, R297).
A message stays in `net` until its event takes it; the two ends of one core-to-slice pair see each other's messages in
the order sent (10 R280).
-/

namespace Sys2Proof.Machine

namespace State

/-! ### Order of messages. -/

/-- The cores for which a message counts as sent: a merged reduction is a message of each of its cores (10 R280, R297). -/
def sentBy (m : Msg) (c : Nat) : Bool :=
  m.core == c || (match m.body with | .red _ _ _ _ _ gs => gs.any (fun g => coreOf g == c) | _ => false)
/-- A message of the core to the slice of a line, older than number `id`, is in flight (10 R280). -/
def sentBefore (s : State) (c line id : Nat) : Bool :=
  s.net.any (fun p => p.1 < id && p.2.toHome && homeOf p.2.line == homeOf line && sentBy p.2 c)
/-- No older message of the same direction and pair is in flight (10 R280). DEDUCED, log 32. -/
def deliverable (s : State) (id : Nat) : Bool :=
  match tfind s.net id with
  | none => false
  | some m =>
    if m.toHome then !s.sentBefore m.core m.line id
    else !s.net.any (fun p => p.1 < id && p.2.core == m.core && !p.2.toHome && homeOf p.2.line == homeOf m.line)

/-- A message of the slice of a line to a core is in flight: an answer of the slice reaches the core after it (10 R280). -/
def sentBack (s : State) (c line : Nat) : Bool :=
  s.net.any (fun p => p.2.core == c && !p.2.toHome && homeOf p.2.line == homeOf line)

/-! ### The L2 slices, and the lines that the host caches. -/

/-- The line is in its home slice's L2 (10 R302). -/
def inL2 (s : State) (line : Nat) : Bool := ((tfind s.l2 (homeOf line)).getD []).contains line && Config.l2Hit s.fresh
/-- The slice takes a line of device memory that it serves, a full one for some victim; it holds no line of a region in state M
(00 R2, 10 R279). -/
def touchL2 (s : State) (line : Nat) : State :=
  let mine := (tfind s.l2 (homeOf line)).getD []
  if !isDevMem (line * 128) || (tfind s.regionDir (line / 32)).any (fun d => d.state == 1) || mine.contains line then s
  else
    let kept := if mine.length < Config.l2Lines then mine else mine.eraseIdx (Config.victim s.fresh mine.length % mine.length)
    { s with l2 := tput s.l2 (homeOf line) (line :: kept) }
/-- The host loses its copy of a line that the device writes or registers a release record for (21 R420). -/
def dropHost (s : State) (line : Nat) : State :=
  if s.hostLines.isEmpty then s else { s with hostLines := s.hostLines.filter (fun l => l != line) }
/-- The home of a line takes bytes of it. -/
def takeWrite (s : State) (line : Nat) : State := (s.touchL2 line).dropHost line

/-! ### L1. -/

def l1Line (s : State) (c line : Nat) : Option L1Line := tfind (s.core c).l1 line
def setL1 (s : State) (c line : Nat) (l : L1Line) : State := s.modCore c (fun k => { k with l1 := tput k.l1 line l })
/-- Failed words of a core's L1 of which no byte is held any more are forgotten (10 R304). -/
def pruneL1 (s : State) (c : Nat) : State :=
  if s.failed.isEmpty then s
  else { s with failed := s.failed.filter (fun w => match w with
    | .l1 c' k => c' != c || (s.l1Line c (k / 16)).any (fun l => l.cells.any (fun q => q.1 / 8 == k % 16))
    | _ => true) }
/-- A line leaves L1 for another (10 R277). -/
def replaceL1 (s : State) (c line : Nat) : State := (s.modCore c (fun k => { k with l1 := tdel k.l1 line })).pruneL1 c
/-- The scale cache drops every line (18 R399). -/
def dropScales (s : State) (c : Nat) : State :=
  if (s.core c).engines.all (fun e => e.2.cache.isEmpty) then s
  else s.modCore c (fun k => { k with engines := k.engines.map (fun e => (e.1, { e.2 with cache := [] })) })
/-- A line is dropped from L1 (10 R278), and every line of the scale cache with it (18 R399). -/
def dropL1 (s : State) (c line : Nat) : State := (s.dropScales c).replaceL1 c line
def dirtyCells (l : L1Line) : List (Nat × Byte) := l.cells.filterMap (fun p => if p.2.2 then some (p.1, p.2.1) else none)
def cleaned (l : L1Line) : L1Line := { l with cells := l.cells.map (fun p => (p.1, p.2.1, false)), epoch := none }

/-- Dirty cells whose word failed leave the write-back mask (10 R304): the cells to write, and the lost offsets. -/
def wbCells (s : State) (c line : Nat) (cells : List (Nat × Byte)) : List (Nat × Byte) × List Nat :=
  let lost := fun (p : Nat × Byte) => s.failed.contains (.l1 c ((line * 128 + p.1) / 8))
  (cells.filter (fun p => !lost p), (cells.filter lost).map (fun p => p.1))

/-- The line is in the lease buffer, or under an implicit lease. -/
def leasedLine (s : State) (c line : Nat) : Bool := (s.core c).leases.any (fun l => l.line == line && !l.revoked)
def pinnedLine (s : State) (c line : Nat) : Bool := (s.core c).pinned.contains line
/-- The line is in the lease buffer, which stands beside L1 (10 R292); a line whose release is not acknowledged keeps a way of
its set. DEDUCED, log 104. -/
def buffered (s : State) (c line : Nat) : Bool :=
  (s.core c).leases.any (fun l => l.line == line && !l.revoked && l.holder.isSome) && !s.pinnedLine c line

/-- Lost bytes: they leave L1, and the core's next access to them faults (10 R304). -/
def loseBytes (s : State) (c line : Nat) (lost : List Nat) : State :=
  match s.l1Line c line with
  | some l =>
    let gone := lost.filter (fun o => (tfind l.cells o).isSome)
    if gone.isEmpty then s
    else ({ s with failed := s.failed ++ gone.map (fun o => FailedWord.lost c (line * 128 + o)) }.setL1 c line
      { l with cells := l.cells.filter (fun q => !gone.contains q.1) }).pruneL1 c
  | none => s
/-- Write a line's dirty bytes back; they stay valid and clean (10 R277). A leased line stays as it is (10 R292). The
messages sent, newest state last. -/
def writeBack (s : State) (c line : Nat) : List Nat × State :=
  match s.l1Line c line with
  | none => ([], s)
  | some l =>
    match if s.leasedLine c line then [] else dirtyCells l with
    | [] => ([], s)
    | cells =>
      let w := s.wbCells c line cells
      let r := s.send { core := c, toHome := true, line := line, body := .writeBack w.1 w.2 }
      ([r.1], (r.2.setL1 c line (cleaned l)).loseBytes c line w.2)
def writeBackAll (s : State) (c : Nat) (lines : List Nat) : List Nat × State :=
  lines.foldl (fun acc l => let r := acc.2.writeBack c l; (acc.1 ++ r.1, r.2)) ([], s)
/-- The lines of a core with dirty bytes. -/
def dirtyLines (s : State) (c : Nat) : List Nat :=
  (s.core c).l1.filterMap (fun l => if l.2.cells.any (fun q => q.2.2) then some l.1 else none)

/-- The lines of the set of a line, without those in the lease buffer (10 R276, R292). -/
def setOf (s : State) (c line : Nat) : List Nat :=
  ((s.core c).l1.filter (fun p => p.1 % Config.l1Sets == line % Config.l1Sets && !s.buffered c p.1)).map (fun p => p.1)
/-- A line that may be evicted: its release is acknowledged, no implicit lease stands on it (10 R282, R295). -/
def evictable (s : State) (c line : Nat) : Bool := !s.pinnedLine c line && !s.leasedLine c line
/-- The set of a line has a way for it, its own or another's. -/
def setRoom (s : State) (c line : Nat) : Bool :=
  let same := s.setOf c line
  same.contains line || same.length < Config.l1Ways || same.any (s.evictable c)
/-- A line may be written in L1: it is there, or in the lease buffer, or its set has a way for it. -/
def hasWay (s : State) (c line : Nat) : Bool := (s.l1Line c line).isSome || s.buffered c line || s.setRoom c line
/-- Evict a line of a list: its dirty bytes go home and it is dropped (10 R277). -/
def evictOne (s : State) (c : Nat) (lines : List Nat) : State :=
  let free := lines.filter (s.evictable c)
  match free[Config.victim s.fresh free.length % free.length]? with
  | some l => let r := { s with fresh := s.fresh + 1 }.writeBack c l; r.2.replaceL1 c l
  | none => s
/-- Room for a line in its set (10 R277). -/
def makeRoom (s : State) (c line : Nat) : State :=
  let same := s.setOf c line
  if same.contains line || same.length < Config.l1Ways then s else s.evictOne c same
/-- A line comes back from the lease buffer to a set that may be full (10 R276, R292): it is itself a line that may go. -/
def trimSet (s : State) (c line : Nat) : State :=
  let same := s.setOf c line
  if same.length ≤ Config.l1Ways then s else s.evictOne c same
/-- The line, allocated if it was absent. -/
def allocL1 (s : State) (c line : Nat) : L1Line × State :=
  match s.l1Line c line with
  | some l => (l, s)
  | none =>
    let s := if s.buffered c line then s else s.makeRoom c line
    (L1Line.empty, s.setL1 c line L1Line.empty)

/-- The core writes a line: the scale cache's copy of it goes (09 R259, 18 R399). -/
def dropScale (s : State) (c line : Nat) : State :=
  if (s.core c).engines.all (fun e => (tfind e.2.cache line).isNone) then s
  else s.modCore c (fun k => { k with engines := k.engines.map (fun e => (e.1, { e.2 with cache := tdel e.2.cache line })) })
/-- Store bytes into L1: valid and dirty (10 R277). -/
def l1Store (s : State) (c key : Nat) (bs : List Byte) : State :=
  let r := (s.dropScale c (key / 128)).allocL1 c (key / 128)
  let cells := (r.1.cells : Tab (Byte × Bool))
  let cells := (bs.zip (List.range bs.length)).foldl (fun t p => tput t (key % 128 + p.2) (p.1, true)) cells
  r.2.setL1 c (key / 128) { r.1 with cells := cells }
/-- Bytes that the home has too: valid and clean. -/
def l1Put (s : State) (c key : Nat) (bs : List Byte) : State :=
  let r := (s.dropScale c (key / 128)).allocL1 c (key / 128)
  let cells := (bs.zip (List.range bs.length)).foldl
    (fun (t : Tab (Byte × Bool)) p => tput t (key % 128 + p.2) (p.1, false)) r.1.cells
  r.2.setL1 c (key / 128) { r.1 with cells := cells }
/-- Bytes that the core has written at their target: those that L1 holds and that are not dirty follow (09 R259). -/
def l1Follow (s : State) (c key : Nat) (bs : List Byte) : State :=
  match s.l1Line c (key / 128) with
  | none => s
  | some l => (s.dropScale c (key / 128)).setL1 c (key / 128) { l with
      cells := l.cells.map (fun q =>
        if q.2.2 || q.1 < key % 128 || key % 128 + bs.length ≤ q.1 then q else (q.1, bs.getD (q.1 - key % 128) 0, false)) }
/-- The smallest aligned grain of 16, 32, 64 or 128 bytes that covers offsets lo to hi: start and length (10 R277). -/
def grainOf (lo hi : Nat) : Nat × Nat :=
  let n := if lo / 16 == hi / 16 then 16 else if lo / 32 == hi / 32 then 32 else if lo / 64 == hi / 64 then 64 else 128
  (lo / n * n, n)
/-- Fill bytes that are not dirty (10 R277). -/
def l1Fill (s : State) (c line : Nat) (off : Nat) (bs : List Byte) (cConf sFilled : Bool) : State :=
  let r := s.allocL1 c line
  let cells := (bs.zip (List.range bs.length)).foldl
    (fun (t : Tab (Byte × Bool)) p =>
      -- a word that has failed takes nothing while bytes of it wait for their write-back (10 R304)
      if s.failed.contains (.l1 c ((line * 128 + off + p.2) / 8)) then t
      else match tfind t (off + p.2) with
      | some (_, true) => t
      | _ => tput t (off + p.2) (p.1, false)) r.1.cells
  r.2.setL1 c line { r.1 with cells := cells, cConf := r.1.cConf || cConf, sFilled := r.1.sFilled || sFilled }
/-- The valid bytes of an access, by offset in it. -/
def l1Bytes (s : State) (c key n : Nat) : Tab Byte :=
  match s.l1Line c (key / 128) with
  | none => []
  | some l => (List.range n).filterMap (fun i => (tfind l.cells (key % 128 + i)).map (fun b => (i, b.1)))
/-- The replies still awaited for some lines are not kept in L1: they may be older than what made the core drop its bytes. -/
def markStale (s : State) (c : Nat) (p : Nat → Bool) : State :=
  { s with requests := s.requests.map (fun r => if r.2.core == c && p r.2.line then (r.1, { r.2 with stale := true }) else r) }
/-- Drop L1 bytes that are not dirty, of lines that are not leased: what an acquire does (10 R281). -/
def dropClean (s : State) (c : Nat) : State :=
  let s := s.markStale c (fun _ => true)
  (s.modCore c (fun k =>
    let keep := fun (p : Nat × L1Line) =>
      if k.leases.any (fun l => l.line == p.1 && !l.revoked) then some p
      else
        let cells := p.2.cells.filter (fun q => q.2.2)
        if cells.isEmpty && !k.pinned.contains p.1 then none
        else some (p.1, { p.2 with cells := cells, sFilled := false })
    { k with l1 := k.l1.filterMap keep, engines := k.engines.map (fun e => (e.1, { e.2 with cache := [] })) })).pruneL1 c
/-- Drop the L1 copies of some bytes, dirty or not, and every line of the scale cache (18 R399). -/
def dropBytes (s : State) (c key n : Nat) : State :=
  let s := s.dropScales c
  match s.l1Line c (key / 128) with
  | none => s
  | some l => (s.setL1 c (key / 128)
      { l with cells := l.cells.filter (fun q => q.1 < key % 128 || key % 128 + n ≤ q.1) }).pruneL1 c

/-! ### Outstanding requests (10 R277). -/

/-- Messages that their home has not served: in flight, or waiting for a drain there. -/
def unserved (s : State) : List Msg := s.net.map (fun p => p.2) ++ s.drains.flatMap (fun d => d.2.reads)
/-- Requests, write-backs and reductions of a core that are not answered. -/
def outstanding (s : State) (c : Nat) : Nat :=
  (s.requests.filter (fun p => p.2.core == c)).length +
    (s.unserved.filter (fun m => m.toHome && (match m.body with
      | .writeBack .. | .leaseWrite .. => m.core == c
      | .red _ _ _ _ _ gs => gs.any (fun g => coreOf g == c)
      | _ => false))).length
/-- A request of the core covers the line; a waiting LSE does not hold other accesses up. -/
def lineBusy (s : State) (c line : Nat) : Bool :=
  s.requests.any (fun p => p.2.core == c && p.2.line == line && p.2.kind != .leaseLoad)
/-- A reduction of the core to some of the bytes is not acknowledged (10 R298). -/
def redPending (s : State) (c key n : Nat) : Bool :=
  s.unserved.any (fun m => match m.body with
    | .red cells sz _ _ _ gs => gs.any (fun g => coreOf g == c) && cells.any (fun k => k.1 < key + n && key < k.1 + sz)
    | _ => false)
/-- Write lines back while outstanding entries are free (10 R277); whether all of them went. -/
def writeBackFit (s : State) (c : Nat) (lines : List Nat) : Bool × State :=
  let fit := lines.take (Config.maxOutstanding - s.outstanding c)
  (fit.length == lines.length, (s.writeBackAll c fit).2)
/-- Send a request: it is outstanding until answered. -/
def request (s : State) (r : Request) : Nat × State :=
  let id := s.nextId
  let s := { s with nextId := id + 1, requests := tput s.requests id r }
  (id, s.send' { core := r.core, toHome := true, line := r.line, body := .read id })

/-! ### Presence, records, drains (10 R284-R290). -/

def present (s : State) (slice c : Nat) : Bool := !((tfind s.absent slice).getD []).contains c
def record (s : State) (line : Nat) : Option Record := tfind s.records line

/-- A registration (c, e) changes the record (10 R284). -/
def register1 (r : Option Record) (c e : Nat) : Record :=
  match r with
  | none => .pointer [(c, e)]
  | some (.pointer es) =>
    if es.any (fun p => p.1 == c) then .pointer (es.map (fun p => if p.1 == c then (c, e) else p))
    else if es.length < 4 then .pointer (es ++ [(c, e)])
    else .coarse ((es.map (·.1) ++ [c]).foldl (fun v k => v ||| (1#24 <<< (k / 8))) 0)
  | some (.coarse v) => .coarse (v ||| (1#24 <<< (c / 8)))

/-- Who is probed and with which epoch (10 R286). -/
def probesOf (s : State) (line : Nat) : Record → List (Nat × Option Nat)
  | .pointer es => (es.filter (fun p => s.present (homeOf line) p.1)).map (fun p => (p.1, some p.2))
  | .coarse v => ((List.range 192).filter (fun c => v.getLsbD (c / 8) && s.present (homeOf line) c)).map (fun c => (c, none))

/-- The record of a line starts a drain with no reader yet. -/
def startDrain (s : State) (line : Nat) : State :=
  match tfind s.drains line, s.record line with
  | some _, _ => s
  | none, none => s
  | none, some r =>
    let ps := s.probesOf line r
    if ps.isEmpty then { s with records := tdel s.records line }
    else
      let s := { s with drains := tput s.drains line { await := ps.map (·.1), reads := [], regs := [] } }
      ps.foldl (fun s p => s.send' { core := p.1, toHome := false, line := line, body := .probe p.2 }) s

/-- A drain that must end before the line is read: its own, or one that makes room for a registration to it, or for the record
of a reduction of it (10 R285). -/
def drainFor (s : State) (line : Nat) : Option Nat :=
  if (tfind s.drains line).isSome then some line
  else (s.drains.find? (fun d => d.2.regs.any (fun r => r.1 == line) || d.2.reads.any (fun m => m.line == line))).map (fun d => d.1)
/-- The interleave scheme of an address: that of a translation which a core holds, else scheme 0. DEDUCED, log 96. -/
def schemeOf (s : State) (key : Nat) : Nat :=
  let maps := fun (e : TlbEntry) => !pteHost e.pte && ptePa e.pte / 2 ^ pageBits e.level == key / 2 ^ pageBits e.level
  (s.cores.findSome? (fun k => k.2.tlb.find? maps)).elim 0 (fun e => pteIl e.pte)
/-- The memory channel of an address retrains (12 R312). -/
def channelBusy (s : State) (il key : Nat) : Bool := (channelOf il key).any (fun c => (s.channel c).retraining.isSome)
/-- A channel that retrains holds a read of a line: the home slice does not hold the line (12 R312). -/
def channelKeeps (s : State) (line : Nat) : Bool :=
  s.channels.any (fun c => c.2.retraining.isSome) && s.channelBusy (s.schemeOf (line * 128)) (line * 128) && !s.inL2 line
/-- A read served at once at the home: whether the line is drained now and no channel holds the read, and the state (10 R286,
12 R312, R319). -/
def homeReady (s : State) (line : Nat) : Bool × State :=
  let s := s.startDrain line
  if (s.drainFor line).isSome then (false, s)
  else if s.channelKeeps line then (false, { s with fresh := s.fresh + 1 })
  else (true, s.touchL2 line)
def homeReadyAll (s : State) (lines : List Nat) : Bool × State :=
  lines.foldl (fun acc l => let r := acc.2.homeReady l; (acc.1 && r.1, r.2)) (true, s)

/-- The record of a line takes a registration (10 R284). -/
def registerAt (s : State) (line c e : Nat) : State :=
  { s with records := tput s.records line (register1 (s.record line) c e) }.dropHost line
/-- A line whose drain must end before a line of its slice can have a record of a core: none, there is room (10 R285). A full
slice drains a victim first, where it can one that does not probe the core: the line of the release is not to be written back
before its record is acknowledged (10 R282). DEDUCED, log 31. -/
def recordRoom (s : State) (line c : Nat) : Option Nat × State :=
  let mine := s.records.filter (fun p => homeOf p.1 == homeOf line)
  if (s.record line).isSome || mine.length < Config.recordsPerSlice then (none, s)
  else match mine.find? (fun p => (tfind s.drains p.1).isSome) with
    | some p => (some p.1, s)
    | none =>
      let others := mine.filter (fun p => !(s.probesOf p.1 p.2).any (fun q => q.1 == c))
      let from' := if others.isEmpty then mine else others
      match from'[Config.victim s.fresh from'.length % from'.length]? with
      | some p =>
        let s := { s with fresh := s.fresh + 1 }.startDrain p.1
        (if (tfind s.drains p.1).isSome then some p.1 else none, s)
      | none => (none, s)

/-! ### The region directory (10 R299). -/

/-- The state of a region, 3 read as 0. -/
def regionState (s : State) (region : Nat) : Nat :=
  match tfind s.regionDir region with
  | some d => if d.state == 3 then 0 else d.state
  | none => 0

/-! ### What a core sees of a line. -/

/-- Bytes of a line that a core has written and its home has not taken: in flight, oldest first, then dirty in L1. -/
def ownCells (s : State) (c line : Nat) : List (Nat × Byte) :=
  s.net.flatMap (fun m => if m.2.core == c && m.2.toHome && m.2.line == line then
      (match m.2.body with | .writeBack cells _ | .leaseWrite cells _ _ => cells | _ => []) else []) ++
    ((s.l1Line c line).map dirtyCells).getD []
/-- A line as the core's loads see it when its home is read: the home's bytes, but for those the core wrote and the home
has not taken (10 R277). -/
def viewBytes (s : State) (c line : Nat) : List Byte :=
  let own := s.ownCells c line
  let home := s.bytesAt (line * 128) 128
  if own.isEmpty then home
  else own.foldl (fun bs p => bs.set p.1 p.2) home

/-! ### Failed words (16 R381). -/

/-- The fault of a read at the home: L2 0x19, DRAM 0x1A. DEDUCED, log 77. -/
def homeFault (s : State) (key n : Nat) : Option Nat :=
  if s.failed.isEmpty then none
  else if s.failed.any (fun w => match w with | .l2 k => key / 8 ≤ k && k ≤ (key + n - 1) / 8 | _ => false) then some 0x19
  else if s.failed.any (fun w => match w with | .dram k => key / 8 ≤ k && k ≤ (key + n - 1) / 8 | _ => false) then some 0x1A
  else none
/-- An access of a core meets bytes that L1 holds in a failed word, or a byte that was lost (10 R304). -/
def l1Fault (s : State) (c key n : Nat) : Bool :=
  s.failed.any (fun w => match w with
    | .l1 c' k => c' == c && (s.l1Bytes c key n).any (fun b => (key + b.1) / 8 == k)
    | .lost c' k => c' == c && key ≤ k && k < key + n
    | _ => false)
/-- What an access that met an error in L1 drops: the clean bytes of the failed words it touches, and lost bytes, whose loss is
reported once. Dirty bytes of a failed word stay until their write-back finds the error; the word is forgotten when no byte of
it is held any more (10 R304). DEDUCED, log 77. -/
def dropFailed (s : State) (c key n : Nat) : State :=
  let s := { s with failed := s.failed.filter (fun w => match w with
    | .lost c' k => !(c' == c && key ≤ k && k < key + n)
    | _ => true) }.dropScales c
  let bad := fun (o : Nat) => key / 8 ≤ (key / 128 * 128 + o) / 8 && (key / 128 * 128 + o) / 8 ≤ (key + n - 1) / 8 &&
    s.failed.contains (.l1 c ((key / 128 * 128 + o) / 8))
  match s.l1Line c (key / 128) with
  | none => s
  | some l => (s.setL1 c (key / 128) { l with cells := l.cells.filter (fun q => q.2.2 || !bad q.1) }).pruneL1 c
/-- The order-7 check of an access of a core to device memory (06 R176): its L1, then, when bytes come from the home, that. -/
def dataFault (s : State) (c key n : Nat) (home : Bool) : Option Nat :=
  if s.l1Fault c key n then some 0x19 else if home then s.homeFault key n else none
/-- A write that covers a failed word repairs it. -/
def repair (s : State) (key n : Nat) : State :=
  if s.failed.isEmpty then s
  else { s with failed := s.failed.filter (fun w => match w with
    | .dram k | .l2 k => !(key ≤ 8 * k && 8 * k + 8 ≤ key + n)
    | _ => true) }
/-- The homes of the lines of some bytes take them. -/
def takeWrites (s : State) (key n : Nat) : State :=
  (List.range ((key % 128 + n + 127) / 128)).foldl (fun s i => s.takeWrite (key / 128 + i)) s
/-- Write bytes at the home. DEDUCED, log 25. -/
def homeWrite (s : State) (key : Nat) (bs : List Byte) : State :=
  ((s.storeBytes key bs).repair key bs.length).takeWrites key bs.length
/-- Byte-masked write at the home; a word all of whose bytes are written is repaired. -/
def homeCells (s : State) (line : Nat) (cells : List (Nat × Byte)) : State :=
  let s := (s.storeCells (line * 128) cells).takeWrite line
  if s.failed.isEmpty then s
  else { s with failed := s.failed.filter (fun w => match w with
    | .dram k | .l2 k => !(k / 16 == line && (List.range 8).all (fun i => cells.any (fun c => c.1 == 8 * k % 128 + i)))
    | _ => true) }

end State

end Sys2Proof.Machine
end

