-- ==== Sys2Proof/Machine/Journal.lean ====
section
/-!
DEFINITION. The command journal (15 R352-R354) and the error log (16 R383): records written as bytes to device memory
by the journal writer, each with its CRC-32.
-/

namespace Sys2Proof.Machine

def le2 (x : Nat) : List Byte := leBytes 2 x
/-- A field of a command record (15 R348). -/
def Command.field (c : Command) (off n : Nat) : Nat := leNat ((c.bytes.drop off).take n)
def Command.type (c : Command) : Nat := c.field 0 1
def Command.notify (c : Command) : Bool := (c.field 0 4).testBit 9
def Command.after (c : Command) : Bool := (c.field 0 4).testBit 8
def Command.region (c : Command) : Nat := c.field 8 8

/-- The 64 bytes of a command's journal record (15 R353). -/
def journalBytes (seq : Nat) (c : Command) : List Byte :=
  let head := le8 seq ++ le8 (c.queue * 2 ^ 24 + c.fault * 2 ^ 16 + c.state * 2 ^ 8 + c.type) ++ le8 c.time ++
    le8 c.region ++ le8 c.index ++ le8 c.slot.toNat ++ le8 c.detail.toNat
  head ++ le4 (crc32 head).toNat ++ le4 c.updates

/-- Rewrite a command's record (15 R352). -/
def journalWrite (s : State) (seq : Nat) (c : Command) : State :=
  if s.journalSize < 6 || 20 < s.journalSize then s
  else s.homeWrite (s.journalBase.toNat + 64 * (seq % 2 ^ s.journalSize)) (journalBytes seq c)

/-- Move a command to a state, with the fault fields given, and journal it (15 R354). DEDUCED, log 80. -/
def setCommand (s : State) (seq state fault : Nat) (slot detail : W64) : State :=
  match tfind s.commands seq with
  | none => s
  | some c =>
    let c := { c with state := state, before := c.state, fault := fault, time := s.time, slot := slot, detail := detail
                      updates := c.updates + 1 }
    let s := journalWrite { s with commands := tput s.commands seq c } seq c
    if c.notify && (state == 3 || state == 4) then { s with irqs := s.irqs ++ [.journal seq] } else s

/-- An error-log record that stands for `count` errors (16 R383). -/
def logErrors (s : State) (source fault kind unit location count : Nat) : State :=
  let seq := s.logSeq
  let head := le8 s.time ++ le4 (source * 2 ^ 24 + fault * 2 ^ 16 + kind * 2 ^ 8) ++ le4 (min count 65535 * 2 ^ 16 + unit) ++
    le8 location ++ le4 seq
  let rec' := head ++ le4 (crc32 head).toNat
  let s := { s with logSeq := seq + 1, irqs := if kind == 1 then s.irqs ++ [.error] else s.irqs }
  if s.logSize < 6 || 16 < s.logSize then s
  else s.homeWrite (s.logBase.toNat + 32 * ((seq - 1) % 2 ^ s.logSize)) rec'

def logRecord (s : State) (source fault kind unit location : Nat) : State := logErrors s source fault kind unit location 1

/-- Corrected errors of one unit and source since their last record go into the next one, when 2^20 ticks have passed since
that (16 R383). DESIGN CHOICE, log 98. -/
def mergeCorrected (s : State) (e : Corrected) : State :=
  let others := s.corrected.filter (fun x => !(x.source == e.source && x.unit == e.unit))
  if e.count == 0 || s.time < e.last + 2 ^ 20 then { s with corrected := e :: others }
  else
    { logErrors s e.source 0 0 e.unit e.location e.count with corrected := { e with last := s.time, count := 0 } :: others }
/-- An error of a unit's storage was corrected: its data are delivered corrected, and the error is counted (16 R381). -/
def correctError (s : State) (source unit location : Nat) : State :=
  match s.corrected.find? (fun x => x.source == source && x.unit == unit) with
  | some e => mergeCorrected s { e with count := e.count + 1, location := if e.count == 0 then location else e.location }
  | none =>
    { logErrors s source 0 0 unit location 1 with
      corrected := { source := source, unit := unit, last := s.time, count := 0, location := location } :: s.corrected }
/-- Write the records whose time has come. -/
def mergeAll (s : State) : State := s.corrected.foldl mergeCorrected s

/-- Dirty L1 bytes were lost: the error log and the journal say so (10 R304). A command record has no field for it: the journal's
note is kept beside the records. DEDUCED, log 87. -/
def reportLoss (s : State) (c line : Nat) (lost : List Nat) : State :=
  if lost.isEmpty then s
  else { logRecord s 13 0 1 c (line * 128) with notes := s.notes ++ [.loss c line lost] }

/-- Journal a gang's fault: the launch's record takes the first one, the error log every later one (15 R354, 16 R377). -/
def journalFault (s : State) (q slot code : Nat) (mask : W32) (eaddr : W64) : State :=
  match tfind s.commands q with
  | some c =>
    if c.state == 4 then logRecord s 17 code 2 slot eaddr.toNat
    else
      (setCommand s q 4 code (BitVec.ofNat 64 (slot + mask.toNat * 2 ^ 16)) eaddr).modLaunch q
        (fun l => { l with faulted := true })
  | none => logRecord s 17 code 2 slot eaddr.toNat
def journalGangFault (s : State) (slot code : Nat) (mask : W32) (eaddr : W64) : State :=
  journalFault s (s.gang slot).launch slot code mask eaddr

end Sys2Proof.Machine
end

