-- ==== Sys2Proof/Machine/Mmu.lean ====
section
/-!
DEFINITION. Translation (12 R307, R316-R320), instruction fetch (03 R71-R72) and the constant cache (01 R31). Walks,
fetches and constant fills are reads served at the home: a line with a release record is drained first, and until then
the access waits.
-/

namespace Sys2Proof.Machine

/-- What an access needs (12 R318); `lease`: an LSE, which reads. -/
inductive Acc where
  | read | write | rw | fetch | lease
  deriving DecidableEq, Repr
def Acc.writes : Acc → Bool
  | .write | .rw => true
  | _ => false
/-- Accesses that wait while a page migrates (12 R326). -/
def Acc.waits (a : Acc) : Bool := a.writes || a == .lease

/-- Who translates: core, root and address space of the region, privilege. -/
structure Who where
  core : Nat
  walkbase : W64
  asid : Nat
  prv : Bool
  deriving DecidableEq, Repr

/-- The outcome of a translation. -/
inductive Xl where
  | ok (key : Nat) (pte : W64)
  | fault (code : Nat)
  | notPresent
  | wait
  deriving DecidableEq, Repr

/-- A format code of 02 R60. -/
def formatOk (c : BitVec 6) : Bool := c.toNat < 8 || isB8 c

def vaIndex (va : Nat) (level : Nat) : Nat := va / 2 ^ pageBits level % (if level == 3 then 2048 else 1024)

/-- The checks of R317 on a leaf, cases 2 to 6. -/
def leafOk (p : W64) (level : Nat) : Bool :=
  p.extractLsb' 12 4 == 0 && level < 3 && ptePa p % 2 ^ pageBits level == 0 && (!pteBit p 3 || pteBit p 2) &&
    formatOk (pteFormat p) && pteGeometry p < 3 &&
    (if pteHost p then !pteBit p 10 && !pteBit p 63
     else pteBit p 10 == (2 ^ 39 ≤ ptePa p && ptePa p < 2 ^ 41 : Bool))
/-- Cases 2 to 4 on a non-leaf. -/
def nodeOk (p : W64) (level : Nat) : Bool :=
  p.extractLsb' 12 4 == 0 && 0 < level && p.extractLsb' 2 9 == 0 && p.extractLsb' 52 12 == 0

/-- R318 on a leaf. -/
def permits (p : W64) (prv : Bool) (a : Acc) : Bool :=
  (prv || pteBit p 5) &&
    (match a with
     | .read | .lease => pteBit p 2 | .write => pteBit p 3 | .rw => pteBit p 2 && pteBit p 3 | .fetch => pteBit p 4)

/-- DESIGN CHOICE, log 23. -/
def keyOf (p : W64) (level va : Nat) : Nat :=
  (if pteHost p then hostBase else 0) + ptePa p + va % 2 ^ pageBits level

/-- OR a bit into byte 0 of an entry at its home (12 R319). -/
def setPteBit (s : State) (at' : Nat) (bit : Nat) : State := s.homeWrite at' [s.byteAt at' ||| (1#8 <<< bit)]

def tlbHit (e : TlbEntry) (asid va : Nat) : Bool :=
  e.vpn == va / 2 ^ pageBits e.level && (e.asid == asid || pteBit e.pte 8)

/-- Install a leaf, replacing any entry for the page, in a full TLB some victim (12 R320). -/
def installTlb (s : State) (c : Nat) (e : TlbEntry) (va : Nat) : State :=
  s.modCore c (fun k =>
    let t := k.tlb.filter (fun x => !(tlbHit x e.asid va))
    let t := if t.length < Config.tlbEntries then t else t.eraseIdx (Config.victim s.fresh t.length % t.length)
    { k with tlb := e :: t })
def installWalk (s : State) (c : Nat) (e : WalkEntry) : State :=
  s.modCore c (fun k =>
    let t := k.walks.filter (fun x => !(x.asid == e.asid && x.level == e.level && x.above == e.above))
    let t := if t.length < Config.walkCacheEntries then t
             else t.eraseIdx (Config.victim s.fresh t.length % t.length)
    { k with walks := e :: t })

/-- Walk from a table of `level`, `fuel` = level + 1 (12 R316, R317). DEDUCED, log 18. -/
def walkFrom (s : State) (w : Who) (va : Nat) : Nat → Nat → Xl × Option TlbEntry × State
  | 0, _ => (.fault 0x11, none, s)
  | level + 1, table =>
    let at' := table + 8 * vaIndex va level
    if !isDevMem at' then (.fault 0x11, none, s)
    else
      let r := s.homeReady (at' / 128)
      if !r.1 then (.wait, none, r.2)
      else
        match r.2.homeFault at' 8 with
        | some f => (.fault f, none, r.2)
        | none =>
          let p : W64 := BitVec.ofNat 64 (r.2.natAt at' 8)
          if !pteBit p 0 then (.notPresent, none, r.2)
          else if pteBit p 1 then
            if !leafOk p level then (.fault 0x11, none, r.2)
            else
              let s := if pteBit p 6 then r.2 else setPteBit r.2 at' 6
              let p := p ||| 0x40
              let e : TlbEntry := { asid := w.asid, level := level, vpn := va / 2 ^ pageBits level, pte := p, pteAt := at' }
              (.ok (keyOf p level va) p, some e, installTlb s w.core e va)
          else if !nodeOk p level then (.fault 0x11, none, r.2)
          else
            let s := installWalk r.2 w.core
              { asid := w.asid, level := level - 1, above := va / 2 ^ pageBits level, table := ptePa p }
            walkFrom s w va level (ptePa p)

/-- A whole walk from WALKBASE, or from the deepest table the walk cache knows. -/
def walk (s : State) (w : Who) (va : Nat) (cached : Bool) : Xl × Option TlbEntry × State :=
  if w.walkbase.extractLsb' 12 2 != 0 then (.fault 0x11, none, s)
  else
    let root := (w.walkbase.extractLsb' 14 38).toNat * 2 ^ 14
    let known := fun (level : Nat) => (s.core w.core).walks.find? (fun x =>
      cached && x.asid == w.asid && x.level == level && x.above == va / 2 ^ pageBits (level + 1))
    match known 0 with
    | some e => walkFrom s w va 1 e.table
    | none => match known 1 with
      | some e => walkFrom s w va 2 e.table
      | none => match known 2 with
        | some e => walkFrom s w va 3 e.table
        | none => walkFrom s w va 4 root

/-- Finish a permitted access: reserved targets fault, a write to a migrating page waits, a first write sets the dirty
bit (12 R307, R319, R326). -/
def useLeaf (s : State) (w : Who) (va : Nat) (a : Acc) (e : TlbEntry) : Xl × State :=
  let key := keyOf e.pte e.level va
  if targetOf key == .reserved then (.fault 0x11, s)
  else if a.waits && pteMigrating e.pte then (.wait, s)
  else if a.writes && !pteBit e.pte 7 then
    let e' := { e with pte := e.pte ||| 0x80 }
    let r := s.homeReady (e.pteAt / 128)
    if !r.1 then (.wait, r.2) else (.ok key e'.pte, installTlb (setPteBit r.2 e.pteAt 7) w.core e' va)
  else (.ok key e.pte, s)

/-- Translate an access (12 R316-R320, R326). EADDR of its faults is the address. -/
def translate (s : State) (w : Who) (a : W64) (acc : Acc) : Xl × State :=
  if !canonicalVa a then (.fault 0x11, s)
  else
    let va := a.toNat % 2 ^ 57
    let again := fun (s : State) =>
      let r := walk s w va false
      match r.2.1 with
      | none => (r.1, r.2.2)
      | some e => if permits e.pte w.prv acc then useLeaf r.2.2 w va acc e else (.fault 0x11, r.2.2)
    match (s.core w.core).tlb.find? (fun e => tlbHit e w.asid va) with
    | some e =>
      if !permits e.pte w.prv acc || (acc.waits && pteMigrating e.pte) then again s
      else useLeaf s w va acc e
    | none =>
      let r := walk s w va true
      match r.2.1 with
      | none => (r.1, r.2.2)
      | some e => if permits e.pte w.prv acc then useLeaf r.2.2 w va acc e else again r.2.2

/-! ### Instruction fetch. -/

inductive Fetch where
  | ok (line : Line)
  | fault (code : Nat) (eaddr : W64)
  | notPresent
  | wait
  deriving DecidableEq, Repr

/-- The parity and format checks of a line (03 R72). -/
def checkedLine (base : W64) (l : Line) (s : State) : Fetch × State :=
  if !lineParityOk l then (.fault 0x07 base, s)
  else if !lineFormatOk l then (.fault 0x06 base, s) else (.ok l, s)
/-- Put a line into a core's instruction cache, a full one losing some victim. -/
def installLine (s : State) (c at' : Nat) (l : Line) : State :=
  s.modCore c (fun k =>
    let t := if k.icache.length < Config.icacheLines then k.icache
             else k.icache.eraseIdx (Config.victim s.fresh k.icache.length % k.icache.length)
    { k with icache := tput t at' l })
/-- The line of a PC through the instruction cache, with the checks of R72. DESIGN CHOICE, log 17. -/
def fetchLine (s : State) (w : Who) (pc : W64) : Fetch × State :=
  let base : W64 := pc - BitVec.ofNat 64 (pc.toNat % 64)
  match translate s w base .fetch with
  | (.fault f, s) => (.fault f pc, s)
  | (.notPresent, s) => (.notPresent, s)
  | (.wait, s) => (.wait, s)
  | (.ok key _, s) =>
    match tfind (s.core w.core).icache (key / 64) with
    | some l => checkedLine base l s
    | none =>
      let r := s.homeReady (key / 128)
      if !r.1 then (.wait, r.2)
      else
        match r.2.homeFault key 64 with
        | some f => (.fault f base, r.2)
        | none =>
          let l : Line := BitVec.ofNat 512 (r.2.natAt key 64)
          checkedLine base l (installLine r.2 w.core (key / 64) l)

/-! ### Constant windows (01 R31, 03 R89). -/

inductive Const where
  | ok (word : W32)
  | fault (code : Nat) (eaddr : W64)
  | notPresent (va : W64)
  | wait
  deriving DecidableEq, Repr

/-- Put a word into a core's constant cache of 64 KiB, a full one losing some victim (00 R2). -/
def installConst (s : State) (c at' : Nat) (x : W32) : State :=
  s.modCore c (fun k =>
    let t := if k.ccache.length < Config.ccacheWords then k.ccache
             else k.ccache.eraseIdx (Config.victim s.fresh k.ccache.length % k.ccache.length)
    { k with ccache := tput t at' x })
/-- One word of a window, through the constant cache. EADDR of a translation fault is the global address; of an absent
window or a word index beyond it, the word index. DESIGN CHOICE, log 94. -/
def constWord (s : State) (w : Who) (base : W64) (index : Nat) : Const × State :=
  if base == 0 || 2 ^ 17 ≤ index then (.fault 0x02 (BitVec.ofNat 64 index), s)
  else
    let va : W64 := base + BitVec.ofNat 64 (4 * index)
    match translate s w va .read with
    | (.fault f, s) => (.fault f va, s)
    | (.notPresent, s) => (.notPresent va, s)
    | (.wait, s) => (.wait, s)
    | (.ok key _, s) =>
      if s.failed.contains (.const w.core (key / 8)) then
        -- the core drops the bytes: a retry refetches them (10 R304)
        (.fault 0x19 va, { s with failed := s.failed.filter (fun x => x != FailedWord.const w.core (key / 8)) }.modCore w.core
          (fun k => { k with ccache := tdel k.ccache (key / 4) }))
      else match tfind (s.core w.core).ccache (key / 4) with
        | some x => (.ok x, s)
        | none =>
          let r := s.homeReady (key / 128)
          if !r.1 then (.wait, r.2)
          else
            match r.2.homeFault key 4 with
            | some f => (.fault f va, r.2)
            | none =>
              let x : W32 := BitVec.ofNat 32 (r.2.natAt key 4)
              (.ok x, installConst r.2 w.core (key / 4) x)

/-- Consecutive words of a window, lowest first. -/
def constWords (s : State) (w : Who) (base : W64) (index : Nat) : Nat → List W32 × Option Const × State
  | 0 => ([], none, s)
  | n + 1 =>
    match constWord s w base index with
    | (.ok x, s) => let r := constWords s w base (index + 1) n; (x :: r.1, r.2.1, r.2.2)
    | (c, s) => ([], some c, s)

end Sys2Proof.Machine
end

