-- ==== Sys2Proof/Machine/Errors.lean ====
section
/-!
DEFINITION. The error log's records of uncorrectable errors, by the storage that failed (16 R381, R383).
-/

namespace Sys2Proof.Machine

namespace State

/-- The stack of an HBM address. -/
def stackOf (s : State) (key : Nat) : Nat := (hbmAt (s.schemeOf key) key).stack
/-- A word of L2, HBM or the tier, that a core or the firmware reads at its home. -/
def logHome (s : State) (code key : Nat) : State :=
  if code == 0x19 then logRecord s 4 code 1 (homeOf (key / 128)) key
  else if targetOf key == .lpddr then logRecord s 8 code 1 (tierChannel key) key
  else logRecord s 7 code 1 (s.stackOf key) key
/-- A byte of global memory that a core reads: its L1, or the home. -/
def logData (s : State) (c code key : Nat) : State :=
  if code == 0x19 && (s.homeFault key 1).isNone then logRecord s 3 code 1 c key else s.logHome code key

/-- The table entry whose error ended a walk, `fuel` = level + 1 (12 R319). -/
def walkErrorAt (s : State) (va : Nat) : Nat → Nat → Option Nat
  | 0, _ => none
  | level + 1, table =>
    let at' := table + 8 * vaIndex va level
    let p : W64 := BitVec.ofNat 64 (s.natAt at' 8)
    if (s.homeFault at' 8).isSome then some at'
    else if pteBit p 0 && !pteBit p 1 then walkErrorAt s va level (ptePa p)
    else none
/-- An uncorrectable error that an instruction met, with its EADDR; `const`: it reads memory through the constant cache.
DEDUCED, log 96. -/
def reportError (s : State) (w : Who) (const : Bool) (code : Nat) (ea : W64) : State :=
  let va := ea.toNat % 2 ^ 57
  match code with
  | 0x07 => logRecord s 6 code 1 w.core ea.toNat
  | 0x16 => logRecord s 0 code 1 w.core ea.toNat
  | 0x17 => logRecord s 1 code 1 w.core ea.toNat
  | _ =>
    match (s.core w.core).tlb.find? (fun e => tlbHit e w.asid va) with
    | none => (s.walkErrorAt va 4 ((w.walkbase.extractLsb' 14 38).toNat * 2 ^ 14)).elim s (s.logHome code)
    | some e =>
      let key := keyOf e.pte e.level va
      if code == 0x19 && (s.homeFault key 16).isNone then logRecord s (if const then 5 else 3) code 1 w.core key
      else s.logHome code key

end State

end Sys2Proof.Machine
end

