-- ==== Sys2Proof/Machine/Fields.lean ====
section
/-!
DEFINITION. What the decoder checks of an instruction before it takes effect (03 R97, steps 2 to 5): the encoding
version, the privilege an instruction needs, its fields against the running kernel, and the registers it names.
-/

namespace Sys2Proof.Machine

def vRun (r : BitVec 9) (n : Nat) : List RegRef := (List.range n).map (fun i => .v (r.toNat + i))
def kRun (r : BitVec 9) (n : Nat) : List RegRef := (List.range n).map (fun i => .k (r.toNat + i))
def xRun (r : BitVec 8) (n : Nat) : List RegRef := (List.range n).map (fun i => .k (r.toNat + i))
/-- The registers of a source field by its kind (03 R84). -/
def srcRegs (k : Kind) (r : BitVec 9) (n : Nat) : List RegRef :=
  match k with
  | .vec => vRun r n
  | .scl => kRun r n
  | .win | .imm => []
/-- Registers of an operand of the type. -/
def wideRegs (f : FmtA) : Nat := if is64Ty f.ty then 2 else 1
def mredRegs (f : FmtX) : List RegRef :=
  let pub := f.mods.getLsbD 3
  let wait := f.mods.getLsbD 2
  xRun f.kP 3 ++ xRun f.kQ (if pub then 4 else 2) ++ (if wait then xRun f.kS 3 else []) ++
    (if pub then xRun (f.kS + 3) 1 else [])

/-- The registers an instruction names as sources, its guard apart. -/
def readsOf : Instr → List RegRef
  | .nop _ _ => []
  | .bra _ _ => []
  | .brx _ f => srcRegs f.kA f.a 2
  | .brs _ f => srcRegs f.kA f.a 1
  | .call _ _ => []
  | .ret _ f => srcRegs f.kA f.a 2
  | .exit _ _ => []
  | .yield _ _ => []
  | .sleep _ f => (if f.mods.getLsbD 18 then srcRegs f.kA f.a 1 else [])
  | .trap _ _ => []
  | .iadd _ f => srcRegs f.kA f.a (wideRegs f) ++ srcRegs f.kB f.b (wideRegs f)
  | .isub _ f => srcRegs f.kA f.a (wideRegs f) ++ srcRegs f.kB f.b (wideRegs f)
  | .iaddx _ f => srcRegs f.kA f.a (wideRegs f) ++ srcRegs f.kB f.b (wideRegs f) ++ [.p (f.mods.extractLsb' 0 3).toNat]
  | .isubx _ f => srcRegs f.kA f.a (wideRegs f) ++ srcRegs f.kB f.b (wideRegs f) ++ [.p (f.mods.extractLsb' 0 3).toNat]
  | .imul _ f => srcRegs f.kA f.a (wideRegs f) ++ srcRegs f.kB f.b (wideRegs f)
  | .imulh _ f => srcRegs f.kA f.a (wideRegs f) ++ srcRegs f.kB f.b (wideRegs f)
  | .imad _ f => srcRegs f.kA f.a (wideRegs f) ++ srcRegs f.kB f.b (wideRegs f) ++ srcRegs f.kC f.c (wideRegs f)
  | .imadw _ f => srcRegs f.kA f.a 1 ++ srcRegs f.kB f.b 1 ++ srcRegs f.kC f.c 2
  | .imin _ f => srcRegs f.kA f.a (wideRegs f) ++ srcRegs f.kB f.b (wideRegs f)
  | .imax _ f => srcRegs f.kA f.a (wideRegs f) ++ srcRegs f.kB f.b (wideRegs f)
  | .iabs _ f => srcRegs f.kA f.a (wideRegs f)
  | .ineg _ f => srcRegs f.kA f.a (wideRegs f)
  | .idot4 _ f => srcRegs f.kA f.a 1 ++ srcRegs f.kB f.b 1 ++ srcRegs f.kC f.c 1
  | .isad _ f => srcRegs f.kA f.a 1 ++ srcRegs f.kB f.b 1 ++ srcRegs f.kC f.c 1
  | .and _ f => srcRegs f.kA f.a (wideRegs f) ++ srcRegs f.kB f.b (wideRegs f)
  | .or _ f => srcRegs f.kA f.a (wideRegs f) ++ srcRegs f.kB f.b (wideRegs f)
  | .xor _ f => srcRegs f.kA f.a (wideRegs f) ++ srcRegs f.kB f.b (wideRegs f)
  | .andn _ f => srcRegs f.kA f.a (wideRegs f) ++ srcRegs f.kB f.b (wideRegs f)
  | .not _ f => srcRegs f.kA f.a (wideRegs f)
  | .blog _ f => srcRegs f.kA f.a (wideRegs f) ++ srcRegs f.kB f.b (wideRegs f) ++ srcRegs f.kC f.c (wideRegs f)
  | .shl _ f => srcRegs f.kA f.a (wideRegs f) ++ srcRegs f.kB f.b 1
  | .shr _ f => srcRegs f.kA f.a (wideRegs f) ++ srcRegs f.kB f.b 1
  | .sar _ f => srcRegs f.kA f.a (wideRegs f) ++ srcRegs f.kB f.b 1
  | .rot _ f => srcRegs f.kA f.a (wideRegs f) ++ srcRegs f.kB f.b 1
  | .fshf _ f => srcRegs f.kA f.a 1 ++ srcRegs f.kB f.b 1 ++ srcRegs f.kC f.c 1
  | .bfe _ f => srcRegs f.kA f.a (wideRegs f) ++ srcRegs f.kB f.b 1
  | .bfi _ f => srcRegs f.kA f.a (wideRegs f) ++ srcRegs f.kB f.b 1 ++ srcRegs f.kC f.c (wideRegs f)
  | .popc _ f => srcRegs f.kA f.a (wideRegs f)
  | .clz _ f => srcRegs f.kA f.a (wideRegs f)
  | .brev _ f => srcRegs f.kA f.a (wideRegs f)
  | .icmp _ f => srcRegs f.kA f.a (wideRegs f) ++ srcRegs f.kB f.b (wideRegs f)
  | .isel _ f => srcRegs f.kA f.a (wideRegs f) ++ srcRegs f.kB f.b (wideRegs f) ++ [.p f.c.toNat]
  | .plop _ f => [.p f.a.toNat] ++ [.p f.b.toNat] ++ [.p f.c.toNat]
  | .lea _ f => srcRegs f.kA f.a 2 ++ srcRegs f.kB f.b 1
  | .mov _ f => srcRegs f.kA f.a (wideRegs f)
  | .movi _ _ => []
  | .bswz _ f => srcRegs f.kA f.a 1 ++ srcRegs f.kB f.b 1 ++ srcRegs f.kC f.c 1
  | .fadd _ f => srcRegs f.kA f.a 1 ++ srcRegs f.kB f.b 1
  | .fmul _ f => srcRegs f.kA f.a 1 ++ srcRegs f.kB f.b 1
  | .ffma _ f => srcRegs f.kA f.a 1 ++ srcRegs f.kB f.b 1 ++ srcRegs f.kC f.c 1
  | .fmin _ f => srcRegs f.kA f.a 1 ++ srcRegs f.kB f.b 1
  | .fmax _ f => srcRegs f.kA f.a 1 ++ srcRegs f.kB f.b 1
  | .fcmp _ f => srcRegs f.kA f.a 1 ++ srcRegs f.kB f.b 1
  | .fclass _ f => srcRegs f.kA f.a 1
  | .fdot2 _ f => srcRegs f.kA f.a 1 ++ srcRegs f.kB f.b 1 ++ srcRegs f.kC f.c 1
  | .fscale _ f => srcRegs f.kA f.a 1 ++ srcRegs f.kB f.b 1
  | .frcp _ f => srcRegs f.kA f.a 1
  | .frsq _ f => srcRegs f.kA f.a 1
  | .fsqrt _ f => srcRegs f.kA f.a 1
  | .fdiv _ f => srcRegs f.kA f.a 1 ++ srcRegs f.kB f.b 1
  | .fex2 _ f => srcRegs f.kA f.a 1
  | .flg2 _ f => srcRegs f.kA f.a 1
  | .fsin _ f => srcRegs f.kA f.a 1
  | .fcos _ f => srcRegs f.kA f.a 1
  | .ftanh _ f => srcRegs f.kA f.a 1
  | .frnd _ f => srcRegs f.kA f.a 1
  | .cvt _ f => srcRegs f.kA f.a (if is64Ty f.cvtSrcTy then 2 else 1)
  | .cvtn _ f => srcRegs f.kA f.a 1
  | .pack _ f => srcRegs f.kA f.a 1 ++ srcRegs f.kB f.b 1
  | .unpk _ f => srcRegs f.kA f.a 1
  | .lxch _ f => srcRegs f.kA f.a (wideRegs f) ++ srcRegs f.kB f.b 1
  | .cons _ f => [.p f.a.toNat]
  | .pmask _ f => [.p f.a.toNat]
  | .redux _ f => srcRegs f.kA f.a (wideRegs f)
  | .scan _ f => srcRegs f.kA f.a (wideRegs f)
  | .eqmask _ f => srcRegs f.kA f.a (wideRegs f)
  | .bcast _ f => srcRegs f.kA f.a (wideRegs f) ++ srcRegs f.kB f.b 1
  | .smov _ f => srcRegs f.kA f.a (wideRegs f)
  | .smovi _ _ => []
  | .sadd _ f => srcRegs f.kA f.a (wideRegs f) ++ srcRegs f.kB f.b (wideRegs f)
  | .ssub _ f => srcRegs f.kA f.a (wideRegs f) ++ srcRegs f.kB f.b (wideRegs f)
  | .smul _ f => srcRegs f.kA f.a (wideRegs f) ++ srcRegs f.kB f.b (wideRegs f)
  | .smad _ f => srcRegs f.kA f.a (wideRegs f) ++ srcRegs f.kB f.b (wideRegs f) ++ srcRegs f.kC f.c (wideRegs f)
  | .sand _ f => srcRegs f.kA f.a (wideRegs f) ++ srcRegs f.kB f.b (wideRegs f)
  | .sor _ f => srcRegs f.kA f.a (wideRegs f) ++ srcRegs f.kB f.b (wideRegs f)
  | .sxor _ f => srcRegs f.kA f.a (wideRegs f) ++ srcRegs f.kB f.b (wideRegs f)
  | .sshl _ f => srcRegs f.kA f.a (wideRegs f) ++ srcRegs f.kB f.b 1
  | .sshr _ f => srcRegs f.kA f.a (wideRegs f) ++ srcRegs f.kB f.b 1
  | .scmp _ f => srcRegs f.kA f.a (wideRegs f) ++ srcRegs f.kB f.b (wideRegs f)
  | .ssel _ f => srcRegs f.kA f.a (wideRegs f) ++ srcRegs f.kB f.b (wideRegs f) ++ srcRegs f.kC f.c 1
  | .sld _ f => srcRegs f.kA f.a (if f.space == 0 then 2 else 1)
  | .sst _ f => srcRegs f.kA f.a (if f.space == 0 then 2 else 1) ++ srcRegs f.kB f.b (widthRegs f.width)
  | .rdlane _ f => srcRegs f.kA f.a (wideRegs f) ++ srcRegs f.kB f.b 1
  | .srd _ _ => []
  | .ld _ f => srcRegs f.kA f.a (if f.space == 0 then 2 else 1)
  | .st _ f => srcRegs f.kA f.a (if f.space == 0 then 2 else 1) ++ srcRegs f.kB f.b (widthRegs f.width)
  | .ldf _ f => srcRegs f.kA f.a (if f.space == 0 then 2 else 1)
  | .stf _ f => srcRegs f.kA f.a (if f.space == 0 then 2 else 1) ++ srcRegs f.kB f.b (widthRegs f.width)
  | .lds _ f => srcRegs f.kA f.a (if f.space == 0 then 2 else 1) ++ srcRegs f.kB f.b 1
  | .sts _ f => srcRegs f.kA f.a (if f.space == 0 then 2 else 1) ++ srcRegs f.kB f.b (widthRegs f.width) ++ srcRegs f.kB f.c 1
  | .ldc _ f => srcRegs f.kA f.a (if f.space == 0 then 2 else 1)
  | .pref _ f => srcRegs f.kA f.a (if f.space == 0 then 2 else 1)
  | .cctl _ f => (if f.op == 2 || f.op == 3 then srcRegs f.kA f.a 2 else [])
  | .atom _ f => srcRegs f.kA f.a (if f.space == 0 then 2 else 1) ++ srcRegs f.kB f.b (widthRegs f.width)
  | .cas _ f => srcRegs f.kA f.a (if f.space == 0 then 2 else 1) ++ srcRegs f.kB f.b (widthRegs f.width) ++ srcRegs f.kB f.c (widthRegs f.width)
  | .red _ f => srcRegs f.kA f.a (if f.space == 0 then 2 else 1) ++ srcRegs f.kB f.b (widthRegs f.width)
  | .atoms _ f => srcRegs f.kA f.a (if f.space == 0 then 2 else 1) ++ srcRegs f.kB f.b (widthRegs f.width)
  | .cass _ f => srcRegs f.kA f.a (if f.space == 0 then 2 else 1) ++ srcRegs f.kB f.b (widthRegs f.width) ++ srcRegs f.kB f.c (widthRegs f.width)
  | .lse _ f => srcRegs f.kA f.a (if f.space == 0 then 2 else 1)
  | .stl _ f => srcRegs f.kA f.a (if f.space == 0 then 2 else 1) ++ srcRegs f.kB f.b (widthRegs f.width)
  | .lsend _ f => srcRegs f.kA f.a (if f.space == 0 then 2 else 1)
  | .mred _ f => mredRegs f
  | .fence _ _ => []
  | .bar _ _ => []
  | .bara _ _ => []
  | .wdecl _ f => (if f.mods == 0 then srcRegs f.kA f.a 1 else [])
  | .wsign _ _ => []
  | .wjoin _ _ => []
  | .tkwait _ f => srcRegs f.kA f.a 1
  | .rgn _ f => srcRegs f.kA f.a (if f.space == 0 then 2 else 1)
  | .mld _ f => xRun f.kP 1 ++ xRun f.kQ 1 ++ (if f.bs then xRun f.kS 1 else [])
  | .mswp _ _ => []
  | .mma _ f => xRun f.kP 1 ++ xRun f.kQ 1 ++ xRun f.kS f.scaleRegs
  | .mmap _ f => xRun f.kP 1 ++ xRun f.kQ 1 ++ xRun f.kS f.scaleRegs
  | .mguide _ f => xRun f.kS 1
  | .accz _ _ => []
  | .accrd _ f => xRun f.kP 1
  | .accwr _ f => xRun f.kP 1
  | .acc2s _ f => xRun f.kP 1 ++ xRun f.kQ 1
  | .scld _ f => xRun f.kP 1 ++ xRun f.kQ 1
  | .cpy _ f => xRun f.kP (if f.srcScr then 1 else 2) ++ xRun f.kQ (if f.dstScr then 1 else 2) ++ xRun f.kS 1
  | .cpy2d _ f => xRun f.kP (if f.srcScr then 1 else 2) ++ xRun f.kQ (if f.dstScr then 1 else 2) ++ xRun f.kS 3
  | .gath _ f => xRun f.kP 2 ++ xRun f.kQ 1 ++ xRun f.kS 3
  | .scat _ f => xRun f.kP 1 ++ xRun f.kQ 2 ++ xRun f.kS 3
  | .qdual _ f => xRun f.kP 2 ++ xRun f.kQ 2 ++ xRun f.kS 2
  | .cast _ f => xRun f.kP 1 ++ xRun f.kQ 1 ++ xRun f.kS 1
  | .rsmp _ f => (xRun f.kP 1 ++ xRun f.kQ 1 ++ xRun f.kS 1)
  | .pdiss _ _ => []
  | .spawn _ f => srcRegs f.kA f.a 1 ++ (List.range 8).map RegRef.k
  | .rng _ _ => []
  | .halt _ _ => []
  | .rtt _ _ => []
  | .csrr _ _ => []
  | .csrw _ f => srcRegs f.kB f.b (widthRegs f.width)
  | .tinv _ f => (if f.op == 0 then srcRegs f.kA f.a 2 else if f.op == 1 then srcRegs f.kA f.a 1 else [])
  | .pmig _ f => srcRegs f.kA f.a (if f.space == 0 then 2 else 1)
  | .dbrk _ _ => []
  | .releaseRecordRegister _ => []
  | .drainProbe _ => []
  | .drainAck _ => []
  | .writeBackAck _ => []
  | .coreLeave _ => []
  | .coreJoin _ => []
  | .leaseGrant _ => []
  | .leaseExpiry _ _ => []
  | .leaseWriteThrough _ => []
  | .leaseRevocation _ => []
  | .revocationNotice _ => []
  | .implicitLeaseEnd _ _ => []
  | .timeSyncCheck _ => []
  | .timeSyncReload _ => []
  | .redRouterHoldExpiry _ => []
  | .redHomeApply _ => []
  | .regionDrain _ => []
  | .regionTransitionApply _ => []
  | .pageFaultRecord _ => []
  | .unpark _ => []
  | .deliverPageFault _ => []
  | .migrationStart _ => []
  | .migrationCopy _ => []
  | .migrationWindowEnd => []
  | .sampleRecord => []
  | .mredDispatch _ => []
  | .mredWaitPoll _ => []
  | .mredWaitLimit _ => []
  | .mredComplete _ => []
  | .jobComplete _ _ => []
  | .matrixComplete _ _ => []
  | .rsmpStageOutComplete _ => []
  | .rsmpResume _ => []
  | .sleepEnd _ _ => []
  | .weirTimeout _ _ _ => []
  | .fairnessTimerExpiry _ _ => []
  | .quantumExpiry _ _ => []
  | .queueWake _ => []
  | .queuePoll => []
  | .commandStart _ => []
  | .launch _ => []
  | .wait _ => []
  | .waitTimeout _ => []
  | .signal _ => []
  | .regionCreate _ => []
  | .regionModify _ => []
  | .regionDelete _ => []
  | .emberEnter _ => []
  | .emberArm _ => []
  | .emberDisarm _ => []
  | .resume _ => []
  | .firmware _ => []
  | .migratePolicy _ => []
  | .blockDispatch _ _ => []
  | .preemptionRequest _ _ => []
  | .saveComplete _ => []
  | .blockRestore _ => []
  | .haltResume _ => []
  | .haltRelease _ => []
  | .haltControlNoEffect _ => []
  | .queueTableWrite _ _ _ => []
  | .halfWidthRequest _ _ => []
  | .halfWidthLeave _ _ => []
  | .laneErrorLimit _ _ => []
  | .temperatureLimit _ _ => []
  | .channelRetrainDone _ _ => []
  | .registerWrite _ _ => []
  | .recoveryImageLoad _ _ => []
  | .powerUp => []
  | .hostMemWrite _ _ => []
  | .hostMemRead _ _ => []
  | .peerAccessArrive _ => []
  | .endToEndAck _ _ => []
  | .flitRetry _ => []
  | .hopFailure _ => []
  | .linkRetryTimer => []
  | .supplyWarning => []
  | .supplyGood => []
  | .getVersion => []
  | .getCapabilities => []
  | .negotiateAlgorithms _ _ => []
  | .getDigests => []
  | .getCertificate _ _ => []
  | .challenge _ => []
  | .getMeasurements _ _ => []
  | .mctpControl _ => []
  | .vendorRead _ => []
  | .illegalInstruction _ => []
  | .homeRead _ => []
  | .fill _ => []

/-- The registers an instruction names as destinations. -/
def writesOf : Instr → List RegRef
  | .nop _ _ => []
  | .bra _ _ => []
  | .brx _ _ => []
  | .brs _ _ => []
  | .call _ f => vRun f.d 2
  | .ret _ _ => []
  | .exit _ _ => []
  | .yield _ _ => []
  | .sleep _ _ => []
  | .trap _ _ => []
  | .iadd _ f => vRun f.d (wideRegs f)
  | .isub _ f => vRun f.d (wideRegs f)
  | .iaddx _ f => vRun f.d (wideRegs f) ++ [.p (f.mods.extractLsb' 3 3).toNat]
  | .isubx _ f => vRun f.d (wideRegs f) ++ [.p (f.mods.extractLsb' 3 3).toNat]
  | .imul _ f => vRun f.d (wideRegs f)
  | .imulh _ f => vRun f.d (wideRegs f)
  | .imad _ f => vRun f.d (wideRegs f)
  | .imadw _ f => vRun f.d 2
  | .imin _ f => vRun f.d (wideRegs f)
  | .imax _ f => vRun f.d (wideRegs f)
  | .iabs _ f => vRun f.d (wideRegs f)
  | .ineg _ f => vRun f.d (wideRegs f)
  | .idot4 _ f => vRun f.d 1
  | .isad _ f => vRun f.d 1
  | .and _ f => vRun f.d (wideRegs f)
  | .or _ f => vRun f.d (wideRegs f)
  | .xor _ f => vRun f.d (wideRegs f)
  | .andn _ f => vRun f.d (wideRegs f)
  | .not _ f => vRun f.d (wideRegs f)
  | .blog _ f => vRun f.d (wideRegs f)
  | .shl _ f => vRun f.d (wideRegs f)
  | .shr _ f => vRun f.d (wideRegs f)
  | .sar _ f => vRun f.d (wideRegs f)
  | .rot _ f => vRun f.d (wideRegs f)
  | .fshf _ f => vRun f.d 1
  | .bfe _ f => vRun f.d (wideRegs f)
  | .bfi _ f => vRun f.d (wideRegs f)
  | .popc _ f => vRun f.d 1
  | .clz _ f => vRun f.d 1
  | .brev _ f => vRun f.d (wideRegs f)
  | .icmp _ f => [.p f.d.toNat]
  | .isel _ f => vRun f.d (wideRegs f)
  | .plop _ f => [.p f.d.toNat]
  | .lea _ f => vRun f.d 2
  | .mov _ f => vRun f.d (wideRegs f)
  | .movi _ f => vRun f.d (if f.ty == 8 then 1 else 2)
  | .bswz _ f => vRun f.d 1
  | .fadd _ f => vRun f.d 1
  | .fmul _ f => vRun f.d 1
  | .ffma _ f => vRun f.d 1
  | .fmin _ f => vRun f.d 1
  | .fmax _ f => vRun f.d 1
  | .fcmp _ f => [.p f.d.toNat]
  | .fclass _ f => vRun f.d 1
  | .fdot2 _ f => vRun f.d 1
  | .fscale _ f => vRun f.d 1
  | .frcp _ f => vRun f.d 1
  | .frsq _ f => vRun f.d 1
  | .fsqrt _ f => vRun f.d 1
  | .fdiv _ f => vRun f.d 1
  | .fex2 _ f => vRun f.d 1
  | .flg2 _ f => vRun f.d 1
  | .fsin _ f => vRun f.d 1
  | .fcos _ f => vRun f.d 1
  | .ftanh _ f => vRun f.d 1
  | .frnd _ f => vRun f.d 1
  | .cvt _ f => vRun f.d (wideRegs f)
  | .cvtn _ f => vRun f.d 1
  | .pack _ f => vRun f.d 1
  | .unpk _ f => vRun f.d 1
  | .lxch _ f => vRun f.d (wideRegs f)
  | .cons _ f => [.p f.d.toNat]
  | .pmask _ f => (if f.mods.getLsbD 5 then kRun f.d 1 else vRun f.d 1)
  | .redux _ f => (if f.mods.getLsbD 5 then kRun f.d (wideRegs f) else vRun f.d (wideRegs f))
  | .scan _ f => vRun f.d (wideRegs f)
  | .eqmask _ f => vRun f.d 1
  | .bcast _ f => vRun f.d (wideRegs f)
  | .smov _ f => kRun f.d (wideRegs f)
  | .smovi _ f => kRun f.d (if f.ty == 8 then 1 else 2)
  | .sadd _ f => kRun f.d (wideRegs f)
  | .ssub _ f => kRun f.d (wideRegs f)
  | .smul _ f => kRun f.d (wideRegs f)
  | .smad _ f => kRun f.d (wideRegs f)
  | .sand _ f => kRun f.d (wideRegs f)
  | .sor _ f => kRun f.d (wideRegs f)
  | .sxor _ f => kRun f.d (wideRegs f)
  | .sshl _ f => kRun f.d (wideRegs f)
  | .sshr _ f => kRun f.d (wideRegs f)
  | .scmp _ f => kRun f.d 1
  | .ssel _ f => kRun f.d (wideRegs f)
  | .sld _ f => kRun f.d (widthRegs f.width)
  | .sst _ _ => []
  | .rdlane _ f => kRun f.d (wideRegs f)
  | .srd _ f => (let n := if srd64 (f.mods.extractLsb' 0 5).toNat then 2 else 1; if f.mods.getLsbD 5 then kRun f.d n else vRun f.d n)
  | .ld _ f => vRun f.d (widthRegs f.width)
  | .st _ _ => []
  | .ldf _ f => vRun f.d (widthRegs f.width)
  | .stf _ _ => []
  | .lds _ f => vRun f.d (widthRegs f.width)
  | .sts _ _ => []
  | .ldc _ f => vRun f.d (widthRegs f.width)
  | .pref _ _ => []
  | .cctl _ _ => []
  | .atom _ f => vRun f.d (widthRegs f.width)
  | .cas _ f => vRun f.d (widthRegs f.width)
  | .red _ _ => []
  | .atoms _ f => vRun f.d (widthRegs f.width)
  | .cass _ f => vRun f.d (widthRegs f.width)
  | .lse _ f => vRun f.d (widthRegs f.width) ++ [.p (f.op.extractLsb' 0 3).toNat]
  | .stl _ f => [.p (f.op.extractLsb' 0 3).toNat]
  | .lsend _ f => [.p (f.op.extractLsb' 0 3).toNat]
  | .mred _ f => xRun f.tok 1
  | .fence _ _ => []
  | .bar _ _ => []
  | .bara _ _ => []
  | .wdecl _ _ => []
  | .wsign _ _ => []
  | .wjoin _ f => [.p f.d.toNat]
  | .tkwait _ _ => []
  | .rgn _ _ => []
  | .mld _ f => (if f.tk then xRun f.tok 1 else [])
  | .mswp _ f => (if f.tk then xRun f.tok 1 else [])
  | .mma _ f => (if f.tk then xRun f.tok 1 else [])
  | .mmap _ f => (if f.tk then xRun f.tok 1 else [])
  | .mguide _ f => (if f.tk then xRun f.tok 1 else [])
  | .accz _ f => (if f.tk then xRun f.tok 1 else [])
  | .accrd _ f => (if f.tk then xRun f.tok 1 else [])
  | .accwr _ f => (if f.tk then xRun f.tok 1 else [])
  | .acc2s _ f => (if f.tk then xRun f.tok 1 else [])
  | .scld _ f => (if f.tk then xRun f.tok 1 else [])
  | .cpy _ f => xRun f.tok 1
  | .cpy2d _ f => xRun f.tok 1
  | .gath _ f => xRun f.tok 1
  | .scat _ f => xRun f.tok 1
  | .qdual _ f => xRun f.tok 1
  | .cast _ f => xRun f.tok 1
  | .rsmp _ _ => []
  | .pdiss _ _ => []
  | .spawn _ f => kRun f.d 1
  | .rng _ f => vRun f.d (wideRegs f)
  | .halt _ _ => []
  | .rtt _ _ => []
  | .csrr _ f => (if f.op == 1 then kRun f.d (widthRegs f.width) else vRun f.d (widthRegs f.width))
  | .csrw _ _ => []
  | .tinv _ _ => []
  | .pmig _ f => vRun f.d 1
  | .dbrk _ _ => []
  | .releaseRecordRegister _ => []
  | .drainProbe _ => []
  | .drainAck _ => []
  | .writeBackAck _ => []
  | .coreLeave _ => []
  | .coreJoin _ => []
  | .leaseGrant _ => []
  | .leaseExpiry _ _ => []
  | .leaseWriteThrough _ => []
  | .leaseRevocation _ => []
  | .revocationNotice _ => []
  | .implicitLeaseEnd _ _ => []
  | .timeSyncCheck _ => []
  | .timeSyncReload _ => []
  | .redRouterHoldExpiry _ => []
  | .redHomeApply _ => []
  | .regionDrain _ => []
  | .regionTransitionApply _ => []
  | .pageFaultRecord _ => []
  | .unpark _ => []
  | .deliverPageFault _ => []
  | .migrationStart _ => []
  | .migrationCopy _ => []
  | .migrationWindowEnd => []
  | .sampleRecord => []
  | .mredDispatch _ => []
  | .mredWaitPoll _ => []
  | .mredWaitLimit _ => []
  | .mredComplete _ => []
  | .jobComplete _ _ => []
  | .matrixComplete _ _ => []
  | .rsmpStageOutComplete _ => []
  | .rsmpResume _ => []
  | .sleepEnd _ _ => []
  | .weirTimeout _ _ _ => []
  | .fairnessTimerExpiry _ _ => []
  | .quantumExpiry _ _ => []
  | .queueWake _ => []
  | .queuePoll => []
  | .commandStart _ => []
  | .launch _ => []
  | .wait _ => []
  | .waitTimeout _ => []
  | .signal _ => []
  | .regionCreate _ => []
  | .regionModify _ => []
  | .regionDelete _ => []
  | .emberEnter _ => []
  | .emberArm _ => []
  | .emberDisarm _ => []
  | .resume _ => []
  | .firmware _ => []
  | .migratePolicy _ => []
  | .blockDispatch _ _ => []
  | .preemptionRequest _ _ => []
  | .saveComplete _ => []
  | .blockRestore _ => []
  | .haltResume _ => []
  | .haltRelease _ => []
  | .haltControlNoEffect _ => []
  | .queueTableWrite _ _ _ => []
  | .halfWidthRequest _ _ => []
  | .halfWidthLeave _ _ => []
  | .laneErrorLimit _ _ => []
  | .temperatureLimit _ _ => []
  | .channelRetrainDone _ _ => []
  | .registerWrite _ _ => []
  | .recoveryImageLoad _ _ => []
  | .powerUp => []
  | .hostMemWrite _ _ => []
  | .hostMemRead _ _ => []
  | .peerAccessArrive _ => []
  | .endToEndAck _ _ => []
  | .flitRetry _ => []
  | .hopFailure _ => []
  | .linkRetryTimer => []
  | .supplyWarning => []
  | .supplyGood => []
  | .getVersion => []
  | .getCapabilities => []
  | .negotiateAlgorithms _ _ => []
  | .getDigests => []
  | .getCertificate _ _ => []
  | .challenge _ => []
  | .getMeasurements _ _ => []
  | .mctpControl _ => []
  | .vendorRead _ => []
  | .illegalInstruction _ => []
  | .homeRead _ => []
  | .fill _ => []

/-- A register of R83's numbering. -/
def regNumber : RegRef → Nat
  | .v n => n | .k n => 0x200 + n | .p n => 0x300 + n

/-- The header of an instruction row; an event has none. -/
def hdrOfInstr (i : Instr) : Option Hdr := (encode i).map hdrOf
def opcodeOfInstr (i : Instr) : Nat := match encode i with | some w => opcodeOf w | none => 0
/-- The class of an instruction (03 R94). -/
def classOf (i : Instr) : Nat := opcodeOfInstr i / 64

/-- Registers that a thread reads in its own lane: not those that a cross-lane instruction consumes of other lanes, which
its effect checks (05 R127, 06 R165). -/
def laneReads : Instr → List RegRef
  | .lxch _ f | .bcast _ f | .rdlane _ f => srcRegs f.kB f.b 1
  | .redux _ _ | .scan _ _ | .eqmask _ _ => []
  | i => readsOf i

/-- Lane-local unless a source is a scalar register (01 R15). -/
def laneLocal (i : Instr) : Bool :=
  let op := opcodeOfInstr i
  let c := op / 64
  ((c == 0 && op != 3) || (1 ≤ c && c ≤ 4) || c == 7 || (c == 8 && op != 0x208) || op == 0x240 || op == 0x303) &&
    !(readsOf i).any (fun r => match r with | .k _ => true | _ => false)

/-- The weir an instruction names (03 R91, R92). -/
def weirOf (i : Instr) : Option Nat :=
  match i with
  | .wdecl _ f | .wsign _ f | .wjoin _ f => some f.weir.toNat
  | .mld _ f | .mswp _ f | .mma _ f | .mmap _ f | .mguide _ f | .accz _ f | .accrd _ f | .accwr _ f | .acc2s _ f
  | .scld _ f | .cpy _ f | .cpy2d _ f | .gath _ f | .scat _ f | .qdual _ f | .cast _ f | .mred _ f =>
    if f.wv then some f.weir.toNat else none
  | _ => none

/-- Instructions at which a gang's lanes gather (01 R18, 07 R201, 08 R236): the groups that wait there act as one. -/
def gathers (i : Instr) : Bool :=
  match i with
  | .bar .. | .bara .. | .rsmp .. => true
  | .mld _ f | .mswp _ f | .mma _ f | .mmap _ f | .mguide _ f | .accz _ f | .accrd _ f | .accwr _ f | .acc2s _ f
  | .scld _ f | .cpy _ f | .cpy2d _ f | .gath _ f | .scat _ f | .qdual _ f | .cast _ f | .mred _ f => !f.wv
  | _ => false

/-- Fault 0x01: an unassigned opcode, or one that the kernel's version lacks, or SPAWN in a population (03 R93, R94,
01 R22). -/
def illegal (h : Header) (i : Instr) : Bool :=
  match i with
  | .illegalInstruction _ => true
  | .rsmp .. | .pdiss .. | .rng .. => h.version < 5
  | .spawn .. => h.version < 5 || h.population
  | .wdecl .. | .wsign .. | .wjoin .. => h.version == 3
  | _ => false

/-- Fault 0x03 in an unprivileged thread (01 R26, 08 R242). DEDUCED, log 12. -/
def privileged (i : Instr) : Bool :=
  match i with
  | .halt .. | .rtt .. | .tinv .. | .pmig .. => true
  | .csrw _ f => f.off.toNat % 0x1000 != 0x012
  | _ => false

/-- Scope codes 8 to 10 need version 5 (03 R93). -/
def scopesOk (h : Header) (i : Instr) : Bool :=
  let ok := fun (s : BitVec 4) => 5 ≤ h.version || !(8 ≤ s.toNat && s.toNat ≤ 10)
  match i with
  | .sld _ f | .sst _ f | .ld _ f | .st _ f | .ldf _ f | .stf _ f | .lds _ f | .sts _ f | .fence _ f => ok f.scope
  | .mred _ f => ok (f.rows.extractLsb' 4 4) && ok (f.rows.extractLsb' 0 4)
  | _ => true

def rowCount (f : FmtX) : Nat := if f.rows == 0 then 256 else f.rows.toNat
/-- Vector registers of ACCRD and ACCWR (07 R218). -/
def accRegs (f : FmtX) : Nat := if f.sfmt == 1 then 2 * rowCount f else rowCount f

/-- Checks of class 0xA against the kernel and the partition (03 R92, 07 R211). -/
def matrixOk (h : Header) (part : Nat) (i : Instr) : Bool :=
  match i with
  | .mld _ f | .mswp _ f => f.eng.toNat == part / 2 && (!f.pairBit || h.pairFlag)
  | .mma _ f | .accz _ f | .accrd _ f | .accwr _ f | .acc2s _ f =>
    f.eng.toNat == part / 2 && f.rowBase.toNat + rowCount f ≤ h.accrows
  | .mmap _ f | .mguide _ f => f.eng.toNat == part / 2 && f.rowBase.toNat + rowCount f ≤ h.accrows && h.pairFlag
  | .scld _ f => f.eng.toNat == part / 2
  | .pdiss .. => h.pairFlag
  | .rsmp .. => h.population
  | .spawn _ f => f.mods.toNat < h.entryCount
  | _ => true

/-- Scalar register fields that an entry does not read but that must name a register (03 R92). -/
def bareFields : Instr → List RegRef
  | .mred _ f => if !f.mods.getLsbD 3 && !f.mods.getLsbD 2 then xRun f.kS 1 else []
  | _ => []
/-- The registers that an instruction's fields name as sources: SPAWN reads k0 to k7 beside them (08 R240). -/
def fieldReads : Instr → List RegRef
  | .spawn _ f => srcRegs f.kA f.a 1
  | i => readsOf i
/-- The first register outside the kernel's counts (03 R84, R92). -/
def badReg (h : Header) (i : Instr) : Option RegRef :=
  (fieldReads i ++ bareFields i ++ writesOf i).find? (fun r => match r with
    | .v n => h.vregs ≤ n | .k n => h.kregs ≤ n | .p n => 8 ≤ n)

/-- Fault 0x02, with its EADDR: a register out of range in the form of R83, else 0 (03 R85, R91, R92, 16 R378). DEDUCED, log 10. DEDUCED, log 11. -/
def fieldFault (h : Header) (part : Nat) (i : Instr) : Option W64 :=
  match badReg h i with
  | some r => some (BitVec.ofNat 64 (regNumber r))
  | none =>
    if i.wellFormed && scopesOk h i && matrixOk h part i && (match weirOf i with | some w => w < h.weirs | none => true)
    then none else some 0

/-- Fixed latencies (03 R82); none: variable, interlocked. -/
def latencyOf (i : Instr) : Option Nat :=
  match i with
  | .call .. => some 2
  | .rdlane .. => some 8
  | .sld .. => none
  | .fdot2 .. => some 6
  | .rng .. => some 6
  | .imul .. | .imulh .. | .imad .. | .imadw .. | .idot4 .. => some 6
  | .frnd .. | .cvt .. | .cvtn .. | .pack .. | .unpk .. => some 6
  | i => match classOf i with
    | 1 | 2 | 6 => some 4
    | 3 => some 5
    | 5 => some 8
    | _ => none

/-- Bytes of one thread's image (18 R403). -/
def imageSize (h : Header) : Nat := 32 + 4 * h.vregs

end Sys2Proof.Machine
end

