-- ==== Sys2Proof/Machine/Tokens.lean ====
section
/-!
DEFINITION. What an instruction captures that issues once on behalf of a set of lanes (01 R18, 07 R203, R434), the
registers it interlocks, and tokens (07 R207) with the faults recorded with them.
-/

namespace Sys2Proof.Machine

def Once.core (o : Once) : Nat := coreOf o.slot
/-- A captured scalar register, and a pair of them. -/
def Once.k (o : Once) (n : Nat) : W32 := tget 0 o.regs n
def Once.k64 (o : Once) (n : Nat) : W64 := joinWords (o.k (n + 1)) (o.k n)
/-- The captured values of the scalar registers that the instruction reads, in the order of the entry. -/
def Once.scalars (o : Once) : List W32 := (readsOf o.instr).map (fun r => match r with | .k n => o.k n | _ => 0)
/-- The threads of the issuing set. -/
def Once.threads (o : Once) : List Nat := (maskLanes o.lanes).map (fun l => 32 * o.slot + l)

def fmtX? : Instr → Option FmtX
  | .mld _ f | .mswp _ f | .mma _ f | .mmap _ f | .mguide _ f | .accz _ f | .accrd _ f | .accwr _ f | .acc2s _ f
  | .scld _ f | .cpy _ f | .cpy2d _ f | .gath _ f | .scat _ f | .qdual _ f | .cast _ f | .mred _ f => some f
  | _ => none

/-- Scalar registers that the pair matcher compares beside those that the entry reads (07 R215); one beyond the kernel's count is
left out of the comparison and of the wait. DESIGN CHOICE, log 107. -/
def comparedRegs : Instr → List RegRef
  | .mmap _ f => if f.bs then (List.range 3).map (fun i => .k (f.kS.toNat + 2 + i)) else []
  | _ => []

namespace State

/-- Capture an instruction's scalar registers as some threads of the gang read them. -/
def capture (s : State) (ts : List Nat) (slot : Nat) (i : Instr) : Tab W32 :=
  (readsOf i ++ comparedRegs i).foldl (fun t r => match r with | .k n => tset 0 t n (s.kreg ts slot n) | _ => t) []
/-- Interlock registers of threads, and release them. -/
def lockAll (s : State) (rs : List (Nat × RegRef)) : State :=
  rs.foldl (fun s r => s.modLane r.1 (fun l => { l with lock := l.lock ++ [r.2] })) s
def unlockAll (s : State) (rs : List (Nat × RegRef)) : State :=
  rs.foldl (fun s r => s.modLane r.1 (fun l => { l with lock := l.lock.erase r.2 })) s

/-! ### Tokens (07 R207). -/

/-- A fresh token: not zero and not pending in the gang; which one the spec leaves open. -/
def freshToken (s : State) (slot : Nat) : W32 :=
  let x := Config.token s.fresh
  let used := (s.gang slot).tokens.map (fun t => t.value)
  ((List.range (used.length + 2)).find? (fun i =>
    x + BitVec.ofNat 32 i != 0 && !used.contains (x + BitVec.ofNat 32 i))).elim 1 (fun i => x + BitVec.ofNat 32 i)
/-- Write a token to the gang's token register and note it as pending. -/
def giveToken (s : State) (o : Once) (r : Nat) (u : TokenUnit) (job : Nat) : W32 × State :=
  let v := s.freshToken o.slot
  let s := { s with fresh := s.fresh + 1 }
  let s := s.writeK [] o.slot r v none
  (v, s.modGang o.slot (fun g => { g with
    tokens := g.tokens ++ [{ value := v, unit := u, job := job, thread := o.thread, done := false, fault := none }] }))
/-- Every token of the device's gangs on a unit of a core, with its gang. -/
def unitTokens (s : State) (c : Nat) (u : TokenUnit) : List Token :=
  (s.gangs.filter (fun g => coreOf g.1 == c)).flatMap (fun g => g.2.tokens.filter (fun t => t.unit == u))
/-- Complete: its job done and every earlier token of the unit done (jobs are numbered in issue order). -/
def tokenComplete (s : State) (c : Nat) (t : Token) : Bool :=
  t.done && (t.unit == .mred || !(s.unitTokens c t.unit).any (fun x => x.job < t.job && !x.done))
/-- Mark a job's token done, with its fault, in a gang. -/
def doneToken (job : Nat) (fault : Option (Nat × W64)) (g : Gang) : Gang :=
  { g with tokens := g.tokens.map (fun t => if t.job == job then { t with done := true, fault := fault } else t) }
/-- Mark a job's token done; the gang is in its slot, or saved in a frame (06 R198). -/
def finishToken (s : State) (slot job : Nat) (fault : Option (Nat × W64)) : State :=
  let s := s.modGang slot (doneToken job fault)
  { s with frames := s.frames.map (fun (f : Nat × Frame) =>
      (f.1, { f.2 with gangs := f.2.gangs.map (fun (g : Nat × Gang) => (g.1, doneToken job fault g.2)) })) }

/-- The unit that performs an instruction. -/
def unitOf (i : Instr) (f : FmtX) : TokenUnit :=
  match i with
  | .mred .. => .mred
  | _ => if classOf i == 0xA then .engine f.eng.toNat else .channel f.eng.toNat
/-- Record a fault with an instruction that no lane stands at, which then has no effect: with its token, or for the gang's
next class 0xA instruction on the engine; the registers it would write are released (07 R434, R209). -/
def recordFault (s : State) (o : Once) (fault : Nat × W64) : State :=
  match fmtX? o.instr with
  | none => s
  | some f =>
    let s := s.unlockAll o.locked
    if classOf o.instr != 0xA || f.tk then
      let id := s.nextId
      ({ s with nextId := id + 1 }.giveToken o f.tok.toNat (unitOf o.instr f) id).2.finishToken o.slot id (some fault)
    else s.modGang o.slot (fun g => { g with engineFault := tput g.engineFault f.eng.toNat fault })

/-- The groups of a gang that wait at a paired instruction. -/
def pairWaiters (s : State) (slot : Nat) : List (Nat × Group) :=
  s.groups.filter (fun g => g.2.status == .pairWait && g.2.members.any (fun t => slotOf t == slot))
/-- The partner's instruction will not come: what a gang waits with faults, recorded when no lane stands at it; a group that
stands there issues again and faults (07 R215, R434, 18 R401). -/
def losePartner (s : State) (slot : Nat) (partner : W64) : State :=
  match (s.gang slot).pairOp with
  | none => s
  | some x =>
    let s := s.modGang slot (fun g => { g with pairOp := none })
    if (s.pairWaiters slot).isEmpty then s.recordFault x.op (0x0D, partner)
    else
      let s := s.unlockAll x.op.locked
      { s with groups := s.groups.map (fun g =>
          if g.2.status == .pairWait && g.2.members.any (fun t => slotOf t == slot) then (g.1, { g.2 with status := .ready }) else g) }

end State

end Sys2Proof.Machine
end

