-- ==== Sys2Proof/Machine/Ops.lean ====
section
/-!
DEFINITION. The shared operations of every meaning: who acts, moving threads between groups, taking an exception and
ending a gang (16 R376, R377), leases' ends, barriers, releasing slots, and the issue of an instruction with the checks
of 03 R97 before its effect.
-/

namespace Sys2Proof.Machine

namespace State

/-! ### Regions (15 R356). -/

/-- The address of the region whose value of a field with inheritance bit `bit` is effective. -/
def ownerAt (s : State) (bit : Nat) : Nat → Nat → Nat
  | 0, a => a
  | n + 1, a =>
    let r := s.region a
    if r.inherit.getLsbD bit && r.parent != 0 then s.ownerAt bit n r.parent else a
def ownerOf (s : State) (bit n a : Nat) : Region := s.region (s.ownerAt bit n a)
def depth (s : State) : Nat := s.regions.length
/-- The region and its ancestors, nearest first. -/
def ancestry (s : State) : Nat → Nat → List Nat
  | 0, _ => []
  | n + 1, a => a :: (if (s.region a).parent == 0 then [] else s.ancestry n (s.region a).parent)
def effCores (s : State) : Nat → Nat → BitVec 192
  | 0, a => (s.region a).cores
  | n + 1, a =>
    let r := s.region a
    if r.parent == 0 then r.cores
    else
      let up := s.effCores n r.parent
      if r.inherit.getLsbD 0 then up else r.cores &&& up
def effPrivilege (s : State) : Nat → Nat → Bool
  | 0, a => (s.region a).privilege
  | n + 1, a =>
    let r := s.region a
    if r.parent == 0 then r.privilege
    else s.effPrivilege n r.parent && (r.inherit.getLsbD 9 || r.privilege)
def effQuantum (s : State) (a : Nat) : Nat := (s.ownerOf 5 s.depth a).quantum
def effPriority (s : State) (a : Nat) : Nat := (s.ownerOf 10 s.depth a).priority
def effSalt (s : State) (a : Nat) : W64 := (s.ownerOf 8 s.depth a).salt
/-- The region that stands for the fault domain of a region: the one whose handler address is effective (15 R355, R356). -/
def effDomain (s : State) (a : Nat) : Nat := s.ownerAt 6 s.depth a
/-- The quantum and the fault domain that a region's gangs run with: those of the last dispatch decision (15 R358). DEDUCED,
log 54. -/
def quantumOf (s : State) (a : Nat) : Nat := (s.region a).quantumNow.getD (s.effQuantum a)
def domainOf (s : State) (a : Nat) : Nat := (s.region a).domainNow.getD (s.effDomain a)
/-- TRAPVEC of the fault domain, WALKBASE and ASID of the region, as dispatch loaded them or CSRW left them (01 R26, 08 R244,
15 R363). DEDUCED, log 53. -/
def trapvec (s : State) (a : Nat) : W64 := (s.region (s.domainOf a)).csrTrapvec.getD (s.region (s.domainOf a)).faultDomain
def walkbase (s : State) (a : Nat) : W64 := (s.region a).csrWalkbase.getD (s.ownerOf 7 s.depth a).walkbase
def asid (s : State) (a : Nat) : BitVec 16 := (s.region a).csrAsid.getD (s.ownerOf 7 s.depth a).asid

def prvOf (s : State) (t : Nat) : Bool := (s.lane t).status.getLsbD 0
/-- Who translates for a thread. -/
def who (s : State) (t : Nat) : Who :=
  let r := s.regionOf (slotOf t)
  { core := coreOf (slotOf t), walkbase := s.walkbase r, asid := (s.asid r).toNat, prv := s.prvOf t }

/-- The instruction reads memory through the constant cache only (01 R31). -/
def readsConst (i : Instr) : Bool :=
  match i with
  | .ldc _ _ => true
  | .ld _ f => f.space != 0
  | .sld _ _ | .sst _ _ => false
  | i => classOf i < 7
/-- An exception that an uncorrectable error found now raises: not one that a token or an engine kept, which was logged when
it was found (07 R207, R209). -/
def newError (i : Instr) (code : Nat) : Bool :=
  match i with
  | .tkwait _ _ => false
  | i => code == 0x16 || code == 0x19 || code == 0x1A || (code == 0x17 && classOf i != 0xA)

/-! ### Leases' ends (10 R292). -/

/-- Change a lease that has not ended yet. -/
def setLease (s : State) (c line : Nat) (holder : Option Nat) (l : Lease) : State :=
  s.modCore c (fun k => { k with leases := k.leases.map (fun x => if x.line == line && x.holder == holder && !x.ending then l else x) })
/-- End a thread's lease, or the atomic unit's: the line's dirty bytes go through to the home, and stay dirty until it accepts
them (10 R292, R293). While a release to the line is not acknowledged, or no outstanding entry is free, the write-through
waits (10 R277, R282, R283). -/
def endLease (s : State) (c line : Nat) (holder : Option Nat) (notify : Option (Nat × Nat × W64)) : State :=
  match (s.core c).leases.find? (fun l => l.line == line && l.holder == holder && !l.ending) with
  | none => s
  | some l =>
    if l.revoked then s.modCore c (fun k => { k with leases := k.leases.filter (fun x => !(x.line == line && x.holder == holder)) })
    else if s.pinnedLine c line || l.flush.any (fun i => (tfind s.net i).isSome) || Config.maxOutstanding ≤ s.outstanding c then
      s.setLease c line holder { l with record := true, notify := notify }
    else
      let cells := (s.l1Line c line).elim ([], []) (fun k => s.wbCells c line (dirtyCells k))
      (s.setLease c line holder { l with ending := true, record := false, notify := notify }).send'
        { core := c, toHome := true, line := line, body := .leaseWrite cells.1 cells.2 holder }
/-- Write-throughs of a core that had to wait start. -/
def endWaiting (s : State) (c : Nat) : State :=
  ((s.core c).leases.filter (fun l => l.record && !l.ending)).foldl (fun s l => s.endLease c l.line l.holder l.notify) s
def endLeasesOf (s : State) (t : Nat) : State :=
  let c := coreOf (slotOf t)
  -- an LSEND that has issued completes (10 R296)
  ((s.core c).leases.filter (fun l => l.holder == some t && !l.ending && !(l.record && l.notify.isSome))).foldl
    (fun s l => s.endLease c l.line (some t) none)
    { s with
      leaseQueue := s.leaseQueue.filter (fun r => r.holder != some t)
      requests := s.requests.filter (fun r => !(r.2.kind == .leaseLoad && r.2.loads.any (fun l => l.thread == t))) }

/-! ### Barriers (07 R201, R202). -/

/-- An acquire at a scope by a core, block scope mapped: at die scope or wider its clean bytes go (10 R281). -/
def acquireAt (s : State) (c : Nat) (scope : BitVec 4) : State :=
  if 4 ≤ scope.toNat && scope.toNat ≤ 6 then s.dropClean c else s

/-- Complete the open phase of a barrier when every member has arrived; waiting groups go on. -/
def tryBarrier (s : State) (bk id : Nat) : State :=
  let b := s.block bk
  let st := (tfind b.bars id).getD { phase := 0, arrived := [] }
  let slots := b.parts.flatMap (fun p => p.slots)
  let members := slots.filter (fun n => (s.liveOf n) != [] &&
    (tfind (s.gang n).barrierMember id).getD 0 ≤ st.phase)
  if b.saved || st.arrived.isEmpty || !members.all (fun n => st.arrived.contains n) then s
  else
    let s := s.modBlock bk (fun b => { b with bars := tput b.bars id { phase := st.phase + 1, arrived := [] } })
    let woken := s.groups.filter (fun g => match g.2.status with
      | .barrier i p => i == id && p ≤ st.phase && (g.2.members.any (fun t => slots.contains (slotOf t)))
      | _ => false)
    woken.foldl (fun s g => (s.modGroup g.1 (fun x => { x with status := .ready })).acquireAt g.2.core b.scope) s
def tryBarriers (s : State) (bk : Nat) : State := (List.range 16).foldl (fun s i => s.tryBarrier bk i) s

/-! ### Releasing slots (04 R114, 15 R349, R357, R367). -/

/-- Work of a gang that still runs: jobs, MREDs, engine instructions, memory requests, reductions and accesses to peers that
are not acknowledged, saved state. -/
def workLeft (s : State) (n : Nat) : Bool :=
  let c := coreOf n
  let k := s.core c
  k.jobs.any (fun j => j.gang == n) || s.mreds.any (fun m => m.2.gang == n) ||
    k.engines.any (fun e => e.2.queue.any (fun o => o.gang == n || o.other.any (fun p => p.1 == n))) ||
    s.requests.any (fun r => r.2.loads.any (fun l => slotOf l.thread == n) || r.2.ops.any (fun l => slotOf l.thread == n) ||
      r.2.pref == some n) ||
    s.unserved.any (fun m => match m.body with | .red _ _ _ _ _ gs => gs.contains n | _ => false) ||
    s.peers.any (fun p => p.2.replay.any (fun a => a.slot == n)) ||
    s.heldIssues.any (fun h => h.slot == n) || s.pfRecords.any (fun r => r.2.slot == n && r.2.age == (s.gang n).age && r.2.issue.isSome)
/-- A gang keeps its slot: its work, and its leases. -/
def gangBusy (s : State) (n : Nat) : Bool :=
  s.workLeft n || (s.core (coreOf n)).leases.any (fun l => match l.holder with | some t => slotOf t == n | none => false)

def subUse (r : Region) (gangs rows vregs scratch : Nat) : Region :=
  { r with usedGangs := r.usedGangs - gangs, usedRows := r.usedRows - rows, usedVregs := r.usedVregs - vregs
           usedScratch := r.usedScratch - scratch }
/-- The usage counters of a control block, in the order and the widths of its budgets (15 R355). DEDUCED, log 62. -/
def useBytes (r : Region) : List Byte := le4 r.usedGangs ++ le4 r.usedRows ++ le8 r.usedVregs ++ le8 r.usedScratch
/-- Change a region's use, in its control block too. -/
def modUse (s : State) (a : Nat) (f : Region → Region) : State :=
  match tfind s.regions a with
  | none => s
  | some r => { s with regions := tput s.regions a (f r) }.homeWrite (a + 0x68) (useBytes (f r))
def creditRegion (s : State) (a gangs rows vregs scratch : Nat) : State :=
  (s.ancestry (s.depth + 1) a).foldl (fun s a => s.modUse a (fun r => subUse r gangs rows vregs scratch)) s

/-- The write-backs and lease write-throughs of a core in flight. -/
def writeBacks (s : State) (c : Nat) : List Nat :=
  s.net.filterMap (fun m => match m.2.body with
    | .writeBack .. | .leaseWrite .. => if m.2.core == c then some m.1 else none
    | _ => none)
/-- A launch whose work is done completes: a faulted one stays faulted, and one in the ember state completes after it (15 R354). -/
def completeLaunch (s : State) (q : Nat) : State :=
  if (tfind s.commands q).any (fun c => c.state == 2) then setCommand s q 3 0 0 0 else s
/-- A launch whose last slot is free writes every dirty byte of its cores back; when all of it is on its way the launch
waits for the acknowledgements, and without any it is complete (15 R351, 10 R283). -/
def tryFinishLaunch (s : State) (q : Nat) : State :=
  match tfind s.launches q with
  | none => s
  | some l =>
    if l.ending.isSome || s.gangs.any (fun g => g.2.launch == q) || s.blocks.any (fun b => b.2.launch == q) ||
        !l.waiting.isEmpty || l.nextBlock < l.nblocks.toNat then s
    else
      let r := l.ranOn.foldl (fun (acc : Bool × State) c =>
        let lines := acc.2.dirtyLines c
        let free := lines.filter (fun l => !acc.2.leasedLine c l && !acc.2.pinnedLine c l)
        let w := acc.2.writeBackFit c free
        (acc.1 && w.1 && free.length == lines.length, w.2)) (true, s)
      if !r.1 then r.2
      else
        let ids := l.ranOn.flatMap r.2.writeBacks
        let s := r.2.modLaunch q (fun l => { l with ending := some ids })
        if ids.isEmpty then s.completeLaunch q else s
/-- Look again at launches whose write-backs had to wait. -/
def tryFinishLaunches (s : State) (c : Nat) : State :=
  (s.launches.filter (fun l => l.2.ending.isNone && l.2.ranOn.contains c)).foldl (fun s l => s.tryFinishLaunch l.1) s

/-- Firmware frees the emulated leases of a slot's threads: the line PA of each of their entries becomes 0 (16 R380). DEDUCED,
log 97. -/
def freeEntries (s : State) (n : Nat) : State :=
  if s.emulationLease == 0 then s
  else
    let area := s.emulationLease.toNat + 512 * (32 * n)
    let free := fun (s : State) (key : Nat) =>
      let s := if (s.l1Bytes (coreOf n) key 8).isEmpty then s else s.l1Put (coreOf n) key (le8 0)
      s.homeWrite key (le8 0)
    let used := fun (key : Nat) => s.natAt key 8 != 0 || !(s.l1Bytes (coreOf n) key 8).isEmpty
    -- no entry of the slot is listed in memory or in the core's L1
    if !s.mem.any (fun b => area ≤ b.1 && b.1 < area + 16384) &&
        !(s.core (coreOf n)).l1.any (fun l => area ≤ 128 * l.1 && 128 * l.1 < area + 16384) then s
    else (((List.range 64).map (fun i => area + 256 * i)).filter used).foldl free s

/-- Release a gang's slot when its live set is empty and its work has completed. A population keeps its slots until all
its threads have exited (08 R238). -/
def reap (s : State) (n : Nat) : State :=
  match tfind s.gangs n with
  | none => s
  | some g =>
    let l := s.launch g.launch
    let kept := l.header.population && (s.blocks.any (fun b => b.2.launch == g.launch && b.2.saved) ||
      s.gangs.any (fun x => x.2.launch == g.launch && s.liveOf x.1 != []))
    if s.liveOf n != [] || s.gangBusy n || kept then s
    else
      let bk := s.blockOf n
      let b := s.block bk
      let part := (b.parts.find? (fun p => p.slots.contains n)).getD BlockPart.none
      let lastHere := part.slots.length == 1
      let without := fun (p : BlockPart) => { p with slots := p.slots.filter (fun x => x != n) }
      let parts := (b.parts.map without).filter (fun p => !p.slots.isEmpty)
      let s := (s.freeEntries n).modCore (coreOf n) (fun k => { k with saving := k.saving.filter (fun x => x != n) })
      let s := { s with
        gangs := tdel s.gangs n
        lanes := s.lanes.filter (fun x => slotOf x.1 != n)
        blocks := tmod s.blocks bk (fun b => { b with parts := parts }) }
      let s := { s with blocks := if (s.block bk).parts.isEmpty then tdel s.blocks bk else s.blocks }
      let here := fun (gs : List (Nat × Gang)) => gs.any (fun x => x.2.launch == g.launch && coreOf x.1 == coreOf n)
      let lastOfLaunch := !here s.gangs && !s.frames.any (fun f => here f.2.gangs)
      let pooled := if lastOfLaunch then (l.pool.filter (fun p => coreOf p.1 == coreOf n)).length else 0
      let pool :=
        if lastOfLaunch then l.pool.filter (fun p => coreOf p.1 != coreOf n)
        else if g.spawnPool then l.pool ++ [(n, g.regBase)] else l.pool
      let gone := !s.gangs.any (fun x => x.2.launch == g.launch)
      let s := s.modLaunch g.launch (fun l => { l with pool := pool, staging := if gone then none else l.staging })
      let freed := (if g.spawnPool && !lastOfLaunch then 0 else 1) + pooled
      let s := s.creditRegion l.region freed (if lastHere then 4 * l.header.accrows else 0) (freed * g.allocRegs * 128)
        (if lastHere then l.header.scratch else 0)
      s.tryFinishLaunch g.launch

/-! ### Threads that end. -/

def dropFromGroups (s : State) (ts : List Nat) : State :=
  { s with groups := s.groups.filterMap (fun g =>
      let m := g.2.members.filter (fun t => !ts.contains t)
      if m.isEmpty then none else some (g.1, { g.2 with members := m })) }

/-- The partner of a gang whose live set has emptied: the pair is dissolved, and what the partner waits with faults
(01 R40, 07 R215). -/
def dissolvePair (s : State) (n : Nat) : State :=
  match (s.gang n).partner with
  | none => s
  | some p =>
    if (s.gang p).pair != .paired || (s.gang p).partner != some n then s
    else (s.modGang p (fun g => { g with pair := .dissolved })).losePartner p (BitVec.ofNat 64 n)

/-- The live flag goes, leases end, and an emptied gang leaves its pair and its barriers; groups that gathered look again; the
slot is released when its work is done (04 R114). Weirs are the caller's. -/
def retire (s : State) (ts : List Nat) : State :=
  let s := s.dropFromGroups ts
  let s := ts.foldl (fun s t => (s.modLane t (fun l => { l with live := false })).endLeasesOf t) s
  let waits := fun (g : Group) => g.status.gathers && g.members.any (fun t => ts.any (fun u => slotOf u == slotOf t))
  let s := { s with groups := s.groups.map (fun g => if waits g.2 then (g.1, { g.2 with status := .ready }) else g) }
  (dedup (ts.map slotOf)).foldl (fun s n =>
    if s.liveOf n != [] then s
    else
      let bk := s.blockOf n
      let q := (s.gang n).launch
      let s := ((s.dissolvePair n).tryBarriers bk).reap n
      -- a population's slots are released together (08 R238)
      if (s.launch q).header.population then
        (s.gangs.filter (fun g => g.2.launch == q)).foldl (fun s g => s.reap g.1) s
      else s) s

/-- What ends with a gang: its lanes, parked ones too, and what it had left behind (16 R377). DEDUCED, log 69. -/
def stopGang (s : State) (n : Nat) : State :=
  let s := s.modGang n (fun g => { g with weirs := [], halted := false })
  let s := { s with pfRecords := s.pfRecords.filter (fun r => r.2.slot != n || r.2.age != (s.gang n).age), heldIssues := s.heldIssues.filter (fun h => h.slot != n) }
  s.retire (s.liveOf n)
/-- End a gang for a fault (16 R377). -/
def endGang (s : State) (n code : Nat) (mask : W32) (eaddr : W64) : State :=
  (journalGangFault s n code mask eaddr).stopGang n

/-! ### Groups. -/

/-- Where a thread goes after its instruction. -/
inductive Disp where
  | seq
  | goto (pc : W64)
  /-- At the same instruction, to issue it again or to be completed by an event. -/
  | stay (st : Status)
  /-- Past the instruction, held back. -/
  | move (st : Status)
  | trap (code : Nat) (eaddr : W64)
  /-- TRAP and DBRK: the exception returns past the instruction (16 R376). -/
  | trapPast (code : Nat) (eaddr : W64)
  | gone
  deriving DecidableEq, Repr

/-- Entries of the merge table that a core's partition may take (15 R368). -/
def tableFree (s : State) (c part : Nat) : Bool :=
  let count := fun p => (s.groups.filter (fun g => g.2.core == c && !g.2.loose &&
    g.2.members.head?.elim 0 (fun t => partOf (slotOf t)) == p)).length
  count part < 64 || ((List.range 8).map (fun p => max (count p) 64)).sum < 1024

/-- New groups for threads at one place: one entry, or loose threads when the table is full. -/
def addGroup (s : State) (g : Group) : State :=
  let part := g.members.head?.elim 0 (fun t => partOf (slotOf t))
  if s.tableFree g.core part then { s with groups := tput s.groups s.nextId g, nextId := s.nextId + 1 }
  else g.members.foldl (fun s t =>
    { s with groups := tput s.groups s.nextId { g with members := [t], loose := true }, nextId := s.nextId + 1 }) s

/-- Split a group by where its threads go; the part with the lowest lane keeps the group, and a priority unless it waits on
a barrier, a weir or a memory result (01 R37). -/
def regroup (s : State) (gid : Nat) (ps : List (Nat × Option (W64 × Status × Bool))) : State :=
  match tfind s.groups gid with
  | none => s
  | some g =>
    let places := dedup (ps.filterMap (fun p => p.2))
    let s := { s with groups := tdel s.groups gid }
    let part := fun (pl : W64 × Status × Bool) (keep : Bool) => ({ g with
        pc := pl.1, status := pl.2.1, branched := pl.2.2, members := (ps.filter (fun p => p.2 == some pl)).map (·.1)
        prio := if keep && !pl.2.1.endsPrio then g.prio else none, waitCount := if keep then g.waitCount else 0, answers := if keep && pl.1 == g.pc then g.answers else []
        flushed := keep && pl.1 == g.pc && g.flushed, toEnter := if pl.1 == g.pc then g.toEnter else none } : Group)
    match places with
    | [] => s
    | p :: rest => rest.foldl (fun s pl => s.addGroup (part pl false)) { s with groups := tput s.groups gid (part p true) }

/-! ### Transfers and exceptions. -/

/-- Check a transfer's target (03 R76): where the thread goes. -/
def checkTarget (s : State) (w : Who) (target : W64) : Disp × State :=
  if !canonicalVa target then (.trap 0x11 target, s)
  else if !pcOk target then (.trap 0x04 target, s)
  else
    match fetchLine s w target with
    | (.ok l, s) => (if lineTarget l (pcSlot target) then .goto target else .trap 0x05 target, s)
    | (.wait, s) => (.stay .ready, s)
    | (_, s) => (.goto target, s)
/-- The target of a slot number, which may be negative (03 R75). DESIGN CHOICE, log 92. -/
def checkSlot (s : State) (w : Who) (n : Int) : Disp × State :=
  let pc := n.fdiv 5 * 64 + 12 * n.fmod 5
  let low : W64 := BitVec.ofInt 64 pc
  if n < 0 then (.trap 0x04 low, s)
  else if 2 ^ 64 ≤ pc then (.trap 0x11 low, s)
  else s.checkTarget w low

/-- TAKING AN EXCEPTION in one thread (16 R376): the saved registers, the status, the handler's address, where the check of
the target mask waits for a line that is not there yet (03 R76); none: the gang ends, the failed transfer to a handler
logged. -/
def enterHandler (s : State) (t : Nat) (epc : W64) (code : Nat) (eaddr : W64) : Option (W64 × Status) × State :=
  let l := s.lane t
  let vec := s.trapvec (s.regionOf (slotOf t))
  if l.status.getLsbD 2 || vec == 0 then (none, s)
  else
    let fails := fun (f : Nat) (s : State) => (none, logRecord s 17 f 2 (slotOf t) vec.toNat)
    let enter := fun (at' : Status) (s : State) =>
      let st : W32 := (if l.status.getLsbD 0 then 2 else 0) ||| 1 ||| 4
      (some (vec, at'), s.setLane t { l with epc := epc, ecause := BitVec.ofNat 32 code, eaddr := eaddr, status := st })
    if !canonicalVa vec then fails 0x11 s
    else if !pcOk vec then fails 0x04 s
    else
      match fetchLine s { s.who t with prv := true } vec with
      | (.ok ln, s) => if lineTarget ln (pcSlot vec) then enter .ready s else fails 0x05 s
      | (.fault f _, s) => fails f s
      | (.notPresent, s) => enter (.entering true) s
      | (.wait, s) => enter (.entering true) s
/-- The registers that a handler's entry writes have failed: fault 0x16, which the entry raises with INH = 1 (16 R384). -/
def entryFails (s : State) (t : Nat) : Bool :=
  s.failed.contains (.entry t) && !(s.lane t).status.getLsbD 2 && s.trapvec (s.regionOf (slotOf t)) != 0

/-- RETURN FROM AN EXCEPTION in one thread (08 R247): the status, and the PC to continue at. -/
def leaveHandler (s : State) (t : Nat) : W64 × State :=
  let l := s.lane t
  let st : W32 := (if l.status.getLsbD 1 then 1 else 0) ||| (l.status &&& 2)
  (l.epc, s.setLane t { l with status := st })

/-- What is gathered on the way: the place of each thread, none for one that ends; the exceptions that end a gang: slot,
thread, code, EADDR; the state. -/
structure Sent where
  places : List (Nat × Option (W64 × Status × Bool))
  ends : List (Nat × Nat × Nat × W64)
  state : State
/-- An exception of one thread that a handler returns from to `epc`. -/
def sendTrap (a : Sent) (t : Nat) (epc : W64) (code : Nat) (eaddr : W64) : Sent :=
  if a.state.entryFails t then
    { places := a.places ++ [(t, none)], ends := a.ends ++ [(slotOf t, t, 0x16, 0)]
      state := logRecord a.state 0 0x16 1 (coreOf (slotOf t)) 0 }
  else
    match a.state.enterHandler t epc code eaddr with
    | (some (vec, st), s) => { a with places := a.places ++ [(t, some (vec, st, true))], state := s }
    | (none, s) => { places := a.places ++ [(t, none)], ends := a.ends ++ [(slotOf t, t, code, eaddr)], state := s }
/-- Send one thread of a group at `pc`; `branched`: the group came there by a branch. -/
def send1 (pc : W64) (branched : Bool) (a : Sent) (d : Nat × Disp) : Sent :=
  let put := fun p => { a with places := a.places ++ [(d.1, p)] }
  match d.2 with
  | .seq => put (some (nextPc pc, .ready, false))
  | .goto p => put (some (p, .ready, true))
  | .stay st => put (some (pc, st, branched))
  | .move st => put (some (nextPc pc, st, false))
  | .gone => put none
  | .trap code ea => sendTrap a d.1 pc code ea
  | .trapPast code ea => sendTrap a d.1 (nextPc pc) code ea
/-- Journal the exceptions of a gang that no handler took, each code once in the order of the threads, with the mask of the
lanes that raised it and the EADDR of the first: the first goes to the journal, the others to the error log (16 R377).
DEDUCED, log 69. -/
def journalEnds (s : State) (n : Nat) (ends : List (Nat × Nat × Nat × W64)) : State :=
  (dedup (ends.map (fun e => e.2.2.1))).foldl (fun s code =>
    let mine := ends.filter (fun e => e.2.2.1 == code)
    journalGangFault s n code (laneMask (mine.map (fun e => e.2.1))) (mine.head?.elim 0 (fun e => e.2.2.2))) s
/-- End the gangs whose exceptions no handler took. -/
def endGangs (s : State) (ends : List (Nat × Nat × Nat × W64)) : State :=
  (dedup (ends.map (·.1))).foldl (fun s n => (s.journalEnds n (ends.filter (fun e => e.1 == n))).stopGang n) s
/-- Send the threads of a group where they go: exceptions first, thread by thread, then the split, then the gangs that
end. -/
def dispose (s : State) (gid : Nat) (pc : W64) (ds : List (Nat × Disp)) : State :=
  let branched := (tfind s.groups gid).any (fun g => g.branched)
  let r := ds.foldl (send1 pc branched) { places := [], ends := [], state := s }
  (r.state.regroup gid r.places).endGangs r.ends

/-- The transfer of a group to a handler fails when its line comes: its gangs end by the exception that was taken (16 R376). -/
def failEntry (s : State) (gid : Nat) (g : Group) (code : Nat) : State :=
  let s := g.members.foldl (fun s t => logRecord s 17 code 2 (slotOf t) g.pc.toNat) s
  let ends := g.members.map (fun t => (slotOf t, t, (s.lane t).ecause.toNat, (s.lane t).eaddr))
  (s.regroup gid (g.members.map (fun t => (t, none)))).endGangs ends
/-- Move one thread out of its group to a place of its own: what an event does to a thread that waited. -/
def resume (s : State) (t : Nat) (d : Disp) : State :=
  match s.groupWith t with
  | none => s
  | some (gid, g) =>
    let s := { s with groups := tput s.groups gid { g with status := .ready } }
    let s := s.dispose gid g.pc (g.members.map (fun m => (m, if m == t then d else .stay g.status)))
    s

/-! ### Issue. -/

/-- The issue of one instruction: the group, the gang it acts for, the threads, and those whose guard holds. -/
structure Ctx where
  gid : Nat
  core : Nat
  slot : Nat
  pc : W64
  ts : List Nat
  act : List Nat
  head : Header
  lat : Option Nat
  deriving Repr

/-- The part of a group that some of its threads form: a priority goes with the lowest lane (01 R37). -/
def partOf' (g : Group) (ts : List Nat) : Group :=
  let lowest := (sortBy laneOf g.members).head?
  { g with members := ts, waitCount := 0, prio := if lowest.any ts.contains then g.prio else none }
/-- Split a merged group by home gang; the oldest gang's part keeps the group's number and issues first (01 R16). -/
def splitByGang (s : State) (gid : Nat) (g : Group) : State :=
  let gangs := sortBy (fun n => (s.gang n).age) (dedup (g.members.map slotOf))
  let mine := fun (n : Nat) => g.members.filter (fun t => slotOf t == n)
  match gangs with
  | [] | [_] => s
  | n :: rest => rest.foldl (fun s m => s.addGroup (partOf' g (mine m))) (s.modGroup gid (fun x => partOf' x (mine n)))

/-- Two groups at one slot as one entry of the merge table, under the number of the first. -/
def mergeTwo (s : State) (gid : Nat) (x : Nat × Group) : State :=
  match tfind s.groups gid with
  | some a =>
    if a.members.any (fun t => x.2.members.any (fun u => laneOf u == laneOf t)) then s
    else { s with groups := tput (tdel s.groups x.1) gid { a with
      members := sortBy laneOf (a.members ++ x.2.members), waitCount := 0, loose := a.loose && x.2.loose
      branched := a.branched || x.2.branched, flushed := a.flushed && x.2.flushed
      hold := max a.hold x.2.hold, prio := a.prio.orElse (fun _ => x.2.prio), yielded := a.yielded && x.2.yielded } }
  | none => s
/-- Merge the group with the groups that stand at its slot, ready or gathering (01 R14, 03 R77). Loose threads join an entry,
or take a free one when there is none (15 R368). DEDUCED, log 13. -/
def mergeHere (s : State) (gid : Nat) (g : Group) : State :=
  let stopped := fun (x : Group) => x.members.any (fun t =>
    (s.gang (slotOf t)).halted || (s.core g.core).saving.contains (slotOf t))
  -- the same kernel: its header at the same address of the same address space
  let key := fun (x : Group) => x.members.head?.elim (0, Header.none, 0, 0) (fun t =>
    (partOf (slotOf t), s.headerOf (slotOf t), s.walkbase (s.regionOf (slotOf t)), s.asid (s.regionOf (slotOf t))))
  let others := s.groups.filter (fun x => x.1 != gid && x.2.core == g.core && x.2.pc == g.pc &&
    (x.2.status == .ready || x.2.status.gathers) && key x.2 == key g && !stopped x.2)
  let t := others.foldl (fun s x => s.mergeTwo gid x) s
  if !(tfind t.groups gid).any (fun a => a.loose) then t
  else if s.tableFree g.core (key g).1 then t.modGroup gid (fun a => { a with loose := false })
  else s

/-- A group other than the issuing one in which lanes of the gang stand at the instruction: they have arrived (01 R18). -/
def arrivedIn (gid slot : Nat) (pc : W64) (x : Nat × Group) : Bool :=
  x.1 != gid && x.2.pc == pc && (x.2.status == .ready || x.2.status.gathers) && x.2.members.any (fun t => slotOf t == slot)
/-- The groups whose lanes of the gang issue with the group, and those lanes. -/
def arrivals (s : State) (gid : Nat) : List (Group × List Nat) :=
  match tfind s.groups gid with
  | none => []
  | some g =>
    let slot := g.members.head?.elim 0 slotOf
    (s.groups.filter (arrivedIn gid slot g.pc)).map (fun x => (x.2, x.2.members.filter (fun t => slotOf t == slot)))
/-- The lanes of the gang that stand at the instruction in other groups issue it with the group (01 R18, 07 R201); those that
stay behind keep a priority only with the lowest lane (01 R37). -/
def absorb (s : State) (gid : Nat) : State :=
  let ws := s.arrivals gid
  match tfind s.groups gid with
  | none => s
  | some g =>
    if ws.isEmpty then s
    else
      let mine := ws.flatMap (fun w => w.2)
      let s := { s with groups := s.groups.map (fun (x : Nat × Group) =>
        (x.1, if x.1 != gid && x.2.members.any mine.contains && !x.2.members.all mine.contains
              then partOf' x.2 (x.2.members.filter (fun t => !mine.contains t)) else x.2)) }
      let g := { g with
        members := sortBy laneOf (g.members ++ mine), hold := ws.foldl (fun (n : Nat) (w : Group × List Nat) => max n w.1.hold) g.hold
        flushed := ws.all (fun w => w.1.flushed) && g.flushed }
      { s.dropFromGroups mine with groups := tput (s.dropFromGroups mine).groups gid g }
/-- They leave it again after the issue: groups merge at marked slots only (01 R14). A priority counts the issue. -/
def separate (s : State) (ws : List (Group × List Nat)) : State :=
  ws.foldl (fun s w =>
    let mixed := s.groups.filter (fun y => y.2.members.any w.2.contains && !y.2.members.all w.2.contains)
    mixed.foldl (fun s y =>
      let prio := if y.2.status.endsPrio then none else (partOf' w.1 w.2).prio.bind (fun n => if n ≤ 1 then none else some (n - 1))
      (s.modGroup y.1 (fun g => { g with members := g.members.filter (fun t => !w.2.contains t) })).addGroup
        { y.2 with members := y.2.members.filter w.2.contains, prio := prio }) s) s

/-- The threads' fixed-latency results of a register are not reached (03 R83): the first such register of a thread. DESIGN CHOICE, log 88. -/
def scoreboard (s : State) (t : Nat) (rs : List RegRef) : Option RegRef :=
  rs.find? (fun r => match r with
    | .k n => ((s.gang (slotOf t)).kpend.find? (fun e => e.reg == n)).any (fun e =>
        e.writers.any (fun w => w.1 == t && s.ndOf t < w.2))
    | r => (s.lane t).tooSoon r)
/-- A register waits for a variable-latency result (03 R81). -/
def interlocked (s : State) (ts : List Nat) (slot : Nat) (rs : List RegRef) : Bool :=
  rs.any (fun r => match r with
    | .k n => (s.gang slot).klock.contains n || ts.any (fun t => (s.lane t).lock.contains (.k n))
    | r => ts.any (fun t => (s.lane t).lock.contains r))

/-- A group after an issue: one that issued holds for the stall count and keeps its yield mark; an issue of another group of
the gang clears the mark (03 R78, 01 R37, R38). -/
def countGroup (mine ofGang : Bool) (h : Hdr) (yields : Bool) (g : Group) : Group :=
  if mine then
    { g with
      hold := h.stall.toNat, waitCount := 0, yielded := g.yielded || yields
      prio := match g.prio with
        | some n => if n ≤ 1 || g.status.endsPrio then none else some (n - 1)
        | none => none }
  else if ofGang then { g with yielded := false } else g
/-- Count an issue: distances, stall, yield, fairness (03 R78, R81, 01 R37, R38). -/
def countIssue (s : State) (gids : List Nat) (slots ts : List Nat) (h : Hdr) (yields : Bool) : State :=
  let s := ts.foldl (fun s t => s.modLane t (fun l => l.advance h.stall.toNat)) s
  let s := slots.foldl (fun s n => s.modGang n (fun g => g.settle s.ndOf (fun t => (s.lane t).live))) s
  { s with groups := s.groups.map (fun g =>
      (g.1, countGroup (gids.contains g.1) (g.2.members.any (fun t => slots.contains (slotOf t))) h yields g.2)) }

/-- An instruction has issued. -/
def bump (s : State) : State := { s with issued := s.issued + 1 }

/-- A thread's guard holds (03 R79). -/
def acts (s : State) (h : Hdr) (t : Nat) : Bool := (s.lane t).pred h.guard.toNat != h.neg
/-- The first vector register that a thread reads in its own lane and whose word failed (05 R127, 16 R381). -/
def wornReg (s : State) (i : Instr) (t : Nat) : Option Nat :=
  if s.failed.isEmpty then none
  else (laneReads i).findSome? (fun r => match r with
    | .v n => if s.failed.contains (.vreg t n) then some n else none
    | _ => none)
/-- Fault 0x16 in the lanes of Act whose own operand failed; the other lanes of Act complete (05 R127). -/
def wornTraps (s : State) (i : Instr) (h : Hdr) (ts : List Nat) : List (Nat × Disp) :=
  (ts.filter (s.acts h)).filterMap (fun t => (s.wornReg i t).map (fun n => (t, Disp.trap 0x16 (BitVec.ofNat 64 n))))
/-- The context of an issue for the threads that passed its checks. -/
def ctxOf (s : State) (i : Instr) (h : Hdr) (c gid : Nat) (g : Group) (run : List Nat) : Ctx :=
  let slot := g.members.head?.elim 0 slotOf
  { gid := gid, core := c, slot := slot, pc := g.pc, ts := run
    act := run.filter (fun t => s.acts h t && (s.wornReg i t).isNone), head := s.headerOf slot, lat := latencyOf i }
/-- The registers whose variable-latency results an instruction waits for (03 R81). -/
def regsOf (i : Instr) (h : Hdr) : List RegRef :=
  (if h.guard == 7 then [] else [RegRef.p h.guard.toNat]) ++ readsOf i ++ writesOf i
/-- Registers that an instruction names beside its fields: vector registers through a scalar register (07 R218, 08 R236), scalar
registers of the kernel that the pair matcher compares (07 R215). -/
def namedRegs (s : State) (ts : List Nat) (slot : Nat) : Instr → List RegRef
  | .accwr _ f | .accrd _ f =>
    let d := (s.kreg ts slot f.kP.toNat).toNat
    if d + accRegs f ≤ (s.headerOf slot).vregs then (List.range (accRegs f)).map (fun r => RegRef.v (d + r)) else []
  | .rsmp _ f =>
    let d := (s.kreg ts slot f.kP.toNat).toNat
    if d < (s.headerOf slot).vregs then [.v d] else []
  | i => (comparedRegs i).filter (fun r => match r with | .k n => n < (s.headerOf slot).kregs | _ => false)
/-- An instruction waits for variable-latency results (03 R81). -/
def waitsFor (s : State) (ts : List Nat) (slot : Nat) (i : Instr) (h : Hdr) : Bool :=
  s.interlocked ts slot (regsOf i h) || s.interlocked ts slot (s.namedRegs ts slot i)
/-- One of the results it waits for is a memory access's. -/
def waitsForMemory (s : State) (ts : List Nat) (slot : Nat) (i : Instr) (h : Hdr) : Bool :=
  let rs := regsOf i h ++ s.namedRegs ts slot i
  let covers := fun (t dst size : Nat) (scalar : Bool) => rs.any (fun r => match r with
    | .v n => !scalar && ts.contains t && dst ≤ n && n < dst + max 1 (size / 4)
    | .k n => scalar && slotOf t == slot && dst ≤ n && n < dst + max 1 (size / 4)
    | .p _ => false)
  s.requests.any (fun r => r.2.loads.any (fun l => covers l.thread l.dst l.size l.scalar) ||
    r.2.ops.any (fun o => covers o.thread o.dst o.size false))
/-- A group that waits for results: for a memory result its priority ends (01 R37). -/
def holdBack (s : State) (gid : Nat) (ts : List Nat) (slot : Nat) (i : Instr) (h : Hdr) : State :=
  if s.waitsForMemory ts slot i h then s.modGroup gid (fun x => { x with prio := none }) else s
/-- Where a thread goes: an exception of the checks, else what the effect says, else on. -/
def dispOf (out : List (Nat × Disp)) (t : Nat) : Disp := match out.find? (fun d => d.1 == t) with | some d => d.2 | none => .seq
def placesOf (g : Group) (out : List (Nat × Disp)) : List (Nat × Disp) := g.members.map (fun t => (t, dispOf out t))
/-- The groups that hold one of some threads. -/
def holding (s : State) (ts : List Nat) : List Nat :=
  s.groups.filterMap (fun x => if x.2.members.any (fun t => ts.contains t) then some x.1 else none)
/-- Threads that are done with the instruction. -/
def doneOf (ds : List (Nat × Disp)) : List Nat :=
  ds.filterMap (fun d => match d.2 with | .stay _ | .trap _ _ => none | _ => some d.1)
/-- The uncorrectable errors that an instruction raises exceptions for, each once: a thread, the code and EADDR. -/
def errorsOf (i : Instr) (ds : List (Nat × Disp)) : List (Nat × Nat × W64) :=
  ds.foldl (fun acc d => match d.2 with
    | .trap code ea => if newError i code && !acc.any (fun x => x.2 == (code, ea)) then acc ++ [(d.1, code, ea)] else acc
    | _ => acc) []
/-- They are written to the error log (16 R381, R383). -/
def reportErrors (s : State) (i : Instr) (ds : List (Nat × Disp)) : State :=
  (errorsOf i ds).foldl (fun s e => s.reportError (s.who e.1) (readsConst i) e.2.1 e.2.2) s
/-- After an issue from `s`, a vector register that it wrote is good again (16 R381). DEDUCED, log 96. -/
def mend (s t : State) (i : Instr) (h : Hdr) (ts : List Nat) : State :=
  let written := fun (w : FailedWord) => match w with
    | .vreg u n => ts.contains u && s.acts h u && (writesOf i).contains (.v n)
    | _ => false
  if s.failed.any written then { t with failed := t.failed.filter (fun w => !written w) } else t
/-- The end of an issue: the threads go where they go; then distances, stall, yield. An instruction that waits leaves
its group where it stands. -/
def finish (s : State) (i : Instr) (h : Hdr) (gid : Nat) (g : Group) (out : List (Nat × Disp)) : State :=
  let ds := placesOf g out
  let done := doneOf ds
  let s' := (s.reportErrors i ds).dispose gid g.pc ds
  let s' := if ds.all (fun d => d.2 == .stay .ready) then s' else s'.bump
  if done.isEmpty then s'
  else s'.countIssue (s'.holding done) (dedup (done.map slotOf)) (done.filter (fun t => (s'.lane t).live)) h (h.y || opcodeOfInstr i == 0x007)
/-- An exception of the checks in every thread of a group. -/
def refuse (s : State) (gid : Nat) (g : Group) (ds : List (Nat × Disp)) : State := (s.dispose gid g.pc ds).bump

/-- Issue an instruction for a group: the checks of 03 R97 in their order, then the effect, which says where each thread
goes. -/
def issueFor (s : State) (i : Instr) (h : Hdr) (c gid : Nat) (g : Group) (body : Ctx → State → State × List (Nat × Disp)) : State :=
  let slot := g.members.head?.elim 0 slotOf
  let head := s.headerOf slot
  if illegal head i then s.refuse gid g (g.members.map (fun t => (t, .trap 0x01 0)))
  else
    let denied := if privileged i then g.members.filter (fun t => !s.prvOf t) else []
    let ts := g.members.filter (fun t => !denied.contains t)
    let traps := denied.map (fun t => (t, Disp.trap 0x03 0))
    if ts.isEmpty then s.refuse gid g traps
    else
      match fieldFault head (partOf slot) i with
      | some ea => s.refuse gid g (traps ++ ts.map (fun t => (t, .trap 0x02 ea)))
      | none =>
        if s.waitsFor ts slot i h then s.holdBack gid ts slot i h
        else
          let rs := regsOf i h ++ s.namedRegs ts slot i
          let early := if head.check || (s.core c).check then
              ts.filterMap (fun t => (s.scoreboard t rs).map (fun r => (t, Disp.trap 0x08 (BitVec.ofNat 64 (regNumber r)))))
            else []
          let run := ts.filter (fun t => !early.any (fun e => e.1 == t))
          if run.isEmpty then s.refuse gid g (traps ++ early)
          else
            let r := body (s.ctxOf i h c gid g run) s
            let out := traps ++ early ++ s.wornTraps i h run ++ r.2
            (s.mend r.1 i h (doneOf (placesOf g out))).finish i h gid g out
/-- Issue an instruction for the group that `cur` names, split by gang or gathered as the instruction asks. -/
def issue (i : Instr) (s : State) (body : Ctx → State → State × List (Nat × Disp)) : State :=
  match s.cur, hdrOfInstr i with
  | some (c, gid), some h =>
    match tfind s.groups gid with
    | none => s
    | some g0 =>
      if g0.status != .ready then s
      else
        let s := if laneLocal i then s else s.splitByGang gid g0
        let ws := if gathers i then s.arrivals gid else []
        let s' := if ws.isEmpty then s else s.absorb gid
        let g := (tfind s'.groups gid).getD g0
        -- lanes that arrived may still hold for their stall counts
        if g.hold != 0 then s else (s'.issueFor i h c gid g body).separate ws
  | _, _ => s

/-- The groups that a partition passed over in the cycle wait longer, and their gangs' fairness timers count (01 R37). -/
def countPassed (s : State) (u : CycleUse) : State :=
  let passed := u.ready.filter (fun g => !u.issuers.contains g)
  let s' := passed.foldl (fun (s' : State) g => s'.modGroup g (fun x => { x with waitCount := x.waitCount + 1 })) s
  u.gangs.foldl (fun (s' : State) n =>
    let mine := s.groups.filter (fun x => x.2.members.any (fun t => slotOf t == n))
    if (s.headerOf n).progress && mine.any (fun x => passed.contains x.1) && !mine.any (fun x => x.2.prio.isSome) then
      s'.modGang n (fun g => { g with fairCount := g.fairCount + 1, fairDue := g.fairDue || g.fairtime ≤ g.fairCount + 1 })
    else s') s'

end State

/-- The meaning of an instruction row: its issue is always a next state. -/
def runInstr (i : Instr) (s : State) (body : State.Ctx → State → State × List (Nat × State.Disp)) :
    Host.Outcome State Fault Refusal :=
  .next (s.issue i body)

end Sys2Proof.Machine
end

