-- ==== Sys2Proof/Machine/Operands.lean ====
section
/-!
DEFINITION. Operands: Src(X) of 04 R108 for every kind of 03 R84, immediates and windows by type (05 R128), parking
after a page fault (12 R321), and the two shapes of a register instruction: one result per lane, and one result for the
gang.
-/

namespace Sys2Proof.Machine

/-- How an operand reads its immediate (05 R128): integers of `w` bits, FP32, one or two 16-bit elements. -/
inductive ImmKind where
  | int (w : Nat) | f32 | half | packed
  deriving DecidableEq, Repr

def immValue (k : ImmKind) (v : BitVec 20) : Nat :=
  match k with
  | .int w => sextNat 20 w v.toNat
  | .f32 => v.toNat * 2 ^ 12
  | .half => v.toNat % 2 ^ 16
  | .packed => v.toNat % 2 ^ 16 * (2 ^ 16 + 1)

/-- One source field: kind, number, registers read, reading of an immediate. -/
structure Src where
  k : Kind
  r : BitVec 9
  n : Nat := 1
  imm : ImmKind := .int 32

/-- Width of a type in bits (02 R41). -/
def tyWidth (t : BitVec 5) : Nat :=
  match t.toNat with
  | 0 | 4 => 8
  | 1 | 5 => 16
  | 3 | 7 | 9 => 64
  | 0x11 | 0x12 => 16
  | 0x15 | 0x16 => 8
  | _ => 32
/-- The immediate reading of a type (05 R128). -/
def tyImm (t : BitVec 5) : ImmKind :=
  match t.toNat with
  | 0x10 => .f32
  | 0x11 | 0x12 => .half
  | 0x13 | 0x14 => .packed
  | _ => .int (tyWidth t)

namespace State

/-- Park threads of a gang at an instruction, each for its address: a page-fault record goes to the core's queue, or
waits for a free entry (12 R321). DEDUCED, log 37. -/
def park (s : State) (c : Nat) (at' : List (Nat × W64)) (access : Nat) : Status × State :=
  let slot := at'.head?.elim 0 (fun a => slotOf a.1)
  let r : PfRecord := { core := c, slot := slot, age := (s.gang slot).age, lanes := laneMask (at'.map (fun a => a.1))
                        at' := at', access := access
                        asid := (s.asid (s.regionOf slot)).toNat, region := s.regionOf slot, sent := false, issue := none }
  (.parked s.nextId,
   { s with pfRecords := tput s.pfRecords s.nextId r, nextId := s.nextId + 1 }.modCore c
      (fun k => if k.pfQueue.length < Config.pageFaultQueue then { k with pfQueue := k.pfQueue ++ [s.nextId] } else k))
/-- Park the lanes whose page is not present, a sub-group and a record for each gang (12 R321). -/
def parkLanes (s : State) (c access : Nat) (absent : List (Nat × W64)) : State × List (Nat × Disp) :=
  (dedup (absent.map (fun a => slotOf a.1))).foldl (fun acc n =>
    let mine := absent.filter (fun a => slotOf a.1 == n)
    let r := acc.1.park c mine access
    (r.2, acc.2 ++ mine.map (fun a => (a.1, Disp.stay r.1)))) (s, [])

/-- What an access that does not succeed does to the threads that make it. -/
def stopAt (s : State) (c : Nat) (ts : List Nat) (access : Nat) : Const → State × List (Nat × Disp)
  | .ok _ => (s, [])
  | .fault f ea => (s, ts.map (fun t => (t, .trap f ea)))
  | .notPresent va => s.parkLanes c access (ts.map (fun t => (t, va)))
  | .wait => (s, ts.map (fun t => (t, .stay .ready)))

/-- The value of a source for each thread, or what stops the threads that read it. -/
def readSrc (s : State) (cx : Ctx) (ts : List Nat) (src : Src) (opnd : BitVec 20) : Option Const × (Nat → Nat) × State :=
  match src.k with
  | .vec => (none, fun t => ofWords ((List.range src.n).map (fun i => (s.lane t).vreg (src.r.toNat + i))), s)
  | .scl =>
    let v := ofWords ((List.range src.n).map (fun i => s.kreg cx.ts cx.slot (src.r.toNat + i)))
    (none, fun _ => v, s)
  | .imm => let v := immValue src.imm opnd; (none, fun _ => v, s)
  | .win =>
    let base := cx.head.windows.getD (opnd.toNat / 2 ^ 17) 0
    let t := ts.head?.getD 0
    match constWords s (s.who t) base (opnd.toNat % 2 ^ 17) src.n with
    | (ws, none, s) => let v := ofWords ws; (none, fun _ => v, s)
    | (_, some c, s) => (some c, fun _ => 0, s)

def readSrcs (s : State) (cx : Ctx) (ts : List Nat) (opnd : BitVec 20) :
    List Src → Option Const × (Nat → List Nat) × State
  | [] => (none, fun _ => [], s)
  | x :: xs =>
    match s.readSrc cx ts x opnd with
    | (some d, _, s) => (some d, fun _ => [], s)
    | (none, v, s) =>
      match s.readSrcs cx ts opnd xs with
      | (d, vs, s) => (d, fun t => v t :: vs t, s)

/-- The uncorrectable vector register of a thread that a cross-lane instruction consumes, if any (16 R381). -/
def failedVreg (s : State) (t : Nat) (srcs : List Src) : Option Nat :=
  if s.failed.isEmpty then none
  else (srcs.flatMap (fun x => if x.k == .vec then (List.range x.n).map (fun i => x.r.toNat + i) else [])).find?
    (fun n => s.failed.contains (.vreg t n))

/-- The threads of Act that translate alike, when an operand is read from a window; else Act whole. -/
def readers (s : State) (cx : Ctx) (srcs : List Src) : List (List Nat) :=
  if srcs.any (fun x => x.k == .win) then
    (dedup (cx.act.map s.who)).map (fun w => cx.act.filter (fun t => s.who t == w))
  else [cx.act]
/-- One result per lane of Act, for threads that translate alike; a window read that fails stops them all (05 R127). -/
def perLaneOf (s : State) (cx : Ctx) (srcs : List Src) (opnd : BitVec 20) (eff : Nat → Lane → List Nat → Lane) :
    State × List (Nat × Disp) :=
  if cx.act.isEmpty then (s, [])
  else
    match s.readSrcs cx cx.act opnd srcs with
    | (some d, _, s) => s.stopAt cx.core cx.act 0 d
    | (none, v, s) => (cx.act.foldl (fun s' t => s'.modLane t (fun l => eff t l (v t))) s, [])

/-- One result per lane of Act: each lane's registers change by `eff` of its operands. -/
def perLane (s : State) (cx : Ctx) (srcs : List Src) (opnd : BitVec 20) (eff : Nat → Lane → List Nat → Lane) :
    State × List (Nat × Disp) :=
  (s.readers cx srcs).foldl (fun acc ts =>
    let r := acc.1.perLaneOf { cx with act := ts } srcs opnd eff
    (r.1, acc.2 ++ r.2)) (s, [])

/-- One result for the gang, when Act is not empty: consecutive scalar registers from D (04 R118). -/
def perGang (s : State) (cx : Ctx) (srcs : List Src) (opnd : BitVec 20) (d n : Nat) (eff : List Nat → Nat) :
    State × List (Nat × Disp) :=
  if cx.act.isEmpty then (s, [])
  else
    match s.readSrcs cx cx.act opnd srcs with
    | (some x, _, s) => s.stopAt cx.core cx.ts 0 x
    | (none, v, s) => (s.writeKs cx.ts cx.slot cx.lat d (wordsOf n (eff (v (cx.act.head?.getD 0)))), [])

end State

/-- Write words to consecutive vector registers. -/
def Lane.writeWords (l : Lane) (lat : Option Nat) : Nat → List W32 → Lane
  | _, [] => l
  | d, x :: xs => (l.write (.v d) x lat).writeWords lat (d + 1) xs
/-- Write `n` consecutive vector registers from D with a value. -/
def Lane.writeVs (l : Lane) (d n : Nat) (x : Nat) (lat : Option Nat) : Lane := l.writeWords lat d (wordsOf n x)

/-! Sources of format A. -/

def srcA (f : FmtA) (n : Nat) (imm : ImmKind) : Src := ⟨f.kA, f.a, n, imm⟩
def srcB (f : FmtA) (n : Nat) (imm : ImmKind) : Src := ⟨f.kB, f.b, n, imm⟩
def srcC (f : FmtA) (n : Nat) (imm : ImmKind) : Src := ⟨f.kC, f.c, n, imm⟩
/-- A, B and C read as operands of the type. -/
def tyA (f : FmtA) : Src := srcA f (wideRegs f) (tyImm f.ty)
def tyB (f : FmtA) : Src := srcB f (wideRegs f) (tyImm f.ty)
def tyC (f : FmtA) : Src := srcC f (wideRegs f) (tyImm f.ty)

/-- An instruction whose result per lane is the number `val` of its operands, in the registers of D by width. -/
def laneResult (i : Instr) (f : FmtA) (srcs : List Src) (n : Nat) (val : List Nat → Nat) (s : State) :
    Host.Outcome State Fault Refusal :=
  runInstr i s (fun cx s => s.perLane cx srcs f.opnd (fun _ l vs => l.writeVs f.d.toNat n (val vs) cx.lat))
/-- An instruction whose result per lane is a predicate. -/
def lanePred (i : Instr) (f : FmtA) (srcs : List Src) (val : List Nat → Bool) (s : State) :
    Host.Outcome State Fault Refusal :=
  runInstr i s (fun cx s => s.perLane cx srcs f.opnd
    (fun _ l vs => l.write (.p f.d.toNat) (if val vs then 1 else 0) cx.lat))
/-- An instruction whose result for the gang is the number `val` of its operands. -/
def gangResult (i : Instr) (f : FmtA) (srcs : List Src) (n : Nat) (val : List Nat → Nat) (s : State) :
    Host.Outcome State Fault Refusal :=
  runInstr i s (fun cx s => s.perGang cx srcs f.opnd f.d.toNat n val)

end Sys2Proof.Machine
end

