-- ==== Sys2Proof/Machine/Flags.lean ====
section
/-!
DEFINITION. Integer values and results by type (02 R43, R48), conditions (04 R123), shifts (04 R122), carries (05 R132).
The hardware keeps no flag register: a comparison or a carry goes to a predicate.
-/

namespace Sys2Proof.Machine

def tySigned (t : BitVec 5) : Bool := isSignedTy t
/-- The value of an operand of an integer type (02 R43). -/
def tyVal (t : BitVec 5) (x : Nat) : Int :=
  if tySigned t then signed (tyWidth t) x else ((x % 2 ^ tyWidth t : Nat) : Int)
/-- Smallest and largest value of an integer type. -/
def tyMin (t : BitVec 5) : Int := if tySigned t then -(2 ^ (tyWidth t - 1)) else 0
def tyMax (t : BitVec 5) : Int := if tySigned t then 2 ^ (tyWidth t - 1) - 1 else 2 ^ tyWidth t - 1
/-- Clamp to a range. -/
def clampInt (lo hi x : Int) : Int := if x < lo then lo else if hi < x then hi else x
/-- The registers' bits of an exact integer result: wrapped, or clamped under `.sat` (02 R48), extended to 32 bits by
its type (02 R43). -/
def tyResult (t : BitVec 5) (sat : Bool) (x : Int) : Nat :=
  let w := tyWidth t
  let y := wrap w (if sat then clampInt (tyMin t) (tyMax t) x else x)
  if w < 32 then (if tySigned t then sextNat w 32 y else y) else y

/-- Conditions 0 eq, 1 ne, 2 lt, 3 le, 4 gt, 5 ge (04 R123). -/
def cond (c : Nat) (a b : Int) : Bool :=
  match c with
  | 0 => a == b | 1 => a != b | 2 => a < b | 3 => a ≤ b | 4 => b < a | _ => b ≤ a

/-- Shift left, b ≥ w giving 0. -/
def shlBits (w a b : Nat) : Nat := if w ≤ b then 0 else a * 2 ^ b % 2 ^ w
/-- Shift right with zeros. -/
def shrBits (w a b : Nat) : Nat := if w ≤ b then 0 else a % 2 ^ w / 2 ^ b
/-- Shift right with copies of the sign. -/
def sarBits (w a b : Nat) : Nat := wrap w ((signed w a) / 2 ^ (min b w))

/-- Carry out and low bits of A + B + ci (05 R132). -/
def addCarry (w a b ci : Nat) : Bool × Nat := (2 ^ w ≤ a + b + ci, (a + b + ci) % 2 ^ w)
/-- Borrow out and low bits of A − B − ci. -/
def subBorrow (w a b ci : Nat) : Bool × Nat := (a < b + ci, wrap w ((a : Int) - b - ci))

end Sys2Proof.Machine
end

