-- ==== Sys2Proof/Machine/Integer.lean ====
section
/-!
DEFINITION. Class 0x1, integer arithmetic (05 R130-R137).
-/

namespace Sys2Proof.Machine

/-- Entries of one integer result from operands of the type (05 R131). -/
def intOp (i : Instr) (f : FmtA) (srcs : List Src) (op : List Int → Int) (s : State) : Host.Outcome State Fault Refusal :=
  laneResult i f srcs (wideRegs f) (fun vs => tyResult f.ty f.sat (op (vs.map (tyVal f.ty)))) s

def at0 (l : List Int) : Int := l.getD 0 0
def at1 (l : List Int) : Int := l.getD 1 0
def at2 (l : List Int) : Int := l.getD 2 0
def nat0 (l : List Nat) : Nat := l.getD 0 0
def nat1 (l : List Nat) : Nat := l.getD 1 0
def nat2 (l : List Nat) : Nat := l.getD 2 0

def execIadd (h : Hdr) (f : FmtA) (s : State) : Host.Outcome State Fault Refusal :=
  intOp (.iadd h f) f [tyA f, tyB f] (fun v => at0 v + at1 v) s
def execIsub (h : Hdr) (f : FmtA) (s : State) : Host.Outcome State Fault Refusal :=
  intOp (.isub h f) f [tyA f, tyB f] (fun v => at0 v - at1 v) s
def execImul (h : Hdr) (f : FmtA) (s : State) : Host.Outcome State Fault Refusal :=
  intOp (.imul h f) f [tyA f, tyB f] (fun v => at0 v * at1 v) s
def execImad (h : Hdr) (f : FmtA) (s : State) : Host.Outcome State Fault Refusal :=
  intOp (.imad h f) f [tyA f, tyB f, tyC f] (fun v => at0 v * at1 v + at2 v) s

/-- Add or subtract with the carry predicates (05 R132). -/
def carryOp (i : Instr) (f : FmtA) (op : Nat → Nat → Nat → Nat → Bool × Nat) (s : State) :
    Host.Outcome State Fault Refusal :=
  let w := tyWidth f.ty
  runInstr i s (fun cx s => s.perLane cx [tyA f, tyB f] f.opnd (fun _ l vs =>
    let cin := (f.mods.extractLsb' 0 3).toNat
    let r := op w (nat0 vs % 2 ^ w) (nat1 vs % 2 ^ w) (if cin != 7 && l.pred cin then 1 else 0)
    (l.writeVs f.d.toNat (wideRegs f) r.2 cx.lat).write (.p (f.mods.extractLsb' 3 3).toNat) (if r.1 then 1 else 0) cx.lat))
def execIaddx (h : Hdr) (f : FmtA) (s : State) : Host.Outcome State Fault Refusal :=
  carryOp (.iaddx h f) f addCarry s
def execIsubx (h : Hdr) (f : FmtA) (s : State) : Host.Outcome State Fault Refusal :=
  carryOp (.isubx h f) f subBorrow s

/-- The high half of the exact product (05 R133). -/
def execImulh (h : Hdr) (f : FmtA) (s : State) : Host.Outcome State Fault Refusal :=
  intOp (.imulh h f) f [tyA f, tyB f] (fun v => at0 v * at1 v / 2 ^ tyWidth f.ty) s

/-- A × B of 32 bits plus a 64-bit C (05 R134). -/
def execImadw (h : Hdr) (f : FmtA) (s : State) : Host.Outcome State Fault Refusal :=
  let wide : BitVec 5 := if tySigned f.ty then 7 else 3
  laneResult (.imadw h f) f [srcA f 1 (.int 32), srcB f 1 (.int 32), srcC f 2 (.int 64)] 2
    (fun v => tyResult wide f.sat (tyVal f.ty (nat0 v) * tyVal f.ty (nat1 v) + tyVal wide (nat2 v))) s

def execImin (h : Hdr) (f : FmtA) (s : State) : Host.Outcome State Fault Refusal :=
  intOp (.imin h f) f [tyA f, tyB f] (fun v => if at1 v < at0 v then at1 v else at0 v) s
def execImax (h : Hdr) (f : FmtA) (s : State) : Host.Outcome State Fault Refusal :=
  intOp (.imax h f) f [tyA f, tyB f] (fun v => if at0 v < at1 v then at1 v else at0 v) s
def execIabs (h : Hdr) (f : FmtA) (s : State) : Host.Outcome State Fault Refusal :=
  intOp (.iabs h f) f [tyA f] (fun v => if at0 v < 0 then -at0 v else at0 v) s
def execIneg (h : Hdr) (f : FmtA) (s : State) : Host.Outcome State Fault Refusal :=
  intOp (.ineg h f) f [tyA f] (fun v => -at0 v) s

/-- A byte of a word by signedness (05 R136). -/
def byteVal (sg : Bool) (x i : Nat) : Int :=
  let b := x / 2 ^ (8 * i) % 256
  if sg then signed 8 b else (b : Int)
def dot4 (sa sb : Bool) (a b : Nat) (c : Int) : Int :=
  (List.range 4).foldl (fun x i => x + byteVal sa a i * byteVal sb b i) c
def execIdot4 (h : Hdr) (f : FmtA) (s : State) : Host.Outcome State Fault Refusal :=
  laneResult (.idot4 h f) f [tyA f, tyB f, tyC f] 1
    (fun v => tyResult f.ty f.sat
      (dot4 (f.mods.getLsbD 1) (f.mods.getLsbD 0) (nat0 v) (nat1 v) (tyVal f.ty (nat2 v)))) s

def execIsad (h : Hdr) (f : FmtA) (s : State) : Host.Outcome State Fault Refusal :=
  intOp (.isad h f) f [tyA f, tyB f, tyC f]
    (fun v => (if at0 v < at1 v then at1 v - at0 v else at0 v - at1 v) + at2 v) s

end Sys2Proof.Machine
end

