-- ==== Sys2Proof/Machine/Logic.lean ====
section
/-!
DEFINITION. Class 0x2: logic, shifts, bit fields, compare, select and move (05 R138-R148).
-/

namespace Sys2Proof.Machine

/-- An untyped result of the type's width. -/
def bitOp (i : Instr) (f : FmtA) (srcs : List Src) (op : Nat → List Nat → Nat) (s : State) :
    Host.Outcome State Fault Refusal :=
  let w := tyWidth f.ty
  laneResult i f srcs (wideRegs f) (fun vs => op w vs % 2 ^ w) s

/-- A count operand: 32 bits whatever the type. -/
def cntB (f : FmtA) : Src := srcB f 1 (.int 32)

def execAnd (h : Hdr) (f : FmtA) (s : State) : Host.Outcome State Fault Refusal :=
  bitOp (.and h f) f [tyA f, tyB f] (fun _ v => nat0 v &&& nat1 v) s
def execOr (h : Hdr) (f : FmtA) (s : State) : Host.Outcome State Fault Refusal :=
  bitOp (.or h f) f [tyA f, tyB f] (fun _ v => nat0 v ||| nat1 v) s
def execXor (h : Hdr) (f : FmtA) (s : State) : Host.Outcome State Fault Refusal :=
  bitOp (.xor h f) f [tyA f, tyB f] (fun _ v => nat0 v ^^^ nat1 v) s
/-- The complement within `w` bits. -/
def notBits (w x : Nat) : Nat := 2 ^ w - 1 - x % 2 ^ w
def execAndn (h : Hdr) (f : FmtA) (s : State) : Host.Outcome State Fault Refusal :=
  bitOp (.andn h f) f [tyA f, tyB f] (fun w v => nat0 v &&& notBits w (nat1 v)) s
def execNot (h : Hdr) (f : FmtA) (s : State) : Host.Outcome State Fault Refusal :=
  bitOp (.not h f) f [tyA f] (fun w v => notBits w (nat0 v)) s

/-- Build a value from its bits. -/
def ofBits (w : Nat) (b : Nat → Bool) : Nat := (List.range w).foldl (fun x i => if b i then x + 2 ^ i else x) 0
/-- Bit of an 8-bit truth table at index a + 2b + 4c (05 R139). -/
def tableBit (opnd : BitVec 20) (a b c : Bool) : Bool := opnd.getLsbD (12 + a.toNat + 2 * b.toNat + 4 * c.toNat)
def execBlog (h : Hdr) (f : FmtA) (s : State) : Host.Outcome State Fault Refusal :=
  bitOp (.blog h f) f [tyA f, tyB f, tyC f]
    (fun w v => ofBits w (fun i => tableBit f.opnd ((nat0 v).testBit i) ((nat1 v).testBit i) ((nat2 v).testBit i))) s

def execShl (h : Hdr) (f : FmtA) (s : State) : Host.Outcome State Fault Refusal :=
  bitOp (.shl h f) f [tyA f, cntB f] (fun w v => shlBits w (nat0 v) (nat1 v)) s
def execShr (h : Hdr) (f : FmtA) (s : State) : Host.Outcome State Fault Refusal :=
  bitOp (.shr h f) f [tyA f, cntB f] (fun w v => shrBits w (nat0 v) (nat1 v)) s
def execSar (h : Hdr) (f : FmtA) (s : State) : Host.Outcome State Fault Refusal :=
  bitOp (.sar h f) f [tyA f, cntB f] (fun w v => sarBits w (nat0 v) (nat1 v)) s
def rotBits (w a b : Nat) : Nat := a % 2 ^ w * 2 ^ (b % w) % 2 ^ w + a % 2 ^ w / 2 ^ (w - b % w)
def execRot (h : Hdr) (f : FmtA) (s : State) : Host.Outcome State Fault Refusal :=
  bitOp (.rot h f) f [tyA f, cntB f] (fun w v => rotBits w (nat0 v) (nat1 v)) s
/-- Funnel shift of A : B by C mod 32 (05 R140). -/
def funnel (left : Bool) (a b c : Nat) : Nat :=
  let hh := a % 2 ^ 32 * 2 ^ 32 + b % 2 ^ 32
  if left then hh * 2 ^ (c % 32) / 2 ^ 32 % 2 ^ 32 else hh / 2 ^ (c % 32) % 2 ^ 32
def execFshf (h : Hdr) (f : FmtA) (s : State) : Host.Outcome State Fault Refusal :=
  bitOp (.fshf h f) f [tyA f, tyB f, tyC f] (fun _ v => funnel (f.mods.getLsbD 0) (nat0 v) (nat1 v) (nat2 v)) s

/-- The field (pos, len) of a field word, clipped to `w`; none: empty (05 R141). -/
def fieldOf (w b : Nat) : Option (Nat × Nat) :=
  let pos := b % 256
  let len := b / 256 % 256
  if len == 0 || w ≤ pos then none else some (pos, min len (w - pos))
def bfe (sg : Bool) (w a b : Nat) : Nat :=
  match fieldOf w b with
  | none => 0
  | some (pos, len) => let x := a % 2 ^ w / 2 ^ pos % 2 ^ len; if sg then sextNat len w x else x
def bfi (w a b c : Nat) : Nat :=
  match fieldOf w b with
  | none => c
  | some (pos, len) => c % 2 ^ pos + a % 2 ^ len * 2 ^ pos + c / 2 ^ (pos + len) * 2 ^ (pos + len)
def execBfe (h : Hdr) (f : FmtA) (s : State) : Host.Outcome State Fault Refusal :=
  bitOp (.bfe h f) f [tyA f, cntB f] (fun w v => bfe (tySigned f.ty) w (nat0 v) (nat1 v)) s
def execBfi (h : Hdr) (f : FmtA) (s : State) : Host.Outcome State Fault Refusal :=
  bitOp (.bfi h f) f [tyA f, cntB f, tyC f] (fun w v => bfi w (nat0 v) (nat1 v) (nat2 v)) s

def popCount (w x : Nat) : Nat := (List.range w).countP x.testBit
/-- Leading zeros within `w` bits. -/
def leadingZeros : Nat → Nat → Nat
  | 0, _ => 0
  | n + 1, x => if x.testBit n then 0 else 1 + leadingZeros n x
def execPopc (h : Hdr) (f : FmtA) (s : State) : Host.Outcome State Fault Refusal :=
  laneResult (.popc h f) f [tyA f] 1 (fun v => popCount (tyWidth f.ty) (nat0 v)) s
def execClz (h : Hdr) (f : FmtA) (s : State) : Host.Outcome State Fault Refusal :=
  laneResult (.clz h f) f [tyA f] 1 (fun v => leadingZeros (tyWidth f.ty) (nat0 v)) s
def execBrev (h : Hdr) (f : FmtA) (s : State) : Host.Outcome State Fault Refusal :=
  bitOp (.brev h f) f [tyA f] (fun w v => ofBits w (fun i => (nat0 v).testBit (w - 1 - i))) s

def execIcmp (h : Hdr) (f : FmtA) (s : State) : Host.Outcome State Fault Refusal :=
  lanePred (.icmp h f) f [tyA f, tyB f]
    (fun v => cond f.mods.toNat (tyVal f.ty (nat0 v)) (tyVal f.ty (nat1 v))) s

/-- Select A or B by the predicate that C names, inverted when [20] is set (05 R144). -/
def execIsel (h : Hdr) (f : FmtA) (s : State) : Host.Outcome State Fault Refusal :=
  runInstr (.isel h f) s (fun cx s => s.perLane cx [tyA f, tyB f] f.opnd (fun _ l v =>
    l.writeVs f.d.toNat (wideRegs f) (if l.pred f.c.toNat != f.mods.getLsbD 0 then nat0 v else nat1 v) cx.lat))
def execPlop (h : Hdr) (f : FmtA) (s : State) : Host.Outcome State Fault Refusal :=
  runInstr (.plop h f) s (fun cx s => s.perLane cx [] f.opnd (fun _ l _ =>
    l.write (.p f.d.toNat)
      (if tableBit f.opnd (l.pred f.a.toNat) (l.pred f.b.toNat) (l.pred f.c.toNat) then 1 else 0) cx.lat))

def execLea (h : Hdr) (f : FmtA) (s : State) : Host.Outcome State Fault Refusal :=
  laneResult (.lea h f) f [srcA f 2 (.int 64), cntB f] 2
    (fun v => wrap 64 ((nat0 v : Int) + tyVal f.ty (nat1 v) * 2 ^ f.mods.toNat)) s

def execMov (h : Hdr) (f : FmtA) (s : State) : Host.Outcome State Fault Refusal :=
  bitOp (.mov h f) f [tyA f] (fun _ v => nat0 v) s
/-- The immediate of MOVI and SMOVI by type: words and value (04 R120, 05 R147). -/
def longImm (f : FmtI) : Nat × Nat :=
  if f.ty == 8 then (1, f.imm.toNat) else if f.ty == 7 then (2, sextNat 32 64 f.imm.toNat) else (2, f.imm.toNat)
def execMovi (h : Hdr) (f : FmtI) (s : State) : Host.Outcome State Fault Refusal :=
  runInstr (.movi h f) s (fun cx s => s.perLane cx [] 0 (fun _ l _ =>
    l.writeVs f.d.toNat (longImm f).1 (longImm f).2 cx.lat))

/-- Byte swizzle (05 R148). -/
def swizzle (a b c : Nat) : Nat :=
  let pool := a % 2 ^ 32 + b % 2 ^ 32 * 2 ^ 32
  (List.range 4).foldl (fun x i =>
    let k := c / 2 ^ (4 * i) % 16
    if 8 ≤ k then x else x + pool / 2 ^ (8 * k) % 256 * 2 ^ (8 * i)) 0
def execBswz (h : Hdr) (f : FmtA) (s : State) : Host.Outcome State Fault Refusal :=
  bitOp (.bswz h f) f [tyA f, tyB f, tyC f] (fun _ v => swizzle (nat0 v) (nat1 v) (nat2 v)) s

end Sys2Proof.Machine
end

