-- ==== Sys2Proof/Machine/Num.lean ====
section
/-!
DEFINITION. Exact values and their one rounding (02 R44-R51), the IEEE formats and the accumulator word (R64), the
binary8 family (R53-R57) and E4M3 (R58). A finite value is m × 2^e with m not 0; a magnitude to round is
num / den × 2^e.
-/

namespace Sys2Proof.Machine

inductive FVal where
  | nan
  | inf (neg : Bool)
  | zero (neg : Bool)
  | fin (neg : Bool) (m : Nat) (e : Int)
  deriving DecidableEq, Repr

/-- An IEEE-like format: exponent bits and precision with the leading bit. -/
structure FFmt where
  ebits : Nat
  p : Nat
  deriving DecidableEq, Repr

def f32 : FFmt := ⟨8, 24⟩
def f16 : FFmt := ⟨5, 11⟩
def bf16 : FFmt := ⟨8, 8⟩
/-- The accumulator word (02 R64). -/
def acc34 : FFmt := ⟨10, 24⟩

def fbias (f : FFmt) : Int := 2 ^ (f.ebits - 1) - 1
/-- Exponent of the smallest positive value. -/
def fqmin (f : FFmt) : Int := 1 - fbias f - (f.p - 1 : Nat)
def fwidth (f : FFmt) : Nat := f.ebits + f.p
def fsign (f : FFmt) (neg : Bool) : Nat := if neg then 2 ^ (f.ebits + f.p - 1) else 0
def finf (f : FFmt) (neg : Bool) : Nat := fsign f neg + (2 ^ f.ebits - 1) * 2 ^ (f.p - 1)
def fmax (f : FFmt) (neg : Bool) : Nat := finf f neg - 1
/-- The canonical NaN (02 R44, R64). -/
def fnan (f : FFmt) : Nat := finf f false + 2 ^ (f.p - 2)

/-- Decode (02 R44). -/
def fdecode (f : FFmt) (x : Nat) : FVal :=
  let t := x % 2 ^ (f.p - 1)
  let e := x / 2 ^ (f.p - 1) % 2 ^ f.ebits
  let neg := x / 2 ^ (f.ebits + f.p - 1) % 2 == 1
  if e == 2 ^ f.ebits - 1 then (if t == 0 then .inf neg else .nan)
  else if e == 0 then (if t == 0 then .zero neg else .fin neg t (fqmin f))
  else .fin neg (t + 2 ^ (f.p - 1)) (e - fbias f - (f.p - 1 : Nat))

/-- Rounding modes 0 rne, 1 rtz, 2 rup, 3 rdn, 4 stochastic with the draw `r` (02 R49, R51): does the discarded part
`rem / den` move the magnitude `q` up? DESIGN CHOICE, log 90. -/
def roundsUp (mode : Nat) (r : W32) (neg : Bool) (q rem den : Nat) : Bool :=
  match mode with
  | 0 => 2 * rem > den || (2 * rem == den && q % 2 == 1)
  | 1 => false
  | 2 => rem > 0 && !neg
  | 3 => rem > 0 && neg
  | _ => rem * 2 ^ 32 / den > r.toNat

/-- floor(log2(num / den)), num and den positive. -/
def ratLog2 (num den : Nat) : Int :=
  let k : Int := (Nat.log2 num : Int) - Nat.log2 den
  if num * 2 ^ (-k).toNat < den * 2 ^ k.toNat then k - 1 else k

/-- Round a positive magnitude to multiples of 2^q, q at least `qmin` and for `p` significant bits. -/
def roundMag (p : Nat) (qmin : Int) (mode : Nat) (r : W32) (neg : Bool) (num den : Nat) (e : Int) : Nat × Int :=
  let q := max (ratLog2 num den + e - (p - 1 : Nat)) qmin
  let n := num * 2 ^ (e - q).toNat
  let d := den * 2 ^ (q - e).toNat
  (n / d + (if roundsUp mode r neg (n / d) (n % d) d then 1 else 0), q)

/-- What overflow gives (02 R50). -/
def foverflow (f : FFmt) (mode : Nat) (sat neg : Bool) : Nat :=
  if sat then fmax f neg
  else match mode with
    | 0 => finf f neg
    | 2 => if neg then fmax f true else finf f false
    | 3 => if neg then finf f true else fmax f false
    | _ => fmax f neg

/-- The bits of a rounded magnitude m × 2^q. -/
def fencode (f : FFmt) (mode : Nat) (sat ftz neg : Bool) (m : Nat) (q : Int) : Nat :=
  if m == 0 then fsign f neg
  else if m < 2 ^ (f.p - 1) then (if ftz then fsign f neg else fsign f neg + m)
  else
    let k := Nat.log2 m
    let e := (k : Int) + q
    if fbias f < e then foverflow f mode sat neg
    else fsign f neg + (e + fbias f).toNat * 2 ^ (f.p - 1) + (m / 2 ^ (k - (f.p - 1)) - 2 ^ (f.p - 1))

/-- Round a magnitude once to an IEEE format. -/
def froundMag (f : FFmt) (mode : Nat) (r : W32) (sat ftz neg : Bool) (num den : Nat) (e : Int) : Nat :=
  let x := roundMag f.p (fqmin f) mode r neg num den e
  fencode f mode sat ftz neg x.1 x.2
/-- Round a value once to an IEEE format (02 R45, R46, R50). -/
def fround (f : FFmt) (mode : Nat) (r : W32) (sat ftz : Bool) : FVal → Nat
  | .nan => fnan f
  | .inf neg => if sat then fmax f neg else finf f neg
  | .zero neg => fsign f neg
  | .fin neg m e => froundMag f mode r sat ftz neg m 1 e

/-- Flush a subnormal operand of a format to zero (02 R45). -/
def fflush (f : FFmt) (ftz : Bool) (v : FVal) : FVal :=
  match v with
  | .fin neg m e => if ftz && Nat.log2 m + e < 1 - fbias f then .zero neg else v
  | _ => v
def foperand (f : FFmt) (ftz : Bool) (x : Nat) : FVal := fflush f ftz (fdecode f (x % 2 ^ fwidth f))

/-! Exact arithmetic. -/

def fneg : FVal → FVal
  | .nan => .nan | .inf n => .inf (!n) | .zero n => .zero (!n) | .fin n m e => .fin (!n) m e
def ofInt (zeroNeg : Bool) (x e : Int) : FVal := if x == 0 then .zero zeroNeg else .fin (x < 0) x.natAbs e
def sgn (neg : Bool) (m : Nat) : Int := if neg then -(m : Int) else m
/-- Exact sum; a zero of opposite signs is −0 in .rdn only (05 R150). -/
def fadd (mode : Nat) : FVal → FVal → FVal
  | .nan, _ | _, .nan => .nan
  | .inf a, .inf b => if a == b then .inf a else .nan
  | .inf a, _ | _, .inf a => .inf a
  | .zero a, .zero b => .zero (if a == b then a else mode == 3)
  | .zero _, x | x, .zero _ => x
  | .fin a m e, .fin b n k =>
    let q := min e k
    ofInt (mode == 3) (sgn a (m * 2 ^ (e - q).toNat) + sgn b (n * 2 ^ (k - q).toNat)) q
def fmul : FVal → FVal → FVal
  | .nan, _ | _, .nan => .nan
  | .inf a, .inf b => .inf (a != b)
  | .inf _, .zero _ | .zero _, .inf _ => .nan
  | .inf a, .fin b _ _ | .fin a _ _, .inf b => .inf (a != b)
  | .zero a, .zero b => .zero (a != b)
  | .zero a, .fin b _ _ | .fin a _ _, .zero b => .zero (a != b)
  | .fin a m e, .fin b n k => .fin (a != b) (m * n) (e + k)

def fisNan : FVal → Bool
  | .nan => true | _ => false
def fisZero : FVal → Bool
  | .zero _ => true | _ => false
def fisInf : FVal → Bool
  | .inf _ => true | _ => false
def fnegative : FVal → Bool
  | .nan => false | .inf n => n | .zero n => n | .fin n _ _ => n
/-- a < b for numbers; with `zeros`, −0 < +0 (02 R47). -/
def flt (zeros : Bool) (a b : FVal) : Bool :=
  match a, b with
  | .nan, _ | _, .nan => false
  | .zero x, .zero y => zeros && x && !y
  | .inf x, .inf y => x && !y
  | .inf x, _ => x
  | _, .inf y => !y
  | .zero _, .fin n _ _ => !n
  | .fin n _ _, .zero _ => n
  | .fin x m e, .fin y n k =>
    let q := min e k
    sgn x (m * 2 ^ (e - q).toNat) < sgn y (n * 2 ^ (k - q).toNat)
def feq (a b : FVal) : Bool := !fisNan a && !fisNan b && !flt false a b && !flt false b a

/-! ### binary8 (02 R53-R57) and E4M3 (02 R58). -/

def b8Unsigned (c : BitVec 6) : Bool := c.getLsbD 4
def b8Finite (c : BitVec 6) : Bool := c.getLsbD 3
def b8P (c : BitVec 6) : Nat := c.toNat % 8 + 1
def b8Bias (c : BitVec 6) : Int := if b8Unsigned c then 2 ^ (8 - b8P c) else 2 ^ (7 - b8P c)
def b8Nan (c : BitVec 6) : Nat := if b8Unsigned c then 0xFF else 0x80
/-- Code of +∞, or of the largest finite value in a finite variant. -/
def b8Top (c : BitVec 6) : Nat := if b8Unsigned c then 0xFE else 0x7F
def b8Max (c : BitVec 6) : Nat := if b8Finite c then b8Top c else b8Top c - 1
/-- Exponent of the grid's smallest step. -/
def b8Qmin (c : BitVec 6) : Int := 1 - b8Bias c - (b8P c - 1 : Nat)
/-- DEDUCED, log 20. -/
def b8Decode (c : BitVec 6) (x : Nat) : FVal :=
  let x := x % 256
  let neg := !b8Unsigned c && 0x80 ≤ x
  let y := if b8Unsigned c then x else x % 0x80
  if x == b8Nan c then .nan
  else if x == 0 then .zero false
  else if y == b8Top c && !b8Finite c then .inf neg
  else
    let t := y % 2 ^ (b8P c - 1)
    let e := y / 2 ^ (b8P c - 1)
    -- with P = 1 every code with exponent field 0 is zero or NaN, so none is subnormal
    if e == 0 then (if t == 0 then .zero false else .fin neg t (b8Qmin c))
    else .fin neg (t + 2 ^ (b8P c - 1)) (e - b8Bias c - (b8P c - 1 : Nat))
/-- Grid step at the bottom: P = 1 has no subnormals, its smallest value is 2^(1 − B) (02 R53, R55). -/
def b8Code (c : BitVec 6) (neg : Bool) (m : Nat) (q : Int) : Option Nat :=
  let p := b8P c
  if m == 0 then some 0
  else
    let k := Nat.log2 m
    let y := if m < 2 ^ (p - 1) then (m : Int)
      else ((k : Int) + q + b8Bias c) * 2 ^ (p - 1) + (m / 2 ^ (k - (p - 1)) - 2 ^ (p - 1) : Nat)
    if y > b8Max c then none else some (y.toNat + (if neg then 0x80 else 0))
/-- CVTN on overflow (02 R57). -/
def b8Over (c : BitVec 6) (sat neg : Bool) : Nat :=
  if sat then b8Max c + (if neg then 0x80 else 0)
  else if b8Finite c then b8Nan c else b8Top c + (if neg then 0x80 else 0)
/-- CVTN of a magnitude num / den × 2^e (02 R57). -/
def b8RoundMag (c : BitVec 6) (mode : Nat) (r : W32) (sat neg : Bool) (num den : Nat) (e : Int) : Nat :=
  let x := roundMag (b8P c) (b8Qmin c) mode r neg num den e
  if neg && b8Unsigned c then (if x.1 == 0 || sat then 0 else b8Nan c)
  else match b8Code c neg x.1 x.2 with
    | some y => y
    | none => b8Over c sat neg
/-- CVTN's steps 1 to 6 (02 R57). -/
def b8Round (c : BitVec 6) (mode : Nat) (r : W32) (sat : Bool) (v : FVal) : Nat :=
  match v with
  | .nan => b8Nan c
  | .zero _ => 0
  | .inf neg => if neg && b8Unsigned c then (if sat then 0 else b8Nan c) else b8Over c sat neg
  | .fin neg m e => b8RoundMag c mode r sat neg m 1 e

def e4m3Decode (x : Nat) : FVal :=
  let x := x % 256
  let neg := 0x80 ≤ x
  let y := x % 128
  if y == 0x7F then .nan
  else if y == 0 then .zero neg
  else if y / 8 == 0 then .fin neg y (-9)
  else .fin neg (y % 8 + 8) ((y / 8 : Nat) - 10)
/-- Float to E4M3 (05 R161). -/
def e4m3Round (mode : Nat) (r : W32) (sat : Bool) (v : FVal) : Nat :=
  let top := fun (neg : Bool) => if sat then 0x7E + (if neg then 0x80 else 0) else 0x7F
  match v with
  | .nan => 0x7F
  | .inf neg => top neg
  | .zero neg => if neg then 0x80 else 0
  | .fin neg m e =>
    let x := roundMag 4 (-9) mode r neg m 1 e
    let sign := if neg then 0x80 else 0
    if x.1 == 0 then sign
    else if x.1 < 8 then sign + x.1
    else
      let k := Nat.log2 x.1
      let y : Int := ((k : Int) + x.2 + 7) * 8 + (x.1 / 2 ^ (k - 3) - 8 : Nat)
      if y > 0x7E then top neg else sign + y.toNat

/-! Element formats by their codes (02 R60). -/

def floatOf (c : BitVec 6) : FFmt := if c == 2 then f16 else if c == 3 then bf16 else f32
def elemSize (c : BitVec 6) : Nat := if c == 1 || c == 7 then 4 else if c == 2 || c == 3 then 2 else 1
/-- The exact value of an element of a float format. -/
def elemVal (c : BitVec 6) (x : Nat) : FVal :=
  if c == 1 || c == 2 || c == 3 then fdecode (floatOf c) x else if c == 4 then e4m3Decode x else b8Decode c x
/-- Round a value to an element of a float format. -/
def elemRound (c : BitVec 6) (mode : Nat) (r : W32) (sat : Bool) (v : FVal) : Nat :=
  if c == 1 || c == 2 || c == 3 then fround (floatOf c) mode r sat false v
  else if c == 4 then e4m3Round mode r sat v else b8Round c mode r sat v

/-- A value rounded to an integer in the mode, exactly (05 R159, R161). -/
def froundInt (mode : Nat) (r : W32) (neg : Bool) (m : Nat) (e : Int) : Int :=
  let n := m * 2 ^ e.toNat
  let d := 2 ^ (-e).toNat
  sgn neg (n / d + (if roundsUp mode r neg (n / d) (n % d) d then 1 else 0))

end Sys2Proof.Machine
end

