-- ==== Sys2Proof/Machine/Special.lean ====
section
/-!
DEFINITION. The nine correctly rounded functions (02 R67). The algebraic ones are exact or carry a sticky bit below
every rounding point. The transcendental ones are enclosed between integers of a fixed point of rising precision until
both ends round alike; their values are never exact or halfway but for the arguments treated apart.
-/

namespace Sys2Proof.Machine

/-- Integer square root by bits, `n` bits of result. -/
def isqrtAux (x : Nat) : Nat → Nat → Nat
  | 0, r => r
  | n + 1, r => let c := r + 2 ^ n; isqrtAux x n (if c * c ≤ x then c else r)
def isqrt (x : Nat) : Nat := isqrtAux x (Nat.log2 x / 2 + 1) 0

/-! Fixed point with `p` fraction bits; each value is within a few units of the exact one. -/

/-- Σ z^(2k+1) / (2k+1), alternating for arctan; `z2` = z², `t` the current power. -/
def oddSeries (p : Nat) (alt : Bool) (z2 : Nat) : Nat → Nat → Nat → Bool → Int → Int
  | 0, _, _, _, acc => acc
  | n + 1, k, t, neg, acc =>
    if t == 0 then acc
    else oddSeries p alt z2 n (k + 2) (t * z2 / 2 ^ p) (alt && !neg) (if neg then acc - (t / k : Nat) else acc + (t / k : Nat))
def atanhFix (p z : Nat) : Int := oddSeries p false (z * z / 2 ^ p) p 1 z false 0
def atanInv (p n : Nat) : Int := oddSeries p true (2 ^ p / (n * n)) p 1 (2 ^ p / n) false 0
def ln2Fix (p : Nat) : Int := 2 * atanhFix p (2 ^ p / 3)
def piFix (p : Nat) : Int := 16 * atanInv p 5 - 4 * atanInv p 239

/-- Σ y^k / k! for 0 ≤ y. -/
def expSeries (p y : Nat) : Nat → Nat → Nat → Nat → Nat
  | 0, _, _, acc => acc
  | n + 1, k, t, acc => if t == 0 then acc else expSeries p y n (k + 1) (t * y / 2 ^ p / k) (acc + t)
def expFix (p y : Nat) : Nat := expSeries p y p 1 (2 ^ p) 0
/-- Σ ± y^(k+2j) / (k+2j)!: sine from (1, y), cosine from (0, 1). -/
def trigSeries (p y2 : Nat) : Nat → Nat → Nat → Bool → Int → Int
  | 0, _, _, _, acc => acc
  | n + 1, k, t, neg, acc =>
    if t == 0 then acc
    else trigSeries p y2 n (k + 2) (t * y2 / 2 ^ p / ((k + 1) * (k + 2))) (!neg) (if neg then acc - t else acc + t)
def sinFix (p y : Nat) : Int := trigSeries p (y * y / 2 ^ p) p 1 y false 0
def cosFix (p y : Nat) : Int := trigSeries p (y * y / 2 ^ p) p 0 (2 ^ p) false 0

/-- What a function's value is: exact, or a positive magnitude between two fixed-point numbers at each precision. -/
inductive FnVal where
  | exact (v : FVal)
  | between (neg : Bool) (at' : Nat → Nat × Nat × Int)

/-- Round an enclosed magnitude: the first precision at which both ends agree. -/
def roundBetween (f : FFmt) (mode : Nat) (sat ftz neg : Bool) (at' : Nat → Nat × Nat × Int) : List Nat → Nat
  | [] => 0
  | p :: ps =>
    let b := at' p
    let lo := froundMag f mode 0 sat ftz neg b.1 1 b.2.2
    if ps.isEmpty || lo == froundMag f mode 0 sat ftz neg b.2.1 1 b.2.2 then lo
    else roundBetween f mode sat ftz neg at' ps
/-- Working precisions; every result of the three formats is settled well before the last. -/
def precisions : List Nat := [96, 224, 400]

/-- DEDUCED, log 21. -/
def roundFn (f : FFmt) (mode : Nat) (sat ftz : Bool) : FnVal → Nat
  | .exact v => fround f mode 0 sat ftz v
  | .between neg at' => roundBetween f mode sat ftz neg at' precisions

/-- Enclose `x`, in units of 2^-p, by an error far above the series' own. -/
def enclose (p : Nat) (x : Int) : Nat × Nat × Int := ((x - 2 ^ 14).toNat, (x + 2 ^ 14).toNat, -(p : Int))
/-- A magnitude just above or below a value: m × 2^e, moved by one part in 2^80. -/
def nudge (neg : Bool) (m : Nat) (e : Int) (up : Bool) : FnVal :=
  .exact (.fin neg (if up then m * 2 ^ 80 + 1 else m * 2 ^ 80 - 1) (e - 80))

/-- num / den × 2^e with a sticky bit below 2^-100 of it. -/
def quotient (neg : Bool) (num den : Nat) (e : Int) : FVal :=
  let n := num * 2 ^ (100 + Nat.log2 den)
  .fin neg (2 * (n / den) + (if n % den == 0 then 0 else 1)) (e - 101 - (Nat.log2 den : Nat))

def fnDiv (a b : FVal) : FVal :=
  match a, b with
  | .nan, _ | _, .nan | .zero _, .zero _ | .inf _, .inf _ => .nan
  | .inf x, y => .inf (x != fnegative y)
  | x, .inf y => .zero (fnegative x != y)
  | .zero x, y => .zero (x != fnegative y)
  | x, .zero y => .inf (fnegative x != y)
  | .fin x m e, .fin y n k => quotient (x != y) m n (e - k)
def fnRcp (a : FVal) : FVal := fnDiv (.fin false 1 0) a
def fnSqrt (a : FVal) : FVal :=
  match a with
  | .nan => .nan
  | .zero n => .zero n
  | .inf n => if n then .nan else .inf false
  | .fin n m e =>
    if n then .nan
    else
      let e' := if e % 2 == 0 then e else e - 1
      let m' := if e % 2 == 0 then m else 2 * m
      let x := m' * 2 ^ 200
      let r := isqrt x
      .fin false (2 * r + (if r * r == x then 0 else 1)) (e' / 2 - 101)
def fnRsq (a : FVal) : FVal :=
  match a with
  | .nan => .nan
  | .zero n => .inf n
  | .inf n => if n then .nan else .zero false
  | .fin n m e =>
    if n then .nan
    else
      let e' := if e % 2 == 0 then e else e - 1
      let m' := if e % 2 == 0 then m else 2 * m
      let x := 2 ^ 320 / m'
      let r := isqrt x
      .fin false (2 * r + (if r * r * m' == 2 ^ 320 then 0 else 1)) (-(e' / 2) - 161)

/-- 2^x: the integer part shifts, the fraction goes through exp (02 R67). -/
def fnEx2 (a : FVal) : FnVal :=
  match a with
  | .nan => .exact .nan
  | .zero _ => .exact (.fin false 1 0)
  | .inf n => .exact (if n then .zero false else .inf false)
  | .fin neg m e =>
    if 12 ≤ (Nat.log2 m : Int) + e then .exact (.fin false 1 (if neg then -4000 else 4000))
    else if (Nat.log2 m : Int) + e < -60 then nudge false 1 0 (!neg)
    else
      let x := sgn neg (m * 2 ^ e.toNat)
      let d : Nat := 2 ^ (-e).toNat
      let k := x / (d : Int)
      let fr : Nat := (x % (d : Int)).toNat
      if fr == 0 then .exact (.fin false 1 k)
      else .between false (fun p =>
        let y : Nat := fr * 2 ^ p / d * (ln2Fix p).toNat / 2 ^ p
        let b := enclose p (expFix p y)
        (b.1, b.2.1, b.2.2 + k))
def fnLg2 (a : FVal) : FnVal :=
  match a with
  | .nan => .exact .nan
  | .zero _ => .exact (.inf true)
  | .inf n => .exact (if n then .nan else .inf false)
  | .fin neg m e =>
    if neg then .exact .nan
    else
      let k := Nat.log2 m
      if m == 2 ^ k then .exact (ofInt false (k + e) 0)
      else
        let log := fun (p : Nat) =>
          let z := (m - 2 ^ k) * 2 ^ p / (m + 2 ^ k)
          ((k : Int) + e) * 2 ^ p + 2 * atanhFix p z * 2 ^ p / ln2Fix p
        let neg := (k : Int) + e < 0
        .between neg (fun p => enclose p (if neg then -(log p) else log p))

/-- Position in a turn of a magnitude: numerator over 2^t, in [0, 1). -/
def turnOf (m : Nat) (e : Int) : Nat × Nat := let t := (-e).toNat; (m * 2 ^ e.toNat % 2 ^ t, t)
/-- sin(2π n / 2^t) or the cosine, as a sign and an enclosed or exact magnitude; n / 2^t in [0, 1). -/
def trigTurn (cosine : Bool) (n t : Nat) : Bool × Option (Nat → Nat × Nat × Int) × Int :=
  -- shift the cosine by a quarter turn and fold into quadrants
  let one := 2 ^ (t + 2)
  let x := (4 * n + (if cosine then 2 ^ t else 0)) % one
  let quad := x / 2 ^ t
  let y := x % 2 ^ t
  let neg := 2 ≤ quad
  -- in odd quadrants the sine falls: use the cosine of the rest
  let falls := quad % 2 == 1
  if y == 0 then (neg, none, if falls then 1 else 0)
  else (neg, some (fun p =>
    let theta := y * 2 ^ p / 2 ^ t * (piFix p).toNat / 2 ^ (p + 1)
    enclose p (if falls then cosFix p theta else sinFix p theta)), 0)
def fnSin (a : FVal) : FnVal :=
  match a with
  | .nan | .inf _ => .exact .nan
  | .zero n => .exact (.zero n)
  | .fin neg m e =>
    let q := turnOf m e
    match trigTurn false q.1 q.2 with
    | (s, none, v) => .exact (if v == 0 then .zero neg else .fin (s != neg) 1 0)
    | (s, some g, _) => .between (s != neg) g
def fnCos (a : FVal) : FnVal :=
  match a with
  | .nan | .inf _ => .exact .nan
  | .zero _ => .exact (.fin false 1 0)
  | .fin _ m e =>
    if (Nat.log2 m : Int) + e < -60 then nudge false 1 0 false
    else
      let q := turnOf m e
      match trigTurn true q.1 q.2 with
      | (s, none, v) => .exact (if v == 0 then .zero false else .fin s 1 0)
      | (s, some g, _) => .between s g
def fnTanh (a : FVal) : FnVal :=
  match a with
  | .nan => .exact .nan
  | .zero n => .exact (.zero n)
  | .inf n => .exact (.fin n 1 0)
  | .fin neg m e =>
    if 6 ≤ (Nat.log2 m : Int) + e then nudge neg 1 0 false
    else if (Nat.log2 m : Int) + e < -45 then nudge neg m e false
    else .between neg (fun p =>
      -- e^(2x) with x = k ln 2 / 2 + rest
      let y := 2 * m * 2 ^ (p + e.toNat) / 2 ^ (-e).toNat
      let l := (ln2Fix p).toNat
      let k := y / l
      let big := expFix p (y % l) * 2 ^ k
      let v := ((big : Int) - 2 ^ p) * 2 ^ p / (big + 2 ^ p)
      let w : Int := 2 ^ 14 * ((k : Int) + 4)
      ((v - w).toNat, (v + w).toNat, -(p : Int)))

end Sys2Proof.Machine
end

