-- ==== Sys2Proof/Machine/Float.lean ====
section
/-!
DEFINITION. Classes 0x3 and 0x4: float arithmetic, special functions, rounding and conversion (05 R149-R164).
-/

namespace Sys2Proof.Machine

open State

/-- The IEEE format of an F type, packed types by their element (02 R41). -/
def tyFmt (t : BitVec 5) : FFmt := if t == 0x11 || t == 0x13 then f16 else if t == 0x12 || t == 0x14 then bf16 else f32
def ftzOf (f : FmtA) : Bool := f.mods.getLsbD 5

/-- A result per element of the type: one element, or two packed (05 R150). -/
def perElem (t : BitVec 5) (op : List Nat → Nat) (vs : List Nat) : Nat :=
  if isPackedTy t then op (vs.map (· % 2 ^ 16)) + op (vs.map (· / 2 ^ 16 % 2 ^ 16)) * 2 ^ 16 else op vs
/-- An entry with one rounding per element of an exact value (05 R150). -/
def floatOp (i : Instr) (f : FmtA) (srcs : List Src) (op : Nat → List FVal → FVal) (s : State) :
    Host.Outcome State Fault Refusal :=
  let g := tyFmt f.ty
  let mode := f.rnd.toNat
  laneResult i f srcs 1 (perElem f.ty (fun vs =>
    fround g mode 0 f.sat (ftzOf f) (op mode (vs.map (foperand g (ftzOf f)))))) s
def v0 (l : List FVal) : FVal := l.getD 0 .nan
def v1 (l : List FVal) : FVal := l.getD 1 .nan
def v2 (l : List FVal) : FVal := l.getD 2 .nan

def execFadd (h : Hdr) (f : FmtA) (s : State) : Host.Outcome State Fault Refusal :=
  floatOp (.fadd h f) f [tyA f, tyB f] (fun m v => fadd m (v0 v) (v1 v)) s
def execFmul (h : Hdr) (f : FmtA) (s : State) : Host.Outcome State Fault Refusal :=
  floatOp (.fmul h f) f [tyA f, tyB f] (fun _ v => fmul (v0 v) (v1 v)) s
def execFfma (h : Hdr) (f : FmtA) (s : State) : Host.Outcome State Fault Refusal :=
  floatOp (.ffma h f) f [tyA f, tyB f, tyC f] (fun m v => fadd m (fmul (v0 v) (v1 v)) (v2 v)) s

/-- minimumNumber and maximumNumber (02 R47). -/
def fminNum (a b : FVal) : FVal := if fisNan a then b else if fisNan b then a else if flt true b a then b else a
def fmaxNum (a b : FVal) : FVal := if fisNan a then b else if fisNan b then a else if flt true a b then b else a
def execFmin (h : Hdr) (f : FmtA) (s : State) : Host.Outcome State Fault Refusal :=
  floatOp (.fmin h f) f [tyA f, tyB f] (fun _ v => fminNum (v0 v) (v1 v)) s
def execFmax (h : Hdr) (f : FmtA) (s : State) : Host.Outcome State Fault Refusal :=
  floatOp (.fmax h f) f [tyA f, tyB f] (fun _ v => fmaxNum (v0 v) (v1 v)) s

/-- Conditions of FCMP (05 R153). -/
def fcond (c : Nat) (a b : FVal) : Bool :=
  match c with
  | 0 => feq a b
  | 1 => !feq a b
  | 2 => flt false a b
  | 3 => flt false a b || feq a b
  | 4 => flt false b a
  | 5 => flt false b a || feq a b
  | 6 => !fisNan a && !fisNan b
  | _ => fisNan a || fisNan b
def execFcmp (h : Hdr) (f : FmtA) (s : State) : Host.Outcome State Fault Refusal :=
  let g := tyFmt f.ty
  lanePred (.fcmp h f) f [tyA f, tyB f]
    (fun v => fcond (f.mods.toNat % 8) (foperand g (ftzOf f) (nat0 v)) (foperand g (ftzOf f) (nat1 v))) s

/-- The class bit (05 R154). -/
def fclassBit (g : FFmt) (v : FVal) : Nat :=
  match v with
  | .nan => 8
  | .inf n => if n then 0 else 7
  | .zero n => if n then 3 else 4
  | .fin n m e => if Nat.log2 m + e < 1 - fbias g then (if n then 2 else 5) else (if n then 1 else 6)
def execFclass (h : Hdr) (f : FmtA) (s : State) : Host.Outcome State Fault Refusal :=
  let g := tyFmt f.ty
  laneResult (.fclass h f) f [tyA f] 1 (fun v => 2 ^ fclassBit g (foperand g (ftzOf f) (nat0 v))) s

/-- A0 × B0 + A1 × B1 + C, exact, one rounding (05 R155). -/
def execFdot2 (h : Hdr) (f : FmtA) (s : State) : Host.Outcome State Fault Refusal :=
  let g := tyFmt f.ty
  let mode := f.rnd.toNat
  let z := ftzOf f
  laneResult (.fdot2 h f) f [tyA f, tyB f, srcC f 1 .f32] 1 (fun v =>
    let lo := fun x => foperand g z (x % 2 ^ 16)
    let hi := fun x => foperand g z (x / 2 ^ 16 % 2 ^ 16)
    fround f32 mode 0 f.sat z
      (fadd mode (fadd mode (fmul (lo (nat0 v)) (lo (nat1 v))) (fmul (hi (nat0 v)) (hi (nat1 v))))
        (foperand f32 z (nat2 v)))) s

/-- A × 2^B; beyond ±4096 the result is the same (05 R156). -/
def fscale (a : FVal) (b : Int) : FVal :=
  match a with
  | .fin n m e => .fin n m (e + (if 4096 < b then 4096 else if b < -4096 then -4096 else b))
  | _ => a
def execFscale (h : Hdr) (f : FmtA) (s : State) : Host.Outcome State Fault Refusal :=
  let g := tyFmt f.ty
  laneResult (.fscale h f) f [tyA f, srcB f 1 (.int 32)] 1 (fun v =>
    fround g f.rnd.toNat 0 f.sat (ftzOf f) (fscale (foperand g (ftzOf f) (nat0 v)) (signed 32 (nat1 v)))) s

/-! ### Class 0x4. -/

def specialOp (i : Instr) (f : FmtA) (srcs : List Src) (op : List FVal → FnVal) (s : State) :
    Host.Outcome State Fault Refusal :=
  let g := tyFmt f.ty
  laneResult i f srcs 1 (fun v => roundFn g f.rnd.toNat f.sat (ftzOf f) (op (v.map (foperand g (ftzOf f))))) s
def execFrcp (h : Hdr) (f : FmtA) (s : State) : Host.Outcome State Fault Refusal :=
  specialOp (.frcp h f) f [tyA f] (fun v => .exact (fnRcp (v0 v))) s
def execFrsq (h : Hdr) (f : FmtA) (s : State) : Host.Outcome State Fault Refusal :=
  specialOp (.frsq h f) f [tyA f] (fun v => .exact (fnRsq (v0 v))) s
def execFsqrt (h : Hdr) (f : FmtA) (s : State) : Host.Outcome State Fault Refusal :=
  specialOp (.fsqrt h f) f [tyA f] (fun v => .exact (fnSqrt (v0 v))) s
def execFdiv (h : Hdr) (f : FmtA) (s : State) : Host.Outcome State Fault Refusal :=
  specialOp (.fdiv h f) f [tyA f, tyB f] (fun v => .exact (fnDiv (v0 v) (v1 v))) s
def execFex2 (h : Hdr) (f : FmtA) (s : State) : Host.Outcome State Fault Refusal :=
  specialOp (.fex2 h f) f [tyA f] (fun v => fnEx2 (v0 v)) s
def execFlg2 (h : Hdr) (f : FmtA) (s : State) : Host.Outcome State Fault Refusal :=
  specialOp (.flg2 h f) f [tyA f] (fun v => fnLg2 (v0 v)) s
def execFsin (h : Hdr) (f : FmtA) (s : State) : Host.Outcome State Fault Refusal :=
  specialOp (.fsin h f) f [tyA f] (fun v => fnSin (v0 v)) s
def execFcos (h : Hdr) (f : FmtA) (s : State) : Host.Outcome State Fault Refusal :=
  specialOp (.fcos h f) f [tyA f] (fun v => fnCos (v0 v)) s
def execFtanh (h : Hdr) (f : FmtA) (s : State) : Host.Outcome State Fault Refusal :=
  specialOp (.ftanh h f) f [tyA f] (fun v => fnTanh (v0 v)) s

/-- Round to an integral value; a zero keeps the sign of A (05 R159). -/
def frnd (mode : Nat) (v : FVal) : FVal :=
  match v with
  | .fin n m e => if 0 ≤ e then v else ofInt n (froundInt mode 0 n m e) 0
  | _ => v
def execFrnd (h : Hdr) (f : FmtA) (s : State) : Host.Outcome State Fault Refusal :=
  floatOp (.frnd h f) f [tyA f] (fun m v => frnd m (v0 v)) s

/-- The source of CVT as an exact value, or as an integer (05 R160). -/
def cvtSource (f : FmtA) (x : Nat) : FVal :=
  if f.mods.getLsbD 5 then b8Decode f.mods x
  else
    let t := f.cvtSrcTy
    if isIntTy t then ofInt false (tyVal t x) 0
    else if t == 0x15 then e4m3Decode x else foperand (tyFmt t) false x
/-- A float value to an integer type: NaN is 0, clamped (05 R161). -/
def floatToInt (t : BitVec 5) (mode : Nat) (r : W32) (v : FVal) : Int :=
  match v with
  | .nan | .zero _ => 0
  | .inf n => if n then tyMin t else tyMax t
  | .fin n m e => clampInt (tyMin t) (tyMax t) (froundInt mode r n m e)
/-- The registers' bits of a conversion (05 R161). -/
def cvtResult (f : FmtA) (r : W32) (x : Nat) : Nat :=
  let mode := f.rnd.toNat
  let t := f.cvtSrcTy
  if isIntTy f.ty then
    if isIntTy t then tyResult f.ty f.sat (tyVal t x) else tyResult f.ty false (floatToInt f.ty mode r (cvtSource f x))
  else if f.ty == 0x15 then e4m3Round mode r f.sat (cvtSource f x)
  else fround (tyFmt f.ty) mode r f.sat false (cvtSource f x)

/-- The seed of a thread's launch. -/
def seedOf (s : State) (t : Nat) : W64 := (s.launch (s.gang (slotOf t)).launch).seed
/-- The next draw of a thread and its counter after it (02 R52). -/
def laneDraw (seed : W64) (l : Lane) : W32 := drawOf seed (l.lineage.extractLsb' 48 16) l.popindex l.rng
def laneDrawn (l : Lane) : Lane := { l with rng := l.rng + 1 }

def execCvt (h : Hdr) (f : FmtA) (s : State) : Host.Outcome State Fault Refusal :=
  let n := if is64Ty f.cvtSrcTy then 2 else 1
  let imm := if f.cvtSrcTy == 0x15 || f.cvtSrcTy == 0x16 then .int 32 else tyImm f.cvtSrcTy
  runInstr (.cvt h f) s (fun cx s =>
    s.perLane cx [srcA f n imm] f.opnd (fun t l v =>
      let r := if f.rnd == 4 then laneDraw (seedOf s t) l else 0
      let l := if f.rnd == 4 then laneDrawn l else l
      l.writeVs f.d.toNat (wideRegs f) (cvtResult f r (nat0 v)) cx.lat))

/-- CVTN of one word: an element per code byte, a draw each under .rst, low first (05 R162). -/
def cvtnWord (f : FmtA) (seed : W64) (l : Lane) (x : Nat) : Lane × Nat :=
  let g := tyFmt f.ty
  let one := fun (l : Lane) (y : Nat) =>
    (if f.rnd == 4 then laneDrawn l else l,
     b8Round f.mods f.rnd.toNat (if f.rnd == 4 then laneDraw seed l else 0) f.sat (foperand g false y))
  if isPackedTy f.ty then
    let a := one l (x % 2 ^ 16)
    let b := one a.1 (x / 2 ^ 16)
    (b.1, a.2 + b.2 * 256)
  else one l x
def execCvtn (h : Hdr) (f : FmtA) (s : State) : Host.Outcome State Fault Refusal :=
  runInstr (.cvtn h f) s (fun cx s =>
    s.perLane cx [tyA f] f.opnd (fun t l v =>
      let r := cvtnWord f (seedOf s t) l (nat0 v)
      r.1.writeVs f.d.toNat 1 r.2 cx.lat))

/-- PACK: two FP32 values rounded to elements, or two halves joined (05 R163). -/
def execPack (h : Hdr) (f : FmtA) (s : State) : Host.Outcome State Fault Refusal :=
  let imm : ImmKind := if f.ty == 8 then .int 32 else .f32
  let one := fun x => fround (tyFmt f.ty) f.rnd.toNat 0 f.sat (ftzOf f) (foperand f32 (ftzOf f) x)
  laneResult (.pack h f) f [srcA f 1 imm, srcB f 1 imm] 1 (fun v =>
    if f.ty == 8 then nat0 v % 2 ^ 16 + nat1 v % 2 ^ 16 * 2 ^ 16 else one (nat0 v) + one (nat1 v) * 2 ^ 16) s
/-- UNPK: an element widened to FP32, or a byte or half (05 R164). -/
def execUnpk (h : Hdr) (f : FmtA) (s : State) : Host.Outcome State Fault Refusal :=
  let n := f.mods.toNat % 8
  laneResult (.unpk h f) f [tyA f] 1 (fun v =>
    let x := nat0 v
    if f.ty == 8 then (if n < 4 then x / 2 ^ (8 * n) % 256 else x / 2 ^ (16 * (n - 4)) % 2 ^ 16)
    else fround f32 0 0 false false (foperand (tyFmt f.ty) (ftzOf f) (x / 2 ^ (16 * n)))) s

end Sys2Proof.Machine
end

