-- ==== Sys2Proof/Machine/Control.lean ====
section
/-!
DEFINITION. Class 0x0 but EXIT: branches, calls, SLEEP, TRAP (04 R109-R117), and DBRK, HALT, RTT of class 0xD
(08 R246, R247, R250).
-/

namespace Sys2Proof.Machine

open State

def execNop (h : Hdr) (f : FmtC) (s : State) : Host.Outcome State Fault Refusal :=
  runInstr (.nop h f) s (fun _ s => (s, []))
def execYield (h : Hdr) (f : FmtC) (s : State) : Host.Outcome State Fault Refusal :=
  runInstr (.yield h f) s (fun _ s => (s, []))

/-- The signed slot number of a branch's target (03 R75). -/
def branchSlot (pc : W64) (off : W32) : Int := (slotNumber pc : Int) + off.toInt

/-- Send threads to a slot number, each checked for its own privilege (03 R76). -/
def branchAll (s : State) (ts : List Nat) (n : Int) : State × List (Nat × Disp) :=
  ts.foldl (fun acc t => let r := acc.1.checkSlot (acc.1.who t) n; (r.2, acc.2 ++ [(t, r.1)])) (s, [])

def execBra (h : Hdr) (f : FmtC) (s : State) : Host.Outcome State Fault Refusal :=
  runInstr (.bra h f) s (fun cx s => branchAll s cx.act (branchSlot cx.pc f.off))

/-- Branch through a register pair (04 R111). A scalar target is read once for the gang: while its line is not there every
thread waits. -/
def branchReg (f : FmtC) (cx : Ctx) (s : State) : State × List (Nat × Disp) :=
  let r := cx.act.foldl (fun acc t =>
    let target := if f.kA == .vec then (acc.1.lane t).vpair f.a.toNat else acc.1.kpair cx.ts cx.slot f.a.toNat
    let r := acc.1.checkTarget (acc.1.who t) target
    (r.2, acc.2 ++ [(t, r.1)])) (s, [])
  if f.kA == .scl && r.2.any (fun d => d.2 == .stay .ready) then (r.1, cx.ts.map (fun t => (t, .stay .ready))) else r
def execBrx (h : Hdr) (f : FmtC) (s : State) : Host.Outcome State Fault Refusal := runInstr (.brx h f) s (branchReg f)
def execRet (h : Hdr) (f : FmtC) (s : State) : Host.Outcome State Fault Refusal := runInstr (.ret h f) s (branchReg f)

/-- Branch taken by the mode, and its table index (04 R112). -/
def brsTarget (f : FmtC) (k : W32) : Option Nat :=
  match (f.mods.extractLsb' 17 2).toNat with
  | 0 => if k != 0 then some 0 else none
  | 1 => if k == 0 then some 0 else none
  | _ => if k.toNat < (f.mods.extractLsb' 0 16).toNat + 1 then some k.toNat else none
def execBrs (h : Hdr) (f : FmtC) (s : State) : Host.Outcome State Fault Refusal :=
  runInstr (.brs h f) s (fun cx s =>
    if cx.act.isEmpty then (s, [])
    else match brsTarget f (s.kreg cx.ts cx.slot f.a.toNat) with
      | none => (s, [])
      | some n => branchAll s cx.ts (branchSlot cx.pc f.off + n))

/-- The link is the start of the next line, written in the lanes that branch (04 R113). -/
def linkOf (pc : W64) : Nat := (pc.toNat / 64 + 1) * 64
def execCall (h : Hdr) (f : FmtC) (s : State) : Host.Outcome State Fault Refusal :=
  runInstr (.call h f) s (fun cx s =>
    let r := branchAll s cx.act (branchSlot cx.pc f.off)
    let goes := r.2.filter (fun d => match d.2 with | .goto _ => true | _ => false)
    (goes.foldl (fun s d => s.modLane d.1 (fun l => l.writeVs f.d.toNat 2 (linkOf cx.pc) cx.lat)) r.1, r.2))

/-- The sleep count (04 R116). -/
def sleepCount (f : FmtC) (cx : Ctx) (s : State) : Nat :=
  if !f.mods.getLsbD 18 then (f.mods.extractLsb' 0 18).toNat
  else if f.kA == .scl then (s.kreg cx.ts cx.slot f.a.toNat).toNat
  else (cx.act.map (fun t => ((s.lane t).vreg f.a.toNat).toNat)).foldl max 0
def execSleep (h : Hdr) (f : FmtC) (s : State) : Host.Outcome State Fault Refusal :=
  runInstr (.sleep h f) s (fun cx s =>
    let n := sleepCount f cx s
    (s, if n == 0 then [] else cx.act.map (fun t => (t, .move (.sleep n)))))

def execTrap (h : Hdr) (f : FmtC) (s : State) : Host.Outcome State Fault Refusal :=
  runInstr (.trap h f) s (fun cx s => (s, cx.act.map (fun t => (t, .trapPast 0x1B (f.mods.extractLsb' 0 16).toNat))))
def execDbrk (h : Hdr) (f : FmtC) (s : State) : Host.Outcome State Fault Refusal :=
  runInstr (.dbrk h f) s (fun cx s => (s, cx.act.map (fun t => (t, .trapPast 0x1C (f.mods.extractLsb' 0 16).toNat))))

/-- DEDUCED, log 16. -/
def execRtt (h : Hdr) (f : FmtC) (s : State) : Host.Outcome State Fault Refusal :=
  runInstr (.rtt h f) s (fun cx s =>
    cx.act.foldl (fun acc t => let r := acc.1.leaveHandler t; (r.2, acc.2 ++ [(t, Disp.goto r.1)])) (s, []))

/-- Stop every live lane of the gang; the issuing lanes past the instruction (08 R246, 15 R360). -/
def execHalt (h : Hdr) (f : FmtC) (s : State) : Host.Outcome State Fault Refusal :=
  runInstr (.halt h f) s (fun cx s =>
    if cx.act.isEmpty then (s, [])
    else
      let s := s.modGang cx.slot (fun g => { g with halted := true })
      (logRecord s 15 0 2 cx.core cx.slot, cx.ts.map (fun t => (t, .move .ready))))

end Sys2Proof.Machine
end

