-- ==== Sys2Proof/Machine/Scalar.lean ====
section
/-!
DEFINITION. Class 0x6 but SLD and SST: scalar moves, arithmetic, logic, RDLANE and SRD (04 R118-R126).
-/

namespace Sys2Proof.Machine

open State

def scalarOp (i : Instr) (f : FmtA) (srcs : List Src) (val : List Nat → Nat) (s : State) :
    Host.Outcome State Fault Refusal := gangResult i f srcs (wideRegs f) val s
def scalarInt (i : Instr) (f : FmtA) (srcs : List Src) (op : List Int → Int) (s : State) :
    Host.Outcome State Fault Refusal :=
  scalarOp i f srcs (fun vs => tyResult f.ty f.sat (op (vs.map (tyVal f.ty)))) s

def execSmov (h : Hdr) (f : FmtA) (s : State) : Host.Outcome State Fault Refusal :=
  scalarOp (.smov h f) f [tyA f] nat0 s
def execSmovi (h : Hdr) (f : FmtI) (s : State) : Host.Outcome State Fault Refusal :=
  runInstr (.smovi h f) s (fun cx s => s.perGang cx [] 0 f.d.toNat (longImm f).1 (fun _ => (longImm f).2))
def execSadd (h : Hdr) (f : FmtA) (s : State) : Host.Outcome State Fault Refusal :=
  scalarInt (.sadd h f) f [tyA f, tyB f] (fun v => at0 v + at1 v) s
def execSsub (h : Hdr) (f : FmtA) (s : State) : Host.Outcome State Fault Refusal :=
  scalarInt (.ssub h f) f [tyA f, tyB f] (fun v => at0 v - at1 v) s
def execSmul (h : Hdr) (f : FmtA) (s : State) : Host.Outcome State Fault Refusal :=
  scalarInt (.smul h f) f [tyA f, tyB f] (fun v => at0 v * at1 v) s
def execSmad (h : Hdr) (f : FmtA) (s : State) : Host.Outcome State Fault Refusal :=
  scalarInt (.smad h f) f [tyA f, tyB f, tyC f] (fun v => at0 v * at1 v + at2 v) s
def execSand (h : Hdr) (f : FmtA) (s : State) : Host.Outcome State Fault Refusal :=
  scalarOp (.sand h f) f [tyA f, tyB f] (fun v => nat0 v &&& nat1 v) s
def execSor (h : Hdr) (f : FmtA) (s : State) : Host.Outcome State Fault Refusal :=
  scalarOp (.sor h f) f [tyA f, tyB f] (fun v => nat0 v ||| nat1 v) s
def execSxor (h : Hdr) (f : FmtA) (s : State) : Host.Outcome State Fault Refusal :=
  scalarOp (.sxor h f) f [tyA f, tyB f] (fun v => nat0 v ^^^ nat1 v) s
def execSshl (h : Hdr) (f : FmtA) (s : State) : Host.Outcome State Fault Refusal :=
  scalarOp (.sshl h f) f [tyA f, cntB f] (fun v => shlBits (tyWidth f.ty) (nat0 v) (nat1 v)) s
def execSshr (h : Hdr) (f : FmtA) (s : State) : Host.Outcome State Fault Refusal :=
  scalarOp (.sshr h f) f [tyA f, cntB f]
    (fun v => if tySigned f.ty then sarBits (tyWidth f.ty) (nat0 v) (nat1 v) else shrBits (tyWidth f.ty) (nat0 v) (nat1 v)) s
def execScmp (h : Hdr) (f : FmtA) (s : State) : Host.Outcome State Fault Refusal :=
  gangResult (.scmp h f) f [tyA f, tyB f] 1
    (fun v => if cond f.mods.toNat (tyVal f.ty (nat0 v)) (tyVal f.ty (nat1 v)) then 1 else 0) s
def execSsel (h : Hdr) (f : FmtA) (s : State) : Host.Outcome State Fault Refusal :=
  scalarOp (.ssel h f) f [tyA f, tyB f, srcC f 1 (.int 32)] (fun v => if nat2 v != 0 then nat0 v else nat1 v) s

/-- The lane that RDLANE reads is in G and its register failed (05 R127). -/
def rdlaneFails (f : FmtA) (cx : Ctx) (s : State) : Option Nat :=
  if s.failed.isEmpty then none
  else match s.readSrcs cx cx.act f.opnd [cntB f] with
    | (none, v, _) =>
      let t := 32 * cx.slot + nat0 (v (cx.act.head?.getD 0)) % 32
      if cx.ts.contains t then s.failedVreg t [⟨.vec, f.a, wideRegs f, .int 32⟩] else none
    | _ => none
/-- Lane j of the gang, when it is live and present in G (04 R125). -/
def execRdlane (h : Hdr) (f : FmtA) (s : State) : Host.Outcome State Fault Refusal :=
  runInstr (.rdlane h f) s (fun cx s => match rdlaneFails f cx s with
    | some n => (s, cx.act.map (fun t => (t, Disp.trap 0x16 (BitVec.ofNat 64 n))))
    | none => s.perGang cx [cntB f] f.opnd f.d.toNat (wideRegs f) (fun v =>
      let t := 32 * cx.slot + nat0 v % 32
      if cx.ts.contains t && (s.lane t).live then
        ofWords ((List.range (wideRegs f)).map (fun i => (s.lane t).vreg (f.a.toNat + i)))
      else 0))

/-- The value of a special register in a thread (01 R25, 04 R126). %time is the hub's count and the free skew of the thread's
die, and never less than what the thread read before. DESIGN CHOICE, log 81. -/
def specialReg (s : State) (n t : Nat) : Nat :=
  let slot := slotOf t
  let g := s.gang slot
  let l := s.launch g.launch
  match n with
  | 0 => laneOf t
  | 1 => g.index.toNat
  | 2 => partOf slot
  | 3 => coreOf slot
  | 4 => dieOf (coreOf slot)
  | 5 => g.block
  | 6 => (s.block (s.blockOf slot)).tile.toNat
  | 7 => l.nblocks.toNat
  | 8 => s.clockOf (coreOf slot)
  | 9 => max (s.time + Config.dieSkew (dieOf (coreOf slot))) (s.lane t).timeRead
  | 10 => (s.lane t).lineage.toNat
  | 11 => (s.lane t).popindex.toNat
  | 12 => l.popsize.toNat
  | 13 => g.role.toNat
  | 14 => g.spawned.toNat
  | _ => l.seed.toNat
/-- Threads that read special register 9 keep the time that they read (01 R25). -/
def State.noteTime (s : State) (n : Nat) (ts : List Nat) (x : Nat → Nat) : State :=
  if n == 9 then ts.foldl (fun s t => s.modLane t (fun l => { l with timeRead := x t })) s else s
/-- What a scalar read gives the group: the Issuer's value, and of %time no less than what a thread of it has read. -/
def groupSpecial (s : State) (n : Nat) (cx : Ctx) : Nat :=
  let own := specialReg s n (cx.act.head?.getD 0)
  if n == 9 then cx.ts.foldl (fun x t => max x (s.lane t).timeRead) own else own
def execSrd (h : Hdr) (f : FmtA) (s : State) : Host.Outcome State Fault Refusal :=
  let n := (f.mods.extractLsb' 0 5).toNat
  let w := if srd64 n then 2 else 1
  runInstr (.srd h f) s (fun cx s =>
    if cx.act.isEmpty then (s, [])
    else if f.mods.getLsbD 5 then
      let x := groupSpecial s n cx
      (s.noteTime n cx.ts (fun _ => x)).perGang cx [] 0 f.d.toNat w (fun _ => x)
    else
      (cx.act.foldl (fun s' t => s'.modLane t (fun l => l.writeVs f.d.toNat w (specialReg s n t) cx.lat))
        (s.noteTime n cx.act (specialReg s n)), []))

end Sys2Proof.Machine
end

