-- ==== Sys2Proof/Machine/Lanes.lean ====
section
/-!
DEFINITION. Class 0x5, values moved between the lanes of a gang (06 R165-R171), and RNG (08 R241).
-/

namespace Sys2Proof.Machine

open State

/-- The value of a lane's source A, at its width. -/
def laneValue (s : State) (f : FmtA) (t : Nat) : Nat :=
  ofWords ((List.range (wideRegs f)).map (fun i => (s.lane t).vreg (f.a.toNat + i)))
/-- What lane j of the gang supplies: its register when it is in G, else 0 (06 R165). -/
def supply (s : State) (cx : Ctx) (f : FmtA) (j : Nat) : Nat :=
  if cx.ts.contains (32 * cx.slot + j) then laneValue s f (32 * cx.slot + j) else 0

/-- One result per lane of Act from the values that stood before: `src b t` are the threads whose A lane t consumes,
`val b t` the result, with `b` Src(B) of the lane. -/
def crossBody (f : FmtA) (srcs : List Src) (n : Nat) (src : Ctx → Nat → Nat → List Nat)
    (val : Ctx → State → Nat → Nat → Nat) : Ctx → State → State × List (Nat × Disp) :=
  (fun cx s =>
    if cx.act.isEmpty then (s, [])
    else match s.readSrcs cx cx.act f.opnd srcs with
      | (some d, _, s) => s.stopAt cx.core cx.act 0 d
      | (none, b, s) =>
        let bad := cx.act.filterMap (fun t =>
          ((src cx ((b t).headD 0) t).find? (fun u => s.failedVreg u [tyA f] != none)).map (fun u =>
            (t, Disp.trap 0x16 (BitVec.ofNat 64 ((s.failedVreg u [tyA f]).getD 0)))))
        let good := cx.act.filter (fun t => !bad.any (fun d => d.1 == t))
        (good.foldl (fun s' t => s'.modLane t (fun l =>
          l.writeVs f.d.toNat n (val cx s ((b t).headD 0) t) cx.lat)) s, bad))
def crossLane (i : Instr) (f : FmtA) (srcs : List Src) (n : Nat) (src : Ctx → Nat → Nat → List Nat)
    (val : Ctx → State → Nat → Nat → Nat) (s : State) : Host.Outcome State Fault Refusal :=
  runInstr i s (crossBody f srcs n src val)

/-- The lane that LXCH reads for lane l, none: outside the segment (06 R167). -/
def lxchLane (f : FmtA) (l b : Nat) : Option Nat :=
  let n := 2 ^ (f.mods.extractLsb' 2 3).toNat
  let base := l / n * n
  let q := l - base
  match f.mods.toNat % 4 with
  | 0 => some (base + b % n)
  | 1 => some (base + (q + b) % n)
  | 2 => some (base + (q ^^^ (b % n)))
  | _ => let j := (l : Int) + signed 32 b
         if j < base || (base + n : Nat) ≤ j then none else some j.toNat
def execLxch (h : Hdr) (f : FmtA) (s : State) : Host.Outcome State Fault Refusal :=
  let from' := fun (t b : Nat) => (lxchLane f (laneOf t) b).getD (laneOf t)
  crossLane (.lxch h f) f [cntB f] (wideRegs f)
    (fun cx b t => [32 * cx.slot + from' t b].filter (fun u => cx.ts.contains u))
    (fun cx s b t => supply s cx f (from' t b)) s

/-- The consensus of the values of Act (06 R168). -/
def consensus (mode : Nat) (bs : List Bool) : Bool :=
  match mode with
  | 0 => bs.any id
  | 1 => bs.all id
  | 2 => bs.all id || bs.all not
  | _ => bs.length < 2 * bs.countP id
def predsOf (s : State) (ts : List Nat) (p : Nat) : List Bool := ts.map (fun t => (s.lane t).pred p)
def execCons (h : Hdr) (f : FmtA) (s : State) : Host.Outcome State Fault Refusal :=
  runInstr (.cons h f) s (fun cx s =>
    let r := consensus f.mods.toNat (predsOf s cx.act f.a.toNat)
    (cx.act.foldl (fun s t => s.writeP t f.d.toNat r cx.lat) s, []))

def execPmask (h : Hdr) (f : FmtA) (s : State) : Host.Outcome State Fault Refusal :=
  runInstr (.pmask h f) s (fun cx s =>
    let m := laneMask (cx.act.filter (fun t => (s.lane t).pred f.a.toNat))
    if cx.act.isEmpty then (s, [])
    else if f.mods.getLsbD 5 then (s.writeK cx.ts cx.slot f.d.toNat m cx.lat, [])
    else (cx.act.foldl (fun s t => s.writeV t f.d.toNat m cx.lat) s, []))

/-- The running combination of REDUX and SCAN (06 R169): `none` before the first lane. Integer sums stay exact. DEDUCED, log 19. -/
def combine (f : FmtA) : List Nat → Nat
  | [] =>
    let w := tyWidth f.ty
    match f.mods.toNat % 8 with
    | 1 => if f.ty == 0x10 then finf f32 false else wrap w (tyMax f.ty)
    | 2 => if f.ty == 0x10 then finf f32 true else wrap w (tyMin f.ty)
    | 3 => 2 ^ w - 1
    | _ => 0
  | x0 :: xs =>
    -- a NaN result is the canonical one, of a single value too (02 R46)
    let x := if f.ty == 0x10 then fround f32 0 0 false false (fdecode f32 x0) else x0
    match f.mods.toNat % 8 with
    | 0 =>
      if f.ty == 0x10 then
        xs.foldl (fun a b => fround f32 f.rnd.toNat 0 false false (fadd f.rnd.toNat (fdecode f32 a) (fdecode f32 b))) x
      else tyResult f.ty f.sat (((x :: xs).map (tyVal f.ty)).sum)
    | 1 => if f.ty == 0x10 then xs.foldl (fun a b => fround f32 0 0 false false (fminNum (fdecode f32 a) (fdecode f32 b))) x
           else tyResult f.ty false (xs.foldl (fun a b => min a (tyVal f.ty b)) (tyVal f.ty x))
    | 2 => if f.ty == 0x10 then xs.foldl (fun a b => fround f32 0 0 false false (fmaxNum (fdecode f32 a) (fdecode f32 b))) x
           else tyResult f.ty false (xs.foldl (fun a b => max a (tyVal f.ty b)) (tyVal f.ty x))
    | 3 => xs.foldl (· &&& ·) x
    | 4 => xs.foldl (· ||| ·) x
    | _ => xs.foldl (· ^^^ ·) x
def execRedux (h : Hdr) (f : FmtA) (s : State) : Host.Outcome State Fault Refusal :=
  runInstr (.redux h f) s
    (if f.mods.getLsbD 5 then (fun cx s =>
      match cx.act.find? (fun u => s.failedVreg u [tyA f] != none) with
      | some u => (s, cx.act.map (fun t => (t, Disp.trap 0x16 (BitVec.ofNat 64 ((s.failedVreg u [tyA f]).getD 0)))))
      | none => s.perGang cx [] 0 f.d.toNat (wideRegs f) (fun _ => combine f (cx.act.map (laneValue s f))))
    else
      crossBody f [] (wideRegs f) (fun cx _ _ => cx.act) (fun cx s _ _ => combine f (cx.act.map (laneValue s f))))
/-- The lanes of Act that SCAN combines for thread t. -/
def scanLanes (f : FmtA) (cx : Ctx) (t : Nat) : List Nat :=
  cx.act.filter (fun u => if f.mods.getLsbD 3 then u < t else u ≤ t)
def execScan (h : Hdr) (f : FmtA) (s : State) : Host.Outcome State Fault Refusal :=
  crossLane (.scan h f) f [] (wideRegs f) (fun cx _ t => scanLanes f cx t)
    (fun cx s _ t => combine f ((scanLanes f cx t).map (laneValue s f))) s

/-- Masks of equal values (06 R170). -/
def equalMask (f : FmtA) (cx : Ctx) (s : State) (t : Nat) : W32 :=
  let v := laneValue s f
  if f.mods.getLsbD 0 then laneMask (cx.act.filter (fun j => !cx.act.any (fun u => u < j && v u == v j)))
  else laneMask (cx.act.filter (fun j => v j == v t))
def execEqmask (h : Hdr) (f : FmtA) (s : State) : Host.Outcome State Fault Refusal :=
  crossLane (.eqmask h f) f [] 1 (fun cx _ _ => cx.act) (fun cx s _ t => (equalMask f cx s t).toNat) s

def execBcast (h : Hdr) (f : FmtA) (s : State) : Host.Outcome State Fault Refusal :=
  crossLane (.bcast h f) f [cntB f] (wideRegs f) (fun cx b _ => [32 * cx.slot + b % 32].filter (fun u => cx.ts.contains u))
    (fun cx s b _ => supply s cx f (b % 32)) s

/-- One draw of R52 per register, each advancing the thread's counter (08 R241). -/
def drawInto (seed : W64) (d : Nat) (lat : Option Nat) (l : Lane) : Nat → Lane
  | 0 => l
  | n + 1 =>
    let l := drawInto seed d lat l n
    laneDrawn (l.write (.v (d + n)) (laneDraw seed l) lat)
def execRng (h : Hdr) (f : FmtA) (s : State) : Host.Outcome State Fault Refusal :=
  runInstr (.rng h f) s (fun cx s =>
    (cx.act.foldl (fun s' t => s'.modLane t (fun l => drawInto (seedOf s t) f.d.toNat cx.lat l (wideRegs f))) s, []))

end Sys2Proof.Machine
end

