-- ==== Sys2Proof/Machine/Memory.lean ====
section
/-!
DEFINITION. Shared parts of every global and scratch access (06 R173-R178, 10 R276-R283, R299, R302): the checks of each
lane in order, loads from L1 or by a request, stores into L1, far accesses, releases, and the hotness sampler
(12 R323-R325).
-/

namespace Sys2Proof.Machine

open State

/-- A lane's global access after its checks. -/
structure LaneAcc where
  thread : Nat
  va : W64
  key : Nat
  pte : W64
  deriving DecidableEq, Repr

/-- The checks of the lanes of one instruction (06 R176). -/
structure Checks where
  ok : List LaneAcc := []
  traps : List (Nat × Disp) := []
  absent : List (Nat × W64) := []
  wait : Bool := false

/-- A line request of an instruction: its address, its key, whether L1 serves it, whether it is performed far (12 R324). -/
structure LineUse where
  va : W64
  key : Option Nat
  hit : Bool
  far : Bool

/-- What performing an access came to: the instruction holds back whole, or lanes trap or meet an absent page after their
checks, or it is performed and its threads wait for requests before they go on; the line requests it made (12 R323). -/
structure Done where
  hold : Option Status := none
  traps : List (Nat × Disp) := []
  absent : List (Nat × W64) := []
  waits : List Nat := []
  uses : List LineUse := []

def memGlobal (f : FmtM) : Bool := f.space == 0
def memAcq (f : FmtM) : Bool := f.order == 1 || f.order == 3
def memRel (f : FmtM) : Bool := f.order == 2 || f.order == 3
/-- Scopes that reach the homes (10 R281, R282): die, device, system. DEDUCED, log 26. -/
def wideScope (sc : BitVec 4) : Bool := 4 ≤ sc.toNat && sc.toNat ≤ 6
/-- A scope as an access of a thread has it: block scope is what its block spans (01 R20, 09 R252). -/
def State.scopeOf (s : State) (t : Nat) (sc : BitVec 4) : BitVec 4 := if sc == 2 then (s.block (s.blockOf (slotOf t))).scope else sc
/-- An access of some threads reaches the homes. -/
def State.wideFor (s : State) (ts : List Nat) (sc : BitVec 4) : Bool := ts.any (fun t => wideScope (s.scopeOf t sc))
def accessBytes (f : FmtM) : Nat := 2 ^ f.width.toNat

namespace State

/-! ### Addresses and data. -/

/-- `n` registers of a field for a thread. -/
def fieldValue (s : State) (cx : Ctx) (k : Kind) (r : BitVec 9) (n t : Nat) : Nat :=
  ofWords ((List.range n).map (fun i =>
    if k == .scl then s.kreg cx.ts cx.slot (r.toNat + i) else (s.lane t).vreg (r.toNat + i)))
/-- The effective global address (03 R88). -/
def globalVa (s : State) (cx : Ctx) (f : FmtM) (t : Nat) : W64 :=
  BitVec.ofNat 64 (s.fieldValue cx f.kA f.a 2 t) + f.off.signExtend 64
/-- The effective scratch offset, without bound (03 R88, 06 R179). -/
def scratchAt (s : State) (cx : Ctx) (f : FmtM) (index : Nat) (t : Nat) : Int :=
  (s.fieldValue cx f.kA f.a 1 t : Int) + index + f.off.toInt

/-! ### Scratch (01 R29, R30). -/

def scratchPart (s : State) (slot : Nat) : BlockPart :=
  ((s.block (s.blockOf slot)).parts.find? (fun p => p.core == coreOf slot)).getD BlockPart.none
def modPart (s : State) (bk c : Nat) (g : BlockPart → BlockPart) : State :=
  s.modBlock bk (fun b => { b with parts := b.parts.map (fun p => if p.core == c then g p else p) })
def scratchRead (s : State) (slot off n : Nat) : Nat := leNat (tgets 0 (s.scratchPart slot).scratch off n)
def scratchWrite (s : State) (slot off : Nat) (bs : List Byte) : State :=
  let s := s.modPart (s.blockOf slot) (coreOf slot) (fun p => { p with scratch := tsets 0 p.scratch off bs })
  if s.failed.isEmpty then s
  else { s with failed := s.failed.filter (fun w => match w with
    | .scratch b c o => !(b == s.blockOf slot && c == coreOf slot && off ≤ 8 * o && 8 * o + 8 ≤ off + bs.length)
    | _ => true) }
def scratchTag (s : State) (slot off : Nat) : BitVec 6 := tget 0 (s.scratchPart slot).tags (off / 4096)
def scratchFailed (s : State) (slot off n : Nat) : Bool :=
  s.failed.any (fun w => match w with
    | .scratch b c o => b == s.blockOf slot && c == coreOf slot && off / 8 ≤ o && o ≤ (off + n - 1) / 8
    | _ => false)
/-- The first byte of a stretch of scratch that lies in a failed word. -/
def scratchErrorAt (s : State) (slot off n : Nat) : Option Nat :=
  if s.failed.isEmpty then none else ((List.range n).map (fun k => off + k)).find? (fun k => s.scratchFailed slot k 1)
/-- The checks of a scratch access of `n` bytes (01 R29, 06 R176): a fault, or the offset. -/
def scratchCheck (s : State) (slot : Nat) (a : Int) (n : Nat) : Nat ⊕ Disp :=
  let ea : W64 := BitVec.ofInt 64 a
  if a < 0 || ((s.headerOf slot).scratch : Int) < a + n then .inr (.trap 0x11 ea)
  else if a % n != 0 then .inr (.trap 0x15 ea)
  else .inl a.toNat

/-! ### Checks of global lanes. -/

def checkLanes (s : State) (acc : Acc) (align : Nat) (ts : List Nat) (va : Nat → W64) : Checks × State :=
  ts.foldl (fun (r : Checks × State) t =>
    let c := r.1
    let trap := fun (code : Nat) (s : State) => ({ c with traps := c.traps ++ [(t, Disp.trap code (va t))] }, s)
    if !canonicalVa (va t) then trap 0x11 r.2
    else if (va t).toNat % align != 0 then trap 0x15 r.2
    else
      match translate r.2 (r.2.who t) (va t) acc with
      | (.ok key pte, s) => ({ c with ok := c.ok ++ [⟨t, va t, key, pte⟩] }, s)
      | (.fault f, s) => trap f s
      | (.notPresent, s) => ({ c with absent := c.absent ++ [(t, va t)] }, s)
      | (.wait, s) => ({ c with wait := true }, s)) ({}, s)

/-! ### The hotness sampler (12 R323-R325). -/

/-- Sampling is on: SAMPLEK and the ring's size allow it (12 R323, R325). -/
def sampleOn (s : State) : Bool := s.sampleK ≤ 24 && 12 ≤ s.sampleBase.toNat % 32 && s.sampleBase.toNat % 32 ≤ 30
/-- Count a line request while sampling is on, and queue its record when it is sampled. DESIGN CHOICE, log 105. -/
def countLine (s : State) (c asid : Nat) (va : W64) (key : Option Nat) (kind : Nat) (hit far : Bool) : State :=
  if !s.sampleOn then s
  else
    let n := (s.core c).sampleCount + 1
    let s := s.modCore c (fun k => { k with sampleCount := n })
    if n % 2 ^ s.sampleK != 0 then s
    else if Config.sampleQueue ≤ s.samples.length then { s with sampleLost := true }
    else
      let tier := key.any (fun k => targetOf k == .lpddr)
      -- an L2 is looked up for a line of device memory that L1 does not serve; a far one is not there (10 R279, R302)
      let l2 := !hit && !far && key.any (fun k => isDevMem k && s.inL2 (k / 128))
      let flags := (if hit then 1 else 0) + (if l2 then 2 else 0) + (if far then 4 else 0) + (if tier then 8 else 0) +
        (if key.isNone then 32 else 0)
      let rec' := leBytes 8 (va.toNat % 2 ^ 57 / 128 * 128) ++ leBytes 8 s.time ++
        leBytes 8 ((key.getD 0) % 2 ^ 52 / 128 * 128) ++ leBytes 8 (c * 2 ^ 8 + kind * 2 ^ 24 + flags * 2 ^ 32 + asid * 2 ^ 48)
      { s with samples := s.samples ++ [rec'], fresh := s.fresh + 1 }
/-- Count the line requests of an instruction when it is performed (12 R323). -/
def countUses (s : State) (c asid kind : Nat) (us : List LineUse) : State :=
  if !s.sampleOn then s else us.foldl (fun s u => s.countLine c asid u.va u.key kind u.hit u.far) s
/-- The lines that lanes fault at, with the requests of the other lanes: one request for each line (12 R323). -/
def faultUses (us : List LineUse) (ds : List (Nat × Disp)) : List LineUse :=
  us ++ (ds.foldl (fun (acc : List LineUse × List Nat) d => match d.2 with
    | .trap _ ea => if acc.2.contains (ea.toNat / 128) then acc else (acc.1 ++ [⟨ea, none, false, false⟩], ea.toNat / 128 :: acc.2)
    | _ => acc) ([], us.map (fun u => u.va.toNat / 128))).1

/-! ### The threads of an access. -/

/-- Where the threads of an access go (06 R176, 12 R321). `count`: what the sampler does with the line requests of an
access that is performed. DEDUCED, log 36. -/
def settleAccess (cx : Ctx) (pure' : Bool) (access : Nat) (count : List LineUse → State → State) (c : Checks) (s : State)
    (body : State → List LaneAcc → Done × State) : State × List (Nat × Disp) :=
  if c.wait then (s, cx.ts.map (fun t => (t, .stay .ready)))
  else if pure' && !c.absent.isEmpty then
    s.parkLanes cx.core access (cx.ts.map (fun t => (t, (c.absent.head?.map (·.2)).getD 0)))
  else
    let r := body s c.ok
    match r.1.hold with
    | some st => (r.2, cx.ts.map (fun t => (t, .stay st)))
    | none =>
      let absent := if pure' && !r.1.absent.isEmpty then cx.ts.map (fun t => (t, (r.1.absent.head?.map (·.2)).getD 0))
        else c.absent ++ r.1.absent
      let p := (count (faultUses r.1.uses (c.traps ++ r.1.traps)) r.2).parkLanes cx.core access absent
      let traps := c.traps ++ r.1.traps ++ p.2
      (p.1, traps ++ (if r.1.waits.isEmpty then []
        else (cx.ts.filter (fun t => !traps.any (fun d => d.1 == t))).map (fun t => (t, .move (.requests r.1.waits)))))

/-! ### Waiting for answers. -/

/-- A request or write-back is answered: groups that waited for the last one go on. -/
def answered (s : State) (id : Nat) : State :=
  { s with groups := s.groups.map (fun g => match g.2.status with
      | .requests ids =>
        if ids.contains id then
          let rest := ids.filter (fun x => x != id)
          (g.1, { g.2 with status := if rest.isEmpty then .ready else .requests rest })
        else g
      | _ => g) }

/-- A request waits for its channel, which retrains (12 R312); one that its home slice holds the line of does not need it. -/
def channelHolds (s : State) (r : Request) : Bool :=
  s.channelBusy r.il (r.line * 128) && r.kind != .writeCheck &&
    ((r.near && s.regionState (r.line / 32) == 1) || r.far || r.kind == .farStore || r.kind == .atomicFar || !s.inL2 r.line)

/-! ### Loads. -/

/-- The words that loaded bytes give a register (06 R173, R178). -/
def convert (c : LoadConv) (size x : Nat) : List W32 :=
  match c with
  | .zext => wordsOf (max 1 (size / 4)) x
  | .sext => [BitVec.ofNat 32 (sextNat (8 * size) 32 x)]
  | .fmt code sc =>
    if code == 1 || code == 7 then
      match sc with
      | none => [BitVec.ofNat 32 x]
      | some e => [BitVec.ofNat 32 (fround f32 0 0 false false (fmul (elemVal code x) (e4m3Decode e.toNat)))]
    else if code == 5 then [BitVec.ofNat 32 (sextNat 8 32 x)]
    else if code == 6 then [BitVec.ofNat 32 (x % 256)]
    else
      match sc with
      | none => [BitVec.ofNat 32 (fround f32 0 0 false false (elemVal code x))]
      | some e =>
        let v := e4m3Decode e.toNat
        [BitVec.ofNat 32 (if fisNan v || fnegative v then fnan f32
          else fround f32 0 0 false false (fmul (elemVal code x) v))]

def loadRegs (l : LaneLoad) : Nat := match l.conv with | .zext => max 1 (l.size / 4) | _ => 1
/-- Write a load's destination and release its interlock; a thread that has ended takes nothing. -/
def deliver (s : State) (l : LaneLoad) (x : Nat) : State :=
  let ws := convert l.conv l.size x
  let rs := List.range (loadRegs l)
  if l.scalar then
    let slot := slotOf l.thread
    let s := s.modGang slot (fun g => { g with klock := g.klock.filter (fun r => !rs.any (fun i => l.dst + i == r)) })
    s.writeKs [l.thread] slot none l.dst ws
  else if (tfind s.lanes l.thread).isNone then s
  else
    let s := s.modLane l.thread (fun k => { k with lock := k.lock.filter (fun r => !rs.any (fun i => RegRef.v (l.dst + i) == r)) })
    s.writeVs l.thread none l.dst ws
/-- Interlock a load's destination (03 R81). -/
def lockDst (s : State) (l : LaneLoad) : State :=
  let rs := (List.range (loadRegs l)).map (fun i => l.dst + i)
  if l.scalar then s.modGang (slotOf l.thread) (fun g => { g with klock := g.klock ++ rs })
  else s.modLane l.thread (fun k => { k with lock := k.lock ++ rs.map RegRef.v })

/-- Free bytes that a read of MMIO or of a peer returns (12 R307, 21 R421): the spec gives them no contents here. DESIGN CHOICE, log 24. -/
def freeBytes (s : State) (n : Nat) : List Byte × State :=
  ((List.range n).map (fun i => Config.mmioByte (s.fresh + i)), { s with fresh := s.fresh + n })

/-- L1 serves a load: every byte is valid there; of an acquire at die scope or wider, every byte is dirty or the line is
leased (10 R277, R281, R292). -/
def l1Serves (s : State) (c key n : Nat) (acq : Bool) : Bool :=
  match s.l1Line c (key / 128) with
  | none => false
  | some k => (List.range n).all (fun i => match tfind k.cells (key % 128 + i) with
      | some b => b.2 || !acq || s.leasedLine c (key / 128)
      | none => false)
/-- Bytes of an access as a number: in a line's bytes, and in L1. -/
def loadValue (line : List Byte) (off size : Nat) : Nat := leNat ((List.range size).map (fun i => line.getD (off + i) 0))
def l1Value (s : State) (c key n : Nat) : Nat := leNat ((List.range n).map (fun i => (tfind (s.l1Bytes c key n) i).getD 0))
/-- The lines of an instruction's lanes, one request each (10 R303, 12 R323). -/
def lineUses (accs : List LaneAcc) (hit far : LaneAcc → Bool) : List LineUse :=
  (dedup (accs.map (fun a => a.key / 128))).filterMap (fun line =>
    let mine := accs.filter (fun a => a.key / 128 == line)
    mine.head?.map (fun a => ⟨a.va, some a.key, mine.all hit, mine.any far⟩))
/-- An access to a region in state M is far (10 R302). -/
def inM (s : State) (a : LaneAcc) : Bool := pteNear a.pte && s.regionState (a.key / 4096) == 1
/-- The headgate performs a marked access far: its region is in state C and its home slice does not hold the line (10 R302). -/
def markedFar (s : State) (mark : Bool) (a : LaneAcc) : Bool :=
  mark && pteNear a.pte && s.regionState (a.key / 4096) == 0 && !s.inL2 (a.key / 128)
/-- A free value for the next marked access. -/
def markDraw (s : State) (mark : Bool) : State := if mark then { s with fresh := s.fresh + 1 } else s

/-- The order-7 fault of a load (06 R176). -/
def loadFault (s : State) (c : Nat) (a : LaneAcc) (n : Nat) (acq : Bool) : Option Nat :=
  if cacheable a.key then s.dataFault c a.key n (!s.l1Serves c a.key n acq) else none
/-- Perform the loads of one instruction: from L1 where it can, the rest by one request for each line. `acq`: an acquire
at die scope or wider; `order`: any acquire, after which the threads wait for their values. -/
def performLoads (s : State) (c : Nat) (loads : List (LaneAcc × LaneLoad)) (acq order mark : Bool) : Done × State :=
  let cached := loads.filter (fun l => cacheable l.1.key)
  let busy := cached.any (fun l => s.lineBusy c (l.1.key / 128) || s.redPending c l.1.key l.2.size)
  let n := (dedup (loads.map (fun l => l.1.key / 128))).length
  if busy || Config.maxOutstanding < s.outstanding c + n then ({ hold := some .ready }, s)
  else
    let faultOf := fun (l : LaneAcc × LaneLoad) => s.loadFault c l.1 l.2.size acq
    let here := fun (l : LaneAcc × LaneLoad) => cacheable l.1.key && s.l1Serves c l.1.key l.2.size acq
    let s0 := s
    let bad := loads.filterMap (fun l => (faultOf l).map (fun x => (l, x)))
    let good := loads.filter (fun l => (faultOf l).isNone)
    let now := good.filter here
    let later := good.filter (fun l => !here l)
    let s := now.foldl (fun s l => s.deliver l.2 (s.l1Value c l.1.key l.2.size)) s
    let s := bad.foldl (fun s b => if s.l1Fault c b.1.1.key b.1.2.size then s.dropFailed c b.1.1.key b.1.2.size else s) s
    let s := later.foldl (fun s l => s.lockDst l.2) s
    let r := (dedup (later.map (fun l => l.1.key / 128))).foldl (fun (acc : List Nat × State) line =>
      let mine := later.filter (fun l => l.1.key / 128 == line)
      let near := mine.any (fun l => pteNear l.1.pte)
      let kind := if cacheable (line * 128) then ReqKind.load else .farLoad
      let far := mine.any (fun l => s0.markedFar mark l.1)
      let q := acc.2.request
        { core := c, line := line, kind := kind, loads := mine.map (·.2), ops := []
          va := (mine.head?.map (fun l => l.1.va)).getD 0, acquire := acq, release := none, near := near, far := far
          il := (mine.head?.map (fun l => pteIl l.1.pte)).getD 0 }
      (acc.1 ++ [q.1], q.2)) ([], s)
    let s := if acq && later.isEmpty && !good.isEmpty then r.2.dropClean c else r.2
    ({ traps := bad.map (fun b => (b.1.2.thread, .trap b.2 b.1.1.va)), waits := if order then r.1 else []
       uses := lineUses (good.map (·.1)) (fun a => good.all (fun l => l.1 != a || here l))
         (fun a => s0.inM a || (s0.markedFar mark a && good.any (fun l => l.1 == a && !here l))) }, s.markDraw mark)

/-! ### Releases (10 R282, R283). -/

/-- A thread's earlier reads have their values: until then none of its writes is visible to another agent (09 R260). -/
def readsQuiet (s : State) (t : Nat) : Bool :=
  !s.requests.any (fun r => r.2.loads.any (fun l => l.thread == t) ||
    ((r.2.kind == .atomic || r.2.kind == .atomicFar) && r.2.ops.any (fun l => l.thread == t)))
/-- Every earlier access of the thread is complete (10 R282, step 1). -/
def threadQuiet (s : State) (t : Nat) : Bool :=
  !s.requests.any (fun r => r.2.loads.any (fun l => l.thread == t) || r.2.ops.any (fun l => l.thread == t)) &&
    !s.unserved.any (fun m => match m.body with | .red _ _ _ _ _ gs => gs.contains (slotOf t) | _ => false) &&
    !s.peers.any (fun p => p.2.replay.any (fun a => a.slot == slotOf t && !a.accepted)) &&
    !(s.core (coreOf (slotOf t))).leases.any (fun l => l.holder == some t && l.ending)
/-- A lease holds probes back, until its write-through is acknowledged; one that waits for the acknowledgement of a release does
not (10 R283, R292). -/
def holds (s : State) (c : Nat) (l : Lease) : Bool := !l.revoked && !(l.record && s.pinnedLine c l.line)
/-- A lease holds probes of a line back. -/
def heldLine (s : State) (c line : Nat) : Bool := (s.core c).leases.any (fun l => l.line == line && s.holds c l)
/-- Lines that a probe writes back. DEDUCED, log 31. -/
def probeLines (s : State) (c : Nat) (p : Probe) : List Nat :=
  (s.core c).l1.filterMap (fun l =>
    let dirty := l.2.cells.any (fun q => q.2.2)
    let in' := match p.region, p.epoch with
      | some r, _ => l.1 / 32 == r
      | none, none => true
      | none, some e => l.2.epoch.any (fun x => x ≤ e)
    -- a release of the probed line itself waits for this drain: its line stays (10 R282, R284)
    if dirty && in' && !(p.region.isNone && l.1 == p.line && s.pinnedLine c l.1) then some l.1 else none)
/-- The core answers no drain probe (10 R282, R287). DEDUCED, log 42. -/
def probesDone (s : State) (c : Nat) : Bool := (s.core c).probes.all (fun p => p.region.isSome)
/-- A release of some threads may start; one at die scope or wider waits for the core's probes (09 R258, 10 R282). -/
def releaseReady (s : State) (c : Nat) (ts : List Nat) (wide : Bool) : Bool := ts.all s.threadQuiet && (!wide || s.probesDone c)
/-- The same, but for probes that wait for the leases of some lines: LSEND ends those (06 R195). DEDUCED, log 42. -/
def probesAwait (s : State) (c : Nat) (lines : List Nat) : Bool :=
  (s.core c).probes.all (fun p => p.region.isSome ||
    (!p.started && (lines.contains p.line || (s.probeLines c p).any lines.contains)))
/-- May these threads write: their reads are done, for a release all their accesses, and for one at die scope or wider the core's
probes are answered (09 R260, 10 R282). -/
def mayWrite (s : State) (c : Nat) (ts : List Nat) (rel wide : Bool) : Bool :=
  ts.all s.readsQuiet && (!rel || ts.all s.threadQuiet) && (!wide || s.probesDone c)
/-- Tag every dirty line that has no epoch (10 R282, step 2). -/
def tagAll (s : State) (c : Nat) : State :=
  s.modCore c (fun k => { k with l1 := k.l1.map (fun p =>
    if p.2.epoch.isNone && p.2.cells.any (fun q => q.2.2) then (p.1, { p.2 with epoch := some k.epoch }) else p) })
/-- Count the epochs of `n` releases (10 R282, step 5). -/
def countEpochs (s : State) (c n : Nat) : State := s.modCore c (fun k => { k with epoch := k.epoch + n })
/-- Send the record of a release to a line's home and count the epoch (10 R282, steps 4 and 5). -/
def sendRecord (s : State) (c line : Nat) : State :=
  let s := (s.makeRoom c line).send' { core := c, toHome := true, line := line, body := .register (s.core c).epoch }
  (s.modCore c (fun k => { k with pinned := k.pinned ++ [line] })).countEpochs c 1
/-- A release store into L1 (10 R282). -/
def releaseStore (s : State) (c key : Nat) (bs : List Byte) : State :=
  (((s.tagAll c).l1Store c key bs).tagAll c).sendRecord c (key / 128)

/-- Write every dirty byte of a core back but those of some lines; whether all of it is on its way: those of a leased line go when
its lease ends (10 R283, R292). -/
def flushAll (s : State) (c : Nat) (skip : Nat → Bool) : Bool × State :=
  let lines := (s.dirtyLines c).filter (fun l => !skip l)
  let r := s.writeBackFit c (lines.filter (fun l => !s.leasedLine c l))
  (r.1 && !lines.any (s.leasedLine c), r.2)
/-- The eager part of a release: every dirty byte goes home first (10 R283); `skip`: lines that the release itself writes through.
none: done. DEDUCED, log 30. -/
def eager (s : State) (c gid : Nat) (skip : Nat → Bool) : Option Status × State :=
  if (tfind s.groups gid).any (fun g => g.flushed) then (none, s)
  else if !(s.core c).pinned.isEmpty then (some .ready, s)
  else
    let r := s.flushAll c skip
    match r.2.writeBacks c with
    | [] => (if r.1 then none else some .ready, r.2)
    | ids => (some (.requests ids), if r.1 then r.2.modGroup gid (fun g => { g with flushed := true }) else r.2)
/-- Epochs for `n` releases: before they would wrap, every dirty line is written back and the tags and the epoch start
again (10 R282). none: there are. -/
def epochRoom (s : State) (c n : Nat) (skip : Nat → Bool) : Option Status × State :=
  if (s.core c).epoch + n < 2 ^ 32 then (none, s)
  else if !(s.core c).pinned.isEmpty then (some .ready, s)
  else
    let lines := (s.dirtyLines c).filter (fun l => !skip l)
    let s := (s.writeBackFit c (lines.filter (fun l => !s.leasedLine c l))).2
    match s.writeBacks c with
    | [] =>
      if lines.isEmpty then
        (none, s.modCore c (fun k => { k with
          epoch := 0, l1 := k.l1.map (fun p => if skip p.1 then p else (p.1, { p.2 with epoch := none })) }))
      else (some .ready, s)
    | ids => (some (.requests ids), s)

/-- What a release at die scope or wider does before its writes: the eager part when a write goes through to its target,
and epochs for `n` records. none: it may go on. -/
def startRelease (s : State) (c gid n : Nat) (rel through : Bool) (skip : Nat → Bool) : Option Status × State :=
  if !rel then (none, s)
  else match if through then s.eager c gid skip else (none, s) with
    | (some st, s) => (some st, s)
    | (none, s) => s.epochRoom c n skip

/-! ### Stores. -/

/-- The port that serves a peer; with no path left the accesses stay where they are (21 R423). -/
def servedBy (s : State) (peer : Nat) : Nat := (s.peer peer).path.getD (portOf peer)
/-- The data bytes of an access. -/
def partBytes (parts : List (Nat × List Byte)) : Nat := (parts.map (fun p => p.2.length)).sum
/-- Accesses to peers, each with its data bytes, fit the replay buffers of the peers' ports, 2 MiB each (21 R422). -/
def peerFits (s : State) (xs : List (Nat × Nat)) : Bool :=
  xs.all (fun x =>
    let port := s.servedBy x.1
    let used := ((s.peers.filter (fun p => s.servedBy p.1 == port)).map (fun p =>
      (p.2.replay.map (fun a => partBytes a.access.parts)).sum)).sum
    used + ((xs.filter (fun y => s.servedBy y.1 == port)).map (fun y => y.2)).sum ≤ Config.replayBytes)
/-- Flits of a port that its first hop has not accepted. -/
def unaccepted (s : State) (port : Nat) : Bool :=
  s.peers.any (fun p => s.servedBy p.1 == port && p.2.path.isSome && p.2.replay.any (fun a => !a.accepted))
/-- Hand an access to a peer's port: the next sequence number, kept until the destination acknowledges it. -/
def peerSend (s : State) (slot peer : Nat) (op : PeerOp) (parts : List (Nat × List Byte)) : State :=
  let p := s.peer peer
  let port := s.servedBy peer
  let s := if s.unaccepted port then s else { s with ports := tput s.ports port { s.port port with since := s.time } }
  { s with peers := tput s.peers peer { p with
      nextSeq := (p.nextSeq + 1) % 2 ^ 48
      replay := p.replay ++ [{
        access := { source := 0, seq := p.nextSeq, op := op, parts := parts }, endToEnd := false, slot := slot, accepted := false }] } }
def peerOf (key : Nat) : Nat := (key - hostBase) / 2 ^ 42 % 256
def peerPa (key : Nat) : Nat := (key - hostBase) % 2 ^ 42
/-- Bytes that several lanes write in a line, each with its last value (06 R174). -/
def mergeParts (parts : List (Nat × List Byte)) : List (Nat × List Byte) :=
  let cells : Tab Byte := parts.foldl (fun t p => (p.2.zip (List.range p.2.length)).foldl (fun (t : Tab Byte) b => tput t (p.1 + b.2) b.1) t) []
  cells.map (fun c => (c.1, [c.2]))

/-- How a store reaches its target (10 R276, R299, R302). -/
inductive Route where
  | l1 | far | peer | mmio | check | denied | busy
  deriving DecidableEq, Repr
/-- The route of a store to a line whose region is in state C: the headgate may perform a marked one far (10 R302). -/
def cRoute (s : State) (mark : Bool) (a : LaneAcc) : Route := if s.markedFar mark a then .far else .l1
/-- The state of a region as the core knows it for a store to a line: confirmed C, or answered by a write check. -/
def storeRoute (s : State) (c gid : Nat) (mark : Bool) (a : LaneAcc) (n : Nat) : Route :=
  match targetOf a.key with
  | .peer => .peer
  | .mmio | .hostMmio => .mmio
  | _ =>
    let line := a.key / 128
    -- the core's reduction of the bytes comes before it (09 R259)
    if s.lineBusy c line || s.redPending c a.key n then .busy
    else if s.leasedLine c line || !pteNear a.pte then .l1
    else
      let known := (s.l1Line c line).any (fun l => l.cConf && !l.sFilled)
      if known then s.cRoute mark a
      else match (tfind s.groups gid).bind (fun g => g.answers.find? (fun p => p.1 == line)) with
        | some (_, 1) => .far
        | some (_, 2) => .denied
        | some _ => s.cRoute mark a
        | none => .check
/-- The order-7 fault of a store: a byte of the core that was lost (10 R304). -/
def storeFault (s : State) (c : Nat) (a : LaneAcc) (n : Nat) : Option Nat :=
  if cacheable a.key && s.l1Fault c a.key n then some 0x19 else none

/-- What the stores of one instruction that reach L1 have come to: lanes left at the instruction because their set has no way
free, and the state (10 R276, R282). -/
def storeLane (c : Nat) (rel : Bool) (acc : List (Nat × Disp) × State) (r : LaneAcc × List Byte) :
    List (Nat × Disp) × State :=
  let s := acc.2
  if !(if rel then s.setRoom c (r.1.key / 128) else s.hasWay c (r.1.key / 128)) then (acc.1 ++ [(r.1.thread, .stay .ready)], s)
  else (acc.1, if rel then s.releaseStore c r.1.key r.2 else s.l1Store c r.1.key r.2)
/-- The stores of one instruction to peers: one access for each line, the lanes' bytes merged (10 R303, 21 R422). -/
def storePeers (s : State) (rel : Bool) (rs : List (LaneAcc × List Byte)) : State :=
  (dedup (rs.map (fun r => r.1.key / 128))).foldl (fun s line =>
    match rs.filter (fun r => r.1.key / 128 == line) with
    | [] => s
    | r :: rest => s.peerSend (slotOf r.1.thread) (peerOf r.1.key) (if rel then .release else .store)
        (mergeParts ((r :: rest).map (fun x => (peerPa x.1.key, x.2))))) s
/-- The stores of one instruction that are performed far, at a device or, a release, at the host: one request for each line,
after the dirty bytes of its line (09 R259, 10 R283, R303). -/
def storeThrough (s : State) (c : Nat) (rs : List (LaneAcc × List Byte)) : State :=
  (dedup (rs.map (fun r => r.1.key / 128))).foldl (fun s line =>
    let mine := rs.filter (fun r => r.1.key / 128 == line)
    ((s.writeBack c line).2.request {
      core := c, line := line, kind := .farStore, loads := []
      ops := mine.map (fun r => { thread := r.1.thread, dst := 0, key := r.1.key, size := r.2.length, op := 16
                                  operand := leNat r.2, expected := 0 })
      va := (mine.head?.map (fun r => r.1.va)).getD 0, acquire := false, release := none
      near := mine.any (fun r => pteNear r.1.pte), il := (mine.head?.map (fun r => pteIl r.1.pte)).getD 0 }).2) s
/-- The outstanding entries that the stores of one instruction need at most: a request for each line that is not stored in L1,
with its dirty bytes' write-back, and an eviction for each line that L1 has to allocate (10 R277). -/
def storeNeeds (s : State) (c : Nat) (rs : List (LaneAcc × Route)) : Nat :=
  let through := dedup ((rs.filter (fun r => r.2 == .far || r.2 == .mmio)).map (fun r => r.1.key / 128))
  let new := dedup ((rs.filter (fun r => r.2 == .l1 && (s.l1Line c (r.1.key / 128)).isNone)).map (fun r => r.1.key / 128))
  through.length + (through.filter (s.dirtyLines c).contains).length + (new.filter (fun l => Config.l1Ways ≤ (s.setOf c l).length)).length

/-- Perform the stores of one instruction, lowest lane first (06 R174). `rel`: a release at die scope or wider; `order`: any
release; `late`: the faults of a lane that come after the region's state (06 R176). A store hits L1 when its line is there.
DESIGN CHOICE, log 105. -/
def performStores (s : State) (cx : Ctx) (stores : List (LaneAcc × List Byte)) (rel order mark : Bool)
    (late : LaneAcc → Option Nat) : Done × State :=
  let c := cx.core
  let stores := sortBy (fun a => laneOf a.1.thread) stores
  let all := stores.map (fun a => (a, match s.storeRoute c cx.gid mark a.1 a.2.length with
    | .l1 => if rel && targetOf a.1.key == .host then Route.far else .l1
    | r => r))
  let checks := dedup ((all.filter (fun r => r.2 == .check)).map (fun r => r.1.1.key / 128))
  let faultOf := fun (r : (LaneAcc × List Byte) × Route) =>
    if r.2 == .denied then none else (late r.1.1).orElse (fun _ => s.storeFault c r.1.1 r.1.2.length)
  let bad := all.filterMap (fun r => (faultOf r).map (fun x => (r.1, x)))
  let routes := all.filter (fun r => (faultOf r).isNone)
  let sent := fun (x : Route) => (routes.filter (fun r => r.2 == x)).map (fun r => r.1)
  let needs := if checks.isEmpty then s.storeNeeds c (routes.map (fun r => (r.1.1, r.2))) else checks.length
  if all.any (fun r => r.2 == .busy) || Config.maxOutstanding < s.outstanding c + needs ||
      !s.peerFits ((sent .peer).map (fun r => (peerOf r.1.key, r.2.length))) then
    ({ hold := some .ready }, s)
  else if !checks.isEmpty then
    let r := checks.foldl (fun (acc : List Nat × State) line =>
      let q := acc.2.request { core := c, line := line, kind := .writeCheck, loads := [], ops := [], va := 0
                               acquire := false, release := none, near := true }
      (acc.1 ++ [q.1], q.2)) ([], s)
    ({ hold := some (.requests r.1) }, r.2)
  else if !s.mayWrite c (stores.map (fun a => a.1.thread)) order rel then ({ hold := some .ready }, s)
  else
    let through := routes.any (fun r => r.2 != .l1 && r.2 != .denied)
    match s.startRelease c cx.gid routes.length (rel && !routes.isEmpty) through (fun _ => false) with
    | (some st, s) => ({ hold := some st }, s)
    | (none, s1) =>
      let s := bad.foldl (fun s b => if (late b.1.1).isSome then s else s.dropFailed c b.1.1.key b.1.2.length) (s1.markDraw mark)
      let r := (sent .l1).foldl (storeLane c rel) ([], s)
      let stored := (routes.filter (fun x => x.2 != .denied && !r.1.any (fun d => d.1 == x.1.1.thread))).map (fun x => x.1.1)
      ({ traps := bad.map (fun b => (b.1.1.thread, .trap b.2 b.1.1.va)) ++
          (sent .denied).map (fun r => (r.1.thread, .trap 0x12 r.1.va)) ++ r.1
         uses := lineUses stored (fun a => (s1.l1Line c (a.key / 128)).isSome)
           (fun a => routes.any (fun x => x.1.1 == a && x.2 == .far && isDevMem a.key)) },
        (r.2.storePeers rel (sent .peer)).storeThrough c (routes.filterMap (fun x => if x.2 == .far || x.2 == .mmio then some x.1 else none)))

end State

end Sys2Proof.Machine
end

