-- ==== Sys2Proof/Machine/LoadStore.lean ====
section
/-!
DEFINITION. Class 0x7, loads and stores (06 R172-R182), and the scalar SLD and SST (04 R124).
-/

namespace Sys2Proof.Machine

open State

def asidOf (s : State) (cx : Ctx) : Nat := (s.asid (s.regionOf cx.slot)).toNat
/-- The Issuer: the lowest lane of Act (04 R108). -/
def issuer (cx : Ctx) : Nat := cx.act.headD 0
def isPure (f : FmtM) : Bool := f.kA == .scl || f.kB == .scl

/-- Check the lanes of a global access, perform it, and count its lines for the sampler. -/
def globalAccess (s : State) (cx : Ctx) (f : FmtM) (ts : List Nat) (acc : Acc) (align kind : Nat)
    (body : State → List LaneAcc → Done × State) : State × List (Nat × Disp) :=
  if ts.isEmpty then (s, [])
  else
    let r := s.checkLanes acc align ts (s.globalVa cx f)
    settleAccess cx (isPure f) (if acc.writes then 1 else 0)
      (fun us s => s.countUses cx.core (asidOf s cx) kind us) r.1 r.2 (fun s accs => if accs.isEmpty then ({}, s) else body s accs)

/-- A scalar access is one for the issue of G (04 R124): a fault is the same in every lane, and an access that waits keeps every
lane at the instruction. -/
def wholeGroup (cx : Ctx) (r : State × List (Nat × Disp)) : State × List (Nat × Disp) :=
  match r.2.find? (fun d => match d.2 with | .trap _ _ | .stay _ => true | _ => false) with
  | some d => (r.1, cx.ts.map (fun t => (t, d.2)))
  | none => r

/-- A load of every lane of `ts` at a fixed size. -/
def loadGlobal (s : State) (cx : Ctx) (f : FmtM) (ts : List Nat) (scalar : Bool) (conv : LoadConv) :
    State × List (Nat × Disp) :=
  let n := accessBytes f
  globalAccess s cx f ts .read n 0 (fun s accs =>
    s.performLoads cx.core (accs.map (fun a => (a,
      { thread := a.thread, dst := f.d.toNat, scalar := scalar, key := a.key, size := n, conv := conv })))
      (memAcq f && s.wideFor ts f.scope) (memAcq f) f.mark)

/-- A scratch access of `n` bytes in each lane: its checks, then the lanes that succeed. -/
def scratchLanes (s : State) (cx : Ctx) (f : FmtM) (ts : List Nat) (n : Nat) (index : Nat → Nat) (reads : Bool) :
    List (Nat × Nat) × List (Nat × Disp) :=
  ts.foldl (fun acc t =>
    match s.scratchCheck (slotOf t) (s.scratchAt cx f (index t) t) n with
    | .inr d => (acc.1, acc.2 ++ [(t, d)])
    | .inl a =>
      if reads && s.scratchFailed (slotOf t) a n then (acc.1, acc.2 ++ [(t, .trap 0x17 (BitVec.ofNat 64 a))])
      else (acc.1 ++ [(t, a)], acc.2)) ([], [])
/-- A write in scratch waits for the values of the thread's earlier reads, a release for all its accesses (09 R260, 10 R283). -/
def scratchOrder (s : State) (cx : Ctx) (f : FmtM) (ts : List Nat) (go : State → State × List (Nat × Disp)) :
    State × List (Nat × Disp) :=
  if !ts.all s.readsQuiet || (memRel f && !ts.all s.threadQuiet) then (s, cx.ts.map (fun t => (t, .stay .ready))) else go s

def loadScratch (s : State) (cx : Ctx) (f : FmtM) (ts : List Nat) (scalar : Bool) (conv : LoadConv) (index : Nat → Nat) :
    State × List (Nat × Disp) :=
  let n := accessBytes f
  let r := scratchLanes s cx f ts n index true
  (r.1.foldl (fun s' p => s'.deliver
    { thread := p.1, dst := f.d.toNat, scalar := scalar, key := 0, size := n, conv := conv }
    (s.scratchRead (slotOf p.1) p.2 n)) s, r.2)
def storeScratch (s : State) (cx : Ctx) (f : FmtM) (ts : List Nat) (data : Nat → Nat) (index : Nat → Nat) :
    State × List (Nat × Disp) :=
  let n := accessBytes f
  let r := scratchLanes s cx f ts n index false
  scratchOrder s cx f ts (fun s =>
    (r.1.foldl (fun s p => s.scratchWrite (slotOf p.1) p.2 (leBytes n (data p.1))) s, r.2))

/-- A window read of `n` words in each lane (03 R89, 06 R173, R180). -/
def loadWindow (s : State) (cx : Ctx) (f : FmtM) (n : Nat) : State × List (Nat × Disp) :=
  let base := cx.head.windows.getD ((f.off.extractLsb' 17 3).toNat) 0
  let idx := fun t => s.fieldValue cx f.kA f.a 1 t + (f.off.extractLsb' 0 17).toNat
  let old := s
  let r := cx.act.foldl (fun (acc : List (Nat × Disp) × List (Nat × W64) × List (Nat × List W32) × Bool × State) t =>
    let (traps, absent, got, wait, s) := acc
    let i := idx t
    if base == 0 || 2 ^ 17 ≤ i then (traps ++ [(t, .trap 0x02 (BitVec.ofNat 64 i))], absent, got, wait, s)
    else if i % n != 0 then (traps ++ [(t, .trap 0x15 (BitVec.ofNat 64 i))], absent, got, wait, s)
    else
      match constWords s (old.who t) base i n with
      | (ws, none, s) => (traps, absent, got ++ [(t, ws)], wait, s)
      | (_, some (.fault c ea), s) => (traps ++ [(t, .trap c ea)], absent, got, wait, s)
      | (_, some (.notPresent va), s) => (traps, absent ++ [(t, va)], got, wait, s)
      | (_, some _, s) => (traps, absent, got, true, s)) ([], [], [], false, s)
  let (traps, absent, got, wait, s) := r
  if wait then (s, cx.ts.map (fun t => (t, .stay .ready)))
  else
    let absent := if isPure f then (match absent with | [] => [] | p :: _ => cx.ts.map (fun t => (t, p.2))) else absent
    let p := (got.foldl (fun s g => s.writeVs g.1 none f.d.toNat g.2) s).parkLanes cx.core 0 absent
    (p.1, traps ++ p.2)

def ldConv (f : FmtM) : LoadConv := if f.op.getLsbD 0 then .sext else .zext
def execLd (h : Hdr) (f : FmtM) (s : State) : Host.Outcome State Fault Refusal :=
  runInstr (.ld h f) s (fun cx s =>
    if f.space == 0 then loadGlobal s cx f cx.act false (ldConv f)
    else if f.space == 1 then loadScratch s cx f cx.act false (ldConv f) (fun _ => 0)
    else loadWindow s cx f (widthRegs f.width))
def execLds (h : Hdr) (f : FmtM) (s : State) : Host.Outcome State Fault Refusal :=
  runInstr (.lds h f) s (fun cx s =>
    loadScratch s cx f cx.act false (ldConv f) (fun t => s.fieldValue cx f.kB f.b 1 t * accessBytes f))
def execLdc (h : Hdr) (f : FmtM) (s : State) : Host.Outcome State Fault Refusal :=
  runInstr (.ldc h f) s (fun cx s => loadWindow s cx f (widthRegs f.width))

/-- A store of every lane of `ts` at a fixed size. -/
def storeGlobal (s : State) (cx : Ctx) (f : FmtM) (ts : List Nat) (data : Nat → Nat) : State × List (Nat × Disp) :=
  let n := accessBytes f
  globalAccess s cx f ts .write n 1 (fun s accs =>
    s.performStores cx (accs.map (fun a => (a, leBytes n (data a.thread)))) (memRel f && s.wideFor ts f.scope) (memRel f) f.mark (fun _ => none))
def execSt (h : Hdr) (f : FmtM) (s : State) : Host.Outcome State Fault Refusal :=
  runInstr (.st h f) s (fun cx s =>
    let data := s.fieldValue cx f.kB f.b (widthRegs f.width)
    if f.space == 0 then storeGlobal s cx f cx.act data else storeScratch s cx f cx.act data (fun _ => 0))
def execSts (h : Hdr) (f : FmtM) (s : State) : Host.Outcome State Fault Refusal :=
  runInstr (.sts h f) s (fun cx s =>
    storeScratch s cx f cx.act (s.fieldValue cx f.kB f.b (widthRegs f.width))
      (fun t => s.fieldValue cx f.kB f.c 1 t * accessBytes f))

def execSld (h : Hdr) (f : FmtM) (s : State) : Host.Outcome State Fault Refusal :=
  runInstr (.sld h f) s (fun cx s =>
    if cx.act.isEmpty then (s, [])
    else if f.space == 0 then wholeGroup cx (loadGlobal s cx f [issuer cx] true .zext)
    else wholeGroup cx (loadScratch s cx f [issuer cx] true .zext (fun _ => 0)))
def execSst (h : Hdr) (f : FmtM) (s : State) : Host.Outcome State Fault Refusal :=
  runInstr (.sst h f) s (fun cx s =>
    let data := fun (_ : Nat) =>
      ofWords ((List.range (widthRegs f.width)).map (fun i => s.kreg cx.ts cx.slot (f.b.toNat + i)))
    if cx.act.isEmpty then (s, [])
    else if f.space == 0 then wholeGroup cx (storeGlobal s cx f [issuer cx] data)
    else wholeGroup cx (storeScratch s cx f [issuer cx] data (fun _ => 0)))

/-! ### Formatted accesses (06 R178). -/

/-- The address of the scale of an element of a binary8 page with block scales (02 R61, R62). none: the scale is 1. -/
def scaleVa (a : LaneAcc) : Option W64 :=
  let g := pteGeometry a.pte
  if !(isB8 (pteFormat a.pte) && (g == 1 || g == 2)) then none
  else
    let o := a.va.toNat % 2 ^ 16
    let x := if g == 1 then o / 32 else 4 * (o / 4096) + 2 * (o / 2048 % 2) + o / 32 % 2
    some (((a.va - BitVec.ofNat 64 o) ^^^ (1 <<< 55)) + BitVec.ofNat 64 x)
/-- The scales of the elements of an instruction as they are gathered: elements with their scales, lanes that fault, lanes
whose scale page is absent, what the sampler counts, whether the instruction waits; scale bytes whose L1 word failed. -/
structure Scales where
  ok : List (LaneAcc × Option (BitVec 8)) := []
  traps : List (Nat × Disp) := []
  absent : List (Nat × W64) := []
  uses : List LineUse := []
  wait : Bool := false
  failed : List Nat := []
/-- What a relaxed load that is served in one step comes to: it waits, it faults, its L1 word has failed, or its bytes. -/
inductive Got where
  | wait
  | fault (code : Nat)
  | lost
  | bytes (bs : List Byte)
/-- A relaxed load of some bytes of a line by a core (06 R173, R176): from L1, else from the home, whose grain of the bytes L1 then
holds, but for a region in state M, and for a grain with an error (10 R277, R302, R304). -/
def State.relaxedRead (s : State) (c key n : Nat) (pte : W64) : Got × State :=
  let line := key / 128
  let near := pteNear pte
  let state := if near then s.regionState (key / 4096) else 0
  if !cacheable key then let f := s.freeBytes n; (.bytes f.1, f.2)
  else if s.l1Fault c key n then (.lost, s)
  else if s.l1Serves c key n false then (.bytes (leBytes n (s.l1Value c key n)), s)
  else if s.lineBusy c line || s.redPending c key n || Config.maxOutstanding ≤ s.outstanding c then (.wait, s)
  else
    let h := s.homeReady line
    if !h.1 then (.wait, h.2)
    else match h.2.homeFault key n with
      | some f => (.fault f, h.2)
      | none =>
        let view := h.2.viewBytes c line
        let g := grainOf (key % 128) (key % 128 + n - 1)
        (.bytes ((view.drop (key % 128)).take n),
          if state == 1 || !h.2.hasWay c line || (h.2.homeFault (line * 128 + g.1) g.2).isSome then h.2
          else h.2.l1Fill c line g.1 ((view.drop g.1).take g.2) (near && state == 0) (state == 2))
/-- The line request of a relaxed load, for the sampler. -/
def State.relaxedUse (s : State) (c : Nat) (va : W64) (key n : Nat) (pte : W64) : LineUse :=
  ⟨va, some key, s.l1Serves c key n false, pteNear pte && s.regionState (key / 4096) == 1⟩
/-- The scale byte at an address, as a relaxed load of its page reads it (02 R62). -/
def scaleAt (cx : Ctx) (r : Scales × State) (a : LaneAcc) : Scales × State :=
  let acc := r.1
  let s := r.2
  let c := cx.core
  match scaleVa a with
  | none => ({ acc with ok := acc.ok ++ [(a, none)] }, s)
  | some va =>
    let trap := fun (f : Nat) (s : State) => ({ acc with traps := acc.traps ++ [(a.thread, Disp.trap f va)] }, s)
    if !canonicalVa va then trap 0x11 s
    else match translate s (s.who a.thread) va .read with
      | (.fault f, s) => trap f s
      | (.notPresent, s) => ({ acc with absent := acc.absent ++ [(a.thread, va)] }, s)
      | (.wait, s) => ({ acc with wait := true }, s)
      | (.ok key pte, s) =>
        if pteFormat pte != 4 then trap 0x0B s
        else match s.relaxedRead c key 1 pte with
          | (.wait, s) => ({ acc with wait := true }, s)
          | (.fault f, s) => trap f s
          | (.lost, s) => ({ acc with traps := acc.traps ++ [(a.thread, .trap 0x19 va)], failed := acc.failed ++ [key] }, s)
          | (.bytes bs, s') =>
            ({ acc with ok := acc.ok ++ [(a, some (bs.headD 0))], uses := acc.uses ++ [s.relaxedUse c va key 1 pte] }, s')

/-- The fault of an element that comes after its page's permissions and region: a raw format, then misalignment (06 R176, R178). -/
def formatFault (a : LaneAcc) : Option Nat :=
  if pteFormat a.pte == 0 then some 0x0B
  else if a.va.toNat % elemSize (pteFormat a.pte) != 0 then some 0x15 else none
/-- The lanes of a formatted load that pass these checks, and the others. -/
def formatChecks (accs : List LaneAcc) : List LaneAcc × List (Nat × Disp) :=
  (accs.filter (fun a => (formatFault a).isNone),
   accs.filterMap (fun a => (formatFault a).map (fun c => (a.thread, .trap c a.va))))
/-- The same in scratch, by the segment's tag: the range check comes first, then the tag, then alignment (01 R29, 06 R176). -/
def formatScratch (s : State) (cx : Ctx) (f : FmtM) (reads : Bool) : List (Nat × Nat × BitVec 6) × List (Nat × Disp) :=
  cx.act.foldl (fun acc t =>
    let a := s.scratchAt cx f 0 t
    let ea : W64 := BitVec.ofInt 64 a
    let trap := fun c => (acc.1, acc.2 ++ [(t, Disp.trap c ea)])
    if a < 0 || ((s.headerOf (slotOf t)).scratch : Int) ≤ a then trap 0x11
    else
      let tag := s.scratchTag (slotOf t) a.toNat
      if (s.headerOf (slotOf t)).scratch < a.toNat + max 1 (elemSize tag) then trap 0x11
      else if tag == 0 then trap 0x0B
      else if a.toNat % elemSize tag != 0 then trap 0x15
      else if reads && s.scratchFailed (slotOf t) a.toNat (elemSize tag) then trap 0x17
      else (acc.1 ++ [(t, a.toNat, tag)], acc.2)) ([], [])

/-- A formatted load of one lane. -/
def ldfLoad (f : FmtM) (t key : Nat) (code : BitVec 6) (sc : Option (BitVec 8)) : LaneLoad :=
  { thread := t, dst := f.d.toNat, scalar := false, key := key, size := elemSize code, conv := .fmt code sc }
def execLdf (h : Hdr) (f : FmtM) (s : State) : Host.Outcome State Fault Refusal :=
  runInstr (.ldf h f) s (fun cx s =>
    if f.space == 1 then
      let r := formatScratch s cx f true
      (r.1.foldl (fun s' p => s'.deliver (ldfLoad f p.1 0 p.2.2 none) (s.scratchRead (slotOf p.1) p.2.1 (elemSize p.2.2))) s, r.2)
    else
      globalAccess s cx f cx.act .read 1 0 (fun s accs =>
        let acq := memAcq f && s.wideFor cx.act f.scope
        let c := formatChecks accs
        -- the scale is read after the element's own checks
        let scaled := fun (a : LaneAcc) => f.op.getLsbD 0 && (s.loadFault cx.core a (elemSize (pteFormat a.pte)) acq).isNone
        let r := (c.1.filter scaled).foldl (scaleAt cx) ({}, s)
        let sc := r.1
        if sc.wait then ({ hold := some .ready }, r.2)
        else if isPure f && !sc.absent.isEmpty then ({ absent := sc.absent }, r.2)
        else
          let els := (c.1.filter (fun a => !scaled a)).map (fun a => (a, none)) ++ sc.ok
          let p := r.2.performLoads cx.core
            ((sortBy (fun e => laneOf e.1.thread) els).map (fun e => (e.1, ldfLoad f e.1.thread e.1.key (pteFormat e.1.pte) e.2)))
            acq (memAcq f) f.mark
          if p.1.hold.isSome then p
          else ({ p.1 with traps := c.2 ++ sc.traps ++ p.1.traps, absent := sc.absent, uses := p.1.uses ++ sc.uses },
            sc.failed.foldl (fun s k => s.dropFailed cx.core k 1) p.2)))

/-- The bytes that STF stores for a register value (06 R178). -/
def stfBytes (code : BitVec 6) (mode : Nat) (sat : Bool) (x : Nat) : List Byte :=
  let n := elemSize code
  let v :=
    if code == 1 || code == 7 then x
    else if code == 5 then wrap 8 (if sat then clampInt (-128) 127 (signed 32 x) else signed 32 x)
    else if code == 6 then wrap 8 (if sat then clampInt 0 255 (x : Int) else x)
    else elemRound code mode 0 sat (fdecode f32 x)
  leBytes n v
def execStf (h : Hdr) (f : FmtM) (s : State) : Host.Outcome State Fault Refusal :=
  runInstr (.stf h f) s (fun cx s =>
    let data := fun (t : Nat) (code : BitVec 6) =>
      stfBytes code (f.op.toNat % 8) (f.op.getLsbD 3) (s.fieldValue cx f.kB f.b 1 t)
    if f.space == 1 then
      let r := formatScratch s cx f false
      scratchOrder s cx f cx.act (fun s => (r.1.foldl (fun s p => s.scratchWrite (slotOf p.1) p.2.1 (data p.1 p.2.2)) s, r.2))
    else
      globalAccess s cx f cx.act .write 1 1 (fun s accs =>
        s.performStores cx (accs.map (fun a => (a, data a.thread (pteFormat a.pte))))
          (memRel f && s.wideFor cx.act f.scope) (memRel f) f.mark formatFault))

/-! ### Prefetch and cache control (06 R181, R182). -/

/-- Bring a line into L1 where nothing stands in the way; never a fault. -/
def prefetch (s : State) (cx : Ctx) (t : Nat) (va : W64) : State :=
  if !canonicalVa va then s
  else match translate s (s.who t) va .read with
    | (.ok key pte, s) =>
      if !cacheable key || (s.l1Line cx.core (key / 128)).isSome || s.lineBusy cx.core (key / 128) ||
          (s.homeFault (key / 128 * 128) 128).isSome || Config.maxOutstanding ≤ s.outstanding cx.core then s
      else (s.request { core := cx.core, line := key / 128, kind := .load, loads := [], ops := [], va := va
                        acquire := false, release := none, near := pteNear pte, il := pteIl pte, pref := some (slotOf t) }).2
    | (_, s) => s
def execPref (h : Hdr) (f : FmtM) (s : State) : Host.Outcome State Fault Refusal :=
  runInstr (.pref h f) s (fun cx s =>
    (if f.op.getLsbD 0 then s else cx.act.foldl (fun s' t => prefetch s' cx t (s.globalVa cx f t)) s, []))

/-- Write lines back, and drop those that CCTL.wbinv names; the threads wait for the acknowledgements. -/
def cacheControl (s : State) (cx : Ctx) (lines : List Nat) (drop : Bool) : Done × State :=
  let c := cx.core
  let mine := lines.filter (fun l => !s.leasedLine c l)
  if mine.any (s.pinnedLine c) then ({ hold := some .ready }, s)
  else
    let r := s.writeBackFit c mine
    if !r.1 then ({ hold := some .ready }, r.2)
    else
      let waits := r.2.net.filterMap (fun m => match m.2.body with
        | .writeBack .. => if m.2.core == c && mine.contains m.2.line then some m.1 else none
        | _ => none)
      ({ waits := waits }, if drop then mine.foldl (fun s l => (s.dropL1 c l).markStale c (fun x => x == l)) r.2 else r.2)
def execCctl (h : Hdr) (f : FmtM) (s : State) : Host.Outcome State Fault Refusal :=
  runInstr (.cctl h f) s (fun cx s =>
    if cx.act.isEmpty then (s, [])
    else match f.op.toNat with
      | 0 => (s.modCore cx.core (fun k => { k with ccache := [] }), [])
      | 1 => (s.modCore cx.core (fun k => { k with icache := [] }), [])
      | 4 => settleAccess cx false 0 (fun _ s => s) {} s (fun s _ => cacheControl s cx (s.dirtyLines cx.core) false)
      | n =>
        let r := s.checkLanes .read 1 cx.act (s.globalVa cx f)
        settleAccess cx (isPure f) 0 (fun _ s => s) { r.1 with absent := [] } r.2 (fun s accs =>
          cacheControl s cx (dedup ((accs.filter (fun a => cacheable a.key)).map (fun a => a.key / 128))) (n == 3)))

end Sys2Proof.Machine
end

