-- ==== Sys2Proof/Machine/Atomic.lean ====
section
/-!
DEFINITION. Class 0x8 but MRED: atomics (06 R183-R189, 10 R295, R297) and leases (06 R190-R195, 10 R291-R296).
-/

namespace Sys2Proof.Machine

open State

/-- The effect of an operation code on a memory value (06 R183). -/
def atomicOp (op size m b : Nat) : Nat :=
  let w := 8 * size
  let f := fun (g : FVal → FVal → FVal) => fround f32 0 0 false false (g (fdecode f32 m) (fdecode f32 b))
  match op with
  | 0 => (m + b) % 2 ^ w
  | 1 => if signed w m ≤ signed w b then m else b
  | 2 => if signed w m ≤ signed w b then b else m
  | 3 => min m b
  | 4 => max m b
  | 5 => m &&& b
  | 6 => m ||| b
  | 7 => m ^^^ b
  | 9 => f (fadd 0)
  | 10 => f fminNum
  | 11 => f fmaxNum
  | _ => b
/-- The new value of a lane's read-modify-write; none: a failed compare (06 R188). -/
def rmw (o : LaneOp) (m : Nat) : Option Nat :=
  if o.op == 17 || o.op == 18 then (if m == o.expected then some o.operand else none) else some (atomicOp o.op o.size m o.operand)

/-- A lane's read part acquires: all but a failed compare without `.facq` (06 R188, 09 R254). -/
def acquires (o : LaneOp) (m : Nat) : Bool := o.op != 17 || (rmw o m).isSome

/-- Where an atomic executes (06 R186, 10 R302). -/
inductive Place where
  | l1 | far | host | peer | emulated | denied
  deriving DecidableEq, Repr
/-- `red`: RED; `op`: its code, 17 and 18 CAS. -/
def placeOf (s : State) (c : Nat) (a : LaneAcc) (red : Bool) (op : Nat) (mark : Bool) : Place :=
  match targetOf a.key with
  | .mmio | .hostMmio | .reserved => .emulated
  | .peer => if red then .peer else .emulated
  | .host => if op == 0 || (!red && (op == 8 || op == 17 || op == 18)) then .host else .emulated
  | _ =>
    if !pteNear a.pte then .l1
    else match s.regionState (a.key / 4096) with
      | 1 => .far
      | 2 => .denied
      | _ => if mark && !s.inL2 (a.key / 128) && (red || (s.l1Line c (a.key / 128)).isNone) then .far else .l1
def placeTrap (a : LaneAcc) : Place → Option (Nat × Disp)
  | .emulated => some (a.thread, .trap 0x14 a.va)
  | .denied => some (a.thread, .trap 0x12 a.va)
  | _ => none

/-- Interlock the destination of an operation that returns the old value. -/
def lockOld (s : State) (o : LaneOp) : State :=
  s.modLane o.thread (fun k => { k with lock := k.lock ++ (List.range (o.size / 4)).map (fun i => RegRef.v (o.dst + i)) })
def deliverOld (s : State) (o : LaneOp) (m : Nat) : State :=
  s.deliver { thread := o.thread, dst := o.dst, scalar := false, key := 0, size := o.size, conv := .zext } m

/-- Explicit leases of the core on a line hold its ATOM and CAS up (06 R191). -/
def explicitLease (s : State) (c line : Nat) : Bool := (s.core c).leases.any (fun l => l.line == line && l.holder.isSome && !l.revoked)
/-- Entries of the core's atomic unit in use (10 R295). -/
def unitBusy (s : State) (c : Nat) : Nat :=
  ((s.core c).leases.filter (fun l => l.holder.isNone)).length +
    (s.requests.filter (fun r => r.2.core == c && r.2.kind == .atomic)).length
/-- No lease stands on a line, and its home slice has an entry free (10 R291). -/
def lineFree (s : State) (line : Nat) : Bool :=
  (tfind s.leaseTab line).isNone && (s.leaseTab.filter (fun e => homeOf e.1 == homeOf line)).length < Config.leaseTable
/-- A new request for a line waits in its slice's queue (10 R291). -/
def mustQueue (s : State) (line : Nat) : Bool := !lineFree s line || s.leaseQueue.any (fun q => q.line == line)
/-- Requests waiting in the queue of a line's slice: all but the first for a line that is free (10 R291). -/
def queuedAt (s : State) (line : Nat) : Nat :=
  let mine := (s.leaseQueue.filter (fun r => homeOf r.line == homeOf line)).map (fun r => r.line)
  mine.length - ((dedup mine).filter (lineFree s)).length

/-- A request goes to the queue of its line's slice (10 R291): the implicit lease of an ATOM or CAS in L1, and a far one,
which no lease may hold on its line (06 R191). -/
def enqueueAtomic (s : State) (r : Request) : State :=
  { s with
    nextId := s.nextId + 1, requests := tput s.requests s.nextId r
    leaseQueue := s.leaseQueue ++ [{ core := r.core, line := r.line, holder := none, req := s.nextId, pred := 7, stall := 0
                                     leasemax := (s.core r.core).leasemax }] }
/-- Send the requests of one ATOM or CAS, one for each line (06 R185, 10 R295, R302). DEDUCED, log 28. DEDUCED, log 29. -/
def sendAtomics (s : State) (c : Nat) (ops : List (LaneAcc × LaneOp × Place)) (acq rel : Bool) : List Nat × State :=
  (dedup (ops.map (fun o => o.1.key / 128))).foldl (fun (acc : List Nat × State) line =>
    let mine := ops.filter (fun o => o.1.key / 128 == line)
    let s := acc.2
    let near := mine.any (fun o => o.2.2 == .l1)
    -- the record travels with the operation; each lane's release counts an epoch (10 R283)
    let e := (s.core c).epoch + mine.length - 1
    let s := if rel && near then (s.tagAll c).countEpochs c mine.length else s
    let r : Request := { core := c, line := line, kind := if near then .atomic else .atomicFar, loads := []
                         ops := mine.map (fun o => o.2.1), va := (mine.head?.map (fun o => o.1.va)).getD 0
                         acquire := acq, release := if rel && near then some e else none
                         near := mine.any (fun o => pteNear o.1.pte), il := (mine.head?.map (fun o => pteIl o.1.pte)).getD 0 }
    if near then (acc.1 ++ [s.nextId], enqueueAtomic s r)
    else
      let s := (s.writeBack c line).2
      if isDevMem (line * 128) then (acc.1 ++ [s.nextId], enqueueAtomic s r)
      else let q := s.request r; (acc.1 ++ [q.1], q.2)) ([], s)
/-- The queues of the slices take one request more for each of these lines that has to wait (10 R291). -/
def queueRoom (s : State) (lines : List Nat) : Bool :=
  let waits := lines.filter (mustQueue s)
  waits.all (fun l => queuedAt s l + (waits.filter (fun x => homeOf x == homeOf l)).length ≤ Config.leaseQueue)
/-- The outstanding entries of requests for some lines, of which those of `through` write their dirty bytes back first (10 R277). -/
def atomicNeeds (s : State) (c : Nat) (lines : List Nat) (through : Nat → Bool) : Nat :=
  lines.length + (lines.filter (fun l => through l && (s.dirtyLines c).contains l)).length

/-- ATOM and CAS: `mk t` is the operation of a lane, its key still to be filled in. -/
def globalAtomic (s : State) (cx : Ctx) (f : FmtM) (op : Nat) (mk : Nat → LaneOp) : State × List (Nat × Disp) :=
  let n := accessBytes f
  globalAccess s cx f cx.act .rw n 2 (fun s accs =>
    let c := cx.core
    let all := accs.map (fun a => (a, ({ mk a.thread with key := a.key } : LaneOp), placeOf s c a false op f.mark))
    let traps := all.filterMap (fun o => placeTrap o.1 o.2.2)
    let ops := all.filter (fun o => (placeTrap o.1 o.2.2).isNone)
    let faultOf := fun (o : LaneAcc × LaneOp × Place) => s.dataFault c o.1.key n (!s.l1Serves c o.1.key n true)
    let bad := ops.filterMap (fun o => (faultOf o).map (fun x => (o, x)))
    let ops := ops.filter (fun o => (faultOf o).isNone)
    let lines := dedup (ops.map (fun o => o.1.key / 128))
    let rel := memRel f && s.wideFor cx.act f.scope && !ops.isEmpty
    if lines.any (fun l => s.lineBusy c l || explicitLease s c l || s.pinnedLine c l) || !queueRoom s lines ||
        ops.any (fun o => s.redPending c o.1.key n) || Config.atomicUnit < unitBusy s c + lines.length ||
        Config.maxOutstanding < s.outstanding c + atomicNeeds s c lines (fun l => ops.any (fun o => o.1.key / 128 == l && o.2.2 != .l1)) ||
        !s.mayWrite c (ops.map (fun o => o.1.thread)) (memRel f) rel then
      ({ hold := some .ready }, s)
    else
      match s.startRelease c cx.gid ops.length rel (ops.any (fun o => o.2.2 != .l1)) (fun _ => false) with
      | (some st, s) => ({ hold := some st }, s)
      | (none, s1) =>
        let s := bad.foldl (fun s b => if s1.l1Fault c b.1.1.key n then s.dropFailed c b.1.1.key n else s) (s1.markDraw f.mark)
        let s := ops.foldl (fun s o => lockOld s o.2.1) s
        let r := sendAtomics s c ops (memAcq f && s.wideFor cx.act f.scope) rel
        ({ traps := traps ++ bad.map (fun b => (b.1.1.thread, Disp.trap b.2 b.1.1.va)), waits := if memAcq f then r.1 else []
           uses := lineUses (ops.map (fun o => o.1)) (fun a => (s1.l1Line c (a.key / 128)).isSome)
             (fun a => ops.any (fun o => o.1 == a && o.2.2 == .far)) }, r.2))

def atomOf (s : State) (cx : Ctx) (f : FmtM) (t : Nat) : LaneOp :=
  { thread := t, dst := f.d.toNat, key := 0, size := accessBytes f, op := f.op.toNat
    operand := s.fieldValue cx f.kB f.b (widthRegs f.width) t, expected := 0 }
def casOf (s : State) (cx : Ctx) (f : FmtM) (t : Nat) : LaneOp :=
  { atomOf s cx f t with op := if f.op.getLsbD 0 then 18 else 17
                         expected := s.fieldValue cx f.kB f.c (widthRegs f.width) t }

def execAtom (h : Hdr) (f : FmtM) (s : State) : Host.Outcome State Fault Refusal :=
  runInstr (.atom h f) s (fun cx s => globalAtomic s cx f f.op.toNat (atomOf s cx f))
def execCas (h : Hdr) (f : FmtM) (s : State) : Host.Outcome State Fault Refusal :=
  runInstr (.cas h f) s (fun cx s => globalAtomic s cx f 17 (casOf s cx f))

/-! ### RED (06 R185, 10 R297). -/

/-- Operations that routers may merge. -/
def mergeable (op : Nat) : Bool := op ≤ 7 || op == 10 || op == 11
/-- Send the reductions of one line, one message: the core's covered dirty bytes go home first, and its copy of the bytes is
dropped, what an STL wrote under a lease among them (10 R297, R303). `rel`: with a record; `held`: routers may hold it. DEDUCED,
log 95. -/
def sendRed (s : State) (c line : Nat) (ops : List (LaneAcc × LaneOp)) (rel held : Bool) : State :=
  let covered := fun (q : Nat × Byte) => ops.any (fun o => o.1.key % 128 ≤ q.1 && q.1 < o.1.key % 128 + o.2.size)
  let cells := match s.l1Line c line with
    | some l => s.wbCells c line ((dirtyCells l).filter covered)
    | none => ([], [])
  let s := if cells.1.isEmpty && cells.2.isEmpty then s
           else s.send' { core := c, toHome := true, line := line, body := .writeBack cells.1 cells.2 }
  let s := ops.foldl (fun s o => s.dropBytes c o.1.key o.2.size) s
  let e := (s.core c).epoch + ops.length - 1
  let s := if rel then (s.tagAll c).countEpochs c ops.length else s
  match ops with
  | [] => s
  | o :: _ =>
    s.send' { core := c, toHome := true, line := line
              body := .red (ops.map (fun o => (o.1.key, o.2.operand))) o.2.size o.2.op (if rel then some e else none) held
                    (dedup (ops.map (fun o => slotOf o.1.thread))) }
/-- The reductions of one instruction at peers: one access for each line, an operand for each lane (10 R303, 21 R422). -/
def redPeers (s : State) (op : Nat) (rel : Bool) (ops : List (LaneAcc × LaneOp)) : State :=
  (dedup (ops.map (fun o => o.1.key / 128))).foldl (fun s line =>
    match ops.filter (fun o => o.1.key / 128 == line) with
    | [] => s
    | o :: rest => s.peerSend (slotOf o.1.thread) (peerOf o.1.key) (.red (BitVec.ofNat 4 op) rel)
        ((o :: rest).map (fun x => (peerPa x.1.key, leBytes x.2.size x.2.operand)))) s
def execRed (h : Hdr) (f : FmtM) (s : State) : Host.Outcome State Fault Refusal :=
  runInstr (.red h f) s (fun cx s =>
    let n := accessBytes f
    globalAccess s cx f cx.act .rw n 4 (fun s accs =>
      let c := cx.core
      let all := accs.map (fun a => (a, atomOf s cx f a.thread, placeOf s c a true f.op.toNat f.mark))
      let traps := all.filterMap (fun o => placeTrap o.1 o.2.2)
      let ops := all.filter (fun o => (placeTrap o.1 o.2.2).isNone)
      let faultOf := fun (o : LaneAcc × LaneOp × Place) => if o.2.2 == .peer then none else s.dataFault c o.1.key n true
      let bad := ops.filterMap (fun o => (faultOf o).map (fun x => (o, x)))
      let ops := ops.filter (fun o => (faultOf o).isNone)
      let lines := dedup ((ops.filter (fun o => o.2.2 != .peer)).map (fun o => o.1.key / 128))
      let rel := memRel f && s.wideFor cx.act f.scope && !ops.isEmpty
      let peers := ops.filter (fun o => o.2.2 == .peer)
      if lines.any (fun l => s.lineBusy c l || s.pinnedLine c l) || !s.peerFits (peers.map (fun o => (peerOf o.1.key, n))) ||
          Config.maxOutstanding < s.outstanding c + atomicNeeds s c lines (fun _ => true) ||
          !s.mayWrite c (ops.map (fun o => o.1.thread)) (memRel f) rel then
        ({ hold := some .ready }, s)
      else
        match s.startRelease c cx.gid ops.length rel (ops.any (fun o => o.2.2 != .l1)) (fun _ => false) with
        | (some st, s) => ({ hold := some st }, s)
        | (none, s1) =>
          let s := bad.foldl (fun s b => if s1.l1Fault c b.1.1.key n then s.dropFailed c b.1.1.key n else s) (s1.markDraw f.mark)
          let s := redPeers s f.op.toNat rel (peers.map (fun o => (o.1, o.2.1)))
          let s := lines.foldl (fun s line =>
            let mine := ops.filter (fun o => o.2.2 != .peer && o.1.key / 128 == line)
            sendRed s c line (mine.map (fun o => (o.1, o.2.1))) (rel && mine.all (fun o => o.2.2 == .l1))
              (!memRel f && mergeable f.op.toNat)) s
          ({ traps := traps ++ bad.map (fun b => (b.1.1.thread, Disp.trap b.2 b.1.1.va))
             uses := lineUses (ops.map (fun o => o.1)) (fun _ => false) (fun a => ops.any (fun o => o.1 == a && o.2.2 == .far)) }, s)))

/-! ### Scratch atomics (06 R189). -/

def scratchAtomic (s : State) (cx : Ctx) (f : FmtM) (mk : Nat → LaneOp) : State × List (Nat × Disp) :=
  let n := accessBytes f
  let r := scratchLanes s cx f cx.act n (fun _ => 0) true
  scratchOrder s cx f cx.act (fun s =>
    (r.1.foldl (fun s p =>
      let o := mk p.1
      let m := s.scratchRead (slotOf p.1) p.2 n
      let s := match rmw o m with
        | some x => s.scratchWrite (slotOf p.1) p.2 (leBytes n x)
        | none => s
      deliverOld s o m) s, r.2))
def execAtoms (h : Hdr) (f : FmtM) (s : State) : Host.Outcome State Fault Refusal :=
  runInstr (.atoms h f) s (fun cx s => scratchAtomic s cx f (atomOf s cx f))
def execCass (h : Hdr) (f : FmtM) (s : State) : Host.Outcome State Fault Refusal :=
  runInstr (.cass h f) s (fun cx s => scratchAtomic s cx f (casOf s cx f))

/-! ### Leases. -/

/-- The predicate a lease instruction writes: op[25:23]. -/
def leasePred (f : FmtM) : Nat := f.op.toNat % 8
def leaseOf (s : State) (c line t : Nat) : Option Lease :=
  (s.core c).leases.find? (fun l => l.line == line && l.holder == some t && !l.ending && !l.record)
/-- A lease that a thread holds: not revoked, not ended, its counter below LEASEMAX (06 R191, 10 R292). -/
def liveLease (s : State) (c : Nat) (l : Lease) : Bool :=
  l.holder.isSome && !l.revoked && !l.ending && !l.record && s.clockOf c - l.granted < l.leasemax
/-- Leases stand in device memory only (06 R190). DEDUCED, log 27. -/
def leaseTrap (s : State) (lse : Bool) (a : LaneAcc) : Option (Nat × Disp) :=
  if !isDevMem a.key then some (a.thread, .trap 0x14 a.va)
  else if lse && pteNear a.pte && s.regionState (a.key / 4096) == 2 then some (a.thread, .trap 0x12 a.va)
  else none
/-- The first STL or LSEND after a revocation: fault 0x13, and the core forgets the lease (10 R293). -/
def forgetLease (s : State) (c line t : Nat) : State :=
  s.modCore c (fun k => { k with leases := k.leases.filter (fun l => !(l.line == line && l.holder == some t)) })
def lineVa (va : W64) : W64 := va &&& ~~~127

/-- What LSE does for a lane (06 R192). -/
inductive LseCase where
  | held | refused | ask
  deriving DecidableEq, Repr
def lseCases (s : State) (c : Nat) (accs : List LaneAcc) : List (LaneAcc × LseCase) :=
  let live := (s.core c).leases.filter (liveLease s c)
  (accs.foldl (fun (acc : List (LaneAcc × LseCase) × List Nat) a =>
    let line := a.key / 128
    let mine := live.filter (fun l => l.holder == some a.thread)
    if mine.any (fun l => l.line == line) then (acc.1 ++ [(a, .held)], acc.2)
    else if 2 ≤ mine.length || Config.coreLeases ≤ live.length || (s.core c).outside ||
        acc.2.contains line then (acc.1 ++ [(a, .refused)], acc.2)
    else (acc.1 ++ [(a, .ask)], acc.2 ++ [line])) ([], [])).1
def lseLoad (f : FmtM) (a : LaneAcc) : LaneLoad :=
  { thread := a.thread, dst := f.d.toNat, scalar := false, key := a.key, size := accessBytes f, conv := .zext }
/-- The first refusal of an episode outside the guard band is logged (10 R294). -/
def logRefusal (s : State) (c : Nat) (refused : List LaneAcc) : State :=
  match refused with
  | a :: _ =>
    if (s.core c).outside && !(s.core c).refusalLogged then
      logRecord (s.modCore c (fun k => { k with refusalLogged := true })) 11 0 2 c (a.key / 128 * 128)
    else s
  | [] => s
/-- The granted line in the lease buffer: bytes that are not dirty come from the home. The core's counter starts with its
LEASEMAX at the grant, the home's entry keeps the one of the request (06 R192, 08 R245, 10 R291, R292). -/
def takeLine (s : State) (r : Request) (q : LeaseReq) : State :=
  let far := r.near && s.regionState (r.line / 32) == 1
  let l : Lease := { line := r.line, holder := q.holder, granted := s.clockOf r.core, leasemax := (s.core r.core).leasemax
                     stl := [], revoked := false, ending := false, farLine := far, notify := none, issue := q.issue }
  let bytes := s.viewBytes r.core r.line
  let s := s.markStale r.core (fun x => x == r.line)
  let s := s.modCore r.core (fun k => { k with leases := k.leases ++ [l] })
  let s := s.l1Fill r.core r.line 0 bytes (r.near && s.regionState (r.line / 32) == 0) false
  { s with
    leaseTab := tput s.leaseTab r.line { core := r.core, holder := q.holder, tick := s.time, leasemax := q.leasemax }
    leaseQueue := s.leaseQueue.filter (fun x => x.req != q.req)
    requests := tdel s.requests q.req }
/-- A request may be served at its home: the core's older messages to the slice have arrived there, the slice's older messages
have reached the core (10 R280), no reduction of the core to what it loads and no write-back of the line is on its way (09 R265,
10 R298), and the line has a place: the lease buffer, or a way in L1 for an implicit lease (10 R276). -/
def grantReady (s : State) (r : Request) (id : Nat) : Bool :=
  !s.sentBefore r.core r.line id && !s.sentBack r.core r.line && !r.loads.any (fun l => s.redPending r.core l.key l.size) &&
    !s.net.any (fun m => m.2.core == r.core && m.2.toHome && m.2.line == r.line && (match m.2.body with
      | .writeBack .. | .leaseWrite .. => true
      | _ => false)) && (r.kind != .atomic || s.hasWay r.core r.line)
/-- Lines that the core's lease buffer of 64 holds or has been asked to hold (10 R292). -/
def bufferUse (s : State) (c : Nat) : Nat :=
  ((s.core c).leases.filter (fun l => l.holder.isSome && !l.revoked)).length +
    (s.leaseQueue.filter (fun q => q.core == c && q.holder.isSome)).length
/-- The order-7 fault that a granted load meets (06 R176). -/
def grantFault (s : State) (r : Request) : Option Nat :=
  r.loads.findSome? (fun l => s.dataFault r.core l.key l.size (!s.l1Serves r.core l.key l.size true))
/-- An LSE's lease is granted to a thread: the line, the loaded value, the grant predicate, the acquire (06 R192, 10 R292). -/
def grantLine (s : State) (r : Request) (q : LeaseReq) (t : Nat) : State :=
  let s := takeLine s r q
  let s := r.loads.foldl (fun s l => s.deliver l (s.l1Value r.core l.key l.size)) s
  let s := s.writeP t q.pred true none
  if r.acquire then s.dropClean r.core else s
/-- Another group of the partition holds leases, or asks for one: one group of a partition holds leases at a time (10
R292). A request already at its home counts. -/
def leaseTaken (s : State) (cx : Ctx) : Bool :=
  let members := ((tfind s.groups cx.gid).map (fun g => g.members)).getD []
  let other := fun (o : Option Nat) => match o with
    | some u => coreOf (slotOf u) == cx.core && partOf (slotOf u) == partOf cx.slot && !members.contains u
    | none => false
  (s.core cx.core).leases.any (fun l => other l.holder && liveLease s cx.core l) || s.leaseQueue.any (fun q => other q.holder)
/-- An LSE of a lane asks for its line: a free line is granted without a wait, so its lane goes on with the others; else
the lane waits in the line's queue (06 R192). DEDUCED, log 33. DEDUCED, log 34. -/
def lseAsk (h : Hdr) (f : FmtM) (cx : Ctx) (acc : List (Nat × Disp) × State) (p : LaneAcc × LseCase) :
    List (Nat × Disp) × State :=
  let c := cx.core
  let line := p.1.key / 128
  let s := acc.2
  let rq : Request := { core := c, line := line, kind := .leaseLoad, loads := [lseLoad f p.1], ops := []
                        va := p.1.va, acquire := memAcq f && s.wideFor [p.1.thread] f.scope, release := none
                        near := pteNear p.1.pte, il := pteIl p.1.pte }
  let lq : LeaseReq := { core := c, line := line, holder := some p.1.thread, req := s.nextId
                         pred := leasePred f, stall := h.stall.toNat, leasemax := (s.core c).leasemax, issue := s.issued }
  match grantFault s rq with
  | some x =>
    (acc.1 ++ [(p.1.thread, .trap x p.1.va)],
     if s.l1Fault c p.1.key (accessBytes f) then s.dropFailed c p.1.key (accessBytes f) else s)
  | none =>
    let d := if mustQueue s line || !grantReady s rq s.nextId || Config.coreLeases ≤ bufferUse s c then (false, s) else s.homeReady line
    if d.1 then (acc.1, grantLine d.2 rq lq p.1.thread)
    else if (mustQueue d.2 line && Config.leaseQueue ≤ queuedAt d.2 line) || Config.coreLeases ≤ bufferUse d.2 c ||
        Config.maxOutstanding ≤ d.2.outstanding c then
      (acc.1 ++ [(p.1.thread, .stay .ready)], d.2)
    else
      (acc.1 ++ [(p.1.thread, .stay .lease)], { d.2 with
        nextId := d.2.nextId + 1, requests := tput d.2.requests d.2.nextId rq
        leaseQueue := d.2.leaseQueue ++ [{ lq with req := d.2.nextId }] })
def execLse (h : Hdr) (f : FmtM) (s : State) : Host.Outcome State Fault Refusal :=
  runInstr (.lse h f) s (fun cx s =>
    globalAccess s cx f cx.act .lease (accessBytes f) 3 (fun s accs =>
      let c := cx.core
      let traps := accs.filterMap (leaseTrap s true)
      let accs := accs.filter (fun a => (leaseTrap s true a).isNone)
      let cases := lseCases s c accs
      let now := cases.filter (fun p => p.2 != .ask)
      let ask := cases.filter (fun p => p.2 == .ask)
      -- earlier reads first: the STLs and the LSEND that follow need not wait for them (06 R195, 09 R260)
      if !(accs.map (fun a => a.thread)).all s.readsQuiet then ({ hold := some .ready }, s)
      else
        let r := s.performLoads c (now.map (fun p => (p.1, lseLoad f p.1))) (memAcq f && s.wideFor cx.act f.scope) (memAcq f) false
        match r.1.hold with
        | some st => ({ hold := some st }, r.2)
        | none =>
          let done := now.filter (fun p => !r.1.traps.any (fun d => d.1 == p.1.thread))
          let s := done.foldl (fun s p => s.writeP p.1.thread (leasePred f) (p.2 == .held) none) r.2
          let s := logRefusal s c ((now.filter (fun p => p.2 == .refused)).map (·.1))
          if leaseTaken s cx then
            ({ traps := traps ++ r.1.traps ++ ask.map (fun p => (p.1.thread, .stay .ready)), waits := r.1.waits, uses := r.1.uses }, s)
          else
            let q := ask.foldl (lseAsk h f cx) ([], s)
            -- a lane that asks again is counted then
            let asked := (ask.map (fun p => p.1)).filter (fun a => !q.1.any (fun d => d.1 == a.thread && d.2 != .stay .lease))
            ({ traps := traps ++ r.1.traps ++ q.1, waits := r.1.waits
               uses := r.1.uses ++ lineUses asked (fun _ => false) s.inM }, q.2)))

/-- STL in one lane that passed its checks: the store, its predicate, or fault 0x13 (06 R193). -/
def stlLane (f : FmtM) (cx : Ctx) (data : Nat → Nat) (acc : List (Nat × Disp) × State) (a : LaneAcc) :
    List (Nat × Disp) × State :=
  let c := cx.core
  let s := acc.2
  let line := a.key / 128
  match leaseOf s c line a.thread with
  | none => (acc.1, s.writeP a.thread (leasePred f) false none)
  | some l =>
    if l.revoked then (acc.1 ++ [(a.thread, .trap 0x13 (lineVa a.va))], forgetLease s c line a.thread)
    else if !liveLease s c l then (acc.1, s.writeP a.thread (leasePred f) false none)
    else if (s.storeFault c a (accessBytes f)).isSome then
      (acc.1 ++ [(a.thread, .trap 0x19 a.va)], s.dropFailed c a.key (accessBytes f))
    else
      let n := accessBytes f
      let s := s.l1Store c a.key (leBytes n (data a.thread))
      let s := s.modCore c (fun k => { k with leases := k.leases.map (fun x =>
        if x.line == line && x.holder == some a.thread && !x.ending then
          { x with stl := dedup (x.stl ++ (List.range n).map (fun i => a.key % 128 + i)) } else x) })
      (acc.1, s.writeP a.thread (leasePred f) true none)
def execStl (h : Hdr) (f : FmtM) (s : State) : Host.Outcome State Fault Refusal :=
  runInstr (.stl h f) s (fun cx s =>
    let data := s.fieldValue cx f.kB f.b (widthRegs f.width)
    globalAccess s cx f cx.act .write (accessBytes f) 3 (fun s accs =>
      let traps := accs.filterMap (leaseTrap s false)
      let ok := accs.filter (fun a => (leaseTrap s false a).isNone)
      if !(ok.map (fun a => a.thread)).all s.readsQuiet then ({ hold := some .ready }, s)
      else
        let r := ok.foldl (stlLane f cx data) ([], s)
        let stored := ok.filter (fun a => !r.1.any (fun d => d.1 == a.thread))
        ({ traps := traps ++ r.1, uses := lineUses stored (fun a => (s.l1Line cx.core (a.key / 128)).isSome) s.inM }, r.2)))

/-- The lease of a line is far: its write-through is performed at the bank, after an eager part (10 R283, R302). -/
def farLease (s : State) (a : LaneAcc) : Bool := s.inM a
/-- LSEND in one lane: the record of a release and then the write-through, or false, or fault 0x13 (06 R194, 10 R283). `rel`: a
release at die scope or wider; `flush`: the write-backs of its eager part. -/
def lsendLane (h : Hdr) (f : FmtM) (cx : Ctx) (rel : Bool) (flush : List Nat) (acc : List (Nat × Disp) × State) (a : LaneAcc) :
    List (Nat × Disp) × State :=
  let c := cx.core
  let s := acc.2
  let line := a.key / 128
  let note := some (leasePred f, h.stall.toNat, lineVa a.va)
  match leaseOf s c line a.thread with
  | none => (acc.1, s.writeP a.thread (leasePred f) false none)
  | some l =>
    if l.revoked then (acc.1 ++ [(a.thread, .trap 0x13 (lineVa a.va))], forgetLease s c line a.thread)
    else if !liveLease s c l then (acc.1, s.writeP a.thread (leasePred f) false none)
    else if rel && !farLease s a && !s.setRoom c line then (acc.1 ++ [(a.thread, .stay .ready)], s)
    else (acc.1 ++ [(a.thread, .stay .lease)],
      if rel && !farLease s a then
        ((s.tagAll c).sendRecord c line).setLease c line (some a.thread) { l with record := true, notify := note }
      else (s.setLease c line (some a.thread) { l with flush := flush }).endLease c line (some a.thread) note)
def execLsend (h : Hdr) (f : FmtM) (s : State) : Host.Outcome State Fault Refusal :=
  runInstr (.lsend h f) s (fun cx s =>
    globalAccess s cx f cx.act .write 1 3 (fun s accs =>
      let c := cx.core
      let ok := accs.filter (fun a => (leaseTrap s false a).isNone)
      let held := ok.filter (fun a => (leaseOf s c (a.key / 128) a.thread).any (liveLease s c))
      let rel := memRel f && s.wideFor cx.act f.scope && !held.isEmpty
      let mine := fun (l : Nat) => held.any (fun a => a.key / 128 == l)
      if !s.mayWrite c (ok.map (·.thread)) (memRel f) false ||
          (rel && (!s.probesAwait c (held.map (fun a => a.key / 128)) || (held.any (farLease s) && !(s.core c).pinned.isEmpty))) then ({ hold := some .ready }, s)
      else
        match s.startRelease c cx.gid held.length rel false mine with
        | (some st, s) => ({ hold := some st }, s)
        | (none, s) =>
          -- the eager part of a release in a region in state M: its write-backs go, and the write-through waits for them
          let w := if rel && held.any (farLease s) then s.flushAll c mine else (true, s)
          if !w.1 then ({ hold := some .ready }, w.2)
          else
          let s := w.2
          let r := ok.foldl (lsendLane h f cx rel (if rel && held.any (farLease s) then s.writeBacks c else [])) ([], s)
          let out := accs.filterMap (leaseTrap s false) ++ r.1
          -- the group waits as one until every write-through is acknowledged (10 R292)
          let rest := cx.ts.filter (fun t => !out.any (fun d => d.1 == t))
          ({ traps := out ++ (if r.1.any (fun d => d.2 == .stay .lease) then rest.map (fun t => (t, .stay .lease)) else [])
             uses := lineUses (ok.filter (fun a => !r.1.any (fun d => d.1 == a.thread && d.2 != .stay .lease))) (fun _ => false) s.inM }, r.2)))

end Sys2Proof.Machine
end

