-- ==== Sys2Proof/Machine/Once.lean ====
section
/-!
DEFINITION. Instructions that issue once on behalf of a set of lanes (01 R18, 07 R203, R209, 08 R221): the whole gang
without a weir, the declared set with one; weir rounds.
-/

namespace Sys2Proof.Machine

open State

/-- What the issue came to. -/
inductive OnceRes where
  | done
  | fault (code : Nat) (ea : W64)
  | absent (va : W64) (access : Nat)
  | wait
  /-- It waits for write-backs, and issues then (10 R283). -/
  | flush (ids : List Nat)
  /-- The gang waits for its partner (07 R215). -/
  | pairWait
  deriving DecidableEq, Repr

/-- The effect of an instruction at its issue. -/
abbrev OnceBody := Once → State → OnceRes × State

namespace State

/-! ### Weir rounds (07 R203). -/

def weir (s : State) (slot w : Nat) : Weir := tget Weir.idle (s.gang slot).weirs w
def setWeir (s : State) (slot w : Nat) (x : Weir) : State :=
  s.modGang slot (fun g => { g with weirs := tset Weir.idle g.weirs w x })
/-- A group that left an instruction behind and goes on from where an event or another group's issue sends it. -/
def finishGroup (s : State) (gid : Nat) (st : Status) (stall : Nat) : State :=
  match tfind s.groups gid with
  | none => s
  | some g =>
    let s := g.members.foldl (fun s t => s.modLane t (fun l => l.advance stall)) s
    { s with groups := tput s.groups gid { g with pc := nextPc g.pc, status := st, hold := stall, branched := false } }
/-- Wake the joiners of a weir with a value; they are ready in the next cycle (15 R370). `timed`: only those whose T runs. -/
def wakeJoiners (s : State) (slot w : Nat) (timed value : Bool) : State :=
  s.groups.foldl (fun s g => match g.2.status with
    | .join w' t d =>
      if w' == w && g.2.members.any (fun t => slotOf t == slot) && (t || !timed) then
        let s := g.2.members.foldl (fun s t => s.writeP t d.toNat value none) s
        s.modGroup g.1 (fun x => { x with status := .ready, waitCount := 0, hold := max 1 x.hold })
      else s
    | _ => s) s
/-- Close a round: the signed set is cleared and the weir is complete; the interlocked registers are the caller's. -/
def closeRound (s : State) (slot w : Nat) : State :=
  let x := s.weir slot w
  s.setWeir slot w { x with
    signed := 0, timeout := 0, round := none, guardHeld := false, locked := []
    state := if x.declared == 0 then .idle else .complete }

/-- The checks of a signature; true: fault 0x0A. -/
def weirFault (x : Weir) (mask : W32) (kind : Option (W64 × Instr)) : Bool :=
  x.state == .idle || mask &&& ~~~x.declared != 0 ||
    (match x.round, kind with
     | none, _ => false
     | some none, none => false
     | some none, some _ => true
     | some (some _), none => true
     | some (some (pc, _)), some (pc', _) => pc != pc' || mask &&& x.signed != 0)

/-! ### Groups that wait at an instruction. -/

def missing (s : State) (cx : Ctx) : List Nat := (s.liveOf cx.slot).filter (fun t => !cx.ts.contains t)
def isParked (s : State) (t : Nat) : Bool := match s.groupWith t with
  | some (_, g) => (match g.status with | .parked _ => true | _ => false)
  | none => false

/-! ### Guide pairs. -/

/-- Is the instruction paired in a pair kernel (07 R215)? -/
def pairedInstr (h : Header) (i : Instr) : Bool :=
  h.pairFlag && (match i with
    | .mmap .. | .mguide .. => true
    | .mld _ f | .mswp _ f => f.pairBit
    | _ => false)
/-- What a gang of a dissolved pair meets at a paired instruction (08 R239, 16 R378); it comes before the faults 0x09 and 0x0A,
and at every issue that signs. DESIGN CHOICE, log 107. -/
def dissolvedFault (s : State) (i : Instr) (slot : Nat) : Option (Nat × W64) :=
  if pairedInstr (s.headerOf slot) i && (s.gang slot).pair == .dissolved then
    some (0x0D, BitVec.ofNat 64 ((s.gang slot).partner.getD 0xFFFF))
  else none

/-! ### The issue. -/

/-- Registers that the round's instruction will write in lanes that sign and go on, its token among them (07 R203). -/
def roundLocks (s : State) (cx : Ctx) (i : Instr) (f : FmtX) : List (Nat × RegRef) :=
  let tok := if classOf i != 0xA || f.tk then [RegRef.k f.tok.toNat] else []
  let regs := match i with | .accrd .. => s.namedRegs cx.ts cx.slot i | _ => []
  cx.ts.flatMap (fun t => (tok ++ regs).map (fun r => (t, r)))

/-- What an issue captures for its lanes. -/
def onceOf (s : State) (cx : Ctx) (i : Instr) (lanes : W32) (act : Bool) (locked : List (Nat × RegRef)) : Once :=
  { slot := cx.slot, instr := i, lanes := lanes, thread := (cx.act.head?).getD (cx.ts.headD 0), act := act
    regs := s.capture cx.ts cx.slot i, locked := locked }
/-- Perform an issue: a paired instruction counts whatever its guard holds (07 R215). -/
def runOnce (s : State) (o : Once) (body : OnceBody) : OnceRes × State :=
  if o.act || pairedInstr (s.headerOf o.slot) o.instr then body o s else (.done, s)
/-- Where the issuing group goes. -/
def settleOnce (cx : Ctx) (r : OnceRes × State) : State × List (Nat × Disp) :=
  let all := fun (s : State) (d : Disp) => (s, cx.ts.map (fun t => (t, d)))
  match r.1 with
  | .done => (r.2, [])
  | .fault c ea => all r.2 (.trap c ea)
  | .wait => all r.2 (.stay .ready)
  | .flush ids => all r.2 (.stay (.requests ids))
  | .absent va a => let p := r.2.park cx.core (cx.ts.map (fun t => (t, va))) a; all p.2 (.stay p.1)
  | .pairWait => all r.2 (.stay .pairWait)
/-- The issuing set's accesses are complete: a signature is a release at gang scope, and a job's or an MRED's accesses come
after them (09 R258, R272). -/
def setQuiet (s : State) (cx : Ctx) (i : Instr) (f : FmtX) : Bool := (!f.wv && classOf i == 0xA) || cx.ts.all s.threadQuiet

/-- Sign an instruction round, and issue it when the signature completes it (07 R203). -/
def signRound (i : Instr) (f : FmtX) (body : OnceBody) (cx : Ctx) (s : State) : State × List (Nat × Disp) :=
  let w := f.weir.toNat
  let x := s.weir cx.slot w
  let mask := laneMask cx.ts
  let held := x.guardHeld || !cx.act.isEmpty
  if weirFault x mask (some (cx.pc, i)) then (s, cx.ts.map (fun t => (t, .trap 0x0A (BitVec.ofNat 64 w))))
  else if x.signed ||| mask != x.declared then
    let locks := s.roundLocks cx i f
    ((s.lockAll locks).setWeir cx.slot w { x with
      signed := x.signed ||| mask, round := some (some (cx.pc, i)), state := .opened
      guardHeld := held, locked := x.locked ++ locks }, [])
  else
    let r := s.runOnce (s.onceOf cx i x.declared held x.locked) body
    match r.1 with
    | .done => settleOnce cx (.done, (r.2.closeRound cx.slot w).unlockAll x.locked)
    | .pairWait => settleOnce cx (.pairWait, r.2.closeRound cx.slot w)
    | _ => settleOnce cx r

/-- DEDUCED, log 43. -/
def issueOnce (i : Instr) (f : FmtX) (body : OnceBody) (cx : Ctx) (s : State) : State × List (Nat × Disp) :=
  let all := fun (s : State) (d : Disp) => (s, cx.ts.map (fun t => (t, d)))
  match s.dissolvedFault i cx.slot with
  | some (c, ea) => all s (.trap c ea)
  | none =>
    if !f.wv && cx.act.isEmpty && !pairedInstr cx.head i then (s, [])
    else if !s.setQuiet cx i f then all s (.stay .ready)
    else if f.wv then signRound i f body cx s
    else
      let away := s.missing cx
      if away.isEmpty then settleOnce cx (s.runOnce (s.onceOf cx i (laneMask cx.ts) (!cx.act.isEmpty) []) body)
      else if away.all s.isParked then all s (.stay (.gather false))
      else all s (.trap 0x09 (BitVec.ofNat 64 (laneMask away).toNat))

end State

end Sys2Proof.Machine
end

