-- ==== Sys2Proof/Machine/Matrix.lean ====
section
/-!
DEFINITION. Class 0xA, the matrix engines (07 R209-R220, 18 R395-R402): the checks at issue, the engine's queue, and
the sum order of 02 R64-R69. An instruction takes effect when MATRIX_COMPLETE takes it from its engine's queue.
-/

namespace Sys2Proof.Machine

open State

/-! ### The matrix sum order (02 R68, R69). -/

/-- The truncated sum of a block's finite products. -/
def blockSum (tbits : Nat) (ps : List FVal) : FVal :=
  let fins := ps.filterMap (fun p => match p with | .fin n m e => some (n, m, e) | _ => none)
  match fins with
  | [] => .zero false
  | (_, m0, e0) :: rest =>
    let top := rest.foldl (fun (a : Int) p => max a ((Nat.log2 p.2.1 : Int) + p.2.2)) ((Nat.log2 m0 : Int) + e0)
    let q := top - tbits
    let unit := fun (p : Bool × Nat × Int) => sgn p.1 (if q ≤ p.2.2 then p.2.1 * 2 ^ (p.2.2 - q).toNat else p.2.1 / 2 ^ (q - p.2.2).toNat)
    ofInt false ((fins.map unit).sum) q
/-- One block's result, before its rounding to the accumulator. `sa`, `sb`: block scales, `g0`, `g1`: tensor scales. A
scale of +0 with an infinite tensor scale gives NaN (02 R59, R69), and a tensor scale of ±0 the sign of the IEEE product. DESIGN
CHOICE, log 90. -/
def blockResult (tbits : Nat) (a b : List FVal) (sa sb g0 g1 : FVal) : FVal :=
  let ps := (a.zip b).map (fun p => fmul p.1 p.2)
  let badScale := fun (x : FVal) => fisNan x || fnegative x
  let pos := ps.any (fun p => p == .inf false)
  let neg := ps.any (fun p => p == .inf true)
  if ps.any fisNan || a.any fisNan || b.any fisNan || (pos && neg) || badScale sa || badScale sb then .nan
  else
    let s := if pos then .inf false else if neg then .inf true else blockSum tbits ps
    let special := pos || neg || fisNan g0 || fisInf g0 || fisNan g1 || fisInf g1
    if !special && (fisZero s || fisZero sa || fisZero sb) then .zero false
    else fmul (fmul (fmul (fmul s sa) sb) g0) g1
/-- Add one block result into a 34-bit word. -/
def accumulate (acc : Nat) (v : FVal) : Nat :=
  fround acc34 0 0 false false (fadd 0 (fdecode acc34 acc) (fdecode acc34 (fround acc34 0 0 false false v)))
/-- A dot product of 64 elements into a word, block by block. -/
def dotInto (l tbits : Nat) (sa sb : Nat → FVal) (g0 g1 : FVal) : Nat → Nat → List FVal → List FVal → Nat → Nat
  | 0, _, _, _, acc => acc
  | n + 1, blk, a, b, acc =>
    let v := blockResult tbits (a.take l) (b.take l) (sa blk) (sb blk) g0 g1
    dotInto l tbits sa sb g0 g1 n (blk + 1) (a.drop l) (b.drop l) (accumulate acc v)

/-! ### Operands in scratch (07 R212). -/

/-- Rows of a scratch operand: offset, stride, count, bytes of a row. -/
structure Rows where
  off : Nat
  stride : Nat
  count : Nat
  len : Nat
def Rows.start (r : Rows) (i : Nat) : Nat := r.off + i * r.stride
def rowsOf (ks : List W32) (fmt : BitVec 6) (count : Nat) : Rows :=
  let len := 64 * elemSize fmt
  let st := (ks.getD 1 0).toNat
  { off := (ks.getD 0 0).toNat, stride := if st == 0 then len else st, count := count, len := len }
/-- Alignment and range: a fault, or none. -/
def rowsFault (size : Nat) (r : Rows) : Option (Nat × W64) :=
  if r.off % 16 != 0 || r.stride % 16 != 0 then some (0x15, BitVec.ofNat 64 r.off)
  else match (List.range r.count).find? (fun i => size < r.start i + r.len) with
    | some i => some (0x11, BitVec.ofNat 64 (max (r.start i) size))
    | none => none
/-- The 4 KiB segments that an operand touches, rising. -/
def segments (r : Rows) : List Nat :=
  dedup (sortBy id ((List.range r.count).flatMap (fun i =>
    (List.range ((r.start i + r.len - 1) / 4096 - r.start i / 4096 + 1)).map (fun j => r.start i / 4096 + j))))
/-- A segment's tag once the queued ACC2S of the engine have written it (07 R209). -/
def tagAfter (s : State) (slot : Nat) (q : List EngineOp) (seg : Nat) : BitVec 6 :=
  q.foldl (fun t o => match o.instr with
    | .acc2s _ f =>
      if o.block == s.blockOf slot && o.doSelf && (segments (rowsOf o.scalars f.sfmt (rowCount f))).contains seg then f.sfmt else t
    | _ => t) (s.scratchTag slot (seg * 4096))
def tagFault (s : State) (slot : Nat) (q : List EngineOp) (fmt : BitVec 6) (r : Rows) : Option (Nat × W64) :=
  ((segments r).find? (fun g => tagAfter s slot q g != fmt)).map (fun g => (0x0B, BitVec.ofNat 64 (g * 4096)))

/-- Formats of the active and the shadow plane after the queue (07 R213, R214). -/
def planesAfter (e : Engine) : BitVec 6 × BitVec 6 :=
  e.queue.foldl (fun p o => match o.instr with
    | .mld _ f => (p.1, f.tfmt)
    | .mswp .. => (p.2, p.1)
    | _ => p) (e.active.format, e.shadow.format)

namespace State

def engine (s : State) (c m : Nat) : Engine := (tfind (s.core c).engines m).getD Engine.reset
def modEngine (s : State) (c m : Nat) (g : Engine → Engine) : State :=
  s.modCore c (fun k => { k with engines := tput k.engines m (g ((tfind k.engines m).getD Engine.reset)) })

/-- Keep a line in ME0's scale cache (18 R399). -/
def keepScale (s : State) (c line : Nat) (bs : List Byte) : State :=
  { s with fresh := s.fresh + 1 }.modEngine c 0 (fun e =>
    { e with cache := tput (if e.cache.length < 64 then e.cache else e.cache.eraseIdx (Config.victim s.fresh 64 % 64)) line bs })
/-- A scale byte through ME0's scale cache, and the line request of a miss, which fills the line through L1 (18 R399). A line
with a failed word is not kept. -/
def cachedScale (s : State) (o : Once) (va : W64) : (OnceRes ⊕ (Byte × List LineUse)) × State :=
  let c := o.core
  if !canonicalVa va then (.inl (.fault 0x11 va), s)
  else match translate s (s.who o.thread) va .read with
    | (.fault f, s) => (.inl (.fault f va), s)
    | (.notPresent, s) => (.inl (.absent va 0), s)
    | (.wait, s) => (.inl .wait, s)
    | (.ok key pte, s) =>
      let line := key / 128
      match tfind (s.engine c 0).cache line with
      | some bs => (.inr (bs.getD (key % 128) 0, []), s)
      | none =>
        let whole := !s.l1Fault c (line * 128) 128 && (s.homeFault (line * 128) 128).isNone && cacheable key
        let use := s.relaxedUse c va key 1 pte
        match s.relaxedRead c (if whole then line * 128 else key) (if whole then 128 else 1) pte with
        | (.wait, s) => (.inl .wait, s)
        | (.fault f, s) => (.inl (.fault f va), s)
        | (.lost, s) => (.inl (.fault 0x19 va), s.dropFailed c key 1)
        | (.bytes bs, s) =>
          (.inr (bs.getD (if whole then key % 128 else 0) 0, [use]), if whole && !use.far then s.keepScale c line bs else s)
def cachedScales (s : State) (o : Once) : List W64 → (OnceRes ⊕ (List Byte × List LineUse)) × State
  | [] => (.inr ([], []), s)
  | va :: vs =>
    match s.cachedScale o va with
    | (.inl r, s) => (.inl r, s)
    | (.inr b, s) =>
      match s.cachedScales o vs with
      | (.inl r, s) => (.inl r, s)
      | (.inr bs, s) => (.inr (b.1 :: bs.1, b.2 ++ bs.2), s)

end State

/-- The addresses of the streamed scales under `.sc`, two for each row (07 R214); the shift is the whole register, also above
31. DESIGN CHOICE, log 107. -/
def scaleVas (ks : List W32) (r : Rows) : List W64 :=
  let base := joinWords (ks.getD 5 0) (ks.getD 4 0)
  let sh := (ks.getD 6 0).toNat
  (List.range r.count).flatMap (fun i => [0, 32].map (fun b => base + BitVec.ofNat 64 ((r.start i + b) / 2 ^ sh)))
/-- Scale bytes under `.bs` without `.sc` must lie in the engine's 32 KiB. -/
def scaleRange (off n : Nat) : Option (Nat × W64) :=
  if 2 ^ 15 < off + n then some (0x11, BitVec.ofNat 64 off) else none

/-- The first of the checks that fails. DEDUCED, log 44. -/
def firstFault : List (Option (Nat × W64)) → Option (Nat × W64)
  | [] => none
  | none :: r => firstFault r
  | some f :: _ => some f

/-- The checks of a streaming multiply for one gang's operands, in their order (07 R212, R214). -/
def streamFault (h : Header) (s : State) (slot : Nat) (e : Engine) (f : FmtX) (ks : List W32) : Option (Nat × W64) :=
  let r := rowsOf ks f.sfmt (rowCount f)
  firstFault [
    rowsFault h.scratch r,
    if f.bs && !f.sc then scaleRange (ks.getD 4 0).toNat (2 * rowCount f) else none,
    if (planesAfter e).1 != f.tfmt then some (0x0B, 0) else none,
    tagFault s slot e.queue f.sfmt r]


/-- The checks of an entry at issue, but for the scales of `.sc`. -/
def matrixFault (h : Header) (s : State) (slot : Nat) (i : Instr) (f : FmtX) (ks : List W32) (e : Engine) :
    Option (Nat × W64) :=
  match i with
  | .mld .. =>
    let r := rowsOf ks f.tfmt 64
    firstFault [rowsFault h.scratch r, if f.bs then scaleRange (ks.getD 2 0).toNat 128 else none, tagFault s slot e.queue f.tfmt r]
  | .mma .. | .mmap .. => streamFault h s slot e f ks
  | .accrd .. | .accwr .. =>
    let d := (ks.getD 0 0).toNat
    if h.vregs < d + accRegs f then some (0x02, BitVec.ofNat 64 d) else none
  | .acc2s .. => rowsFault h.scratch (rowsOf ks f.sfmt (rowCount f))
  | .scld .. =>
    let src := (ks.getD 0 0).toNat
    let dst := (ks.getD 1 0).toNat
    let n := rowCount f * 128
    let r : Rows := { off := src, stride := n, count := 1, len := n }
    firstFault [
      if src % 16 != 0 then some (0x15, BitVec.ofNat 64 src) else if dst % 16 != 0 then some (0x15, BitVec.ofNat 64 dst) else none,
      if h.scratch < src + n then some (0x11, BitVec.ofNat 64 (max src h.scratch)) else none,
      scaleRange dst n, tagFault s slot e.queue 4 r]
  | _ => none

/-- A token for an issue that asks for one. -/
def tokenFor (m id : Nat) (o : Once) (s : State) : Option W32 × State :=
  match fmtX? o.instr with
  | some f => if f.tk then (let r := s.giveToken o f.tok.toNat (.engine m) id; (some r.1, r.2)) else (none, s)
  | none => (none, s)
/-- Queue an instruction that passed its checks, with the partner's when it is paired. -/
def enqueue (f : FmtX) (own : PairOp) (mate : Option PairOp) (s : State) : State :=
  let o := own.op
  let id := s.nextId
  let m := f.eng.toNat
  let t := tokenFor m id o { s with nextId := id + 1 }
  let mt := match mate with
    | some p => let r := tokenFor m id p.op t.2; (some (p.op.slot, p.op.instr, p.op.scalars, r.1), r.2)
    | none => (none, t.2)
  let s := mt.2
  let d := (o.scalars.getD 0 0).toNat
  let regs := List.range (accRegs f)
  let locks := match o.instr with
    | .accrd .. => o.threads.flatMap (fun t => regs.map (fun r => (t, RegRef.v (d + r))))
    | _ => []
  let vals := match o.instr with
    | .accwr .. => o.threads.flatMap (fun t => regs.map (fun r => (32 * r + laneOf t, (s.lane t).vreg (d + r))))
    | _ => []
  let op : EngineOp := {
    id := id, instr := o.instr, block := s.blockOf o.slot, gang := o.slot, thread := o.thread, lanes := o.lanes
    token := t.1, scalars := o.scalars, other := mt.1, doSelf := o.act, doOther := mate.any (fun p => p.op.act)
    selfCond := (s.gang o.slot).role == 0#2, accBase := (s.scratchPart o.slot).accBase, values := vals, scale := own.scale
    scaleOther := mate.elim [] (fun p => p.scale), locked := locks }
  (s.lockAll locks).modEngine o.core m (fun e => { e with queue := e.queue ++ [op] })

/-- A vector register that ACCWR reads and whose word failed (16 R381). -/
def valueFailed (s : State) (o : Once) (f : FmtX) : Option Nat :=
  match o.instr with
  | .accwr .. =>
    if s.failed.isEmpty then none
    else o.threads.findSome? (fun t => ((List.range (accRegs f)).map (fun r => (o.scalars.getD 0 0).toNat + r)).find? (fun n =>
      s.failed.contains (.vreg t n)))
  | _ => none
/-- ACCWR reads its registers at issue: it waits for those of the issuing set that are interlocked (03 R81, 07 R218). -/
def valuesLocked (s : State) (o : Once) (f : FmtX) : Bool :=
  match o.instr with
  | .accwr .. => o.threads.any (fun t => (List.range (accRegs f)).any (fun r =>
      (s.lane t).lock.contains (.v ((o.scalars.getD 0 0).toNat + r))))
  | _ => false
/-- What a class 0xA instruction meets at its issue by one gang (07 R209): a recorded engine fault, the entry's checks, the
scales of `.sc`, counted for the sampler. An issue whose guard held in no lane meets nothing (03 R79). -/
def matrixEntry (i : Instr) (f : FmtX) (o : Once) (s : State) : (OnceRes ⊕ List Byte) × State :=
  let m := f.eng.toNat
  let ks := o.scalars
  if !o.act then (.inr [], s)
  else match tfind (s.gang o.slot).engineFault m with
    | some (c, ea) => (.inl (.fault c ea), s.modGang o.slot (fun g => { g with engineFault := tdel g.engineFault m }))
    | none =>
      match matrixFault (s.headerOf o.slot) s o.slot i f ks (s.engine o.core m) with
      | some (c, ea) => (.inl (.fault c ea), s)
      | none =>
        if valuesLocked s o f then (.inl .wait, s)
        else if let some n := valueFailed s o f then (.inl (.fault 0x16 (BitVec.ofNat 64 n)), s)
        else if !f.sc then (.inr [], s)
        else match s.cachedScales o (scaleVas ks (rowsOf ks f.sfmt (rowCount f))) with
          | (.inl r, s) => (.inl r, s)
          | (.inr bs, s) => (.inr bs.1, s.countUses o.core (s.who o.thread).asid 0 bs.2)

/-- What must be equal in both gangs (07 R215); scalars in the order of the entry, the streamed offset first. -/
def pairKey (o : Once) : List Nat :=
  let vals := (o.scalars ++ (comparedRegs o.instr).map (fun (r : RegRef) => match r with | .k n => o.k n | _ => 0)).map BitVec.toNat
  let i := o.instr
  match i with
  | .mld _ _ | .mswp _ _ => opcodeOfInstr i :: ((encode i).getD 0).toNat % 2 ^ 77 :: vals
  | .mmap _ f => [opcodeOfInstr i, f.eng.toNat, f.sfmt.toNat, f.tfmt.toNat, f.rows.toNat, f.mods.toNat, f.kQ.toNat, f.kS.toNat] ++
      vals.drop 1
  | .mguide _ f => [opcodeOfInstr i, f.eng.toNat, f.rows.toNat, f.mods.toNat, f.kS.toNat]
  | _ => []
def stallOf (i : Instr) : Nat := match hdrOfInstr i with | some h => h.stall.toNat | none => 0
/-- The gang's descriptor is answered: the matcher lets it go, and the group that stands at the instruction goes on; `code`:
or faults (07 R215, R434, 08 R239). -/
def answerPair (s : State) (x : PairOp) (code : Option (Nat × W64)) : State :=
  let p := x.op.slot
  let s := s.modGang p (fun g => { g with pairOp := none, pairCount := if code.isNone then g.pairCount + 1 else g.pairCount })
  let ws := s.pairWaiters p
  match code, ws with
  | none, ws => ws.foldl (fun s w => s.finishGroup w.1 .ready (stallOf x.op.instr)) (s.unlockAll x.op.locked)
  | some c, [] => s.recordFault x.op c
  | some c, ws =>
    ws.foldl (fun s w => s.dispose w.1 w.2.pc (w.2.members.map (fun t => (t, Disp.trap c.1 c.2)))) (s.unlockAll x.op.locked)
/-- A paired instruction at the pair matcher (18 R401): the first gang's waits, the second's is compared with it. A gang whose
descriptor still waits, with no lane at it, waits to store another. -/
def matchPair (f : FmtX) (own : PairOp) (partner : Nat) (s : State) : OnceRes × State :=
  let n := own.op.slot
  if (s.gang n).pairOp.isSome then (.wait, s)
  else match (s.gang partner).pairOp with
    | none => (.pairWait, s.modGang n (fun g => { g with pairOp := some own }))
    | some x =>
      if pairKey own.op != pairKey x.op then (.fault 0x0C 0, answerPair s x (some (0x0C, 0)))
      else
        let s := (answerPair s x none).modGang n (fun g => { g with pairCount := g.pairCount + 1 })
        (.done, if own.op.act || x.op.act then enqueue f own (some x) s else s)

/-- The issue of a class 0xA instruction: its entry, then the pair matcher, then the queue. Alone, after PDISS, MGUIDE has no
further effect (07 R215). -/
def matrixBody (i : Instr) (f : FmtX) : OnceBody := fun o s =>
  match matrixEntry i f o s with
  | (.inl r, s) => (r, s)
  | (.inr sc, s) =>
    let own : PairOp := { op := o, scale := sc }
    let paired := pairedInstr (s.headerOf o.slot) i
    let guide := match i with | .mguide .. => true | _ => false
    match if paired && (s.gang o.slot).pair == .paired then (s.gang o.slot).partner else none with
    | some p => matchPair f own p s
    | none => (.done, if o.act && !(paired && guide) then enqueue f own none s else s)

def matrixExec (i : Instr) (f : FmtX) (s : State) : Host.Outcome State Fault Refusal :=
  runInstr i s (issueOnce i f (matrixBody i f))
def execMld (h : Hdr) (f : FmtX) (s : State) : Host.Outcome State Fault Refusal := matrixExec (.mld h f) f s
def execMswp (h : Hdr) (f : FmtX) (s : State) : Host.Outcome State Fault Refusal := matrixExec (.mswp h f) f s
def execMma (h : Hdr) (f : FmtX) (s : State) : Host.Outcome State Fault Refusal := matrixExec (.mma h f) f s
def execMmap (h : Hdr) (f : FmtX) (s : State) : Host.Outcome State Fault Refusal := matrixExec (.mmap h f) f s
def execMguide (h : Hdr) (f : FmtX) (s : State) : Host.Outcome State Fault Refusal := matrixExec (.mguide h f) f s
def execAccz (h : Hdr) (f : FmtX) (s : State) : Host.Outcome State Fault Refusal := matrixExec (.accz h f) f s
def execAccrd (h : Hdr) (f : FmtX) (s : State) : Host.Outcome State Fault Refusal := matrixExec (.accrd h f) f s
def execAccwr (h : Hdr) (f : FmtX) (s : State) : Host.Outcome State Fault Refusal := matrixExec (.accwr h f) f s
def execAcc2s (h : Hdr) (f : FmtX) (s : State) : Host.Outcome State Fault Refusal := matrixExec (.acc2s h f) f s
def execScld (h : Hdr) (f : FmtX) (s : State) : Host.Outcome State Fault Refusal := matrixExec (.scld h f) f s

/-! ### The effect, in engine order (07 R213-R220, 16 R382). -/

def accWord (e : Engine) (row n : Nat) : Nat := (tget 0 e.acc (row * 64 + n)).toNat
def setAcc (e : Engine) (row n x : Nat) : Engine := { e with acc := tset 0 e.acc (row * 64 + n) (BitVec.ofNat 34 x) }
/-- Columns of a row changed by a function. -/
def mapRow (e : Engine) (row : Nat) (g : Nat → Nat → Nat) : Engine :=
  (List.range 64).foldl (fun e n => setAcc e row n (g n (accWord e row n))) e
def accFailed (s : State) (c m row : Nat) : Bool :=
  s.failed.any (fun w => match w with | .acc c' m' r _ => c' == c && m' == m && r == row | _ => false)
def planeColumn (p : Plane) (n : Nat) : List FVal :=
  (List.range 64).map (fun j => elemVal p.format (tget 0 p.elems (j * 64 + n)).toNat)
/-- The elements of a scratch row. -/
def rowElems (s : State) (slot : Nat) (r : Rows) (fmt : BitVec 6) (i : Nat) : List Nat :=
  (List.range 64).map (fun j => s.scratchRead slot (r.start i + j * elemSize fmt) (elemSize fmt))
def scaleFailedAt (s : State) (c m off n : Nat) : Option Nat :=
  (List.range n).findSome? (fun k => if s.failed.contains (.scale c m ((off + k) / 8)) then some (off + k) else none)

/-- What performing an instruction came to: a fault after issue, or none. -/
abbrev Performed := Option (Nat × W64) × State

/-- An uncorrectable scratch word in a stretch that an engine reads: the fault, logged (07 R209, 16 R383). -/
def scratchError (s : State) (c slot off n : Nat) : Option Performed :=
  (s.scratchErrorAt slot off n).map (fun o => (some (0x17, BitVec.ofNat 64 o), logRecord s 1 0x17 1 c o))

/-- Process rows in order until one stops (16 R382). -/
def perRow {α : Type} (rows : List α) (step : α → State → Performed) (s : State) : Performed :=
  rows.foldl (fun (p : Performed) r => match p.1 with
    | some _ => p
    | none => step r p.2) (none, s)

/-- The scale of block b of streamed row i: from memory with `.sc`, from scale memory with `.bs`, else 1 (07 R214). -/
def streamScale (e : Engine) (f : FmtX) (ks : List W32) (sc : List Byte) (i b : Nat) : FVal :=
  if f.sc then e4m3Decode (sc.getD (2 * i + b) 0).toNat
  else if f.bs then e4m3Decode (tget 0 e.scaleMem ((ks.getD 4 0).toNat + 2 * i + b)).toNat else .fin false 1 0
/-- The scale of block b of a plane's column, 1 for a plane loaded without scales (07 R213). -/
def planeScale (p : Plane) (n b : Nat) : FVal :=
  match p.scales with | some l => e4m3Decode (l.getD (2 * n + b) 0).toNat | none => .fin false 1 0
/-- One streamed row: its elements, its block scales, into its accumulator row. -/
def streamRow (c m slot : Nat) (f : FmtX) (ks : List W32) (base : Nat) (sc : List Byte) (i : Nat) (s : State) : Performed :=
  let r := rowsOf ks f.sfmt (rowCount f)
  let row := base + f.rowBase.toNat + i
  let so := (ks.getD 4 0).toNat + 2 * i
  let g := fun k => fdecode f32 (ks.getD k 0).toNat
  let bad := if f.bs && !f.sc then scaleFailedAt s c m so 2 else none
  match scratchError s c slot (r.start i) r.len with
  | some p => p
  | none => match bad with
    | some o => (some (0x17, BitVec.ofNat 64 o), logRecord s 14 0x17 1 c (m * 2 ^ 16 + o))
    | none =>
      if accFailed s c m row then (some (0x18, BitVec.ofNat 64 (f.rowBase.toNat + i)), s)
      else
        let a := (rowElems s slot r f.sfmt i).map (elemVal f.sfmt)
        let l := if isB8 f.sfmt then 32 else 16
        let tb := if isB8 f.sfmt then 30 else 40
        (none, s.modEngine c m (fun e => mapRow e row (fun n w =>
          dotInto l tb (streamScale e f ks sc i) (planeScale e.active n) (g 2) (g 3) (64 / l) 0 a (planeColumn e.active n) w)))

/-- Load the shadow plane (07 R213). -/
def loadPlane (c m slot : Nat) (f : FmtX) (ks : List W32) (s : State) : Performed :=
  let r := rowsOf ks f.tfmt 64
  let so := (ks.getD 2 0).toNat
  match (List.range 64).findSome? (fun i => scratchError s c slot (r.start i) r.len) with
  | some p => p
  | none =>
    match (if f.bs then scaleFailedAt s c m so 128 else none) with
    | some o => (some (0x17, BitVec.ofNat 64 o), logRecord s 14 0x17 1 c (m * 2 ^ 16 + o))
    | none =>
      let elems := (List.range 64).foldl (fun t j =>
        tsets 0 t (j * 64) ((rowElems s slot r f.tfmt j).map (BitVec.ofNat 16))) ([] : Tab (BitVec 16))
      (none, s.modEngine c m (fun e => { e with shadow := {
        elems := elems, format := f.tfmt, scales := if f.bs then some (tgets 0 e.scaleMem so 128) else none } }))

def guideRow (c m : Nat) (w : FVal) (rc ru rel : Nat) (s : State) : Performed :=
  if accFailed s c m rc || accFailed s c m ru then (some (0x18, BitVec.ofNat 64 rel), s)
  else
    let rnd := fun v => fround acc34 0 0 false false v
    (none, s.modEngine c m (fun e => mapRow e rc (fun n x =>
      let u := fdecode acc34 (accWord e ru n)
      let d := fdecode acc34 (rnd (fadd 0 (fdecode acc34 x) (fneg u)))
      rnd (fadd 0 (fmul w d) u))))

/-- A word read out (02 R66). -/
def readOut (f : FmtX) (x : Nat) : Nat := elemRound f.sfmt f.rndBits.toNat 0 f.satBit (fdecode acc34 x)
def readRow (c m slot : Nat) (f : FmtX) (lanes : W32) (d row i : Nat) (s : State) : Performed :=
  if accFailed s c m row then (some (0x18, BitVec.ofNat 64 (f.rowBase.toNat + i)), s)
  else
    let e := s.engine c m
    let val := fun n => readOut f (accWord e row n)
    (none, (maskLanes lanes).foldl (fun s l =>
      let t := 32 * slot + l
      if !(s.lane t).live then s
      else if f.sfmt == 1 then
        (s.writeV t (d + 2 * i) (BitVec.ofNat 32 (val l)) none).writeV t (d + 2 * i + 1) (BitVec.ofNat 32 (val (l + 32))) none
      else s.writeV t (d + i) (BitVec.ofNat 32 (val (2 * l) + val (2 * l + 1) * 2 ^ 16)) none) s)
/-- ACCZ and ACCWR cover the failed words of the columns that they write, which are usable again; the instruction stops there
(16 R382, 18 R400). -/
def coverRow (c m row : Nat) (cols : Nat → Bool) (s : State) : State :=
  { s with failed := s.failed.filter (fun w => match w with
    | .acc c' m' r n => !(c' == c && m' == m && r == row && cols n)
    | _ => true) }
def writeRow (c m : Nat) (f : FmtX) (row i : Nat) (cols : Nat → Bool) (g : Nat → Nat → Nat) (s : State) : Performed :=
  if accFailed s c m row then (some (0x18, BitVec.ofNat 64 (f.rowBase.toNat + i)), coverRow c m row cols s)
  else (none, s.modEngine c m (fun e => mapRow e row g))
def storeRow (c m slot : Nat) (f : FmtX) (r : Rows) (row i : Nat) (s : State) : Performed :=
  if accFailed s c m row then (some (0x18, BitVec.ofNat 64 (f.rowBase.toNat + i)), s)
  else
    let e := s.engine c m
    let bytes := (List.range 64).flatMap (fun n => leBytes (elemSize f.sfmt) (readOut f (accWord e row n)))
    let s := s.scratchWrite slot (r.start i) bytes
    let segs := segments { r with off := r.start i, count := 1 }
    (none, s.modPart (s.blockOf slot) (coreOf slot) (fun p => { p with tags := segs.foldl (fun t g => tset 0 t g f.sfmt) p.tags }))

/-- Perform an instruction of an engine's queue. -/
def performOp (c m : Nat) (o : EngineOp) (s : State) : Performed :=
  match fmtX? o.instr with
  | none => (none, s)
  | some f =>
    let n := rowCount f
    let ks := o.scalars
    let row := fun i => o.accBase + f.rowBase.toNat + i
    let rows := List.range n
    let mateF := match o.other with | some (_, i, _, _) => (fmtX? i).getD f | none => f
    match o.instr with
    | .mld .. => loadPlane c m o.gang f ks s
    | .mswp .. => (none, s.modEngine c m (fun e => { e with active := e.shadow, shadow := e.active }))
    | .mma .. => perRow rows (streamRow c m o.gang f ks o.accBase o.scale) s
    | .mmap .. =>
      match o.other with
      | none => perRow rows (streamRow c m o.gang f ks o.accBase o.scale) s
      | some (p, _, ks', _) =>
        -- the conditional gang's stream, then the unconditional one's (07 R216)
        let self := (o.doSelf, streamRow c m o.gang f ks o.accBase o.scale, f.rowBase.toNat)
        let mate := (o.doOther, streamRow c m p mateF ks' o.accBase o.scaleOther, mateF.rowBase.toNat)
        let cond := if o.selfCond then self else mate
        let unc := if o.selfCond then mate else self
        let one := fun (x : Bool × (Nat → State → Performed) × Nat) (i : Nat) (s : State) => if x.1 then x.2.1 i s else (none, s)
        if cond.2.2 + n ≤ unc.2.2 || unc.2.2 + n ≤ cond.2.2 then
          perRow (rows.flatMap (fun i => [(true, i), (false, i)])) (fun p => one (if p.1 then cond else unc) p.2) s
        else
          perRow (rows.map (fun i => (true, i)) ++ rows.map (fun i => (false, i))) (fun p => one (if p.1 then cond else unc) p.2) s
    | .mguide .. =>
      match o.other with
      | none => (none, s)
      | some (_, _, ks', _) =>
        let first := o.selfCond
        let w := fdecode f32 ((if first then ks else ks').getD 0 0).toNat
        let cb := if first then f.rowBase.toNat else mateF.rowBase.toNat
        let ub := if first then mateF.rowBase.toNat else f.rowBase.toNat
        perRow rows (fun i => guideRow c m w (o.accBase + cb + i) (o.accBase + ub + i)
          (if accFailed s c m (o.accBase + cb + i) then cb + i else ub + i)) s
    | .accz .. => perRow rows (fun i => writeRow c m f (row i) i (fun _ => true) (fun _ _ => 0)) s
    | .accrd .. => perRow rows (fun i => readRow c m o.gang f o.lanes (ks.getD 0 0).toNat (row i) i) s
    | .accwr .. =>
      let val := fun (i n : Nat) => o.values.find? (fun v => v.1 == 32 * (2 * i + n / 32) + n % 32)
      perRow rows (fun i => writeRow c m f (row i) i (fun n => (val i n).isSome) (fun n w => match val i n with
        | some v => fround acc34 0 0 false false (fdecode f32 v.2.toNat)
        | none => w)) s
    | .acc2s .. => perRow rows (fun i => storeRow c m o.gang f (rowsOf ks f.sfmt n) (row i) i) s
    | .scld .. =>
      let src := (ks.getD 0 0).toNat
      let dst := (ks.getD 1 0).toNat
      match scratchError s c o.gang src (128 * n) with
      | some p => p
      | none =>
        let bs := tgets 0 (s.scratchPart o.gang).scratch src (128 * n)
        let put := fun (bs : List Byte) (s : State) => s.modEngine c m (fun e => { e with scaleMem := tsets 0 e.scaleMem dst bs })
        match scaleFailedAt s c m dst (128 * n) with
        | none => (none, put bs s)
        -- the bytes before the failed word are written, and the word is usable again (18 R398). DESIGN CHOICE, log 107.
        | some at' =>
          let s := put (bs.take (at' - dst)) { s with failed := s.failed.filter (fun w => w != .scale c m (at' / 8)) }
          (some (0x17, BitVec.ofNat 64 at'), logRecord s 14 0x17 1 c (m * 2 ^ 16 + at'))
    | _ => (none, s)

/-- MATRIX_COMPLETE (18 R397): the engine's oldest instruction performs its last write and its token completes; a fault
without a token waits for the gang's next class 0xA instruction (07 R209). -/
def execMatrixComplete (core engine : Nat) (s : State) : Host.Outcome State Fault Refusal :=
  match (s.engine core engine).queue with
  | [] => .next s
  | o :: rest =>
    let r := performOp core engine o (s.modEngine core engine (fun e => { e with queue := rest }))
    let s := o.locked.foldl (fun s x => s.modLane x.1 (fun l => { l with lock := l.lock.erase x.2 })) r.2
    let report := fun (slot : Nat) (tok : Option W32) (s : State) =>
      match tok, r.1 with
      | some _, f => s.finishToken slot o.id f
      | none, some (c, ea) => s.modGang slot (fun g => { g with engineFault := tput g.engineFault engine (c, ea) })
      | none, none => s
    let s := report o.gang o.token s
    let s := match o.other with | some (p, _, _, tk) => report p tk s | none => s
    let s := r.1.elim s (fun f => if f.1 == 0x18 then logRecord s 2 0x18 1 core (f.2.toNat) else s)
    .next (match o.other with | some (p, _) => (s.reap o.gang).reap p | none => s.reap o.gang)

end Sys2Proof.Machine
end

