-- ==== Sys2Proof/Machine/Engines.lean ====
section
/-!
DEFINITION. Class 0xB, copy-engine jobs (08 R221-R234): capture and checks at issue, and JOB_COMPLETE, which performs a
job and completes its token.
-/

namespace Sys2Proof.Machine

open State

/-! ### Stretches. -/

def Span.last (a : Span) : Nat := a.start + a.len
def overlap (a b : Span) : Bool := a.scr == b.scr && a.start < b.last && b.start < a.last
def overlaps (xs ys : List Span) : Bool := xs.any (fun a => ys.any (overlap a))

/-- Split a global stretch at 64 KiB pages: address and length of each piece. -/
def pieces : Nat → W64 → Nat → List (W64 × Nat)
  | 0, _, _ => []
  | fuel + 1, a, n =>
    if n == 0 then []
    else
      let k := min n (2 ^ 16 - a.toNat % 2 ^ 16)
      (a, k) :: pieces fuel (a + BitVec.ofNat 64 k) (n - k)

/-- An operand of a job: stretches by row, the tag or format code of a source, the virtual page of each physical one, or
what stops the issue. -/
structure Mapped where
  rows : List (List Span) := []
  tag : BitVec 6 := 0
  pages : List (Nat × W64) := []
  stop : Option OnceRes := none

/-- The pages of a global operand as they are translated, lowest address first: virtual page, key of its first byte, the
page's entry. -/
structure Walked where
  pages : List (Nat × Nat × W64) := []
  stop : Option OnceRes := none
/-- Translate the page of a piece and check it (08 R227): its permission, its kind, one format code for a whole source, no
destination in a region in state S. -/
def walkPiece (o : Once) (write : Bool) (acc : Walked × State) (p : W64 × Nat) : Walked × State :=
  let m := acc.1
  let stop := fun (r : OnceRes) (s : State) => ({ m with stop := some r }, s)
  let page := p.1.toNat / 2 ^ 16
  let off := p.1.toNat % 2 ^ 16
  let regions := fun (m : Walked) (base : Nat) (pte : W64) (s : State) =>
    let key := base + off
    let rs := (List.range ((key + p.2 - 1) / 4096 - key / 4096 + 1)).map (fun i => key / 4096 + i)
    match if write && pteNear pte then rs.find? (fun r => s.regionState r == 2) else none with
    | some r => ({ m with stop := some (OnceRes.fault 0x12 (p.1 + BitVec.ofNat 64 (max (r * 4096) key - key))) }, s)
    | none => (m, s)
  if m.stop.isSome then acc
  else if !canonicalVa p.1 then stop (.fault 0x11 p.1) acc.2
  else match m.pages.find? (fun x => x.1 == page) with
    | some x => regions m x.2.1 x.2.2 acc.2
    | none =>
      match translate acc.2 (acc.2.who o.thread) p.1 (if write then .write else .read) with
      | (.fault f, s) => stop (.fault f p.1) s
      | (.notPresent, s) => stop (.absent p.1 (if write then 6 else 5)) s
      | (.wait, s) => stop .wait s
      | (.ok key pte, s) =>
        if targetOf key == .mmio || targetOf key == .hostMmio then stop (.fault 0x11 p.1) s
        else if !write && m.pages.head?.any (fun x => pteFormat x.2.2 != pteFormat pte) then stop (.fault 0x0B p.1) s
        else regions { m with pages := m.pages ++ [(page, key - off, pte)] } (key - off) pte s
/-- Translate a global operand (08 R227). -/
def mapGlobal (o : Once) (write : Bool) (rows : List (W64 × Nat)) (s : State) : Mapped × State :=
  let ps := rows.map (fun r => pieces 512 r.1 r.2)
  let w := (sortBy (fun p => p.1.toNat) ps.flatten).foldl (walkPiece o write) ({}, s)
  let key := fun (a : W64) => ((w.1.pages.find? (fun x => x.1 == a.toNat / 2 ^ 16)).elim 0 (fun x => x.2.1)) + a.toNat % 2 ^ 16
  ({ rows := ps.map (fun r => r.map (fun p => ⟨false, key p.1, p.2⟩))
     tag := (w.1.pages.head?.map (fun x => pteFormat x.2.2)).getD 0
     pages := w.1.pages.map (fun x => (x.2.1 / 2 ^ 16, BitVec.ofNat 64 (x.1 * 2 ^ 16))), stop := w.1.stop }, w.2)
/-- Split a stretch at lines. -/
def lineSpans (p : Span) : List Span :=
  (List.range ((p.last - 1) / 128 - p.start / 128 + 1)).map (fun i =>
    let lo := max p.start ((p.start / 128 + i) * 128)
    ⟨false, lo, min p.last ((p.start / 128 + i + 1) * 128) - lo⟩)
/-- Count the line requests of stretches of global memory, each with its virtual address, for the sampler (12 R323). -/
def countSpans (s : State) (o : Once) (kind : Nat) (far : Bool) (ps : List (W64 × Span)) : State :=
  if !s.sampleOn then s
  else ps.foldl (fun (s : State) (p : W64 × Span) =>
    (lineSpans p.2).foldl (fun (s : State) (q : Span) =>
      s.countLine o.core (s.asid (s.regionOf o.slot)).toNat (p.1 + BitVec.ofNat 64 (q.start - p.2.start)) (some q.start) kind
        (s.l1Serves o.core q.start q.len false) far) s) s
/-- The same of a global operand of a job, whose stretches are the pieces of its rows. -/
def countPieces (s : State) (o : Once) (kind : Nat) (rows : List (W64 × Nat)) (spans : List Span) : State :=
  countSpans s o kind false (((rows.flatMap (fun r => pieces 512 r.1 r.2)).map (fun p => p.1)).zip spans)

/-- Base addresses are multiples of 16 (08 R224). -/
def alignStop (a : Nat) : Option OnceRes := if a % 16 != 0 then some (.fault 0x15 (BitVec.ofNat 64 a)) else none
/-- The segments of scratch stretches, rising. -/
def segsOf (spans : List Span) : List Nat :=
  dedup (sortBy id (spans.flatMap (fun p => if p.len == 0 then [] else
    (List.range ((p.last - 1) / 4096 - p.start / 4096 + 1)).map (fun j => p.start / 4096 + j))))
/-- The lower of two offending offsets. -/
def lowerOf (a b : Option (Nat × Nat)) : Option (Nat × Nat) :=
  match a, b with
  | some x, some y => if y.2 < x.2 then b else a
  | none, _ => b
  | _, none => a
/-- A scratch operand of a job: its base's alignment, then its lowest offending offset, out of range (01 R29) or, for a
source, of a segment whose tag is not the one asked for, or not that of the first (08 R226, R227). -/
def mapScratch (s : State) (slot base : Nat) (rows : List (Nat × Nat)) (source : Bool) (want : Option (BitVec 6)) : Mapped :=
  let size := (s.headerOf slot).scratch
  let spans : List Span := rows.map (fun r => ⟨true, r.1, r.2⟩)
  let out := (rows.filter (fun r => size < r.1 + r.2)).foldl (fun a r => lowerOf a (some (0x11, max r.1 size))) none
  let segs := if source then (segsOf spans).filter (fun g => g * 4096 < size) else []
  let tag := want.getD (s.scratchTag slot (segs.headD 0 * 4096))
  let wrong := (segs.find? (fun g => s.scratchTag slot (g * 4096) != tag)).map (fun g => (0x0B, g * 4096))
  { rows := spans.map (fun p => [p]), tag := tag
    stop := (alignStop base).orElse (fun _ => (lowerOf wrong out).map (fun x => .fault x.1 (BitVec.ofNat 64 x.2))) }

/-- Pair pieces of a source row with pieces of a destination row. -/
def zipRows : Nat → List Span → List Span → List (Span × Span)
  | 0, _, _ => []
  | _, [], _ => []
  | _, _, [] => []
  | fuel + 1, a :: as, b :: bs =>
    let n := min a.len b.len
    let rest := fun (x : Span) (l : List Span) => if x.len == n then l else { x with start := x.start + n, len := x.len - n } :: l
    ({ a with len := n }, { b with len := n }) :: zipRows fuel (rest a as) (rest b bs)

/-- Put a job that passed its checks on its channel. -/
def addJob (o : Once) (f : FmtX) (op : JobOp) (moves : List (Span × Span)) (reads writes : List Span)
    (offsets : List Nat) (tags : List (Nat × BitVec 6)) (pages : List (Nat × W64)) (s : State) : OnceRes × State :=
  let id := s.nextId
  let t := { s with nextId := id + 1 }.giveToken o f.tok.toNat (.channel f.eng.toNat) id
  let j : Job := { id := id, channel := f.eng.toNat, block := s.blockOf o.slot, gang := o.slot, thread := o.thread
                   token := t.1, op := op, moves := moves, reads := reads, writes := writes, offsets := offsets, tags := tags
                   pages := pages }
  (.done, t.2.modCore o.core (fun k => { k with jobs := k.jobs ++ [j] }))

/-- The first stop of a list. -/
def firstStop : List (Option OnceRes) → Option OnceRes
  | [] => none
  | none :: r => firstStop r
  | some x :: _ => some x

/-- The rows of a copy: base, length, stride multiples by row. -/
def rowAddr (base : W64) (stride : Nat) (mult : Nat → Nat) (n len : Nat) : List (W64 × Nat) :=
  (List.range n).map (fun r => (base + BitVec.ofNat 64 (mult r * stride), len))
def rowOff (base stride : Nat) (mult : Nat → Nat) (n len : Nat) : List (Nat × Nat) :=
  (List.range n).map (fun r => (base + mult r * stride, len))

/-- A copy's operand at a scalar register: `n` rows of `len` bytes at row multiples of a stride. -/
def copyOperand (o : Once) (scr write : Bool) (r stride : Nat) (mult : Nat → Nat) (n len : Nat) (s : State) : Mapped × State :=
  if scr then (mapScratch s o.slot (o.k r).toNat (rowOff (o.k r).toNat stride mult n len) (!write) none, s)
  else match alignStop (o.k64 r).toNat with
    | some x => ({ stop := some x }, s)
    | none => mapGlobal o write (rowAddr (o.k64 r) stride mult n len) s
/-- The copies: two operands, `n` rows of `len` bytes, by row multiples `ms` and `md`; `index`: the index array. The tag that
a copy between scratch operands passes on is the source's as it stands at issue. DESIGN CHOICE, log 83. -/
def copyIssue (o : Once) (f : FmtX) (n len sst dst : Nat) (ms md : Nat → Nat) (index : List Span)
    (late : Option OnceRes) (s : State) : OnceRes × State :=
  let a := f.kP.toNat
  let b := f.kQ.toNat
  let src := copyOperand o f.srcScr false a sst ms n len s
  match src.1.stop with
  | some r => (r, src.2)
  | none =>
    let d := copyOperand o f.dstScr true b dst md n len src.2
    match firstStop [d.1.stop, late] with
    | some r => (r, d.2)
    | none =>
      let reads := src.1.rows.flatten ++ index
      let writes := d.1.rows.flatten
      if overlaps reads writes then (.fault 0x02 0, d.2)
      else
        let moves := (src.1.rows.zip d.1.rows).flatMap (fun p => zipRows 1024 p.1 p.2)
        let s := if f.srcScr then d.2 else countPieces d.2 o 5 (rowAddr (o.k64 a) sst ms n len) src.1.rows.flatten
        let s := if f.dstScr then s else countPieces s o 6 (rowAddr (o.k64 b) dst md n len) writes
        addJob o f .copy moves reads writes [] (if f.dstScr then (segsOf writes).map (fun g => (g, src.1.tag)) else [])
          src.1.pages s

def rowBytesOk (n : Nat) : Bool := 16 ≤ n && n ≤ 65536 && n % 16 == 0

/-- CPY (08 R229). -/
def cpyBody (f : FmtX) : OnceBody := fun o s =>
  let n := (o.k f.kS.toNat).toNat
  if n < 16 || 2 ^ 24 < n || n % 16 != 0 then (.fault 0x02 0, s)
  else copyIssue o f 1 n 0 0 (fun _ => 0) (fun _ => 0) [] none s
/-- CPY2D (08 R230). -/
def cpy2dBody (f : FmtX) : OnceBody := fun o s =>
  let k := fun i => (o.k (f.kS.toNat + i)).toNat
  if !rowBytesOk (k 0) || k 1 % 16 != 0 || k 2 % 16 != 0 then (.fault 0x02 0, s)
  else copyIssue o f (rowCount f) (k 0) (k 1) (k 2) id id [] none s
/-- The index array of GATH and SCAT: its words, or what stops the issue (08 R224, R231). -/
def indexArray (o : Once) (at' n : Nat) (s : State) : (Nat → Nat) × Option OnceRes :=
  let size := (s.headerOf o.slot).scratch
  if size < at' + 4 * n then (fun _ => 0, some (.fault 0x11 (BitVec.ofNat 64 (max at' size))))
  else match (List.range n).find? (fun r => s.scratchFailed o.slot (at' + 4 * r) 4) with
    | some r => (fun _ => 0, some (.fault 0x17 (BitVec.ofNat 64 (at' + 4 * r))))
    | none => (fun r => s.scratchRead o.slot (at' + 4 * r) 4, none)
/-- GATH (08 R231) and SCAT (08 R232): the index array, which is read at issue, waits for older jobs that write it (08 R225).
DEDUCED, log 38. Of an index array that cannot be read the operand that the indices address is still checked, each index as 0.
DESIGN CHOICE, log 107. -/
def indexBody (f : FmtX) (gather : Bool) : OnceBody := fun o s =>
  let k := fun i => (o.k (f.kS.toNat + i)).toNat
  let n := rowCount f
  let span : List Span := [⟨true, k 1, 4 * n⟩]
  if !rowBytesOk (k 0) || k 1 % 4 != 0 || k 2 % 16 != 0 then (.fault 0x02 0, s)
  else if (s.core o.core).jobs.any (fun j => j.block == s.blockOf o.slot && overlaps j.writes span) then (.wait, s)
  else
    let ix := indexArray o (k 1) n s
    -- without a readable index array only the operands that do not need it are looked at
    let idx := if ix.2.isSome then (fun _ => 0) else ix.1
    if gather then copyIssue o f n (k 0) (k 2) (k 0) idx id span ix.2 s
    else copyIssue o f n (k 0) (k 0) (k 2) id idx span ix.2 s

/-- QDUAL (08 R233). -/
def qdualBody (f : FmtX) : OnceBody := fun o s =>
  let k := fun r => (o.k r).toNat
  let es := elemSize f.sfmt
  let st := k (f.kP.toNat + 1)
  let stride := if st == 0 then 64 * es else st
  let src := k f.kP.toNat
  let tr := k f.kQ.toNat
  let tc := k (f.kQ.toNat + 1)
  let sr := k f.kS.toNat
  let sc := k (f.kS.toNat + 1)
  if stride % 16 != 0 || tr % 4096 != 0 || tc % 4096 != 0 then (.fault 0x02 0, s)
  else
    let m := mapScratch s o.slot src (rowOff src stride id 64 (64 * es)) true (some f.sfmt)
    let out := fun (a n : Nat) => (mapScratch s o.slot a [(a, n)] false none).stop
    match firstStop [m.stop, out tr 4096, out tc 4096, out sr 128, out sc 128] with
    | some r => (r, s)
    | none =>
      let outs : List Span := [⟨true, tr, 4096⟩, ⟨true, tc, 4096⟩, ⟨true, sr, 128⟩, ⟨true, sc, 128⟩]
      let clash := (List.range 4).any (fun i => (List.range 4).any (fun j =>
        i < j && overlaps ((outs[i]?).toList) ((outs[j]?).toList)))
      if clash || overlaps m.rows.flatten outs then (.fault 0x02 0, s)
      else addJob o f (.quant f.sfmt f.tfmt stride) [] m.rows.flatten outs [src, tr, tc, sr, sc]
        ((segsOf (outs.take 2)).map (fun g => (g, f.tfmt)) ++ (segsOf (outs.drop 2)).map (fun g => (g, 4))) [] s

/-- CAST (08 R234). -/
def castBody (f : FmtX) : OnceBody := fun o s =>
  let n := (o.k f.kS.toNat).toNat
  let src := (o.k f.kP.toNat).toNat
  let dst := (o.k f.kQ.toNat).toNat
  if n < 1 || 2 ^ 20 < n then (.fault 0x02 0, s)
  else
    let a := mapScratch s o.slot src [(src, n * elemSize f.sfmt)] true (some f.sfmt)
    let b := mapScratch s o.slot dst [(dst, n * elemSize f.tfmt)] false none
    match firstStop [a.stop, b.stop] with
    | some r => (r, s)
    | none =>
      if overlaps a.rows.flatten b.rows.flatten then (.fault 0x02 0, s)
      else
        let l := s.lane o.thread
        let seed := (s.launch (s.gang o.slot).launch).seed
        let s := if f.rndBits == 4 then s.modLane o.thread (fun l => { l with rng := l.rng + BitVec.ofNat 24 n }) else s
        addJob o f (.cast f.sfmt f.tfmt f.rndBits.toNat f.satBit seed (l.lineage.extractLsb' 48 16) l.popindex l.rng) []
          a.rows.flatten b.rows.flatten [src, dst, n] ((segsOf b.rows.flatten).map (fun g => (g, f.tfmt))) [] s

def execCpy (h : Hdr) (f : FmtX) (s : State) : Host.Outcome State Fault Refusal :=
  runInstr (.cpy h f) s (issueOnce (.cpy h f) f (cpyBody f))
def execCpy2d (h : Hdr) (f : FmtX) (s : State) : Host.Outcome State Fault Refusal :=
  runInstr (.cpy2d h f) s (issueOnce (.cpy2d h f) f (cpy2dBody f))
def execGath (h : Hdr) (f : FmtX) (s : State) : Host.Outcome State Fault Refusal :=
  runInstr (.gath h f) s (issueOnce (.gath h f) f (indexBody f true))
def execScat (h : Hdr) (f : FmtX) (s : State) : Host.Outcome State Fault Refusal :=
  runInstr (.scat h f) s (issueOnce (.scat h f) f (indexBody f false))
def execQdual (h : Hdr) (f : FmtX) (s : State) : Host.Outcome State Fault Refusal :=
  runInstr (.qdual h f) s (issueOnce (.qdual h f) f (qdualBody f))
def execCast (h : Hdr) (f : FmtX) (s : State) : Host.Outcome State Fault Refusal :=
  runInstr (.cast h f) s (issueOnce (.cast h f) f (castBody f))

/-! ### QDUAL's arithmetic (02 R70). -/

/-- Numerator, denominator and exponent of a value's magnitude. -/
def magOf : FVal → Nat × Int
  | .fin _ m e => (m, e)
  | _ => (0, 0)
/-- |a| ≤ m × s, exactly. -/
def fitsScale (a m s : FVal) : Bool := let p := fmul m s; !flt false p a
/-- A block's scale and elements. -/
def quantBlock (c : BitVec 6) (xs : List FVal) : Nat × List Nat :=
  let abs := fun (x : FVal) => match x with | .fin _ m e => FVal.fin false m e | .inf _ => .inf false | .zero _ => .zero false | .nan => .nan
  if xs.any (fun x => fisNan x || fisInf x) then (0x7F, xs.map (fun _ => b8Nan c))
  else
    let amax := xs.foldl (fun a x => if flt false a (abs x) then abs x else a) (.zero false)
    let top := b8Decode c (b8Max c)
    let s := if fisZero amax then 1
             else ((List.range 0x7E).map (· + 1)).find? (fun k => fitsScale amax top (e4m3Decode k)) |>.getD 0x7E
    let sv := magOf (e4m3Decode s)
    (s, xs.map (fun x => match x with
      | .fin neg m e => b8RoundMag c 0 0 true neg m sv.1 (e - sv.2)
      | _ => 0))

/-! ### Performing a job (08 R225). -/

/-- The bytes of a stretch as the job reads them: scratch; or the homes' under those of the core that are not home yet. -/
def spanBytes (s : State) (c slot : Nat) (p : Span) : List Byte × State :=
  if p.scr then (tgets 0 (s.scratchPart slot).scratch p.start p.len, s)
  else if targetOf p.start == .peer then s.freeBytes p.len
  else ((lineSpans p).flatMap (fun q => ((s.viewBytes c (q.start / 128)).drop (q.start % 128)).take q.len), s)
/-- Write a stretch: scratch, or the homes, the core's L1 copies dropped (08 R225). -/
def writeSpan (s : State) (c slot : Nat) (p : Span) (bs : List Byte) : State :=
  if p.scr then s.scratchWrite slot p.start bs
  else (lineSpans p).foldl (fun s q =>
    let part := (bs.drop (q.start - p.start)).take q.len
    if targetOf p.start == .peer then s.peerSend slot (peerOf q.start) .store [(peerPa q.start, part)]
    else ((s.homeWrite q.start part).dropBytes c q.start q.len).markStale c (fun l => l == q.start / 128)) s
/-- The uncorrectable source byte of a job with the lowest address: the code, the address, the byte (08 R227). -/
def jobFault (s : State) (c : Nat) (j : Job) : Option (Nat × W64 × Span) :=
  if s.failed.isEmpty then none
  else
    let fault := fun (p : Span) (a : Nat) =>
      if p.scr then (if s.scratchFailed j.gang a 1 then some 0x17 else none)
      else s.dataFault c a 1 true
    let name := fun (p : Span) (a : Nat) =>
      if p.scr then a else ((tfind j.pages (a / 2 ^ 16)).getD (BitVec.ofNat 64 (a / 2 ^ 16 * 2 ^ 16))).toNat + a % 2 ^ 16
    let bad := fun (ps : List Span) => ps.filterMap (fun p =>
      if !p.scr && targetOf p.start == .peer then none
      else ((List.range p.len).find? (fun i => (fault p (p.start + i)).isSome)).map (fun i =>
        ((fault p (p.start + i)).getD 0, BitVec.ofNat 64 (name p (p.start + i)), { p with start := p.start + i, len := 1 })))
    (sortBy (fun x => x.2.1.toNat) (bad (match j.op with | .copy => j.moves.map (fun m => m.1) | _ => j.reads))).head?
def spanLines (ps : List Span) : List Nat :=
  dedup (ps.flatMap (fun p => if p.scr || p.len == 0 || targetOf p.start == .peer then [] else (lineSpans p).map (fun q => q.start / 128)))

def quantJob (s : State) (slot : Nat) (src dst : BitVec 6) (stride : Nat) (off : List Nat) : State :=
  let o := fun i => off.getD i 0
  let es := elemSize src
  let x := fun (i n : Nat) => elemVal src (s.scratchRead slot (o 0 + i * stride + n * es) es)
  let half := List.range 32
  let blocks := (List.range 64).flatMap (fun i => [(i, 0), (i, 1)])
  blocks.foldl (fun s' p =>
    let r := quantBlock dst (half.map (fun j => x p.1 (32 * p.2 + j)))
    let q := quantBlock dst (half.map (fun j => x (32 * p.2 + j) p.1))
    let s' := s'.scratchWrite slot (o 1 + 64 * p.1 + 32 * p.2) (r.2.map (BitVec.ofNat 8))
    let s' := s'.scratchWrite slot (o 3 + 2 * p.1 + p.2) [BitVec.ofNat 8 r.1]
    let s' := (half.zip q.2).foldl (fun s' e => s'.scratchWrite slot (o 2 + 64 * (32 * p.2 + e.1) + p.1) [BitVec.ofNat 8 e.2]) s'
    s'.scratchWrite slot (o 4 + 2 * p.1 + p.2) [BitVec.ofNat 8 q.1]) s
def castElem (src dst : BitVec 6) (rnd : Nat) (sat : Bool) (r : W32) (x : Nat) : Nat :=
  let v := elemVal src x
  if src == dst && !fisNan v then x else elemRound dst rnd r sat v

/-- The pieces of a copy in order, up to one for which the port of its peer has no room (21 R422): those that are left. -/
def copyMoves (c : Nat) (j : Job) : List (Span × Span) → State → List (Span × Span) × State
  | [], s => ([], s)
  | m :: ms, s =>
    if !m.2.scr && targetOf m.2.start == .peer && !s.peerFits [(peerOf m.2.start, m.2.len)] then (m :: ms, s)
    else let r := spanBytes s c j.gang m.1; copyMoves c j ms (writeSpan r.2 c j.gang m.2 r.1)
/-- Perform the data movement of a job; the pieces of a copy that are left, and the state. -/
def performJob (c : Nat) (j : Job) (s : State) : List (Span × Span) × State :=
  let r := match j.op with
    | .copy => copyMoves c j j.moves s
    | .quant a b st => ([], quantJob s j.gang a b st j.offsets)
    | .cast a b rnd sat seed gen pop first =>
      let o := fun i => j.offsets.getD i 0
      ([], (List.range (o 2)).foldl (fun (s : State) (i : Nat) =>
        let x := s.scratchRead j.gang (o 0 + i * elemSize a) (elemSize a)
        let r := if rnd == 4 then drawOf seed gen pop (first + BitVec.ofNat 24 i) else 0
        s.scratchWrite j.gang (o 1 + i * elemSize b) (leBytes (elemSize b) (castElem a b rnd sat r x))) s)
  (r.1, r.2.modPart j.block c (fun p =>
    { p with tags := j.tags.foldl (fun (t : Tab (BitVec 6)) (g : Nat × BitVec 6) => tset 0 t g.1 g.2) p.tags }))

/-- Two jobs of a core that execute in issue order: of one channel; or common bytes that one of them writes (08 R225); or an
overlap of their footprints and a segment that both write, whose tag is the later job's (01 R30). -/
def jobsOrdered (a b : Job) : Bool :=
  let segs := segsOf (a.writes.filter (fun p => p.scr))
  a.channel == b.channel || overlaps a.writes (b.reads ++ b.writes) || overlaps a.reads b.writes ||
    (a.block == b.block && overlaps a.reads b.reads && (segsOf (b.writes.filter (fun p => p.scr))).any segs.contains)
/-- No write of a core to some lines is on its way to their homes (09 R258). -/
def linesQuiet (s : State) (c : Nat) (lines : List Nat) : Bool :=
  !s.unserved.any (fun m => m.toHome && lines.contains m.line && sentBy m c &&
    (match m.body with | .writeBack .. | .leaseWrite .. | .red .. => true | _ => false))
/-- A job may finish: no older job of the core goes before it, and no write of the core is on its way to its lines. -/
def jobReady (s : State) (c : Nat) (j : Job) : Bool :=
  !(s.core c).jobs.any (fun k => k.id < j.id && jobsOrdered k j) && linesQuiet s c (spanLines (j.reads ++ j.writes))

/-- JOB_COMPLETE (08 R225): the channel's oldest job is performed and its token completes. Source lines with a release
record are drained first. -/
def execJobComplete (core channel : Nat) (s : State) : Host.Outcome State Fault Refusal :=
  match (s.core core).jobs.find? (fun j => j.channel == channel) with
  | none => .next s
  | some j =>
    -- the job of a saved gang waits for its restore (21 R427)
    if (tfind s.gangs j.gang).isNone || !jobReady s core j then .next s
    else
      let r := s.homeReadyAll (spanLines j.reads)
      if !r.1 then .next r.2
      else
        let done := fun (s : State) (f : Option (Nat × W64)) =>
          ((s.modCore core (fun k => { k with jobs := k.jobs.filter (fun x => x.id != j.id) })).finishToken j.gang j.id f).reap j.gang
        match jobFault r.2 core j with
        | some (code, ea, p) =>
          let s := if p.scr then logRecord r.2 1 code 1 core p.start else (r.2.logData core code p.start).dropFailed core p.start 1
          .next (done s (some (code, ea)))
        | none =>
          let m := performJob core j r.2
          if m.1.isEmpty then .next (done m.2 none)
          else .next (m.2.modCore core (fun k => { k with jobs := k.jobs.map (fun x => if x.id == j.id then { x with moves := m.1 } else x) }))

end Sys2Proof.Machine
end

