-- ==== Sys2Proof/Machine/Sync.lean ====
section
/-!
DEFINITION. Class 0x9: fences, barriers, weirs, token waits and region transitions (07 R199-R208).
-/

namespace Sys2Proof.Machine

open State

/-! ### FENCE (07 R200, 10 R281, R283). -/

def execFence (h : Hdr) (f : FmtM) (s : State) : Host.Outcome State Fault Refusal :=
  runInstr (.fence h f) s (fun cx s =>
    let hold := fun (st : Status) (s : State) => (s, cx.ts.map (fun t => (t, Disp.stay st)))
    if cx.act.isEmpty then (s, [])
    else if !s.releaseReady cx.core cx.act (memRel f && s.wideFor cx.act f.scope) then hold .ready s
    else
      let wide := s.wideFor cx.act f.scope
      let e := if memRel f && wide then s.eager cx.core cx.gid (fun _ => false) else (none, s)
      match e.1 with
      | some st => hold st e.2
      | none => (if memAcq f && wide then e.2.dropClean cx.core else e.2, []))

/-! ### BAR, BARA (07 R201, R202). -/

def barState (b : Block) (id : Nat) : BarState := (tfind b.bars id).getD { phase := 0, arrived := [] }
/-- Arrive at the open phase, a release at block scope first; `wait`: and wait for it. -/
def arrive (s : State) (cx : Ctx) (id : Nat) (wait : Bool) : State × List (Nat × Disp) :=
  let all := fun (s : State) (d : Disp) => (s, cx.ts.map (fun t => (t, d)))
  let bk := s.blockOf cx.slot
  let b := s.block bk
  let st := barState b id
  if st.arrived.contains cx.slot then all s (.stay (.barrier id st.phase))
  else if !s.releaseReady cx.core cx.ts (wideScope b.scope) then all s (.stay .ready)
  else
    let e := if wideScope b.scope then s.eager cx.core cx.gid (fun _ => false) else (none, s)
    match e.1 with
    | some x => all e.2 (.stay x)
    | none =>
      let s := e.2.modBlock bk (fun b => { b with
        bars := tput b.bars id { phase := st.phase, arrived := st.arrived ++ [cx.slot] } })
      let s := s.modGang cx.slot (fun g => { g with
        bars := tput g.bars id { nextPhase := st.phase + 1, bara := if wait then none else some st.phase } })
      let s := s.tryBarrier bk id
      if !wait then (s, [])
      else if (barState (s.block bk) id).phase == st.phase then all s (.move (.barrier id st.phase))
      else (s.acquireAt cx.core b.scope, [])
/-- Gather the gang, then act once if a guard held. -/
def gathered (cx : Ctx) (s : State) (go : State → State × List (Nat × Disp)) : State × List (Nat × Disp) :=
  if !(s.missing cx).isEmpty then (s, cx.ts.map (fun t => (t, .stay (.gather true))))
  else if cx.act.isEmpty then (s, [])
  else go s
def barId (f : FmtC) : Nat := (f.mods.extractLsb' 0 4).toNat
def execBar (h : Hdr) (f : FmtC) (s : State) : Host.Outcome State Fault Refusal :=
  runInstr (.bar h f) s (fun cx s => gathered cx s (fun s =>
    let id := barId f
    if f.mods.getLsbD 4 then
      let b := s.block (s.blockOf cx.slot)
      match (tfind (s.gang cx.slot).bars id).bind (fun g => g.bara) with
      | none => (s, [])
      | some p =>
        let s := s.modGang cx.slot (fun g => { g with bars := tmod g.bars id (fun x => { x with bara := none }) })
        if p < (barState b id).phase then (s.acquireAt cx.core b.scope, [])
        else (s, cx.ts.map (fun t => (t, .move (.barrier id p))))
    else arrive s cx id true))
def execBara (h : Hdr) (f : FmtC) (s : State) : Host.Outcome State Fault Refusal :=
  runInstr (.bara h f) s (fun cx s => gathered cx s (fun s => arrive s cx (barId f) false))

/-! ### Weirs (07 R203-R206). -/

def weirTrap (cx : Ctx) (w : Nat) (s : State) : State × List (Nat × Disp) :=
  (s, cx.ts.map (fun t => (t, .trap 0x0A (BitVec.ofNat 64 w))))
def execWdecl (h : Hdr) (f : FmtC) (s : State) : Host.Outcome State Fault Refusal :=
  runInstr (.wdecl h f) s (fun cx s =>
    let w := f.weir.toNat
    let x := s.weir cx.slot w
    if cx.act.isEmpty then (s, [])
    else if x.signed != 0 then weirTrap cx w s
    else
      let set := if f.mods.getLsbD 0 then laneMask cx.ts
                 else s.kreg cx.ts cx.slot f.a.toNat &&& laneMask (s.liveOf cx.slot)
      (s.setWeir cx.slot w { Weir.idle with declared := set, state := if set == 0 then .idle else .opened }, []))
/-- What a signature of a join round came to. -/
inductive Signed where
  | fault
  /-- The lanes' earlier accesses are not complete: the signature, a release at gang scope, waits (09 R272). -/
  | wait
  | open'
  | complete
  deriving DecidableEq, Repr
/-- Sign a join round (07 R203). -/
def joinSign (s : State) (cx : Ctx) (w : Nat) : Signed × State :=
  let x := s.weir cx.slot w
  let mask := laneMask cx.ts
  if weirFault x mask none then (.fault, s)
  else if !cx.ts.all s.threadQuiet then (.wait, s)
  else
    let signed := x.signed ||| mask
    if signed == x.declared then (.complete, (s.wakeJoiners cx.slot w false true).closeRound cx.slot w)
    else (.open', s.setWeir cx.slot w { x with signed := signed, round := some none, state := .opened })
def execWsign (h : Hdr) (f : FmtC) (s : State) : Host.Outcome State Fault Refusal :=
  runInstr (.wsign h f) s (fun cx s =>
    match joinSign s cx f.weir.toNat with
    | (.fault, s) => weirTrap cx f.weir.toNat s
    | (.wait, s) => (s, cx.ts.map (fun t => (t, .stay .ready)))
    | (_, s) => (s, []))
def execWjoin (h : Hdr) (f : FmtC) (s : State) : Host.Outcome State Fault Refusal :=
  runInstr (.wjoin h f) s (fun cx s =>
    let w := f.weir.toNat
    let t := f.mods.toNat
    let d := f.d.toNat
    match joinSign s cx w with
    | (.fault, s) => weirTrap cx w s
    | (.wait, s) => (s, cx.ts.map (fun t => (t, .stay .ready)))
    | (.complete, s) => (cx.ts.foldl (fun s t => s.writeP t d true none) s, [])
    | (.open', s) =>
      if t == 0 then (cx.ts.foldl (fun s t => s.writeP t d false none) s, [])
      else
        let x := s.weir cx.slot w
        let timed := t != 0x7FFFF
        -- one more than the cycles left, 16 to a unit; a running timeout becomes the smaller (07 R206, 15 R370)
        let left := if !timed then x.timeout else if x.timeout == 0 then 16 * t + 1 else min x.timeout (16 * t + 1)
        (s.setWeir cx.slot w { x with timeout := left },
         cx.ts.map (fun t => (t, .move (.join w timed (BitVec.ofNat 3 d))))))

/-! ### TKWAIT (07 R207). -/

/-- The token stays, without its fault, until its issuing thread has waited for it. -/
def execTkwait (h : Hdr) (f : FmtC) (s : State) : Host.Outcome State Fault Refusal :=
  runInstr (.tkwait h f) s (fun cx s =>
    let v := s.kreg cx.ts cx.slot f.a.toNat
    if cx.act.isEmpty then (s, [])
    else match (s.gang cx.slot).tokens.find? (fun t => t.value == v) with
      | none => (s, [])
      | some t =>
        if !s.tokenComplete cx.core t then (s, cx.ts.map (fun u => (u, .stay .ready)))
        else
          let mine := cx.ts.contains t.thread
          let s := s.modGang cx.slot (fun g => { g with tokens := g.tokens.filterMap (fun x =>
            if x.job != t.job then some x else if mine || !(s.lane t.thread).live then none else some { x with fault := none }) })
          let s := if mine then s.dropClean cx.core else s
          match t.fault with
          | some (c, ea) => (s, cx.ts.map (fun u => (u, .trap c ea)))
          | none => (s, []))

/-! ### RGN (07 R208, 10 R299, R300). -/

def regionEntry (s : State) (region : Nat) : RegionDir :=
  (tfind s.regionDir region).getD { state := 3, pending := 0, queue := [], await := none }
/-- The home starts the transition at the head of a region's queue: a change from C drains every present core. -/
def startTransition (s : State) (region : Nat) : State :=
  let d := regionEntry s region
  match d.queue, d.await with
  | (target, _, _) :: _, none =>
    if (d.state == 0 || d.state == 3) && target != 0 then
      let cs := (List.range Config.numCores).filter (fun c => s.present (homeOf (region * 32)) c && (tfind s.cores c).isSome)
      let s := { s with regionDir := tput s.regionDir region { d with await := some cs } }
      cs.foldl (fun s c => s.send' { core := c, toHome := false, line := region * 32, body := .regionDrain region }) s
    else { s with regionDir := tput s.regionDir region { d with await := some [] } }
  | _, _ => s
def execRgn (h : Hdr) (f : FmtM) (s : State) : Host.Outcome State Fault Refusal :=
  runInstr (.rgn h f) s (fun cx s =>
    let all := fun (s : State) (d : Disp) => (s, cx.ts.map (fun t => (t, d)))
    let t := cx.act.headD 0
    let va := s.globalVa cx f t
    if cx.act.isEmpty then (s, [])
    else if !canonicalVa va then all s (.trap 0x11 va)
    else match translate s (s.who t) va .write with
      | (.fault c, s) => all s (.trap c va)
      | (.notPresent, s) => let p := s.park cx.core (cx.ts.map (fun t => (t, va))) 1; all p.2 (.stay p.1)
      | (.wait, s) => all s (.stay .ready)
      | (.ok key pte, s) =>
        if !pteNear pte || targetOf key != .hbm then all s (.trap 0x12 va)
        else if !s.releaseReady cx.core [t] true then all s (.stay .ready)
        else
          let e := s.eager cx.core cx.gid (fun _ => false)
          match e.1 with
          | some st => all e.2 (.stay st)
          | none =>
            let s := e.2
            let region := key / 4096
            let d := regionEntry s region
            let target := f.op.toNat
            let id := s.nextId
            let s := { s with nextId := id + 1, regionDir := tput s.regionDir region
                                { d with queue := d.queue ++ [(target, cx.core, id)] } }
            all (startTransition s region) (.move (.region id)))

end Sys2Proof.Machine
end

