-- ==== Sys2Proof/Machine/Mred.lean ====
section
/-!
DEFINITION. MRED and the bank nodes (06 R196-R198, 10 R302, 12 R313, 13 R329-R342).
-/

namespace Sys2Proof.Machine

open State

/-! ### Scopes. -/

/-- Does a flag's node lie in the lead's instance of a memory scope (13 R338)? -/
def inScope (scope : BitVec 4) (lead flag : Nat) : Bool :=
  match scope.toNat with
  | 8 => lead == flag
  | 9 => lead / 16 == flag / 16
  | 10 => lead / 1024 == flag / 1024
  | _ => true

/-! ### The operators (13 R333-R337). -/

def r32 (v : FVal) : Nat := fround f32 0 0 false false v
def d32 (x : Nat) : FVal := fdecode f32 x
/-- The greatest m below 2^24 with (2m − 1)^64 ≤ 2^(1600 − j), found bit by bit: 2^(24 − j/64) rounded. DEDUCED, log 22. -/
def powRoot (j : Nat) : Nat :=
  (List.range 24).foldl (fun m i =>
    let m' := m + 2 ^ (23 - i)
    if (2 * m' - 1) ^ 64 ≤ 2 ^ (1600 - j) then m' else m) 0
/-- T[j], the FP32 value nearest 2^(−j/64) (13 R337). -/
def powTable (j : Nat) : Nat := if j == 0 then 0x3F800000 else r32 (.fin false (powRoot j) (-24))
/-- Pow2Neg of a difference that is not negative (13 R336). -/
def pow2Neg (delta : FVal) : Nat :=
  match delta with
  | .fin false m e =>
    let q := m * 2 ^ (e + 6).toNat / 2 ^ (-(e + 6)).toNat
    if 150 * 64 ≤ q then 0
    else match d32 (powTable (q % 64)) with
      | .fin _ t k => r32 (.fin false t (k - (q / 64 : Nat)))
      | _ => 0
  | _ => 0x3F800000

/-- A partial result: one FP32 word, or the pair (m, s). -/
abbrev Partial := Nat × Nat

/-- Operators 0 sum, 1 max, 2 scaled exponential sum. -/
def mredStart (op : Nat) (fmt : BitVec 6) (x : Nat) : Partial :=
  (r32 (elemVal fmt x), if op == 2 then 0x3F800000 else 0)
def mredOp (op : Nat) (a b : Partial) : Partial :=
  match op with
  | 0 => (r32 (fadd 0 (d32 a.1) (d32 b.1)), 0)
  | 1 => (r32 (fmaxNum (d32 a.1) (d32 b.1)), 0)
  | _ =>
    let m := fmaxNum (d32 a.1) (d32 b.1)
    let term := fun (p : Partial) => r32 (fmul (d32 p.2) (d32 (pow2Neg (fadd 0 m (fneg (d32 p.1))))))
    (r32 m, r32 (fadd 0 (d32 (term a)) (d32 (term b))))

/-- Fold partials of nodes in order into their parents, `div` children to a parent. -/
def foldNodes (op div : Nat) (l : List (Nat × Partial)) : List (Nat × Partial) :=
  (l.foldl (fun (acc : List (Nat × Partial)) p =>
    match acc with
    | (k, v) :: r => if k == p.1 / div then (k, mredOp op v p.2) :: r else (p.1 / div, p.2) :: (k, v) :: r
    | [] => [(p.1 / div, p.2)]) []).reverse
/-- Fold of R333 over (bank node, element) pairs in ascending address. -/
def mredFold (op : Nat) (fmt : BitVec 6) (xs : List (Nat × Nat)) : Partial :=
  let banks := xs.foldl (fun (t : Tab Partial) x =>
    let p := mredStart op fmt x.2
    match tfind t x.1 with
    | some v => tput t x.1 (mredOp op v p)
    | none => tput t x.1 p) []
  match foldNodes op 64 (foldNodes op 4 (foldNodes op 4 banks)) with
  | [] => (0, 0)
  | x :: r => r.foldl (fun a b => mredOp op a b.2) x.2
/-- Combine, with the special inputs of the scaled exponential sum (13 R336). -/
def mredCombine (op : Nat) (fmt : BitVec 6) (xs : List (Nat × Nat)) : Partial :=
  let v := fun (x : Nat × Nat) => elemVal fmt x.2
  let nan := fnan f32
  if op == 2 then
    if xs.any (fun x => fisNan (v x)) then (nan, nan)
    else if xs.any (fun x => fisInf (v x) && !fnegative (v x)) then (finf f32 false, nan)
    else
      let rest := xs.filter (fun x => !fisInf (v x))
      if rest.isEmpty then (finf f32 true, 0) else mredFold op fmt rest
  else mredFold op fmt xs

/-! ### Issue. -/

/-- Operations that the root of a bank node's context holds (13 R332). -/
def rootFull (s : State) (lead : Nat) : Bool :=
  lead < 16384 && Config.contextQueue ≤ (s.mreds.filter (fun m => m.2.lead == lead)).length

/-- One translated operand of an MRED. -/
structure MredAt where
  va : W64
  key : Nat
  pte : W64

/-- Translate an operand of `n` bytes; only device memory is allowed, and the source stays in its page. DEDUCED, log 46. -/
def mredPlace (o : Once) (va : W64) (n : Nat) (write : Bool) (s : State) : (OnceRes ⊕ MredAt) × State :=
  match translate s (s.who o.thread) va (if write then .write else .read) with
  | (.fault c, s) => (.inl (.fault c va), s)
  | (.notPresent, s) => (.inl (.absent va 7), s)
  | (.wait, s) => (.inl .wait, s)
  | (.ok key pte, s) =>
    let asid := (s.who o.thread).asid
    let level := ((s.core o.core).tlb.find? (fun e => tlbHit e asid (va.toNat % 2 ^ 57))).elim 0 (fun e => e.level)
    if va.toNat % 2 ^ pageBits level + n > 2 ^ pageBits level then (.inl (.fault 0x15 va), s)
    else if !isDevMem key then (.inl (.fault 0x14 va), s)
    -- any operand in a migrating page waits like a write (12 R328)
    else if pteMigrating pte then (.inl .wait, s)
    else (.inr ⟨va, key, pte⟩, s)
def mredPlaces (o : Once) (s : State) : List (W64 × Nat × Bool) → (OnceRes ⊕ List MredAt) × State
  | [] => (.inr [], s)
  | (va, n, w) :: r =>
    match mredPlace o va n w s with
    | (.inl x, s) => (.inl x, s)
    | (.inr a, s) =>
      match mredPlaces o s r with
      | (.inl x, s) => (.inl x, s)
      | (.inr l, s) => (.inr (a :: l), s)

def regionsOf (key n : Nat) : List Nat := (List.range ((key + n - 1) / 4096 - key / 4096 + 1)).map (fun i => key / 4096 + i)

/-- What an MRED names (06 R197): its element count and sizes, addresses, flags with their scopes. -/
structure MredArgs where
  n : Nat
  es : Nat
  dn : Nat
  op : Nat
  pub : Bool
  wt : Bool
  src : W64
  dst : W64
  pflag : W64
  wflag : W64
  pscope : BitVec 4
  wscope : BitVec 4
def mredArgs (f : FmtX) (o : Once) : MredArgs :=
  let op := f.mods.toNat % 4
  { n := (o.k (f.kP.toNat + 2)).toNat, es := if f.sfmt == 1 then 4 else 2, dn := if op == 2 then 8 else 4, op := op
    pub := f.mods.getLsbD 3, wt := f.mods.getLsbD 2, src := o.k64 f.kP.toNat, dst := o.k64 f.kQ.toNat
    pflag := o.k64 (f.kQ.toNat + 2), wflag := o.k64 f.kS.toNat
    pscope := f.rows.extractLsb' 4 4, wscope := f.rows.extractLsb' 0 4 }
/-- Its operands in their order: address, bytes, whether it is written. -/
def MredArgs.operands (m : MredArgs) : List (W64 × Nat × Bool) :=
  [(m.src, m.n * m.es, false), (m.dst, m.dn, true)] ++ (if m.pub then [(m.pflag, 4, true)] else []) ++
    (if m.wt then [(m.wflag, 4, false)] else [])
/-- An address that is no multiple of its size (06 R198). -/
def alignFault (va : W64) (a : Nat) : Option OnceRes := if va.toNat % a != 0 then some (.fault 0x15 va) else none
/-- The source's alignment and its page bound, which is a check of alignment too, before the other addresses' (06 R198). DEDUCED, log 47. -/
def mredSource (m : MredArgs) (o : Once) (s : State) : Option OnceRes × State :=
  match alignFault m.src m.es with
  | some r => (some r, s)
  | none =>
    match mredPlace o m.src (m.n * m.es) false s with
    | (.inl (.fault 0x15 a), s) => (some (.fault 0x15 a), s)
    | (_, s) => (none, s)
def mredAligned (m : MredArgs) : Option OnceRes :=
  firstStop [alignFault m.dst m.dn, if m.pub then alignFault m.pflag 4 else none, if m.wt then alignFault m.wflag 4 else none]
/-- The translated source, destination and flags of an MRED. -/
structure MredTo where
  a : MredAt
  d : MredAt
  p : Option MredAt
  w : Option MredAt
def MredTo.flags (x : MredTo) : List MredAt := x.p.toList ++ x.w.toList
/-- The destination is in the tier; the lead bank node, and the context's number (13 R331, R332). -/
def MredTo.tier (x : MredTo) : Bool := targetOf x.d.key == .lpddr
def MredTo.lead (x : MredTo) : Nat := nodeOf (pteIl x.d.pte) x.d.key
def MredTo.context (x : MredTo) (c : Nat) : Nat := if x.tier then 16384 + 2 * homeOf (x.d.key / 128) + c else 2 * x.lead + c
def MredTo.source (x : MredTo) (m : MredArgs) : Span := ⟨false, x.a.key, m.n * m.es⟩
def MredTo.pieces (x : MredTo) (m : MredArgs) : List (W64 × Span) :=
  [(m.src, x.source m), (m.dst, ⟨false, x.d.key, m.dn⟩)] ++ x.flags.map (fun y => (y.va, ⟨false, y.key, 4⟩))
def MredTo.spans (x : MredTo) (m : MredArgs) : List Span := (x.pieces m).map (fun p => p.2)
/-- An address lies in a region in state S. -/
def regionShared (s : State) (x : MredAt) : Bool := pteNear x.pte && s.regionState (x.key / 4096) == 2
/-- A flag lies in the lead's instance of its scope (13 R338). -/
def MredTo.inside (x : MredTo) (y : MredAt) (sc : BitVec 4) : Bool :=
  sc == 5 || (targetOf y.key == .hbm && inScope sc x.lead (nodeOf (pteIl y.pte) y.key))
/-- The checks of the placed operands: no write in a region in state S, flags inside their scopes (06 R198, 10 R302). -/
def mredScopes (m : MredArgs) (x : MredTo) (s : State) : Option OnceRes := firstStop [
  if regionShared s x.d then some (OnceRes.fault 0x12 m.dst) else none,
  if x.p.any (regionShared s) then some (.fault 0x12 m.pflag) else none,
  if x.tier && ((m.pub && m.pscope != 5) || (m.wt && m.wscope != 5)) then some (.fault 0x02 m.dst) else none,
  if x.p.any (fun y => !x.inside y m.pscope) then some (.fault 0x02 m.pflag) else none,
  if x.w.any (fun y => !x.inside y m.wscope) then some (.fault 0x02 m.wflag) else none]
/-- A line of the operation is not free to go home: a request of the core covers it, or its release is not acknowledged, or, a
line of the source, it is dirty and leased; a lease holds no write of an MRED back (10 R302). -/
def mredHeld (s : State) (c : Nat) (source : List Nat) (line : Nat) : Bool :=
  s.lineBusy c line || s.pinnedLine c line || (source.contains line && s.leasedLine c line && (s.dirtyLines c).contains line)
/-- The only dirty bytes of a line are those that STLs wrote under a lease: they are not written yet (06 R191, 09 R266). -/
def leasedOnly (s : State) (c line : Nat) : Bool :=
  let stl := ((s.core c).leases.filter (fun l => l.line == line && !l.revoked)).flatMap (fun l => l.stl)
  ((s.l1Line c line).elim [] dirtyCells).all (fun q => stl.contains q.1)
/-- What an MRED that publishes a flag does first: every dirty byte of its core goes home, so that who acquires the flag finds
what happened before the MRED (09 R258, 10 R283). none: done. DEDUCED, log 106. -/
def mredFlush (o : Once) (s : State) : Option OnceRes × State :=
  match s.groupWith o.thread with
  | some (gid, _) =>
    match s.eager o.core gid (leasedOnly s o.core) with
    | (none, s) => (none, s)
    | (some (.requests ids), s) => (some (.flush ids), s)
    | (some _, s) => (some .wait, s)
  | none =>
    let r := s.flushAll o.core (leasedOnly s o.core)
    (if r.1 && (r.2.writeBacks o.core).isEmpty && (s.core o.core).pinned.isEmpty then none else some .wait, r.2)
/-- Register an MRED that passed its checks: its placement (10 R302), its regions' counts, the token. -/
def mredPut (f : FmtX) (m : MredArgs) (x : MredTo) (o : Once) (s : State) : State :=
  let c := f.eng.toNat % 2
  let inM := fun (y : MredAt) => pteNear y.pte && s.regionState (y.key / 4096) == 1
  let srcR := regionsOf x.a.key (m.n * m.es)
  let far := !x.tier && inM x.d && x.p.all inM && x.w.all inM && pteNear x.a.pte &&
    srcR.all (fun r => s.regionState r == 1 || s.regionState r == 2)
  let regs := if far then dedup (srcR ++ (x.d :: x.flags).map (fun y => y.key / 4096)) else []
  let nodes := if far then (List.range m.n).map (fun i => 2 * nodeOf (pteIl x.a.pte) (x.a.key + i * m.es) + c) else []
  let s := countSpans s o 7 far (x.pieces m)
  let s := regs.foldl (fun (s : State) r =>
    let e := regionEntry s r
    { s with regionDir := tput s.regionDir r { e with pending := e.pending + 1 } }) s
  let id := s.nextId
  let t := { s with nextId := id + 1 }.giveToken o f.tok.toNat .mred id
  let ctx := x.context c
  let op : Mred := { core := o.core, gang := o.slot, thread := o.thread, region := s.regionOf o.slot, token := t.1
                     src := x.source m, fmt := f.sfmt, operator := m.op, dst := x.d.key
                     wait := x.w.map (fun y => (y.key, o.k (f.kS.toNat + 2), m.wscope))
                     publish := x.p.map (fun y => (y.key, o.k (f.kS.toNat + 3), m.pscope))
                     far := far, phase := 0, since := 0, regions := regs, il := pteIl x.a.pte, dstIl := pteIl x.d.pte
                     waitIl := x.w.elim 0 (fun y => pteIl y.pte), pubIl := x.p.elim 0 (fun y => pteIl y.pte), lead := ctx
                     contexts := dedup (ctx :: nodes) }
  { t.2 with mreds := tput t.2.mreds id op }

/-- The issue of an MRED (06 R197, R198): checks, translation of every address, placement, the write-back of its lines, the
token. -/
def mredBody (f : FmtX) : OnceBody := fun o s =>
  let m := mredArgs f o
  if m.n < 1 || 65536 < m.n then (.fault 0x02 0, s)
  else
    let first := mredSource m o s
    match firstStop [first.1, mredAligned m] with
    | some r => (r, first.2)
    | none =>
      match mredPlaces o first.2 m.operands with
      | (.inl r, s) => (r, s)
      | (.inr (a :: d :: flags), s) =>
        let x : MredTo := { a := a, d := d, p := if m.pub then flags.head? else none, w := if m.wt then flags.getLast? else none }
        match mredScopes m x s with
        | some r => (r, s)
        | none =>
          let lines := spanLines (x.spans m)
          let wb := s.writeBackFit o.core lines
          if rootFull s (x.context (f.eng.toNat % 2)) || lines.any (mredHeld s o.core (spanLines [x.source m])) then (.wait, s)
          else if !wb.1 then (.wait, wb.2)
          else match if m.pub then mredFlush o wb.2 else (none, wb.2) with
            | (some r, s) => (r, s)
            | (none, s) => (.done, mredPut f m x o s)
      | (_, s) => (.done, s)

def execMred (h : Hdr) (f : FmtX) (s : State) : Host.Outcome State Fault Refusal :=
  runInstr (.mred h f) s (issueOnce (.mred h f) f (mredBody f))

/-! ### Execution. -/

/-- The operation ends: its regions' counts, its token, its gang's slot (06 R198). -/
def endMred (s : State) (id : Nat) (m : Mred) (fault : Option (Nat × W64)) : State :=
  let s := { s with mreds := tdel s.mreds id }
  let s := m.regions.foldl (fun (s : State) r =>
    let e := regionEntry s r
    { s with regionDir := tput s.regionDir r { e with pending := e.pending - 1 } }) s
  (s.finishToken m.gang id fault).reap m.gang
/-- The stack of the lead context, 0xFFFF without one (13 R332). -/
def mredUnit (m : Mred) : Nat := if m.lead < 16384 then nodeStack (m.lead / 2) else 0xFFFF
/-- The interleave scheme of an address of an operation. -/
def mredIl (m : Mred) (pa : Nat) : Nat :=
  if m.src.start ≤ pa && pa < m.src.start + m.src.len then m.il
  else if m.wait.any (fun w => w.1 ≤ pa && pa < w.1 + 4) then m.waitIl
  else if m.publish.any (fun p => p.1 ≤ pa && pa < p.1 + 4) then m.pubIl
  else m.dstIl
/-- An uncorrectable error of a bank node ends the operation with 0x1E; log and journal name the node, and the row of the address
that failed, or of the destination (13 R342). -/
def bankFault (s : State) (id : Nat) (m : Mred) (node : Option Nat) (pa : Nat) : State :=
  let at' := hbmAt (mredIl m pa) pa
  let a := node.elim at' (fun n =>
    { at' with stack := nodeStack n, channel := n / 32 % 32, pch := n / 16 % 2, group := n / 4 % 4, bank := n % 4 })
  let s := { logRecord s 9 0x1E 1 a.stack pa with
    notes := s.notes ++ [.bankNode a.stack a.channel a.pch a.group a.bank a.row]
    failed := s.failed.filter (fun w => !node.any (fun n => w == .bank n)) }
  endMred s id m (some (0x1E, BitVec.ofNat 64 pa))

/-- The first failed byte of a stretch at the homes. -/
def failedByte (s : State) (key n : Nat) : Option Nat :=
  if s.failed.isEmpty then none else ((List.range n).map (fun i => key + i)).find? (fun k => (s.homeFault k 1).isSome)
/-- A bank node of the operation whose state or partial result holds an uncorrectable error: the error is this operation's, and no
other's (13 R342). -/
def nodeFailed (s : State) (m : Mred) : Option Nat :=
  s.failed.findSome? (fun w => match w with
    | .bank n => if m.contexts.any (fun c => c / 2 == n) then some n else none
    | _ => none)
/-- A channel that retrains holds accesses of a far operation to some bytes (12 R312). -/
def farBusy (s : State) (il key n : Nat) : Bool :=
  s.channels.any (fun c => c.2.retraining.isSome) &&
    (List.range ((key % 256 + n + 255) / 256)).any (fun i => s.channelBusy il (key / 256 * 256 + 256 * i))
/-- One that it holds: source, destination, flag published. -/
def mredBusy (s : State) (m : Mred) : Bool :=
  m.far && (farBusy s m.il m.src.start m.src.len || farBusy s m.dstIl m.dst 8 || m.publish.any (fun p => farBusy s m.pubIl p.1 4))

/-- No earlier operation holds a context of this one (13 R330, R332, R339). -/
def contextsFree (s : State) (id : Nat) (m : Mred) : Bool :=
  !s.mreds.any (fun x => x.1 < id && x.2.contexts.any m.contexts.contains)
/-- The issuing core's writes to the lines of the operation have reached their homes (09 R258). -/
def mredQuiet (s : State) (m : Mred) : Bool :=
  let flags := (m.wait.map (fun w => w.1)).toList ++ (m.publish.map (fun p => p.1)).toList
  linesQuiet s m.core (spanLines ([m.src, ⟨false, m.dst, 8⟩] ++ flags.map (fun k => ⟨false, k, 4⟩)))

/-- Contexts run until the memory goes into self-refresh, and again when the ember state is left (06 R198, 21 R425-R427). -/
def banksRun (s : State) : Bool :=
  match s.power with
  | .entering n => n < 5
  | .ember | .exiting _ => false
  | _ => true
/-- MRED_DISPATCH (13 R330): the operation takes its contexts and begins its wait, or runs. -/
def execMredDispatch (op : Nat) (s : State) : Host.Outcome State Fault Refusal :=
  match tfind s.mreds op with
  | none => .next s
  | some m =>
    if m.phase != 0 || !banksRun s || !contextsFree s op m then .next s
    else .next { s with mreds := tput s.mreds op { m with phase := if m.wait.isSome then 1 else 2, since := s.time } }

/-- The flag a waiting operation reads: none while a drain, or a channel that retrains, delays the read. -/
def readFlag (s : State) (m : Mred) (key : Nat) (scope : BitVec 4) : Option W32 × State :=
  let r := if m.far && farBusy s m.waitIl key 4 then (false, s)
           else if m.far && scope != 5 then (true, s) else s.homeReady (key / 128)
  (if r.1 then some (BitVec.ofNat 32 (r.2.natAt key 4)) else none, r.2)

/-- MRED_WAIT_POLL (13 R332): an acquire read of the flag. -/
def execMredWaitPoll (op : Nat) (s : State) : Host.Outcome State Fault Refusal :=
  match tfind s.mreds op with
  | none => .next s
  | some m =>
    match m.phase, m.wait with
    | 1, some (key, v, scope) =>
      match failedByte s key 4 with
      | some pa =>
        if m.far then .next (bankFault s op m none pa)
        else
          let code := (s.homeFault key 4).getD 0x1A
          .next (endMred (s.logHome code pa) op m (some (code, BitVec.ofNat 64 pa)))
      | none =>
        match readFlag s m key scope with
        | (some x, s) => .next (if x == v then { s with mreds := tput s.mreds op { m with phase := 2 } } else s)
        | (none, s) => .next s
    | _, _ => .next s

/-- Ticks that a wait may last (13 R332). -/
def waitLimit (s : State) (m : Mred) : Nat :=
  let q := s.quantumOf m.region
  if q == 0 then 2 ^ 32 else q
/-- MRED_WAIT_LIMIT (13 R332, R341): the wait is over without its flag; the operation is aborted with 0x1D. A flag that
the last read finds in that tick satisfies the wait. DEDUCED, log 48. -/
def execMredWaitLimit (op : Nat) (s : State) : Host.Outcome State Fault Refusal :=
  match tfind s.mreds op with
  | none => .next s
  | some m =>
    match m.phase, m.wait with
    | 1, some (key, v, scope) =>
      if s.time < m.since + waitLimit s m then .next s
      else
        match readFlag s m key scope with
        | (x, s) =>
          if x == some v && s.time == m.since + waitLimit s m then
            .next { s with mreds := tput s.mreds op { m with phase := 2 } }
          else .next (endMred (logRecord s 9 0x1D 2 (mredUnit m) m.dst) op m (some (0x1D, 0)))
    | _, _ => .next s

/-- MRED_COMPLETE (06 R197, 13 R333-R342): the fold, the destination, the publication, the token. -/
def execMredComplete (op : Nat) (s : State) : Host.Outcome State Fault Refusal :=
  match tfind s.mreds op with
  | none => .next s
  | some m =>
    if m.phase != 2 || !contextsFree s op m || !mredQuiet s m || mredBusy s m then .next s
    else
      let r := s.homeReadyAll (spanLines [m.src])
      let s := r.2
      if !r.1 then .next s
      else
        let es := if m.fmt == 1 then 4 else 2
        let dn := if m.operator == 2 then 8 else 4
        let inC := fun (key : Nat) => s.regionState (key / 4096) == 0
        let writes := m.dst :: (m.publish.map (fun p => p.1)).toList
        match failedByte s m.src.start m.src.len, writes.find? inC with
        | some pa, _ =>
          if m.far then .next (bankFault s op m none pa)
          else
            let code := (s.homeFault pa 1).getD 0x1A
            .next (endMred (s.logHome code pa) op m (some (code, BitVec.ofNat 64 pa)))
        | none, c =>
          if m.far && (nodeFailed s m).isSome then .next (bankFault s op m (nodeFailed s m) m.dst)
          else if m.far && c.isSome then .next (endMred s op m (some (0x12, BitVec.ofNat 64 (c.getD 0))))
          else
            -- an operation without a lead context combines its source as one of the tier (13 R331, R333)
            let hbm := targetOf m.src.start == .hbm && m.lead < 16384
            let xs := (List.range (m.src.len / es)).map (fun i =>
              let a := m.src.start + i * es
              (if hbm then nodeOf m.il a else 0, s.natAt a es))
            let v := mredCombine m.operator m.fmt xs
            let s := s.homeWrite m.dst (leBytes dn (v.1 + v.2 * 2 ^ 32))
            let s := match m.publish with
              | some (key, x, _) => s.homeWrite key (leBytes 4 x.toNat)
              | none => s
            .next (endMred s op m none)

end Sys2Proof.Machine
end

