-- ==== Sys2Proof/Machine/Population.lean ====
section
/-!
DEFINITION. Class 0xC but RNG (08 R236-R240, 18 R403-R407): resampling a population, dissolving a pair, starting gangs
from the spawn pool.
-/

namespace Sys2Proof.Machine

open State

/-! ### RSMP. -/

/-- RSMP: a release at device scope, then the gang waits for its population (08 R236). -/
def execRsmp (h : Hdr) (f : FmtX) (s : State) : Host.Outcome State Fault Refusal :=
  runInstr (.rsmp h f) s (fun cx s => gathered cx s (fun s =>
    let all := fun (s : State) (st : Status) => (s, cx.ts.map (fun t => (t, Disp.stay st)))
    -- its threads' leases end first, since the release writes their lines home (10 R283, R292)
    let s := cx.ts.foldl (fun s t => s.endLeasesOf t) s
    if !s.releaseReady cx.core cx.ts true then all s .ready
    else
      let e := s.eager cx.core cx.gid (fun _ => false)
      match e.1 with
      | some st => all e.2 st
      | none => all e.2 (.rsmp f.kP.toNat f.kQ.toNat f.kS.toNat h.stall.toNat)))

/-- The gangs of a population in slot order. -/
def popGangs (s : State) (q : Nat) : List Nat := (s.gangs.filter (fun g => g.2.launch == q)).map (fun g => g.1)
/-- Lanes of a gang that its launch filled (01 R12). -/
def launchedLanes (s : State) (n : Nat) : Nat := min 32 ((s.launch (s.gang n).launch).threads - 32 * (s.gang n).index.toNat)
/-- The threads of a population in population order (01 R22). -/
def popThreads (s : State) (q : Nat) : List Nat :=
  (popGangs s q).flatMap (fun n => (List.range (launchedLanes s n)).map (fun l => 32 * n + l))
/-- The operands a gang waits with, when its live lanes all stand at RSMP. DEDUCED, log 49. -/
def rsmpStand (s : State) (n : Nat) : Option (W64 × Nat × Nat × Nat × Nat) :=
  ((s.liveOf n).head?.bind s.groupWith).bind (fun g => match g.2.status with
    | .rsmp w m u st => some (g.2.pc, w, m, u, st)
    | _ => none)
/-- A gang has arrived: its live lanes stand at RSMP and its work is complete; one without a live lane has (08 R236). -/
def rsmpArrived (s : State) (n : Nat) : Bool :=
  s.liveOf n == [] || ((s.liveOf n).all (fun t => match s.groupWith t with
    | some (_, g) => (match g.status with | .rsmp .. => true | _ => false)
    | none => false) && !s.workLeft n && (s.gang n).tokens.all (fun t => t.done))
/-- A gang of the population is in a save frame: it has not arrived (15 R372). -/
def popSaved (s : State) (q : Nat) : Bool := s.frames.any (fun f => f.2.gangs.any (fun g => g.2.launch == q))
/-- Every gang of the population has arrived. -/
def popArrived (s : State) (q : Nat) : Bool := !popSaved s q && (popGangs s q).all (rsmpArrived s)
/-- The hash of a gang's scalar registers (08 R236). -/
def scalarHash (s : State) (n : Nat) : W64 :=
  let ts := s.liveOf n
  (List.range (s.headerOf n).kregs).foldl (fun h i =>
    mix64 (h ^^^ (BitVec.ofNat 64 i <<< 32) ^^^ (s.kreg ts n i).zeroExtend 64)) 0

/-- K(x) of 18 R405. -/
def resampleBound (m u w x : Nat) : Nat :=
  min m ((x * m * 2 ^ 32 - u * w + (w * 2 ^ 32 - 1)) / (w * 2 ^ 32))
/-- Copies of each slot, from the weights in population order (08 R237): (old index, ordinal) of each new index. -/
def resample (m u : Nat) (ws : List Nat) : List (Nat × Nat) :=
  let w := ws.sum
  (ws.foldl (fun (acc : Nat × Nat × List (Nat × Nat)) x =>
    let p := acc.2.1 + x
    let c := resampleBound m u w p - resampleBound m u w acc.2.1
    (acc.1 + 1, p, acc.2.2 ++ (List.range c).map (fun o => (acc.1, o)))) (0, 0, [])).2.2

/-- Every live lane of the population raises a fault at the RSMP. -/
def popTrap (s : State) (q code : Nat) (ea : W64) : State :=
  let gs := s.groups.filter (fun g => g.2.members.any (fun t => (s.gang (slotOf t)).launch == q))
  gs.foldl (fun s g => s.dispose g.1 g.2.pc (g.2.members.map (fun t => (t, Disp.trap code ea)))) s
/-- Every gang of the population ends (18 R407); a destination slot and its lane are what the journal names. -/
def popEnd (s : State) (q code : Nat) (ea : W64) (dest : Option (Nat × W32)) : State :=
  let s := dest.elim s (fun d => journalFault s q d.1 code d.2 ea)
  (popGangs s q).foldl (fun s n =>
    if s.liveOf n == [] then s
    else if dest.any (fun d => d.1 == n) then s.stopGang n
    else s.endGang n code (laneMask (s.liveOf n)) ea) s

/-! Images in the staging area (18 R403). -/

/-- The image of a thread. -/
def imageBytes (h : Header) (l : Lane) : List Byte :=
  le8 l.epc.toNat ++ le8 l.eaddr.toNat ++ le4 l.status.toNat ++ le4 l.ecause.toNat ++ [l.p.zeroExtend 8] ++ List.replicate 7 0 ++
    (List.range h.vregs).flatMap (fun r => le4 (tget 0 l.v r).toNat)
/-- A thread with what an image holds. -/
def ofImage (h : Header) (l : Lane) (bs : List Byte) : Lane :=
  let f := fun (off n : Nat) => leNat ((bs.drop off).take n)
  { l with
    epc := BitVec.ofNat 64 (f 0 8), eaddr := BitVec.ofNat 64 (f 8 8), status := BitVec.ofNat 32 (f 16 4)
    ecause := BitVec.ofNat 32 (f 20 4), p := BitVec.ofNat 7 (f 24 1)
    v := (List.range h.vregs).foldl (fun t r => tset 0 t r (BitVec.ofNat 32 (f (32 + 4 * r) 4))) [] }
/-- The place of a staging entry. -/
def imageAt (s : State) (q j : Nat) : Nat := ((s.launch q).staging.getD (0, 0)).1 + j * imageSize (s.launch q).header
/-- STAGE OUT: the image of every slot that is copied goes to the staging entries of its copies. -/
def stageOut (s : State) (q : Nat) (copies : List (Nat × Nat)) : State :=
  let old := popThreads s q
  (copies.zip (List.range copies.length)).foldl (fun s c =>
    s.homeWrite (imageAt s q c.2) (imageBytes (s.launch q).header (s.lane (old.getD c.1.1 0)).drained)) s
/-- The first staging entry that cannot be read, its bytes in scheme 0: its slot, the fault's code, the PA. -/
def badImage (s : State) (q : Nat) (copies : List (Nat × Nat)) : Option (Nat × Nat × Nat) :=
  (List.range copies.length).findSome? (fun j =>
    let n := imageSize (s.launch q).header
    (s.homeFault (imageAt s q j) n).map (fun code => (j, code, imageAt s q j)))

/-- STAGE IN: give the slots their new threads (08 R238). DESIGN CHOICE, log 50. -/
def popMove (s : State) (q : Nat) (pc : W64) (stand : Status) (copies : List (Nat × Nat)) : State :=
  let old := popThreads s q
  let gen := (s.launch q).generation + 1
  let slots := old.zip (List.range old.length)
  let images := s
  let s := old.foldl (fun s t => s.endLeasesOf t) s
  let groups := s.groups.filter (fun g => !g.2.members.any (fun t => old.contains t))
  let s := { s with groups := groups }
  let h := (s.launch q).header
  let s := slots.foldl (fun (s : State) (p : Nat × Nat) =>
    match copies[p.2]? with
    | some (i, o) =>
      s.setLane p.1 { ofImage h (images.lane (old.getD i 0)).drained (images.bytesAt (imageAt s q p.2) (imageSize h)) with
        live := true, rng := 0, popindex := BitVec.ofNat 32 p.2
        lineage := gen ++ BitVec.ofNat 32 i ++ BitVec.ofNat 16 o }
    | none => s.modLane p.1 (fun l => { l with live := false, rng := 0 })) s
  let s := { s with gangs := s.gangs.map (fun g =>
    if g.2.launch == q then (g.1, { g.2 with weirs := [], fairCount := 0, fairDue := false }) else g) }
  let s := (popGangs s q).foldl (fun s n =>
    match s.liveOf n with
    | [] => s
    | ts => s.addGroup { core := coreOf n, pc := pc, members := ts, status := stand, branched := false, loose := false
                         waitCount := 0, yielded := false, hold := 0, prio := none, answers := [] }) s
  s.modLaunch q (fun l => { l with generation := gen })

/-- A vector register of a thread that fails when it is read. -/
def firstFailed (s : State) (ts : List Nat) (rs : Nat → List Nat) : Option (Nat × Nat) :=
  if s.failed.isEmpty then none
  else ts.findSome? (fun t => ((rs t).find? (fun r => s.failed.contains (.vreg t r))).map (fun r => (t, r)))
/-- The end of a population by a vector register that fails (18 R407). -/
def popFailed (s : State) (q : Nat) (x : Nat × Nat) : State :=
  popEnd (logRecord s 0 0x16 1 (coreOf (slotOf x.1)) x.2) q 0x16 (BitVec.ofNat 64 x.2) none
/-- RSMP_STAGE_OUT_COMPLETE (08 R236, R237, 18 R404-R407): when every gang has arrived, the weights, the checks, then the counts
and the stage-out. Gangs that stand at different RSMP instructions all go on after that of the lowest live gang.
DEDUCED, log 49. -/
def execRsmpStageOutComplete (launch : Nat) (s : State) : Host.Outcome State Fault Refusal :=
  let alive := (popGangs s launch).filter (fun n => s.liveOf n != [])
  match alive with
  | [] => .next s
  | first :: _ =>
    if (s.launch launch).rsmp != .idle || !popArrived s launch then .next s
    else
      match rsmpStand s first with
      | none => .next s
      | some (pc, w, m, u, st) =>
        let order := popThreads s launch
        let live := order.filter (fun t => (s.lane t).live)
        let vregs := (s.headerOf first).vregs
        let k := fun r => (s.kreg (s.liveOf first) first r).toNat
        let reg := k w
        -- each gang sums its weights as it arrives, before the checks
        let own := fun t => let n := slotOf t
          let r := (rsmpStand s n).elim vregs (fun x => (s.kreg (s.liveOf n) n x.2.1).toNat)
          if r < vregs then [r] else []
        match firstFailed s live own with
        | some x => .next (popFailed s launch x)
        | none =>
        match alive.find? (fun n => scalarHash s n != scalarHash s first) with
        | some n => .next (popTrap s launch 0x0E (BitVec.ofNat 64 (order.idxOf (32 * n))))
        | none =>
          if k m < 1 || order.length < k m then .next (popTrap s launch 0x0F (BitVec.ofNat 64 (k m)))
          else if vregs ≤ reg then .next (popTrap s launch 0x02 (BitVec.ofNat 64 reg))
          else
            let ws := order.map (fun t => if (s.lane t).live then ((s.lane t).vreg reg).toNat else 0)
            let ws := if ws.sum == 0 then order.map (fun t => if (s.lane t).live then 1 else 0) else ws
            let copies := resample (k m) (k u) ws
            match firstFailed s (copies.map (fun c => order.getD c.1 0)) (fun _ => List.range vregs) with
            | some x => .next (popFailed s launch x)
            | none =>
              .next ((stageOut s launch copies).modLaunch launch (fun l => { l with rsmp := .stageIn pc (.rsmp w m u st) copies }))

/-- The groups of a population go on past the RSMP, an acquire at device scope first (08 R238). -/
def popResume (s : State) (q : Nat) : State :=
  let gs := s.groups.filter (fun g => g.2.members.any (fun t => (s.gang (slotOf t)).launch == q) &&
    (match g.2.status with | .rsmp .. => true | _ => false))
  let s := gs.foldl (fun s g => match g.2.status with
    | .rsmp _ _ _ st => s.finishGroup g.1 .ready st
    | _ => s) s
  (dedup (gs.map (fun g => g.2.core))).foldl (fun s c => s.dropClean c) s
/-- RSMP_RESUME (08 R238, 18 R404, R407): the stage-in, then the population goes on. -/
def execRsmpResume (launch : Nat) (s : State) : Host.Outcome State Fault Refusal :=
  match (s.launch launch).rsmp with
  | .idle => .next s
  | .stageIn pc stand copies =>
    let idle := fun (s : State) => s.modLaunch launch (fun l => { l with rsmp := .idle })
    match badImage s launch copies with
    | some (j, code, pa) =>
      let t := (popThreads s launch).getD j 0
      let s := s.logHome code pa
      .next (popEnd (idle s) launch 0x1A (BitVec.ofNat 64 pa) (some (slotOf t, laneMask [t])))
    | none => .next (idle (popResume (popMove s launch pc stand copies) launch))

/-! ### PDISS (08 R239). -/

/-- A gang that leaves its pair performs what it waits with alone (07 R215): the group that stands at it goes on. -/
def performAlone (s : State) (n : Nat) : State :=
  match (s.gang n).pairOp with
  | none => s
  | some x =>
    let s := s.modGang n (fun g => { g with pairOp := none })
    let s := (s.pairWaiters n).foldl (fun s w => s.finishGroup w.1 .ready (stallOf x.op.instr)) s
    { s with heldIssues := s.heldIssues ++ [x.op] }
/-- The pair of a gang is dissolved: the gang is solo, its partner faults at its next paired instruction, or at once with
the one that it waits with. An unpaired gang of a pair kernel, which SPAWN started, leaves no pair: no effect, and its
%pairrole stays 3. DESIGN CHOICE, log 101. -/
def dissolveBy (s : State) (n : Nat) : State :=
  let g := s.gang n
  match g.pair with
  | .paired =>
    let s := performAlone (s.modGang n (fun g => { g with pair := .solo, role := 2, partner := none })) n
    match g.partner with
    | none => s
    | some p =>
      let s := s.modGang p (fun x => { x with pair := if x.pair == .paired then .dissolved else x.pair, partner := none })
      (s.gang p).pairOp.elim s (fun x => answerPair s x (some (0x0D, 0xFFFF)))
  | .dissolved => s.modGang n (fun g => { g with pair := .solo, role := 2 })
  | _ => s
def execPdiss (h : Hdr) (f : FmtC) (s : State) : Host.Outcome State Fault Refusal :=
  runInstr (.pdiss h f) s (fun cx s => if cx.act.isEmpty then (s, []) else (dissolveBy s cx.slot, []))

/-! ### Starting gangs (08 R240, 15 R363). -/

/-- Bind a gang to a slot at an entry point: its threads, in one group. -/
def bindGang (s : State) (n : Nat) (g : Gang) (live : Nat) (status pop0 : W32) (entry : W64) : State :=
  let ts := (List.range live).map (fun l => 32 * n + l)
  let s := s.setGang n g
  let s := ts.foldl (fun s t =>
    let p := pop0 + BitVec.ofNat 32 (laneOf t)
    s.setLane t { Lane.reset with live := true, status := status, popindex := p, lineage := 0#16 ++ p ++ 0#16 }) s
  s.addGroup { core := coreOf n, pc := entry, members := ts, status := .ready, branched := true, loose := false
               waitCount := 0, yielded := false, hold := 0, prio := none, answers := [] }
/-- The entry of a gang that starts, checked under R76. DEDUCED, log 15. -/
def checkEntry (s : State) (n : Nat) (entry : W64) : State :=
  match s.liveOf n with
  | [] => s
  | t0 :: _ =>
    match s.checkTarget (s.who t0) entry with
    | (.trap code ea, s) =>
      (s.groups.filter (fun x => x.2.members.any (fun t => slotOf t == n))).foldl (fun s x =>
        s.dispose x.1 entry (x.2.members.map (fun t => (t, Disp.trap code ea)))) s
    -- the line is not there yet: the mask is checked when it comes (03 R76)
    | (.stay _, s) => { s with groups := s.groups.map (fun x =>
        if x.2.members.any (fun t => slotOf t == n) then (x.1, { x.2 with status := .entering false }) else x) }
    | (_, s) => s

/-- Start one gang of the spawn pool (08 R240). -/
def spawnOne (cx : Ctx) (e : Nat) (ks : List W32) (s : State) (n base : Nat) : State :=
  let parent := s.gang cx.slot
  let bk := s.blockOf cx.slot
  let b := s.block bk
  let l := s.launch parent.launch
  -- a member from the phase after the open one (07 R201)
  let open' := (List.range 16).map (fun i => (i, (tfind b.bars i).elim 1 (fun x => x.phase + 1)))
  let g : Gang := { Gang.reset with
    launch := parent.launch, block := parent.block, index := BitVec.ofNat 11 b.gangs, regBase := base
    allocRegs := parent.allocRegs, age := (s.core cx.core).nextAge
    k := (ks.zip (List.range 8)).foldl (fun t x => tset 0 t x.2 x.1) ([] : Tab W32)
    fairtime := l.header.fairtime, spawned := BitVec.ofNat 32 (2 ^ 31 + e), spawnPool := true, barrierMember := open' }
  let s := s.modCore cx.core (fun c => { c with nextAge := c.nextAge + 1 })
  let s := s.modLaunch parent.launch (fun l => { l with pool := l.pool.filter (fun p => p.1 != n) })
  let s := s.modBlock bk (fun b => { b with gangs := b.gangs + 1 })
  let s := s.modPart bk cx.core (fun p => { p with slots := sortBy id (n :: p.slots) })
  let st : W32 := if s.effPrivilege s.depth l.region then 1 else 0
  let pop0 := BitVec.ofNat 32 (parent.block * l.threads + b.gangs * 32)
  let entry := l.header.entries.getD e 0
  checkEntry (bindGang s n g 32 st pop0 entry) n entry
/-- SPAWN (08 R240). DEDUCED, log 84. -/
def execSpawn (h : Hdr) (f : FmtC) (s : State) : Host.Outcome State Fault Refusal :=
  runInstr (.spawn h f) s (fun cx s =>
    if cx.act.isEmpty then (s, [])
    -- the Issuer's release at core scope; no free slot is waited for
    else if !s.releaseReady cx.core (cx.act.take 1) false then (s, cx.ts.map (fun t => (t, .stay .ready)))
    else
      let l := s.launch (s.gang cx.slot).launch
      let free := sortBy (fun p => p.1) (l.pool.filter (fun p => coreOf p.1 == cx.core))
      let want := (s.kreg cx.ts cx.slot f.a.toNat).toNat
      let m := min want (min free.length (2048 - (s.block (s.blockOf cx.slot)).gangs))
      let ks := (List.range (min 8 cx.head.kregs)).map (fun i => s.kreg cx.ts cx.slot i)
      let s := (free.take m).foldl (fun s p => spawnOne cx f.mods.toNat ks s p.1 p.2) s
      (s.writeK cx.ts cx.slot f.d.toNat (BitVec.ofNat 32 m) cx.lat, []))

end Sys2Proof.Machine
end

