-- ==== Sys2Proof/Machine/System.lean ====
section
/-!
DEFINITION. Class 0xD but DBRK, HALT and RTT: CSRs (01 R26, 08 R244, R245), TINV (08 R248), PMIG (08 R249).
-/

namespace Sys2Proof.Machine

open State

/-! ### CSRs. -/

/-- A CSR held by a thread. -/
def laneCsr (l : Lane) (n : Nat) : Nat :=
  match n with
  | 0x000 => l.status.toNat % 8
  | 0x001 => l.epc.toNat
  | 0x002 => l.ecause.toNat % 256
  | _ => l.eaddr.toNat
def setLaneCsr (l : Lane) (n x : Nat) : Lane :=
  match n with
  | 0x000 => { l with status := BitVec.ofNat 32 (x % 8) }
  | 0x001 => { l with epc := BitVec.ofNat 64 x }
  | 0x002 => { l with ecause := BitVec.ofNat 32 (x % 256) }
  | _ => { l with eaddr := BitVec.ofNat 64 x }
/-- Bits [51:12] of a physical base. -/
def baseBits (x : Nat) : Nat := x % 2 ^ 52 / 2 ^ 12 * 2 ^ 12
/-- LEASEMAX clamps the whole value to 1 to 1,024 (08 R244). -/
def clampLease (x : Nat) : Nat := min 1024 (max 1 (x % 2 ^ 32))
/-- FAIRTIME clamps to 256 to 65,536 and rounds down to a step of 16 (01 R26). -/
def clampFair (x : Nat) : Nat := min 65536 (max 256 (x % 2 ^ 32)) / 16 * 16
/-- A CSR held by the core, the gang, the region, the launch or the device, read for a gang. -/
def readCsr (s : State) (slot n : Nat) : Nat :=
  let r := s.regionOf slot
  let seed := (s.launch (s.gang slot).launch).seed.toNat
  match n with
  | 0x004 => (s.trapvec r).toNat
  | 0x010 => if (s.core (coreOf slot)).check then 1 else 0
  | 0x011 => (s.core (coreOf slot)).leasemax
  | 0x012 => (s.gang slot).fairtime
  | 0x020 => s.sampleK
  | 0x021 => s.sampleBase.toNat
  | 0x022 => s.sampleHead.toNat
  | 0x030 => baseBits (s.walkbase r).toNat
  | 0x031 => (s.asid r).toNat
  | 0x040 => seed % 2 ^ 32
  | _ => seed / 2 ^ 32
def writeCsr (s : State) (slot n x : Nat) : State :=
  let c := coreOf slot
  let r := s.regionOf slot
  let q := (s.gang slot).launch
  let w : W64 := BitVec.ofNat 64 x
  match n with
  | 0x004 => { s with regions := tmod s.regions (s.domainOf r) (fun g => { g with csrTrapvec := some w }) }
  | 0x010 => s.modCore c (fun k => { k with check := x % 2 == 1 })
  | 0x011 => s.modCore c (fun k => { k with leasemax := clampLease x })
  | 0x012 => s.modGang slot (fun g => { g with fairtime := clampFair x })
  | 0x020 => { s with sampleK := x % 32, cores := s.cores.map (fun k => (k.1, { k.2 with sampleCount := 0 })) }
  | 0x021 => { s with sampleBase := BitVec.ofNat 64 (baseBits x + x % 32) }
  | 0x022 => { s with sampleHead := w }
  | 0x030 => { s with regions := tmod s.regions r (fun g => { g with csrWalkbase := some (BitVec.ofNat 64 (baseBits x)) }) }
  | 0x031 => { s with regions := tmod s.regions r (fun g => { g with csrAsid := some (BitVec.ofNat 16 x) }) }
  | 0x040 => s.modLaunch q (fun l => { l with seed := BitVec.ofNat 64 (l.seed.toNat / 2 ^ 32 * 2 ^ 32 + x % 2 ^ 32) })
  | _ => s.modLaunch q (fun l => { l with seed := BitVec.ofNat 64 (l.seed.toNat % 2 ^ 32 + x % 2 ^ 32 * 2 ^ 32) })

def execCsrr (h : Hdr) (f : FmtM) (s : State) : Host.Outcome State Fault Refusal :=
  runInstr (.csrr h f) s (fun cx s =>
    let n := f.off.toNat
    let w := widthRegs f.width
    if cx.act.isEmpty then (s, [])
    else if csrThreadHeld n then
      (cx.act.foldl (fun s t => s.writeVs t cx.lat f.d.toNat (wordsOf w (laneCsr (s.lane t) n))) s, [])
    else
      let ws := wordsOf w (readCsr s cx.slot n)
      -- a read of SAMPLEHEAD is an acquire at device scope (12 R325)
      let s := if n == 0x022 then s.dropClean cx.core else s
      if f.op == 1 then (s.writeKs cx.ts cx.slot cx.lat f.d.toNat ws, [])
      else (cx.act.foldl (fun s t => s.writeVs t cx.lat f.d.toNat ws) s, []))
def execCsrw (h : Hdr) (f : FmtM) (s : State) : Host.Outcome State Fault Refusal :=
  runInstr (.csrw h f) s (fun cx s =>
    let n := f.off.toNat
    let val := s.fieldValue cx f.kB f.b (widthRegs f.width)
    match cx.act with
    | [] => (s, [])
    | t :: _ =>
      if csrThreadHeld n then (cx.act.foldl (fun s' t => s'.modLane t (fun l => setLaneCsr l n (val t))) s, [])
      else (writeCsr s cx.slot n (val t), []))

/-! ### TINV (08 R248). -/

/-- Remove entries from every TLB and walk cache. -/
def dropTranslations (s : State) (tlb : TlbEntry → Bool) (walk : WalkEntry → Bool) : State :=
  { s with cores := s.cores.map (fun k =>
      (k.1, { k.2 with tlb := k.2.tlb.filter (fun e => !tlb e), walks := k.2.walks.filter (fun e => !walk e) })) }
/-- TINV.va of one page in one address space. -/
def dropPage (s : State) (asid va : Nat) : State :=
  dropTranslations s (fun e => tlbHit e asid va)
    (fun e => e.asid == asid && e.above == va / 2 ^ pageBits (e.level + 1))
def execTinv (h : Hdr) (f : FmtM) (s : State) : Host.Outcome State Fault Refusal :=
  runInstr (.tinv h f) s (fun cx s =>
    match cx.act with
    | [] => (s, [])
    | t :: _ =>
      match f.op.toNat with
      | 0 =>
        let va := s.globalVa cx f t
        if !canonicalVa va then (s, [])
        else (dropPage s (s.asid (s.regionOf cx.slot)).toNat (va.toNat % 2 ^ 57), [])
      | 1 =>
        let a := (s.kreg cx.ts cx.slot f.a.toNat).toNat % 2 ^ 16
        (dropTranslations s (fun e => e.asid == a && !pteBit e.pte 8) (fun e => e.asid == a), [])
      | _ => (dropTranslations s (fun _ => true) (fun _ => true), []))

/-! ### PMIG (08 R249). -/

/-- The level-0 leaf of an address as the tables in memory hold it: a drain still to wait for, or the entry's address
and bits. -/
def findLeaf (s : State) (va : Nat) : Nat → Nat → Option (Option (Nat × W64)) × State
  | 0, _ => (some none, s)
  | level + 1, table =>
    let at' := table + 8 * vaIndex va level
    if !isDevMem at' then (some none, s)
    else
      let r := s.homeReady (at' / 128)
      if !r.1 then (none, r.2)
      else
        let p : W64 := BitVec.ofNat 64 (r.2.natAt at' 8)
        if !pteBit p 0 then (some none, r.2)
        else if pteBit p 1 then (some (if level == 0 && leafOk p 0 then some (at', p) else none), r.2)
        else if !nodeOk p level then (some none, r.2)
        else findLeaf r.2 va level (ptePa p)
/-- The status of a migration request, and the migration it makes. DEDUCED, log 55. -/
def migrationStatus (s : State) (tier : Bool) (leaf : Option (Nat × W64)) : Nat :=
  match leaf with
  | none => 3
  | some (at', p) =>
    if pteHost p || !(ptePa p < 2 ^ 41) then 3
    else if pteMigrating p then 2
    else if pteBit p 10 == tier then 1
    else if s.migrations.any (fun m => m.2.pteAt == at') then 2
    else 0
def addMigration (s : State) (va asid : Nat) (tier : Bool) (at' : Nat) (p : W64) : State :=
  let m : Migration := { va := BitVec.ofNat 64 (va / 2 ^ 16 * 2 ^ 16), asid := asid, pteAt := at', pte := p
                         toTier := if tier then 1 else 0, step := 0, frame := 0, await := [] }
  { s with nextId := s.nextId + 1, migrations := tput s.migrations s.nextId m }

/-- The leaves that the acting lanes' pages have, in lane order; none: a drain to wait for. -/
def pmigLeaves (s : State) (cx : Ctx) (f : FmtM) : Option (List (Nat × Option (Nat × W64))) × State :=
  let r := s.regionOf cx.slot
  let root := ((s.walkbase r).extractLsb' 14 38).toNat * 2 ^ 14
  let rootOk := (s.walkbase r).extractLsb' 12 2 == 0
  cx.act.foldl (fun (acc : Option (List (Nat × Option (Nat × W64))) × State) t =>
    let va := acc.2.globalVa cx f t
    if !canonicalVa va || !rootOk then (acc.1.map (fun l => l ++ [(t, none)]), acc.2)
    else
      let x := findLeaf acc.2 (va.toNat % 2 ^ 57) 4 root
      (match acc.1, x.1 with
       | some l, some e => some (l ++ [(t, e)])
       | _, _ => none, x.2)) (some [], s)
/-- The migrations that the lanes' leaves make, in lane order. -/
def pmigStart (s : State) (cx : Ctx) (f : FmtM) (tier : Bool) (ls : List (Nat × Option (Nat × W64))) : State :=
  let r := s.regionOf cx.slot
  ls.foldl (fun (s : State) l =>
    match l.2 with
    | some (at', p) =>
      if migrationStatus s tier l.2 == 0 then
        addMigration s ((s.globalVa cx f l.1).toNat % 2 ^ 57) (s.asid r).toNat tier at' p
      else s
    | none => s) s
def execPmig (h : Hdr) (f : FmtM) (s : State) : Host.Outcome State Fault Refusal :=
  runInstr (.pmig h f) s (fun cx s =>
    let tier := f.op.getLsbD 0
    match pmigLeaves s cx f with
    | (none, s) => (s, cx.ts.map (fun t => (t, .stay .ready)))
    | (some ls, s) =>
      let st := ls.map (fun l => (l.1, migrationStatus s tier l.2))
      (st.foldl (fun s p => s.writeV p.1 f.d.toNat (BitVec.ofNat 32 p.2) cx.lat) (pmigStart s cx f tier ls), []))

end Sys2Proof.Machine
end

