-- ==== Sys2Proof/Machine/Exit.lean ====
section
/-!
DEFINITION. EXIT (04 R114), lanes that leave their weirs (07 R203), and the issue of a round that an exit completes
(07 R434).
-/

namespace Sys2Proof.Machine

open State

/-- The effect of an instruction that a round issues. -/
def roundBody (i : Instr) : Option (FmtX × OnceBody) :=
  match i with
  | .mld _ f | .mswp _ f | .mma _ f | .mmap _ f | .mguide _ f | .accz _ f | .accrd _ f | .accwr _ f | .acc2s _ f
  | .scld _ f => some (f, matrixBody i f)
  | .cpy _ f => some (f, cpyBody f)
  | .cpy2d _ f => some (f, cpy2dBody f)
  | .gath _ f => some (f, indexBody f true)
  | .scat _ f => some (f, indexBody f false)
  | .qdual _ f => some (f, qdualBody f)
  | .cast _ f => some (f, castBody f)
  | .mred _ f => some (f, mredBody f)
  | _ => none

/-- Issue an instruction that no lane stands at (07 R434): its precise faults are recorded with it, an absent page makes a
record, a full queue holds it; its interlocked registers are released when it is done. -/
def issueAway (s : State) (o : Once) : State :=
  match roundBody o.instr with
  | none => s
  | some (_, body) =>
    match s.dissolvedFault o.instr o.slot with
    | some f => s.recordFault o f
    | none =>
      let r := s.runOnce o body
      match r.1 with
      | .done => r.2.unlockAll o.locked
      | .pairWait => r.2
      | .fault c ea => r.2.recordFault o (c, ea)
      | .wait | .flush _ => { r.2 with heldIssues := r.2.heldIssues ++ [o] }
      | .absent va access =>
        let p := r.2.park o.core [(o.thread, va)] access
        { p.2 with pfRecords := p.2.pfRecords.map (fun x =>
            if Status.parked x.1 == p.1 then (x.1, { x.2 with issue := some o }) else x) }
/-- Try the held instructions again, in order; those of saved gangs stay. -/
def retryHeld (s : State) : State :=
  let here := fun (o : Once) => (tfind s.gangs o.slot).isSome
  (s.heldIssues.filter here).foldl issueAway { s with heldIssues := s.heldIssues.filter (fun o => !here o) }

/-- Lanes leave a weir; a round that is thereby signed by all its set completes (07 R203). -/
def leaveWeir (gone : W32) (slot : Nat) (s : State) (w : Nat) : State :=
  let x := s.weir slot w
  if x.declared &&& gone == 0 && x.signed &&& gone == 0 then s
  else
    let x := { x with declared := x.declared &&& ~~~gone, signed := x.signed &&& ~~~gone }
    if x.declared == 0 then (s.unlockAll x.locked).setWeir slot w Weir.idle
    else
      let s := s.setWeir slot w x
      if x.signed != x.declared then s
      else match x.round with
        | none => s
        | some none => (s.wakeJoiners slot w false true).closeRound slot w
        | some (some (_, i)) =>
          issueAway (s.closeRound slot w) {
            slot := slot, instr := i, lanes := x.declared, thread := 32 * slot + (maskLanes x.signed).headD 0
            act := x.guardHeld, regs := s.capture [] slot i, locked := x.locked }
/-- Threads end as by EXIT (04 R114). -/
def exitLanes (s : State) (ts : List Nat) : State :=
  let s := (dedup (ts.map slotOf)).foldl (fun s n =>
    let gone := laneMask (ts.filter (fun t => slotOf t == n))
    ((s.gang n).weirs.map (fun w => w.1)).foldl (leaveWeir gone n) s) s
  s.retire ts
def execExit (h : Hdr) (f : FmtC) (s : State) : Host.Outcome State Fault Refusal :=
  runInstr (.exit h f) s (fun cx s => (exitLanes s cx.act, cx.act.map (fun t => (t, Disp.gone))))

end Sys2Proof.Machine
end

