-- ==== Sys2Proof/Machine/Coherence.lean ====
section
/-!
DEFINITION. The events of the memory system between cores and homes (10 R276-R290, R297-R300): reads and fills,
registrations, drains and probes, write-backs, reductions, region transitions, and cores that leave and join.
-/

namespace Sys2Proof.Machine

open State

/-- The message of an event, when it is the next of its pair. -/
def arriving (s : State) (id : Nat) : Option Msg := if s.deliverable id then tfind s.net id else none

/-! ### At the home. -/

/-- Send the reply to a request. -/
def reply (s : State) (c line req : Nat) (bytes : List Byte) (state : Nat) : State :=
  s.send' { core := c, toHome := false, line := line, body := .fill req bytes state }
/-- Apply the operations of a request at the home in lane order; the old values, in the same order. -/
def applyOps (s : State) (ops : List LaneOp) : List Byte × State :=
  ops.foldl (fun (acc : List Byte × State) o =>
    let m := acc.2.natAt o.key o.size
    (acc.1 ++ leBytes o.size m, match rmw o m with
      | some x => acc.2.homeWrite o.key (leBytes o.size x)
      | none => acc.2)) ([], s)
/-- Look again at gangs whose last request was answered. -/
def reapAll (s : State) (ns : List Nat) : State := ns.foldl (fun s n => s.reap n) s
/-- Apply a reduction, its release record with it, and acknowledge its cores (10 R283, R297). -/
def applyRed (s : State) (m : Msg) : State :=
  match m.body with
  | .red cells size op rel _ gs =>
    let s := cells.foldl (fun s k => s.homeWrite k.1 (leBytes size (atomicOp op size (s.natAt k.1 size) k.2))) s
    let s := match rel with
      | some e => s.registerAt m.line m.core e
      | none => s
    reapAll (s.touchL2 m.line) gs
  | _ => s
/-- Serve a read, or a reduction, at its home (10 R286, R299, R302). -/
def serve (s : State) (m : Msg) : State :=
  match m.body with
  | .read id =>
    match tfind s.requests id with
    | none => s
    | some r =>
      let state := if r.near then s.regionState (m.line / 32) else 0
      match r.kind with
      | .load | .atomic | .leaseLoad => reply (if r.far then s else s.touchL2 m.line) m.core m.line id (s.viewBytes m.core m.line) state
      | .farLoad => let b := s.freeBytes 128; reply b.2 m.core m.line id b.1 0
      | .writeCheck => reply s m.core m.line id [] state
      | .farStore =>
        reply (if isDevMem (m.line * 128) || targetOf (m.line * 128) == .host then (applyOps s r.ops).2 else s) m.core m.line id [] 0
      | .atomicFar => let o := applyOps s r.ops; reply o.2 m.core m.line id o.1 0
  | _ => applyRed s m
/-- Does serving the message read the line? -/
def readsLine (s : State) (m : Msg) : Bool :=
  match m.body with
  | .read id => (tfind s.requests id).any (fun r => r.kind != .writeCheck && r.kind != .farStore)
  | .red .. => true
  | _ => false
/-- A message waits for the end of a drain. -/
def waitDrain (s : State) (line : Nat) (m : Msg) : State :=
  { s with drains := tmod s.drains line (fun d => { d with reads := d.reads ++ [m] }) }
/-- Serve a message, or let it wait for a drain of the line, or for the room that its record needs (10 R285, R286, R288). -/
def serveMsg (s : State) (m : Msg) : State :=
  if !readsLine s m then serve s m
  else
    let s := s.startDrain m.line
    match s.drainFor m.line with
    | some d => waitDrain s d m
    | none =>
      match (match m.body with | .red _ _ _ (some _) _ _ => s.recordRoom m.line m.core | _ => (none, s)) with
      | (some v, s) => waitDrain s v m
      | (none, s) => serve s m
def serveOrDrain (s : State) (id : Nat) (m : Msg) : State := serveMsg (s.dropMsg id) m

/-- HOME_READ (10 R286). -/
def execHomeRead (msg : Nat) (s : State) : Host.Outcome State Fault Refusal :=
  match arriving s msg with
  | some m => (match m.toHome, m.body with
    | true, .read id =>
      -- a channel that retrains holds what needs it (12 R312)
      if (tfind s.requests id).any s.channelHolds then .next { s with fresh := s.fresh + 1 } else .next (serveOrDrain s msg m)
    | _, _ => .next s)
  | none => .next s

/-- Drop an acknowledged store's line from those held back (10 R282). -/
def unpin (s : State) (c line : Nat) : State := s.modCore c (fun k => { k with pinned := k.pinned.erase line })

/-! ### Probes at a core (10 R287, R300). -/

/-- The registration of a core's line waits for a drain (10 R284, R285). -/
def regWaits (s : State) (c line at' : Nat) : Bool :=
  (tfind s.drains at').any (fun d => d.regs.any (fun r => r.1 == line && r.2.1 == c))
/-- A lease holds the probe back: one of a line that it writes back, of its line, or of a line of its region. -/
def leaseBlocks (s : State) (c : Nat) (p : Probe) : Bool :=
  (s.probeLines c p).any (s.heldLine c) ||
    (match p.region with
     | some r => (s.core c).leases.any (fun l => l.line / 32 == r && s.holds c l)
     | none => s.heldLine c p.line)
/-- Lines of the probe whose release is not acknowledged; a release that waits for this very drain does not hold it up. -/
def pinBlocks (s : State) (c : Nat) (p : Probe) : List Nat :=
  (s.probeLines c p).filter (fun l => s.pinnedLine c l && !(p.region.isNone && regWaits s c l p.line))
def probeBlocked (s : State) (c : Nat) (p : Probe) : Bool := leaseBlocks s c p || !(pinBlocks s c p).isEmpty
/-- The acknowledgement of a probe, or of a region drain, after which the core knows nothing of the region's lines any more
(10 R287, R300). -/
def ackProbe (s : State) (c : Nat) (p : Probe) : State :=
  match p.region with
  | none => s.send' { core := c, toHome := true, line := p.line, body := .drainAck }
  | some r =>
    let s := (s.dropScales c).modCore c (fun k => { k with
      l1 := k.l1.map (fun l => if l.1 / 32 == r then (l.1, { l.2 with cConf := false }) else l) })
    let s := s.markStale c (fun line => line / 32 == r)
    { s with
      groups := s.groups.map (fun (g : Nat × Group) =>
        if g.2.core == c then (g.1, { g.2 with answers := g.2.answers.filter (fun a => a.1 / 32 != r) }) else g) }.send'
      { core := c, toHome := true, line := p.line, body := .regionDrain r }
/-- Take one step on a core's probes, in arrival order (10 R287). The first, when it waits for releases only, lets a probe pass
whose drain the registration of one of them waits for: neither could end else. DEDUCED, log 31. -/
def stepProbes (s : State) (c : Nat) : State :=
  let ps := (s.core c).probes
  let pick := match ps with
    | [] => none
    | p :: _ =>
      if p.started || !probeBlocked s c p then some p
      else if leaseBlocks s c p then none
      else ps.find? (fun q => q.region.isNone && !probeBlocked s c q && (pinBlocks s c p).any (fun l => regWaits s c l q.line))
  match pick with
  | none => s
  | some p =>
    let rest := ps.erase p
    if p.started then
      if p.await.isEmpty then ackProbe (s.modCore c (fun k => { k with probes := rest })) c p else s
    else
      let r := s.writeBackFit c (s.probeLines c p)
      let ids := r.2.writeBacks c
      if !r.1 then r.2
      else if ids.isEmpty then ackProbe (r.2.modCore c (fun k => { k with probes := rest })) c p
      else r.2.modCore c (fun k => { k with probes := { p with started := true, await := ids } :: rest })
/-- Work on a core's probes as far as they go. -/
def runProbes (s : State) (c : Nat) : State := (s.core c).probes.foldl (fun s _ => stepProbes s c) s

/-- DRAIN_PROBE (10 R287). -/
def execDrainProbe (msg : Nat) (s : State) : Host.Outcome State Fault Refusal :=
  match arriving s msg with
  | some m => (match m.toHome, m.body with
    | false, .probe e =>
      let s := (s.dropMsg msg).modCore m.core (fun k => { k with
        probes := k.probes ++ [{ line := m.line, epoch := e, region := none, started := false, await := [] }] })
      .next (runProbes s m.core)
    | _, _ => .next s)
  | none => .next s
/-- REGION_DRAIN (10 R300): at a core the drain, at the home its acknowledgement. -/
def execRegionDrain (msg : Nat) (s : State) : Host.Outcome State Fault Refusal :=
  match arriving s msg with
  | some m => (match m.toHome, m.body with
    | true, .regionDrain r =>
      .next { s.dropMsg msg with
        regionDir := tmod s.regionDir r (fun d => { d with await := d.await.map (fun a => a.filter (fun x => x != m.core)) }) }
    | false, .regionDrain r =>
      let s := (s.dropMsg msg).modCore m.core (fun k => { k with
        probes := k.probes ++ [{ line := m.line, epoch := none, region := some r, started := false, await := [] }] })
      .next (runProbes s m.core)
    | _, _ => .next s)
  | none => .next s

/-! ### Registrations and the end of a drain (10 R284, R285, R288). -/

/-- A registration takes effect and is acknowledged: the line may be written back, the write-through of a lease that waited
for it starts, probes and launches that waited go on (10 R282, R283). -/
def takeRecord (s : State) (line c e : Nat) : State :=
  let s := unpin (s.registerAt line c e) c line
  (runProbes (s.endWaiting c) c).tryFinishLaunches c
/-- A registration waits for the end of a drain. -/
def waitRecord (s : State) (d line c e : Nat) : State :=
  runProbes { s with drains := tmod s.drains d (fun x => { x with regs := x.regs ++ [(line, c, e)] }) } c
/-- A registration: during a drain of the line, or while its slice makes room, it waits (10 R284, R285). -/
def registerMsg (s : State) (line c e : Nat) : State :=
  match s.drainFor line with
  | some d => waitRecord s d line c e
  | none =>
    match s.recordRoom line c with
    | (some v, s) => waitRecord s v line c e
    | (none, s) => takeRecord s line c e
/-- RELEASE_RECORD_REGISTER (10 R284). DEDUCED, log 39. -/
def execReleaseRecordRegister (msg : Nat) (s : State) : Host.Outcome State Fault Refusal :=
  match arriving s msg with
  | some m => (match m.toHome, m.body with
    | true, .register e => if s.sentBack m.core m.line then .next s else .next (registerMsg (s.dropMsg msg) m.line m.core e)
    | _, _ => .next s)
  | none => .next s
/-- The drain of a line ends: its record is cleared; registrations that waited for its room count, the waiting reads get
the value, then registrations to the line count (10 R284, R285, R288). -/
def endDrain (s : State) (line : Nat) (d : Drain) : State :=
  let s := { s with drains := tdel s.drains line, records := tdel s.records line }
  let s := (d.regs.filter (fun r => r.1 != line)).foldl (fun s r => registerMsg s r.1 r.2.1 r.2.2) s
  let s := d.reads.foldl serveMsg s
  (d.regs.filter (fun r => r.1 == line)).foldl (fun s r => registerMsg s r.1 r.2.1 r.2.2) s
/-- The cores that the end of a drain acknowledges something to: registrations, and reductions with them. -/
def ackedCores (d : Drain) : List Nat :=
  d.regs.map (fun r => r.2.1) ++ d.reads.flatMap (fun m => match m.body with | .red _ _ _ _ _ gs => gs.map coreOf | _ => [])
/-- DRAIN_ACK (10 R288). DEDUCED, log 39. -/
def execDrainAck (msg : Nat) (s : State) : Host.Outcome State Fault Refusal :=
  match arriving s msg with
  | some m => (match m.toHome, m.body with
    | true, .drainAck =>
      let old := s
      let s := s.dropMsg msg
      match tfind s.drains m.line with
      | none => .next s
      | some d =>
        let await := d.await.filter (fun c => c != m.core)
        if await.isEmpty then
          if (ackedCores d).any (fun c => s.sentBack c m.line) then .next old else .next (endDrain s m.line d)
        else .next { s with drains := tput s.drains m.line { d with await := await } }
    | _, _ => .next s)
  | none => .next s

/-! ### Write-backs (10 R277, R304). -/

/-- A launch whose final write-backs are acknowledged completes (15 R351). -/
def finalWriteBack (s : State) (id : Nat) : State :=
  s.launches.foldl (fun s l => match l.2.ending with
    | some ids =>
      if ids.contains id then
        let rest := ids.filter (fun x => x != id)
        let s := s.modLaunch l.1 (fun x => { x with ending := some rest })
        if rest.isEmpty then s.completeLaunch l.1 else s
      else s
    | none => s) s
/-- The home's acknowledgement of a write-back reaches its core. -/
def ackWriteBack (s : State) (id c : Nat) : State :=
  let s := (s.answered id).modCore c (fun k => { k with
    probes := k.probes.map (fun p => { p with await := p.await.filter (fun x => x != id) }) })
  let s := { s with migrations := s.migrations.map (fun (m : Nat × Migration) => (m.1, { m.2 with await := m.2.await.filter (fun x => x != id) })) }
  (finalWriteBack (runProbes (s.endWaiting c) c) id).tryFinishLaunches c
/-- WRITE_BACK_ACK (10 R277): the bytes of the mask are written at the home; lost bytes are logged. The acknowledgement reaches the
core in the same moment, after what the slice sent it before (10 R280). DEDUCED, log 39. -/
def execWriteBackAck (msg : Nat) (s : State) : Host.Outcome State Fault Refusal :=
  match arriving s msg with
  | some m => (match m.toHome, m.body with
    | true, .writeBack cells lost =>
      if s.sentBack m.core m.line then .next s
      else
      let s := (s.dropMsg msg).homeCells m.line cells
      .next (ackWriteBack (reportLoss s m.core m.line lost) msg m.core)
    | _, _ => .next s)
  | none => .next s

/-! ### Replies (10 R277, R281, R299). -/

/-- The reply's bytes that L1 takes: none of a reply that is performed far, or older than what made the core drop its
bytes, or for which no way is free (10 R277, R278, R302). -/
def fillLine (s : State) (r : Request) (bytes : List Byte) (state : Nat) : State :=
  if state == 1 || r.far || r.stale || !s.hasWay r.core r.line then s
  else
    let offs := r.loads.flatMap (fun l => [l.key % 128, l.key % 128 + l.size - 1])
    let g := match offs with
      | [] => (0, 128)
      | o :: os => grainOf (os.foldl min o) (os.foldl max o)
    if (s.homeFault (r.line * 128 + g.1) g.2).isSome then s
    else s.l1Fill r.core r.line g.1 ((bytes.drop g.1).take g.2) (r.near && state == 0) (r.near && state == 2)
/-- The answer to a write check: the line is known to be in state C, and the groups that asked know the state (10 R299). An
answer older than a region drain counts for nothing. -/
def checkAnswer (s : State) (id : Nat) (r : Request) (state : Nat) : State :=
  if r.stale then s
  else
    let s := if state == 0 && s.hasWay r.core r.line then
        let l := s.allocL1 r.core r.line; l.2.setL1 r.core r.line { l.1 with cConf := true }
      else s
    { s with groups := s.groups.map (fun g => match g.2.status with
        | .requests ids => if ids.contains id then (g.1, { g.2 with answers := (r.line, state) :: g.2.answers }) else g
        | _ => g) }
/-- FILL (10 R277): the reply to a request reaches its core. -/
def execFill (msg : Nat) (s : State) : Host.Outcome State Fault Refusal :=
  match arriving s msg with
  | some m => (match m.toHome, m.body with
    | false, .fill id bytes state =>
      let s := s.dropMsg msg
      match tfind s.requests id with
      | none => .next s
      | some r =>
        let s := { s with requests := tdel s.requests id }
        let s := match r.kind with
          | .load => fillLine s r bytes state
          | .writeCheck => checkAnswer s id r state
          | _ => s
        let s := r.loads.foldl (fun s l => s.deliver l (State.loadValue bytes (l.key % 128) l.size)) s
        let far := if r.kind == .atomicFar then r.ops else []
        let olds := (far.foldl (fun (acc : Nat × List (LaneOp × Nat)) o =>
          (acc.1 + o.size, acc.2 ++ [(o, leNat ((bytes.drop acc.1).take o.size))])) (0, [])).2
        let s := olds.foldl (fun s o => deliverOld s o.1 o.2) s
        -- what was written at the home is in the core's L1 too, where it holds the bytes
        let s := olds.foldl (fun s o => (rmw o.1 o.2).elim s (fun x => s.l1Follow r.core o.1.key (leBytes o.1.size x))) s
        let s := (if r.kind == .farStore then r.ops else []).foldl (fun s o => s.l1Follow r.core o.key (leBytes o.size o.operand)) s
        let s := if r.acquire && (far.isEmpty || olds.any (fun o => acquires o.1 o.2)) then s.dropClean r.core else s
        .next (reapAll (s.answered id) (dedup (r.loads.map (fun l => slotOf l.thread) ++ r.ops.map (fun o => slotOf o.thread) ++ r.pref.toList)))
    | _, _ => .next s)
  | none => .next s

/-! ### Reductions (10 R297). -/

/-- Two reductions that a router may merge: to the same addresses. DEDUCED, log 40. -/
def mayMerge (a b : MsgBody) : Bool :=
  match a, b with
  | .red k n op none true _, .red k' n' op' none true _ =>
    k.map (fun x => x.1) == k'.map (fun x => x.1) && n == n' && op == op' && mergeable op
  | _, _ => false
def mergeRed (a b : MsgBody) : MsgBody :=
  match a, b with
  | .red k n op r h gs, .red k' _ _ _ _ gs' =>
    .red ((k.zip k').map (fun x => (x.1.1, atomicOp op n x.1.2 x.2.2))) n op r h (dedup (gs ++ gs'))
  | a, _ => a
/-- RED_ROUTER_HOLD_EXPIRY (10 R297): the router forwards the reduction, merged with the ones it met. The merged message
stands where its oldest part stood (10 R280). -/
def execRedRouterHoldExpiry (msg : Nat) (s : State) : Host.Outcome State Fault Refusal :=
  match arriving s msg with
  | some m => (match m.body with
    | .red _ _ _ _ true _ =>
      let mine := s.net.filter (fun p => p.1 == msg || (mayMerge m.body p.2.body && p.2.line == m.line && s.deliverable p.1))
      match mine with
      | [] => .next s
      | p :: rest =>
        let body := match rest.foldl (fun b q => mergeRed b q.2.body) p.2.body with
          | .red k n op r _ gs => .red k n op r false gs
          | b => b
        let s := rest.foldl (fun s q => s.dropMsg q.1) s
        .next { s with net := tput s.net p.1 { p.2 with body := body } }
    | _ => .next s)
  | none => .next s
/-- RED_HOME_APPLY (10 R297); a channel that retrains holds it (12 R312). DEDUCED, log 39. -/
def execRedHomeApply (msg : Nat) (s : State) : Host.Outcome State Fault Refusal :=
  match arriving s msg with
  | some m => (match m.body with
    | .red _ _ _ _ false gs =>
      if s.channelKeeps m.line then .next { s with fresh := s.fresh + 1 }
      else if gs.any (fun g => s.sentBack (coreOf g) m.line) then .next s
      else .next (serveOrDrain s msg m)
    | _ => .next s)
  | none => .next s

/-! ### Region transitions (10 R300). -/

/-- REGION_TRANSITION_APPLY (10 R300, 07 R208). -/
def execRegionTransitionApply (region : Nat) (s : State) : Host.Outcome State Fault Refusal :=
  let d := regionEntry s region
  match d.queue with
  | [] => .next s
  | (target, core, id) :: rest =>
    let from' := if d.state == 3 then 0 else d.state
    -- a lease of a line of the region holds its transitions up (06 R191, 07 R208)
    let ready := if from' == target then true
      else !s.leaseTab.any (fun e => e.1 / 32 == region) &&
        (if from' == 0 then d.await == some [] else if from' == 1 then d.pending == 0 else true)
    -- between steps 2 and 5 of a migration of its page a transition waits (12 R328)
    let moving := s.migrations.any (fun m => m.2.step == 2 && ptePa m.2.pte / 4096 ≤ region && region < ptePa m.2.pte / 4096 + 16)
    if !ready || moving || s.sentBack core (32 * region) then .next s
    else
      -- the lines of a region in state M are in no L2 (10 R279, R300)
      let s := if target == 1 then { s with l2 := s.l2.map (fun p => (p.1, p.2.filter (fun l => l / 32 != region))) } else s
      let s := { s with regionDir := tput s.regionDir region { d with state := target, queue := rest, await := none } }
      let s := if from' == 1 || from' == target then s.dropClean core else s
      let s := { s with groups := s.groups.map (fun g => if g.2.status == .region id then (g.1, { g.2 with status := .ready }) else g) }
      .next (startTransition s region)

/-! ### Presence (10 R289, R290). -/

/-- CORE_LEAVE (10 R289): a core stops issuing, ends its leases, writes its L1 back and drops it, and leaves every
home. Each call goes as far as the acknowledgements allow. -/
def execCoreLeave (core : Nat) (s : State) : Host.Outcome State Fault Refusal :=
  if !(s.core core).powered then .next s
  else
    let s := s.modCore core (fun k => { k with leaving := true })
    let open' := (s.core core).leases.filter (fun l => !l.ending && !(l.record && l.notify.isSome))
    let s := open'.foldl (fun s l => s.endLease core l.line l.holder none) s
    let k := s.core core
    if !k.leases.isEmpty || !k.pinned.isEmpty || s.requests.any (fun r => r.2.core == core) then .next s
    else
      let r := s.writeBackFit core (s.dirtyLines core)
      let s := r.2
      if !r.1 || !(s.writeBacks core).isEmpty then .next s
      else
        let s := s.modCore core (fun k => { k with
          powered := false, l1 := [], engines := k.engines.map (fun e => (e.1, { e.2 with cache := [] })) }) |>.pruneL1 core
        .next { s with absent := (List.range Config.numSlices).foldl (fun t i =>
                  tput t i (dedup (core :: (tfind t i).getD []))) s.absent }
/-- CORE_JOIN (10 R290): the core's L1 is empty, its epoch and its clock start at 0. -/
def execCoreJoin (core : Nat) (s : State) : Host.Outcome State Fault Refusal :=
  if (s.core core).powered then .next (s.modCore core (fun k => { k with leaving := false }))
  else
    let s := s.modCore core (fun k => { k with powered := true, leaving := false, joined := s.cycle, epoch := 0, l1 := [] })
    .next { s with absent := (s.absent.map (fun p => (p.1, p.2.filter (fun c => c != core)))).filter (fun p => !p.2.isEmpty) }

end Sys2Proof.Machine
end

