-- ==== Sys2Proof/Machine/Leases.lean ====
section
/-!
DEFINITION. The events of leases (06 R191-R194, 10 R291-R296): grants, expiry, write-throughs, revocations, the implicit
leases of ATOM and CAS, and the time-sync monitor.
-/

namespace Sys2Proof.Machine

open State

/-- A thread that waited at an instruction completes it and goes on, its stall count running. -/
def completeLane (s : State) (t stall : Nat) : State :=
  let s := (s.modLane t (fun l => l.advance stall)).resume t .seq
  match s.groupWith t with
  | some (g, _) => s.modGroup g (fun x => { x with hold := stall, waitCount := 0 })
  | none => s
/-- The group of a thread goes on from its LSEND when no write-through of it is awaited. -/
def completeGroup (s : State) (t stall : Nat) : State :=
  match s.groupWith t with
  | none => s
  | some (gid, g) =>
    if g.status != .lease || g.members.any (fun u => (s.core g.core).leases.any (fun l => l.holder == some u && l.notify.isSome)) then s
    else
      let s := g.members.foldl (fun s u => s.modLane u (fun l => l.advance stall)) s
      let s := ({ s with groups := tput s.groups gid { g with status := .ready } } : State).dispose gid g.pc (g.members.map (fun m => (m, .seq)))
      match s.groupWith t with
      | some (i, _) => s.modGroup i (fun x => { x with hold := stall, waitCount := 0 })
      | none => s
/-- Waiting lanes of one LSE that are granted in the same cycle go on as one group (06 R192). -/
def joinGranted (s : State) (c t : Nat) : State :=
  match s.groupWith t with
  | none => s
  | some (gid, g) =>
    let mine := (s.core c).leases.find? (fun l => l.holder == some t && l.granted == s.clockOf c)
    let now := fun (u : Nat) => (s.core c).leases.any (fun l => l.holder == some u && l.granted == s.clockOf c &&
      mine.any (fun m => m.issue == l.issue))
    match s.groups.find? (fun x => x.1 != gid && x.2.core == c && x.2.pc == g.pc && x.2.status == .ready && x.2.hold == g.hold &&
      !x.2.branched && x.2.members.all (fun u => partOf (slotOf u) == partOf (slotOf t) && laneOf u != laneOf t && now u)) with
    | none => s
    | some (other, x) =>
      { s with groups := tput (tdel s.groups gid) other { x with members := sortBy laneOf (g.members ++ x.members) } }
/-- Change the lease of a holder on a line. -/
def modLease (s : State) (c line : Nat) (holder : Option Nat) (f : Lease → Option Lease) : State :=
  s.modCore c (fun k => { k with leases := k.leases.filterMap (fun l =>
    if l.line == line && l.holder == holder then f l else some l) })
def findLease (s : State) (c line : Nat) (holder : Option Nat) : Option Lease :=
  (s.core c).leases.find? (fun l => l.line == line && l.holder == holder)

/-- An ATOM's or CAS's operations in L1, in lane order; the old values go to the lanes (06 R184, 10 R295). The results are
written at the home in the same moment: no other write lies between what an operation reads and what it writes (09 R265).
Whether some lane wrote, whether some lane's read acquires. DEDUCED, log 82. -/
def applyInL1 (s : State) (c : Nat) (ops : List LaneOp) : Bool × Bool × State :=
  ops.foldl (fun (acc : Bool × Bool × State) o =>
    let s := acc.2.2
    let m := s.l1Value c o.key o.size
    let s := match rmw o m with
      | some x => (s.l1Put c o.key (leBytes o.size x)).homeWrite o.key (leBytes o.size x)
      | none => s
    (acc.1 || (rmw o m).isSome, acc.2.1 || acquires o m, deliverOld s o m)) (false, false, s)
/-- The implicit lease of an ATOM or CAS is granted: the line is fetched, the operations performed, and a release's record
registered with what they wrote (10 R283, R295). -/
def grantAtomic (s : State) (r : Request) (q : LeaseReq) : State :=
  let a := applyInL1 (takeLine s r q) r.core r.ops
  let s := match r.release with
    | some e => if a.1 then a.2.2.registerAt r.line r.core e else a.2.2
    | none => a.2.2
  let s := if r.acquire && a.2.1 then s.dropClean r.core else s
  reapAll (s.answered q.req) (dedup (r.ops.map (fun o => slotOf o.thread)))
/-- A far ATOM or CAS is performed at the home, where no lease stands on its line (06 R191, 10 R302). -/
def grantFar (s : State) (r : Request) (q : LeaseReq) : State :=
  let o := applyOps { s with leaseQueue := s.leaseQueue.filter (fun x => x.req != q.req) } r.ops
  reply o.2 r.core r.line q.req o.1 0
/-- An LSE's lease is granted; a load of failed data faults, and takes no lease (06 R176, R192). -/
def grantLse (s : State) (r : Request) (q : LeaseReq) (t : Nat) : State :=
  match grantFault s r with
  | some x =>
    let s := { s with leaseQueue := s.leaseQueue.filter (fun x => x.req != q.req), requests := tdel s.requests q.req }
    let s := r.loads.foldl (fun s l => s.logData r.core x l.key) s
    let s := r.loads.foldl (fun s l => if s.l1Fault r.core l.key l.size then s.dropFailed r.core l.key l.size else s) s
    s.resume t (.trap x r.va)
  | none => joinGranted (completeLane (grantLine s r q t) t q.stall) r.core t

/-- LEASE_GRANT (10 R291, R295, 06 R192): the oldest request for a line without a holder is granted, its line drained and
fetched. -/
def execLeaseGrant (line : Nat) (s : State) : Host.Outcome State Fault Refusal :=
  match s.leaseQueue.find? (fun q => q.line == line) with
  | none => .next s
  | some q =>
    match tfind s.requests q.req with
    | none => .next { s with leaseQueue := s.leaseQueue.filter (fun x => x.req != q.req) }
    | some r =>
      if !(if r.kind == .atomicFar then (tfind s.leaseTab line).isNone else lineFree s line) || !grantReady s r q.req then .next s
      else if s.channelHolds r then .next { s with fresh := s.fresh + 1 }
      else
        let d := s.homeReady line
        if !d.1 then .next d.2
        else
          match (if r.release.isSome then d.2.recordRoom line r.core else (none, d.2)) with
          | (some _, s) => .next s
          | (none, s) =>
            .next (match q.holder with
              | none => if r.kind == .atomicFar then grantFar s r q else grantAtomic s r q
              | some t => grantLse s r q t)

/-- LEASE_EXPIRY (10 R292): explicit leases on a line whose counter has reached LEASEMAX are written through; write-throughs that
had to wait start. -/
def execLeaseExpiry (core line : Nat) (s : State) : Host.Outcome State Fault Refusal :=
  let due := (s.core core).leases.filter (fun l => l.line == line && l.holder.isSome && !l.ending && !l.revoked && !l.record &&
    l.leasemax ≤ s.clockOf core - l.granted)
  .next ((due.foldl (fun s l => s.endLease core line l.holder none) s).endWaiting core)
/-- IMPLICIT_LEASE_END (10 R295). -/
def execImplicitLeaseEnd (core line : Nat) (s : State) : Host.Outcome State Fault Refusal :=
  .next (s.endLease core line none none)

/-- The tick at which the home revokes a lease (10 R293). -/
def ceiling (e : HomeLease) : Nat := e.tick + 2 * e.leasemax
/-- The line of a lease that is over goes back to L1, one of a region in state M nowhere (10 R292, R302). -/
def backToL1 (s : State) (c line : Nat) (far : Bool) : State :=
  if s.leasedLine c line then s
  else if !far then s.trimSet c line
  else if s.pinnedLine c line then s else ((s.writeBack c line).2).replaceL1 c line
/-- A lease that ends well: the line is an L1 line again, an LSEND that waits completes. -/
def leaseAccepted (s : State) (c line : Nat) (l : Lease) : State :=
  let s := modLease s c line l.holder (fun _ => none)
  let s := backToL1 s c line l.farLine
  let s := match l.holder, l.notify with
    | some t, some (p, stall, _) => completeGroup (s.writeP t p true none) t stall
    | _, _ => s
  match l.holder with | some t => s.reap (slotOf t) | none => s
/-- A refused write-through or a notice: the STL bytes go, the lease is revoked, an LSEND that waits faults. -/
def leaseRevoked (s : State) (c line : Nat) (l : Lease) : State :=
  let s := l.stl.foldl (fun s o => s.dropBytes c (line * 128 + o) 1) s
  let alive := match l.holder with | some t => (s.lane t).live | none => false
  match l.holder, l.notify with
  | some t, some (_, stall, va) =>
    let other := ((s.groupWith t).map (fun g => g.2.members.filter (fun u => u != t))).getD []
    let s := (backToL1 (modLease s c line l.holder (fun _ => none)) c line l.farLine).resume t (.trap 0x13 va)
    other.head?.elim s (fun u => completeGroup s u stall)
  | _, _ =>
    let s := modLease s c line l.holder (fun l => if alive then some { l with revoked := true, ending := false, record := false } else none)
    backToL1 s c line l.farLine
/-- The home has taken a write-through: bytes that still hold what was sent are clean, and those that were lost go (10 R277, R304). -/
def cleanSent (s : State) (c line : Nat) (cells : List (Nat × Byte)) (lost : List Nat) : State :=
  match s.l1Line c line with
  | none => s
  | some l =>
    let cs : Tab (Byte × Bool) := l.cells.map (fun q => if cells.contains (q.1, q.2.1) then (q.1, q.2.1, false) else q)
    (s.setL1 c line { l with cells := cs, epoch := if cs.any (fun q => q.2.2) then l.epoch else none }).loseBytes c line lost

/-- LEASE_WRITE_THROUGH (10 R293): accepted while the home still holds the lease, else refused. DEDUCED, log 35. -/
def execLeaseWriteThrough (msg : Nat) (s : State) : Host.Outcome State Fault Refusal :=
  match arriving s msg with
  | some m => (match m.toHome, m.body with
    | true, .leaseWrite cells lost holder =>
      if s.sentBack m.core m.line then .next s
      else
      let s := s.dropMsg msg
      let mine := fun (e : HomeLease) => e.core == m.core && e.holder == holder
      let entry := (tfind s.leaseTab m.line).filter mine
      let l := findLease s m.core m.line holder
      if entry.any (fun e => s.time ≤ ceiling e) then
        let s := cleanSent { s.homeCells m.line cells with leaseTab := tdel s.leaseTab m.line } m.core m.line cells lost
        let s := reportLoss s m.core m.line lost
        .next (ackWriteBack (l.elim s (leaseAccepted s m.core m.line)) msg m.core)
      else
        let s := if entry.isSome then { s with leaseTab := tdel s.leaseTab m.line } else s
        let s := l.elim s (leaseRevoked s m.core m.line)
        .next (ackWriteBack (match holder with | some t => s.reap (slotOf t) | none => s) msg m.core)
    | _, _ => .next s)
  | none => .next s

/-- A write-through of the lease is about to arrive. -/
def writeThroughDue (s : State) (line : Nat) (e : HomeLease) : Bool :=
  s.net.any (fun p => p.2.core == e.core && p.2.line == line && s.deliverable p.1 && (match p.2.body with
    | .leaseWrite _ _ h => h == e.holder
    | _ => false))
/-- LEASE_REVOCATION (10 R293, R296): at the ceiling without a write-through, the entry is freed and the core told. -/
def execLeaseRevocation (line : Nat) (s : State) : Host.Outcome State Fault Refusal :=
  match tfind s.leaseTab line with
  | none => .next s
  | some e =>
    if s.time < ceiling e || (s.time == ceiling e && writeThroughDue s line e) then .next s
    else
      .next ({ s with leaseTab := tdel s.leaseTab line }.send'
        { core := e.core, toHome := false, line := line, body := .revoked e.holder })
/-- REVOCATION_NOTICE (10 R293). -/
def execRevocationNotice (msg : Nat) (s : State) : Host.Outcome State Fault Refusal :=
  match arriving s msg with
  | some m => (match m.toHome, m.body with
    | false, .revoked holder =>
      let s := s.dropMsg msg
      match findLease s m.core m.line holder with
      | some l =>
        -- a write-through already on its way will be refused
        if l.ending then .next s else .next (runProbes (leaseRevoked s m.core m.line l) m.core)
      | none => .next s
    | _, _ => .next s)
  | none => .next s

/-! ### The time-sync monitor (10 R294). -/

/-- TIME_SYNC_CHECK: a difference above 4 ticks puts the core outside the guard band. -/
def execTimeSyncCheck (core : Nat) (s : State) : Host.Outcome State Fault Refusal :=
  let d := Config.drift s.fresh core
  let out := 4 < d.natAbs
  .next ({ s with fresh := s.fresh + 1 }.modCore core (fun k => { k with
    timeView := d, outside := out, refusalLogged := k.refusalLogged && k.outside && out }))
/-- TIME_SYNC_RELOAD. -/
def execTimeSyncReload (core : Nat) (s : State) : Host.Outcome State Fault Refusal :=
  .next (s.modCore core (fun k => { k with timeView := 0, outside := false, refusalLogged := false }))

end Sys2Proof.Machine
end

