-- ==== Sys2Proof/Machine/Paging.lean ====
section
/-!
DEFINITION. Events of translation and of the tier (12 R321, R325-R328, 15 R373): page-fault records, the migration
engine, the migration policy, and the sampler's writes.
-/

namespace Sys2Proof.Machine

open State

/-! ### Page faults (12 R321, R322). -/

/-- The oldest record of a core that found its queue full (12 R321). -/
def waitingRecord (s : State) (core : Nat) : List Nat :=
  ((s.pfRecords.filter (fun r => r.2.core == core && !r.2.sent && !(s.core core).pfQueue.contains r.1)).map (fun r => r.1)).take 1
/-- PAGE_FAULT_RECORD: the oldest record of a core's queue reaches the management core, and its entry frees. -/
def execPageFaultRecord (core : Nat) (s : State) : Host.Outcome State Fault Refusal :=
  match (s.core core).pfQueue with
  | [] => .next s
  | r :: rest =>
    let next := waitingRecord s core
    .next { s.modCore core (fun k => { k with pfQueue := rest ++ next }) with
      pfRecords := tmod s.pfRecords r (fun x => { x with sent := true }) }

/-- Groups that parked with a record, saved ones included, are ready to issue again. -/
def wakeParked (record : Nat) (g : Group) : Group :=
  if g.status == .parked record then { g with status := g.toEnter.elim .ready .entering, waitCount := 0 } else g
/-- The gang of a record is in a save frame. -/
def recordSaved (s : State) (r : PfRecord) : Bool := s.frames.any (fun f => f.2.gangs.any (fun g => g.1 == r.slot && g.2.age == r.age))
/-- UNPARK. -/
def execUnpark (record : Nat) (s : State) : Host.Outcome State Fault Refusal :=
  match tfind s.pfRecords record with
  | none => .next s
  | some r =>
    if !r.sent || (r.issue.isSome && recordSaved s r) then .next s
    else
      let s := { s with pfRecords := tdel s.pfRecords record }
      match r.issue with
      | some o => .next (issueAway s o)
      | none =>
        .next { s with
          groups := s.groups.map (fun g => (g.1, wakeParked record g.2))
          frames := s.frames.map (fun (f : Nat × Frame) => (f.1, { f.2 with groups := f.2.groups.map (fun g => (g.1, wakeParked record g.2)) })) }
/-- DELIVER_PAGE_FAULT: fault 0x10 in the lanes that parked; of a saved gang, after its restore. -/
def execDeliverPageFault (record : Nat) (s : State) : Host.Outcome State Fault Refusal :=
  match tfind s.pfRecords record with
  | none => .next s
  | some r =>
    if !r.sent || recordSaved s r then .next s
    else
      let s := { s with pfRecords := tdel s.pfRecords record }
      match r.issue with
      | some o => .next (s.recordFault o (0x10, r.va))
      | none =>
        .next ((s.groups.filter (fun g => g.2.status == .parked record)).foldl (fun s g =>
          if g.2.toEnter == some true then failEntry s g.1 g.2 0x10 else s.dispose g.1 g.2.pc (g.2.members.map (fun t => (t, Disp.trap 0x10 ((tfind r.at' t).getD r.va))))) s)

/-! ### The migration engine (12 R326). -/

def oldFrame (m : Migration) : Nat := ptePa m.pte
def inFrame (base key : Nat) : Bool := base ≤ key && key < base + 65536
def frameLines (base : Nat) : List Nat := (List.range 512).map (fun i => base / 128 + i)
/-- The device may start a migration: not on its way into the ember state, in it, or on its way out (12 R328, 21 R427). -/
def migrates (s : State) : Bool := match s.power with
  | .running | .loading => true
  | _ => false
/-- MIGRATION_START: one page at a time, the migrating bit, and TINV.va; an entry that changed meanwhile is left alone. -/
def execMigrationStart (mig : Nat) (s : State) : Host.Outcome State Fault Refusal :=
  match tfind s.migrations mig with
  | none => .next s
  | some m =>
    if m.step != 0 || s.migrations.any (fun x => x.2.step != 0) || !migrates s then .next s
    else
      let r := s.homeReady (m.pteAt / 128)
      let s := r.2
      if !r.1 then .next s
      else
        let p : W64 := BitVec.ofNat 64 (s.natAt m.pteAt 8)
        let ok := pteBit p 0 && pteBit p 1 && leafOk p 0 && !pteHost p && !pteMigrating p && ptePa p == ptePa m.pte &&
          pteBit p 10 == (m.toTier == 0)
        if !ok then .next { s with migrations := tdel s.migrations mig }
        else
          let s := s.homeWrite m.pteAt (le8 (p ||| 0x800).toNat)
          let s := dropPage s m.asid m.va.toNat
          .next { s with migrations := tput s.migrations mig { m with pte := p, step := 1 } }

/-- Accesses that captured the old translation are complete: requests, jobs and MREDs, whatever address space they used;
what cores wrote has reached the frame. -/
def frameQuiet (s : State) (m : Migration) : Bool :=
  let f := oldFrame m
  let touches := fun (p : Span) => !p.scr && p.start < f + 65536 && f < p.last
  !s.requests.any (fun r => inFrame f (r.2.line * 128)) &&
    !s.unserved.any (fun x => inFrame f (x.line * 128) && (match x.body with
      | .red .. | .writeBack .. | .leaseWrite .. | .register _ => true
      | _ => false)) &&
    !s.cores.any (fun k => k.2.jobs.any (fun j => (j.reads ++ j.writes).any touches) ||
      k.2.pinned.any (fun l => inFrame f (l * 128))) &&
    !s.mreds.any (fun x => touches x.2.src || inFrame f x.2.dst || x.2.publish.any (fun p => inFrame f p.1) ||
      x.2.wait.any (fun p => inFrame f p.1))
/-- Force the frame's regions into state C; registered bank-node operations are aborted (10 R301). -/
def forceC (s : State) (f : Nat) : State :=
  let rs := (List.range 16).map (fun i => f / 4096 + i)
  let hit := s.mreds.filter (fun x => x.2.regions.any rs.contains)
  let s := hit.foldl (fun s x => endMred s x.1 x.2 (some (0x12, BitVec.ofNat 64 x.2.dst))) s
  { s with regionDir := s.regionDir.map (fun d => if rs.contains d.1 then (d.1, { d.2 with state := 0, pending := 0 }) else d) }
/-- Every core writes back the frame's dirty bytes. -/
def drainFrame (s : State) (f : Nat) : State :=
  s.cores.foldl (fun s k => (s.writeBackFit k.1 ((s.dirtyLines k.1).filter (fun l => inFrame f (l * 128)))).2) s
/-- The write-backs of the frame in flight. -/
def frameWrites (s : State) (f : Nat) : List Nat :=
  s.net.filterMap (fun m => match m.2.body with
    | .writeBack .. | .leaseWrite .. => if inFrame f (m.2.line * 128) then some m.1 else none
    | _ => none)
/-- The records of the frame's lines are drained: a read of a line in the new frame then misses no release (12 R327). -/
def frameRecords (s : State) (f : Nat) : Bool × State :=
  s.homeReadyAll ((s.records.map (fun r => r.1)).filter (fun l => inFrame f (l * 128)))
def frameDirty (s : State) (f : Nat) : Bool :=
  s.cores.any (fun k => k.2.l1.any (fun l => inFrame f (l.1 * 128) && l.2.cells.any (fun q => q.2.2)))
/-- Every core drops its copies of the frame's lines, and its scale cache all lines (10 R278, 18 R399). -/
def dropFrame (s : State) (f : Nat) : State :=
  { s with cores := s.cores.map (fun k => (k.1, { k.2 with
      l1 := k.2.l1.filter (fun l => !inFrame f (l.1 * 128))
      engines := k.2.engines.map (fun e => (e.1, { e.2 with cache := [] })) })) }
/-- A frame of the tier has no region to change: the transitions that waited are complete (12 R315). DESIGN CHOICE, log 85. -/
def dropTransitions (s : State) (old : Nat) : State :=
  let mine := s.regionDir.filter (fun d => old / 4096 ≤ d.1 && d.1 < old / 4096 + 16)
  let ids := mine.flatMap (fun d => d.2.queue.map (fun q => q.2.2))
  let free := fun (st : Status) => match st with | .region id => ids.contains id | _ => false
  { s with
    regionDir := mine.foldl (fun (t : Tab RegionDir) d => tput t d.1 { d.2 with queue := [], await := none }) s.regionDir
    groups := s.groups.map (fun g => if free g.2.status then (g.1, { g.2 with status := .ready }) else g) }
/-- Region transitions that waited for the migration apply to the new frame (12 R328). -/
def moveTransitions (s : State) (old new : Nat) : State :=
  if targetOf new != .hbm then dropTransitions s old
  else (List.range 16).foldl (fun s i =>
    let r := old / 4096 + i
    match tfind s.regionDir r with
    | some d =>
      if d.queue.isEmpty then s
      else
        let e := regionEntry s (new / 4096 + i)
        let dir := tput (tput s.regionDir r { d with queue := [], await := none }) (new / 4096 + i) { e with queue := e.queue ++ d.queue }
        startTransition { s with regionDir := dir } (new / 4096 + i)
    | none => s) s
/-- The entry after a migration, or as it was. -/
def settlePte (s : State) (m : Migration) (frame : Nat) (tier : Bool) : State :=
  let p := s.natAt m.pteAt 8
  let keep := p / 2 ^ 52 * 2 ^ 52 + p % 2 ^ 10
  s.homeWrite m.pteAt (le8 (keep + frame / 2 ^ 16 % 2 ^ 36 * 2 ^ 16 + (if tier then 2 ^ 10 else 0)))
/-- MIGRATION_COPY (12 R326, steps 2 to 6), one stage at each call. -/
def execMigrationCopy (mig : Nat) (s : State) : Host.Outcome State Fault Refusal :=
  match tfind s.migrations mig with
  | none => .next s
  | some m =>
    let f := oldFrame m
    let put := fun (m : Migration) (s : State) => { s with migrations := tput s.migrations mig m }
    match m.step with
    | 1 =>
      if !frameQuiet s m then .next s
      else
        let s := drainFrame (forceC s f) f
        .next (put { m with step := 2, await := frameWrites s f } s)
    | 2 =>
      let leased := s.cores.any (fun k => k.2.leases.any (fun l => inFrame f (l.line * 128) && !l.revoked))
      if !m.await.isEmpty || leased || !frameQuiet s m then .next s
      else if frameDirty s f then
        let s := drainFrame s f
        .next (put { m with await := frameWrites s f } s)
      else if !(frameRecords s f).1 then .next (frameRecords s f).2
      else
        let tier := m.toTier == 1
        let s := dropFrame (frameRecords s f).2 f
        match s.homeFault f 65536 with
        | some c =>
          let s := settlePte s m f (!tier)
          let at' := (failedByte s f 65536).getD f
          let s :=
            if c == 0x19 then logRecord s 4 c 1 (homeOf (at' / 128)) at'
            else logRecord s (if tier then 7 else 8) c 1 (if tier then (hbmAt (pteIl m.pte) at').stack else tierChannel at') at'
          .next { dropPage s m.asid m.va.toNat with migrations := tdel s.migrations mig }
        | none =>
          let fits := fun (x : Nat) => (2 ^ 23 ≤ x) == tier
          let new := match s.freeFrames.find? fits with
            | some x => x * 65536
            | none =>
              let x := Config.spareFrame s.fresh tier
              if tier then 2 ^ 39 + x * 65536 % (3 * 2 ^ 39) else x * 65536 % 2 ^ 39
          let spare := (s.freeFrames.find? fits).isNone && !tier
          let s := { s with
            fresh := s.fresh + 1, freeFrames := (s.freeFrames.filter (fun x => x * 65536 != new)) ++ [f / 65536]
            spareUsed := if spare then s.spareUsed + 1 else s.spareUsed }
          let s := s.homeWrite new (s.bytesAt f 65536)
          let s := settlePte s m new tier
          let s := dropPage s m.asid m.va.toNat
          let s := moveTransitions (dropFrame s f) f new
          .next { s with migrations := tdel s.migrations mig }
    | _ => .next s
/-- Abandon a migration: the entry keeps its frame, the request is made again later (12 R328). -/
def abandonMigration (s : State) (id : Nat) (m : Migration) : State :=
  if m.step == 0 then s
  else
    let s := settlePte s m (oldFrame m) (m.toTier == 0)
    { dropPage s m.asid m.va.toNat with migrations := tput s.migrations id { m with step := 0, await := [] } }

/-! ### The sampler (12 R324, R325). -/

/-- SAMPLE_RECORD: the oldest queued sample is written into the ring. -/
def execSampleRecord (s : State) : Host.Outcome State Fault Refusal :=
  match s.samples with
  | [] => .next s
  | r :: rest =>
    let l := s.sampleBase.toNat % 32
    let s := { s with samples := rest }
    if l < 12 || 30 < l then .next s
    else
      let lost := fun (i : Nat) (b : Byte) => if i == 28 && s.sampleLost then b ||| 0x10 else b
      let bytes := (r.zip (List.range r.length)).map (fun p => lost p.2 p.1)
      let at' := s.sampleBase.toNat % 2 ^ 52 / 2 ^ 12 * 2 ^ 12 + s.sampleHead.toNat
      let s := s.homeWrite at' bytes
      .next { s with sampleHead := BitVec.ofNat 64 ((s.sampleHead.toNat + 32) % 2 ^ l), sampleLost := false }

/-! ### The migration policy (15 R373). -/

/-- The pages of the samples of a window: address space, page number, samples. -/
def windowPages (s : State) (p : Policy) : List (Nat × Nat × Nat) :=
  let l := s.sampleBase.toNat % 32
  let base := s.sampleBase.toNat % 2 ^ 52 / 2 ^ 12 * 2 ^ 12
  if l < 12 || 30 < l then []
  else
    let recs := (List.range (2 ^ l / 32)).filterMap (fun i =>
      let a := base + 32 * i
      let time := s.natAt (a + 8) 8
      if p.started ≤ time && time < p.started + p.window && s.natAt (a + 28) 1 / 32 % 2 == 0 then
        some (s.natAt (a + 30) 2, s.natAt a 8 % 2 ^ 57 / 2 ^ 16)
      else none)
    (dedup recs).map (fun r => (r.1, r.2, recs.count r))
/-- The leaf of a page in an address space, by a region that has it. -/
def pageLeaf (s : State) (asid page : Nat) : Option (Nat × W64) × State :=
  match s.regions.find? (fun r => (s.asid r.1).toNat == asid) with
  | none => (none, s)
  | some r =>
    let x := findLeaf s (page * 2 ^ 16) 4 (((s.walkbase r.1).extractLsb' 14 38).toNat * 2 ^ 14)
    (x.1.bind id, x.2)
/-- Ask for migrations of pages in order until the limits stop it: `more n` after n of them. -/
def movePages (s : State) (tier : Bool) (pages : List (Nat × Nat × Nat)) (more : Nat → Bool) (done : Nat) : Nat × State :=
  pages.foldl (fun (acc : Nat × State) p =>
    if !more acc.1 then acc
    else
      let x := pageLeaf acc.2 p.1 p.2.1
      match x.1 with
      | some (at', e) =>
        if migrationStatus x.2 tier (some (at', e)) == 0 then (acc.1 + 1, addMigration x.2 (p.2.1 * 2 ^ 16) p.1 tier at' e)
        else (acc.1, x.2)
      | none => (acc.1, x.2)) (done, s)
/-- The entries of a table that hold a byte that is not zero. -/
def usedEntries (s : State) (table : Nat) : List Nat :=
  dedup ((s.mem.map (fun c => c.1) ++ s.writes.map (fun w => w.1)).filterMap (fun a =>
    if table ≤ a && a < table + 16384 then some ((a - table) / 8) else none))
/-- The tier-0 pages of 64 KiB that a table's level-0 leaves map, by page number. -/
def nearPages (s : State) : Nat → Nat → Nat → List Nat
  | 0, _, _ => []
  | level + 1, table, va =>
    ((usedEntries s table).filter (fun i => i < (if level == 3 then 2048 else 1024))).flatMap (fun i =>
      let p : W64 := BitVec.ofNat 64 (s.natAt (table + 8 * i) 8)
      let va := va + i * 2 ^ pageBits level
      if !pteBit p 0 then []
      else if pteBit p 1 then (if level == 0 && leafOk p 0 && !pteHost p && !pteBit p 10 then [va / 2 ^ 16] else [])
      else if nodeOk p level then nearPages s level (ptePa p) va else [])
/-- Every tier-0 page of the regions' address spaces, with its samples in the window. -/
def coldPages (s : State) (sampled : List (Nat × Nat × Nat)) : List (Nat × Nat × Nat) :=
  let all := dedup (s.regions.flatMap (fun r =>
    (nearPages s 4 (((s.walkbase r.1).extractLsb' 14 38).toNat * 2 ^ 14) 0).map (fun p => ((s.asid r.1).toNat, p))))
  all.map (fun p => (p.1, p.2, (sampled.find? (fun x => x.1 == p.1 && x.2.1 == p.2)).elim 0 (fun x => x.2.2)))
/-- MIGRATION_WINDOW_END: promotions, then demotions while the reserve is short: of pages without a sample too. -/
def execMigrationWindowEnd (s : State) : Host.Outcome State Fault Refusal :=
  match s.policy with
  | none => .next s
  | some p =>
    if s.time < p.started + p.window then .next s
    else
      let next := fun (s : State) => { s with policy := some { p with started := p.started + p.window } }
      if !p.enable then .next (next s)
      else
        let pages := sortBy (fun x => x.2.1) (windowPages s p)
        let free := (s.freeFrames.filter (fun f => f < 2 ^ 23)).length + (Config.spareCount - s.spareUsed)
        let hot := (sortBy (fun x => x.2.2) (pages.filter (fun x => p.hot ≤ x.2.2)).reverse).reverse
        let cold := sortBy (fun x => x.2.2) (sortBy (fun x => x.2.1) ((coldPages s pages).filter (fun x => x.2.2 ≤ p.cold)))
        let up := movePages s false hot (fun n => n < p.most && p.reserve < free - n) 0
        let left := free - up.1
        let down := if left ≤ p.reserve then
            movePages up.2 true cold (fun n => n < p.most && left + (n - up.1) ≤ p.reserve) up.1
          else up
        .next (next down.2)

end Sys2Proof.Machine
end

