-- ==== Sys2Proof/Machine/Firmware.lean ====
section
/-!
DEFINITION. The management core's own accesses (15 R349, R350), commands as it accepts, orders and starts them
(15 R348-R354), and the queue events.
-/

namespace Sys2Proof.Machine

open State

/-! ### Accesses of the firmware. -/

/-- What an access of the firmware gives; a fault with the address it is for. -/
inductive Fw (α : Type) where
  | ok (x : α)
  | fault (code : Nat) (at' : W64)
  | wait
  deriving DecidableEq, Repr

/-- Translate an address of a command as a privileged access in its region (15 R349). The walk leaves no translation
behind: number 192 stands for the management core. -/
def fwTranslate (s : State) (region : Nat) (va : W64) (acc : Acc) : Fw Nat × State :=
  let r := s.ownerOf 7 s.depth region
  let x := translate { s with cores := tdel s.cores 192 }
    { core := 192, walkbase := r.walkbase, asid := r.asid.toNat, prv := true } va acc
  let s := { x.2 with cores := tdel x.2.cores 192 }
  match x.1 with
  | .ok key _ => (.ok key, s)
  | .fault f => (.fault f va, s)
  | .notPresent => (.fault 0x10 va, s)
  | .wait => (.wait, s)

/-- Read bytes of one line at their home, as an acquire (10 R286). -/
def fwReadKey (s : State) (va : W64) (key n : Nat) : Fw (List Byte) × State :=
  if isDevMem key || targetOf key == .host then
    let r := s.homeReady (key / 128)
    if !r.1 then (.wait, r.2)
    else
      match r.2.homeFault key n with
      | some f => (.fault f va, r.2.logHome f key)
      | none => (.ok (r.2.bytesAt key n), r.2)
  else let b := s.freeBytes n; (.ok b.1, b.2)

/-- The pieces of a range of addresses that lie in one line each. -/
def linePieces (va : W64) (n : Nat) : List (W64 × Nat) :=
  let o := va.toNat % 128
  (List.range ((o + n + 127) / 128)).map (fun i =>
    let lo := max (128 * i) o
    (va + BitVec.ofNat 64 (lo - o), min (128 * i + 128) (o + n) - lo))
/-- Bytes read piece by piece. -/
def fwPieces (s : State) (read : State → W64 → Nat → Fw (List Byte) × State) : List (W64 × Nat) → Fw (List Byte) × State
  | [] => (.ok [], s)
  | (va, n) :: rest =>
    match read s va n with
    | (.ok bs, s) =>
      (match fwPieces s read rest with
       | (.ok more, s) => (.ok (bs ++ more), s)
       | r => r)
    | r => r
/-- Bytes at a virtual address of a command. -/
def fwRead (s : State) (region : Nat) (va : W64) (n : Nat) : Fw (List Byte) × State :=
  fwPieces s (fun s va n =>
    match fwTranslate s region va .read with
    | (.ok key, s) => fwReadKey s va key n
    | (.fault f a, s) => (.fault f a, s)
    | (.wait, s) => (.wait, s)) (linePieces va n)
/-- Bytes at a physical address, host memory above 2^52. -/
def fwReadPhys (s : State) (key n : Nat) : Fw (List Byte) × State :=
  fwPieces s (fun s a n => fwReadKey s a a.toNat n) (linePieces (BitVec.ofNat 64 key) n)

/-! ### Commands. -/

/-- The payload, bytes 0x10 to 0x3F, as a number. -/
def Command.payload (c : Command) : Nat := c.field 0x10 48
/-- The payload bits that a type uses (15 R349, R373). -/
def usedBits (type : Nat) : Nat :=
  match type with
  | 1 => 2 ^ 384 - 1
  | 2 => (2 ^ 64 - 1) + (2 ^ 35 - 1) * 2 ^ 64 + (2 ^ 64 - 1) * 2 ^ 128
  | 3 => (2 ^ 64 - 1) + (2 ^ 32 - 1) * 2 ^ 64
  | 4 => (2 ^ 64 - 1) + 3 * 2 ^ 64
  | 5 => 3
  | 7 => 2 ^ 128 - 1
  | 8 => (2 ^ 64 - 1) + (2 ^ 48 + 0x1F * 2 ^ 40 + 0x1F * 2 ^ 32 + (2 ^ 32 - 1)) * 2 ^ 64 + (2 ^ 64 - 1) * 2 ^ 128 +
      (2 ^ 64 - 1) * 2 ^ 192
  | _ => 0
/-- A record that is faulted when it is accepted: its code (15 R348, R349). -/
def malformed (c : Command) : Option Nat :=
  let p := fun (off n : Nat) => c.field off n
  if p 0 4 / 2 ^ 10 != 0 || p 4 4 != 0 || c.type == 0 || 8 < c.type then some 0x01
  else if c.payload &&& usedBits c.type != c.payload then some 0x02
  else
    let bad : Bool := match c.type with
      | 2 => decide (3 < p 0x1C 1)
      | 4 => p 0x18 1 == 3
      | 5 => p 0x10 1 == 3
      | 8 =>
        let l := p 0x1D 1
        p 0x10 8 % 2 ^ 12 != 0 || 2 ^ 52 ≤ p 0x10 8 || l < 12 || 30 < l || 24 < p 0x1C 1 || p 0x20 8 < 10 ^ 6
      | _ => false
    if bad then some 0x02 else none

def Command.incomplete (c : Command) : Bool := c.state == 1 || c.state == 2 || c.state == 5 || c.state == 6
/-- Earlier commands of the command's queue (15 R351). -/
def earlier (s : State) (seq : Nat) (c : Command) : List Command :=
  (s.commands.filter (fun x => x.1 < seq && x.2.queue == c.queue)).map (fun x => x.2)
/-- A command that may start: in the ember state EMBER and RESUME only, whatever their queue holds (15 R351, 21 R425). DEDUCED, log 60. -/
def startable (s : State) (seq : Nat) (c : Command) : Bool :=
  c.state == 1 &&
    (match s.power with
     | .running =>
       let es := earlier s seq c
       es.all (fun x => x.state != 1) && !es.any (fun x => x.incomplete && (x.type == 2 || x.after)) &&
         (!c.after || !es.any (fun x => x.incomplete))
     | .ember => c.type == 5 || c.type == 6
     | _ => false)

/-- The region of a command exists, or it is the root's create (15 R354, R358). -/
def regionKnown (s : State) (c : Command) : Bool :=
  c.queue == 255 || (tfind s.regions c.region).isSome ||
    (c.type == 4 && c.field 0x18 1 == 0 && (c.region == 0 || c.region == c.field 0x10 8) &&
      isDevMem (c.field 0x10 8) && s.natAt (c.field 0x10 8) 8 == 0)

/-- The command of an event, when it is of the event's type and runs: started before, or now when it may. `hold`: it
stays accepted until its first gang starts. -/
def openCommand (s : State) (seq type : Nat) (hold : Bool) : Option Command × State :=
  match tfind s.commands seq with
  | none => (none, s)
  | some c =>
    if c.type != type then (none, s)
    else if c.state == 2 then (some c, s)
    else if !startable s seq c then (none, s)
    else if !regionKnown s c then (none, setCommand s seq 4 0x02 0 0)
    else if hold then (some c, s)
    else
      let s := setCommand s seq 2 0 0 0
      let s := { s with commands := tmod s.commands seq (fun c => { c with startTime := s.time }) }
      (tfind s.commands seq, s)

/-- Journal a command that takes its sequence number (15 R352, R354); a malformed one is faulted at once. DEDUCED, log 58. -/
def acceptCommand (s : State) (queue index : Nat) (bytes : List Byte) (err : Option Nat) : State :=
  let seq := s.nextSeq
  let c : Command := { queue := queue, index := index, bytes := bytes, state := 1, before := 0, fault := 0, time := s.time
                       slot := 0, detail := 0, updates := 1, startTime := 0 }
  let s := journalWrite { s with nextSeq := seq + 1, commands := tput s.commands seq c } seq c
  match err.orElse (fun _ => malformed c) with
  | some f => setCommand s seq 4 f 0 0
  | none => s
/-- The journal slot of the next command is free: no command that has not ended holds it (15 R352). DEDUCED, log 57. -/
def journalFree (s : State) : Bool :=
  if s.journalSize < 6 || 20 < s.journalSize then true
  else match tfind s.commands (s.nextSeq - 2 ^ s.journalSize) with
    | some c => s.nextSeq < 2 ^ s.journalSize || !c.incomplete
    | none => true

/-! ### Queues (15 R347, R350, R351). -/

def Queue.size (q : Queue) : Nat := (q.ctl.extractLsb' 0 5).toNat
def Queue.enabled (q : Queue) : Bool := 4 ≤ q.size && q.size ≤ 16
/-- A queue address as a key. -/
def Queue.key (q : Queue) (a : W64) : Nat := a.toNat + (if q.ctl.getLsbD 63 then hostBase else 0)

/-- Accept pending records in index order, `n` of them from index `i`. -/
def acceptFrom (s : State) (q : Nat) : Nat → Nat → State
  | 0, _ => s
  | n + 1, i =>
    let e := s.queue q
    if !journalFree s then s
    else
      let r := fwReadPhys s (e.key e.base + 64 * (i % 2 ^ e.size)) 64
      let store := fun (s : State) => s.homeWrite (e.key e.head) (le4 ((i + 1) % 2 ^ 32))
      match r.1 with
      | .wait => r.2
      | .ok bs => acceptFrom (store (acceptCommand r.2 q i bs none)) q n ((i + 1) % 2 ^ 32)
      | .fault f _ => acceptFrom (store (acceptCommand r.2 q i (List.replicate 64 0) (some f))) q n ((i + 1) % 2 ^ 32)
/-- The firmware reads a queue's tail with an acquire and takes its pending records. DEDUCED, log 56. -/
def takeQueue (s : State) (q : Nat) : State :=
  let e := s.queue q
  if !e.enabled || s.power == .recovery then s
  else
    let t := fwReadPhys s (e.key e.tail) 4
    let h := fwReadPhys t.2 (e.key e.head) 4
    match t.1, h.1 with
    | .ok tail, .ok head =>
      let i := leNat head
      acceptFrom h.2 q ((leNat tail + 2 ^ 32 - i) % 2 ^ 32) i
    | _, _ => h.2

/-- QUEUE_WAKE (15 R350). -/
def execQueueWake (queue : Nat) (s : State) : Host.Outcome State Fault Refusal := .next (takeQueue s queue)
/-- QUEUE_POLL (15 R350): every enabled queue. -/
def execQueuePoll (s : State) : Host.Outcome State Fault Refusal := .next ((List.range Config.numQueues).foldl takeQueue s)

/-- QUEUE_TABLE_WRITE (15 R347): field 0 base, 1 tail, 2 head, 3 size and host bit. Reserved bits are ignored; a size out
of range disables the queue and is logged. -/
def execQueueTableWrite (queue field : Nat) (value : BitVec 64) (s : State) : Host.Outcome State Fault Refusal :=
  let e := s.queue queue
  let put := fun (e : Queue) (s : State) => { s with queues := tput s.queues queue e }
  match field with
  | 0 => .next (put { e with base := value } s)
  | 1 => .next (put { e with tail := value } s)
  | 2 => .next (put { e with head := value } s)
  | _ =>
    let size := (value.extractLsb' 0 5).toNat
    let bad := size != 0 && (size < 4 || 16 < size)
    let host := value &&& 0x8000000000000000
    let e := { e with ctl := if bad then host else host ||| BitVec.ofNat 64 size }
    .next (put e (if bad then logRecord s 16 0 2 queue (Config.queueTableOffset + 32 * queue + 0x18) else s))

/-! ### WAIT and SIGNAL (15 R349). -/

/-- The word of a WAIT or SIGNAL, naturally aligned. DEDUCED, log 59. -/
def commandWord (s : State) (c : Command) (acc : Acc) : Fw Nat × State :=
  let va : W64 := BitVec.ofNat 64 (c.field 0x10 8)
  if va.toNat % 4 != 0 then (.fault 0x15 va, s) else fwTranslate s c.region va acc
def waitHolds (cond x v : Nat) : Bool :=
  match cond with
  | 0 => x == v
  | 1 => x != v
  | 2 => v ≤ x
  | _ => x < v
/-- Read the word and complete the WAIT when its condition holds. -/
def pollWait (s : State) (seq : Nat) (c : Command) : State :=
  match commandWord s c .read with
  | (.wait, s) => s
  | (.fault f a, s) => setCommand s seq 4 f 0 a
  | (.ok key, s) =>
    match fwReadKey s 0 key 4 with
    | (.wait, s) => s
    | (.fault f _, s) => setCommand s seq 4 f 0 (BitVec.ofNat 64 (c.field 0x10 8))
    | (.ok bs, s) => if waitHolds (c.field 0x1C 1) (leNat bs) (c.field 0x18 4) then setCommand s seq 3 0 0 0 else s
/-- WAIT: starts, and reads its word until the condition holds. -/
def execWait (seq : Nat) (s : State) : Host.Outcome State Fault Refusal :=
  let r := openCommand s seq 2 false
  match r.1 with
  | some c => .next (pollWait r.2 seq c)
  | none => .next r.2
/-- WAIT_TIMEOUT: a last read, then fault 0x1D. -/
def execWaitTimeout (seq : Nat) (s : State) : Host.Outcome State Fault Refusal :=
  match tfind s.commands seq with
  | none => .next s
  | some c =>
    let limit := c.field 0x20 8
    if c.type != 2 || c.state != 2 || limit == 0 || s.time < c.startTime + limit then .next s
    else
      let s := pollWait s seq c
      if (tfind s.commands seq).any (fun c => c.state == 2) then .next (setCommand s seq 4 0x1D 0 0) else .next s
/-- The slot number that stands for the management core. -/
def mgmtSlot : Nat := 96 * 192
/-- A store of the firmware with a release at system scope: at the home, the host's or a peer's memory. -/
def fwStore (s : State) (key : Nat) (bs : List Byte) : State :=
  match targetOf key with
  | .hbm | .lpddr | .host => s.homeWrite key bs
  | .peer => s.peerSend mgmtSlot (peerOf key) .release [(peerPa key, bs)]
  | _ => s
/-- SIGNAL. -/
def execSignal (seq : Nat) (s : State) : Host.Outcome State Fault Refusal :=
  let r := openCommand s seq 3 false
  match r.1 with
  | none => .next r.2
  | some c =>
    match commandWord r.2 c .write with
    | (.wait, s) => .next s
    | (.fault f a, s) => .next (setCommand s seq 4 f 0 a)
    | (.ok key, s) =>
      if targetOf key == .peer && !s.peerFits [(peerOf key, 4)] then .next s
      else .next (setCommand (fwStore s key (le4 (c.field 0x18 4))) seq 3 0 0 0)

/-! ### Regions (15 R355-R358). -/

/-- The control block's fields from its bytes; none: a reserved bit is set. -/
def parseRegion (bs : List Byte) : Option Region :=
  let f := fun (off n : Nat) => leNat ((bs.drop off).take n)
  if f 0x52 6 != 0 || f 0x62 2 != 0 || f 0x60 2 / 2 ^ 11 != 0 || f 0x64 4 / 2 ^ 5 != 0 then none
  else some { Region.none with
    parent := f 0 8, cores := BitVec.ofNat 192 (f 0x08 24), gangBudget := f 0x20 4, rowBudget := f 0x24 4
    vregBudget := f 0x28 8, scratchBudget := f 0x30 8, quantum := f 0x38 8, faultDomain := BitVec.ofNat 64 (f 0x40 8)
    walkbase := BitVec.ofNat 64 (f 0x48 8), asid := BitVec.ofNat 16 (f 0x50 2), salt := BitVec.ofNat 64 (f 0x58 8)
    inherit := BitVec.ofNat 16 (f 0x60 2), privilege := f 0x64 1 / 2 ^ 4 == 1, priority := f 0x64 1 % 2 ^ 4 }
/-- A region and its descendants. -/
def subtree (s : State) (a : Nat) : List Nat :=
  (s.regions.map (fun r => r.1)).filter (fun b => (s.ancestry (s.depth + 1) b).contains a)
/-- A region holds a resident, saved or queued block. -/
def regionBusy (s : State) (a : Nat) : Bool :=
  s.launches.any (fun l => l.2.region == a && (s.gangs.any (fun g => g.2.launch == l.1) ||
    s.blocks.any (fun b => b.2.launch == l.1) || !l.2.waiting.isEmpty || l.2.nextBlock < l.2.nblocks.toNat))

/-- Count use against a region and its ancestors (15 R356). -/
def addUse (gangs rows vregs scratch : Nat) (r : Region) : Region :=
  { r with usedGangs := r.usedGangs + gangs, usedRows := r.usedRows + rows, usedVregs := r.usedVregs + vregs
           usedScratch := r.usedScratch + scratch }
def chargeRegion (s : State) (a gangs rows vregs scratch : Nat) : State :=
  (s.ancestry (s.depth + 1) a).foldl (fun s x => s.modUse x (addUse gangs rows vregs scratch)) s
/-- Move a region's use from its old ancestors to its new ones. -/
def recharge (s : State) (a old new : Nat) : State :=
  let u := s.region a
  chargeRegion (s.creditRegion old u.usedGangs u.usedRows u.usedVregs u.usedScratch) new
    u.usedGangs u.usedRows u.usedVregs u.usedScratch

/-- REGION of one action: its target's control block is read when the action needs it. DEDUCED, log 62. -/
def regionCommand (s : State) (seq action : Nat) (act : State → Nat → Option Region → Nat ⊕ State) : State :=
  let fits := (tfind s.commands seq).any (fun c => c.type == 4 && c.field 0x18 1 == action)
  if !fits then s
  else
    let r := openCommand s seq 4 true
    match r.1 with
    | none => r.2
    | some c =>
      let t := c.field 0x10 8
      let finish := fun (s : State) (b : Option Region) =>
        match act s t b with
        | .inl f => setCommand s seq 4 f 0 0
        | .inr s => setCommand (setCommand s seq 2 0 0 0) seq 3 0 0 0
      if action == 2 then finish r.2 none
      else if t % 64 != 0 || !isDevMem t then setCommand r.2 seq 4 0x02 0 0
      else
        match fwReadPhys r.2 t 128 with
        | (.wait, s) => s
        | (.fault f a, s) => setCommand s seq 4 f 0 a
        | (.ok bs, s) => finish s (parseRegion bs)
/-- REGION_CREATE: the block joins the tree, its counters zero. -/
def execRegionCreate (seq : Nat) (s : State) : Host.Outcome State Fault Refusal :=
  .next (regionCommand s seq 0 (fun s t b => match b with
    | none => .inl 0x02
    | some r =>
      if (tfind s.regions t).isSome || (r.parent == 0 && !s.regions.isEmpty) ||
          (r.parent != 0 && (tfind s.regions r.parent).isNone) then .inl 0x02
      else .inr ({ s with regions := tput s.regions t r }.homeWrite (t + 0x68) (List.replicate 24 0))))
/-- REGION_MODIFY: the fields of the block, with its use and the CSRs of gangs already dispatched kept. -/
def execRegionModify (seq : Nat) (s : State) : Host.Outcome State Fault Refusal :=
  .next (regionCommand s seq 1 (fun s t b => match b, tfind s.regions t with
    | some r, some old =>
      if (r.parent != old.parent && ((tfind s.regions r.parent).isNone || (subtree s t).contains r.parent)) then .inl 0x02
      else
        let s := if r.parent != old.parent then recharge s t old.parent r.parent else s
        .inr { s with regions := tput s.regions t { r with
          usedGangs := old.usedGangs, usedRows := old.usedRows, usedVregs := old.usedVregs, usedScratch := old.usedScratch
          csrTrapvec := old.csrTrapvec, csrWalkbase := old.csrWalkbase, csrAsid := old.csrAsid
          quantumNow := old.quantumNow, domainNow := old.domainNow } }
    | _, _ => .inl 0x02))
/-- REGION_DELETE: the target and its descendants. -/
def execRegionDelete (seq : Nat) (s : State) : Host.Outcome State Fault Refusal :=
  .next (regionCommand s seq 2 (fun s t _ =>
    if (tfind s.regions t).isNone then .inl 0x02
    else
      let gone := subtree s t
      if gone.any (regionBusy s) then .inl 0x1D
      else .inr { s with regions := s.regions.filter (fun r => !gone.contains r.1) }))

/-! ### MIGRATE-POLICY (15 R373). -/

/-- DEDUCED, log 63. -/
def execMigratePolicy (seq : Nat) (s : State) : Host.Outcome State Fault Refusal :=
  let r := openCommand s seq 8 false
  match r.1 with
  | none => .next r.2
  | some c =>
    let p : Policy := { enable := c.field 0x1E 1 == 1, cold := c.field 0x1A 2, hot := c.field 0x18 2, window := c.field 0x20 8
                        most := c.field 0x28 4, reserve := c.field 0x2C 4, started := r.2.time }
    let s := { r.2 with
      policy := some p, sampleK := c.field 0x1C 1
      sampleBase := BitVec.ofNat 64 (c.field 0x10 8 + c.field 0x1D 1)
      cores := r.2.cores.map (fun k => (k.1, { k.2 with sampleCount := 0 })) }
    .next (setCommand s seq 3 0 0 0)

/-! ### HALT's outcomes (15 R360) and plain host registers. -/

/-- A halted gang goes on. -/
def unhalt (s : State) (n : Nat) : State :=
  s.modGang n (fun g => { g with halted := false })
def haltedGang (s : State) (n : Nat) : Bool := (tfind s.gangs n).any (fun g => g.halted)
def haltWrite (s : State) (action slot : Nat) : State := { s with haltControl := BitVec.ofNat 64 (slot % 2 ^ 16 + action * 2 ^ 16) }
/-- A halt control write that changes no gang; the invalid ones are logged: action 3, and a slot without a halted gang. -/
def haltNothing (s : State) (action slot : Nat) : State :=
  let s := haltWrite s action slot
  if action == 0 then s else logRecord s 16 0 2 0xFFFF Config.haltControlOffset
/-- DEDUCED, log 79. -/
def execHaltResume (slot : Nat) (s : State) : Host.Outcome State Fault Refusal :=
  if haltedGang s slot then .next (unhalt (haltWrite s 1 slot) slot) else .next (haltNothing s 1 slot)
def execHaltRelease (slot : Nat) (s : State) : Host.Outcome State Fault Refusal :=
  if haltedGang s slot then
    let s := unhalt (haltWrite s 2 slot) slot
    .next (exitLanes s (s.liveOf slot))
  else .next (haltNothing s 2 slot)
def execHaltControlNoEffect (value : BitVec 64) (s : State) : Host.Outcome State Fault Refusal :=
  let action := (value.extractLsb' 16 2).toNat
  let slot := (value.extractLsb' 0 16).toNat
  if (action == 1 || action == 2) && haltedGang s slot then .next s else .next (haltNothing s action slot)
/-- The configuration records that failed verification are reported once the host has set the log up (21 R430). DEDUCED, log 109. -/
def reportRecords (s : State) : State :=
  if s.logBase == 0 || s.logSize < 6 || 16 < s.logSize then s
  else s.badRecords.foldl (fun s r => logRecord s 18 0 2 r.1 r.2) { s with badRecords := [] }
/-- REGISTER_WRITE: the journal, log and emulation registers hold what is written (15 R352, 16 R379, R380, R383). -/
def execRegisterWrite (reg : HostReg) (value : BitVec 64) (s : State) : Host.Outcome State Fault Refusal :=
  match reg with
  | .journalBase => .next { s with journalBase := value }
  | .journalSize => .next { s with journalSize := value.toNat }
  | .logBase => .next (reportRecords { s with logBase := value })
  | .logSize => .next (reportRecords { s with logSize := value.toNat })
  | .emulationTableBase => .next { s with emulationTable := value }
  | .emulationLeaseBase => .next { s with emulationLease := value }

end Sys2Proof.Machine
end

