-- ==== Sys2Proof/Machine/Placement.lean ====
section
/-!
DEFINITION. Where a block goes (15 R357, R364-R367, 01 R13): what is free on a core, which cores a block takes, and
the slots and register bases of its gangs.
-/

namespace Sys2Proof.Machine

open State

/-- A: registers of a gang (01 R13). -/
def Header.alloc (h : Header) : Nat := (h.vregs + h.weirs + 7) / 8 * 8
/-- Gangs that an empty core holds. -/
def Header.perCore (h : Header) : Nat := 8 * min 12 (1024 / h.alloc)

/-! ### Room on a core. -/

/-- What is taken on a core: slots with their register runs (slot, base, size), scratch bytes, accumulator rows
(base, count). -/
structure Room where
  runs : List (Nat × Nat × Nat)
  scratch : Nat
  acc : List (Nat × Nat)
  deriving DecidableEq, Repr

/-- The part of a block on a core is in a save frame. -/
def partSaved (s : State) (c key : Nat) : Bool := s.frames.any (fun f => f.2.core == c && f.2.blocks.contains key)
/-- The parts of blocks on a core that are not saved. -/
def partsOn (s : State) (c : Nat) : List (Nat × BlockPart) :=
  s.blocks.flatMap (fun b => (b.2.parts.filter (fun p => p.core == c && !partSaved s c b.1)).map (fun p => (b.1, p)))
def roomOf (s : State) (c : Nat) : Room :=
  let head := fun (key : Nat) => (s.launch (s.block key).launch).header
  let parts := partsOn s c
  { runs := (s.gangs.filter (fun g => coreOf g.1 == c)).map (fun g => (g.1 % 96, g.2.regBase, g.2.allocRegs)) ++
      s.launches.flatMap (fun l => (l.2.pool.filter (fun p => coreOf p.1 == c)).map (fun p =>
        (p.1 % 96, p.2, l.2.header.alloc)))
    scratch := (parts.map (fun p => (head p.1).scratch)).sum
    acc := parts.map (fun p => (p.2.accBase, (head p.1).accrows)) }

def clear (b n : Nat) (rs : List (Nat × Nat)) : Bool := !rs.any (fun r => r.1 < b + n && b < r.1 + r.2)
/-- The lowest base with `n` free in a run, below `limit`. -/
def lowestBase (limit n : Nat) (rs : List (Nat × Nat)) : Option Nat :=
  (sortBy id (0 :: rs.map (fun r => r.1 + r.2))).find? (fun b => b + n ≤ limit && clear b n rs)
/-- The next gang of a partition: its lowest free slot, its lowest base (15 R366). -/
def takeSlot (a p : Nat) (r : Room) : Option ((Nat × Nat) × Room) :=
  let mine := r.runs.filter (fun x => x.1 / 12 == p)
  match (List.range' (12 * p) 12).find? (fun n => !mine.any (fun x => x.1 == n)), lowestBase 1024 a (mine.map (fun x => x.2)) with
  | some n, some b => some ((n, b), { r with runs := (n, b, a) :: r.runs })
  | _, _ => none
/-- Further gangs that a partition holds, 12 at most. -/
def partCap (a p : Nat) : Nat → Room → Nat
  | 0, _ => 0
  | n + 1, r => match takeSlot a p r with
    | some x => partCap a p n x.2 + 1
    | none => 0
def capOf (a : Nat) (r : Room) (p : Nat) : Nat := partCap a p 12 r
/-- Gangs of a kernel that a core can hold now, with `pool` slots beside them. -/
def coreCap (h : Header) (pool : Nat) (r : Room) : Nat :=
  if 786432 < r.scratch + h.scratch || (h.accrows != 0 && (lowestBase 1024 h.accrows r.acc).isNone) then 0
  else
    let c := capOf h.alloc r
    let all := ((List.range 8).map c).sum - pool
    if h.pairFlag then min (2 * ((List.range 4).map (fun m => min (c (2 * m)) (c (2 * m + 1)))).sum) (all / 2 * 2) else all

/-- The place with the most room, the lowest on a tie. -/
def roomiest (cap : Nat → Nat) (n : Nat) : Nat :=
  (List.range n).foldl (fun best p => if cap best < cap p then p else best) 0
/-- Slots for `n` units on a core, a unit being a gang or a guide pair; the first goes where `fix` says. -/
def fillUnits (h : Header) : Nat → Option Nat → Room → Option (List (List (Nat × Nat)) × Room)
  | 0, _, r => some ([], r)
  | n + 1, fix, r =>
    let c := capOf h.alloc r
    let ps :=
      if h.pairFlag then
        let m := (fix.map (fun p => p / 2)).getD (roomiest (fun m => min (c (2 * m)) (c (2 * m + 1))) 4)
        [2 * m, 2 * m + 1]
      else [fix.getD (roomiest c 8)]
    let unit := ps.foldl (fun (acc : Option (List (Nat × Nat) × Room)) p =>
      acc.bind (fun a => (takeSlot h.alloc p a.2).map (fun x => (a.1 ++ [x.1], x.2)))) (some ([], r))
    unit.bind (fun u => (fillUnits h n none u.2).map (fun x => (u.1 :: x.1, x.2)))

/-! ### Plans. -/

/-- A block's part on a core: gangs in %gang order and pool slots, each with its slot in the core and register base. -/
structure CorePlan where
  core : Nat
  accBase : Nat
  gangs : List (Nat × Nat)
  pool : List (Nat × Nat)
  deriving DecidableEq, Repr
abbrev Plan := List CorePlan

/-- The launch reserved its pool on the core already, or has a gang there (15 R367). -/
def onCore (s : State) (q c : Nat) : Bool :=
  s.gangs.any (fun g => g.2.launch == q && coreOf g.1 == c) || (s.launch q).pool.any (fun p => coreOf p.1 == c)
/-- Fill a core with `n` gangs; %gang numbers go lowest slot first, a fixed first gang keeping its place (15 R365). -/
def fillCore (s : State) (l : Launch) (c n : Nat) (fix : Option Nat) (r : Room) : Option CorePlan :=
  let h := l.header
  let units := fillUnits h (if h.pairFlag then n / 2 else n) fix r
  units.bind (fun u =>
    let first := fun (x : List (Nat × Nat)) => (x.headD (0, 0)).1
    let gangs := match fix, u.1 with
      | some _, x :: rest => x ++ (sortBy first rest).flatten
      | _, us => (sortBy first us).flatten
    let pool := if onCore s l.seq c then some ([], u.2) else fillUnits { h with pairFlag := false } h.spawnpool none u.2
    pool.map (fun p => { core := c, accBase := (lowestBase 1024 h.accrows r.acc).getD 0, gangs := gangs, pool := p.1.flatten }))

/-- The effective cores of a region, ascending, and its slice-pairs by their lower core (15 R364). -/
def coreList (s : State) (a : Nat) : List Nat :=
  let e := s.effCores s.depth a
  (List.range 192).filter (fun c => e.getLsbD c)
def pairList (s : State) (a : Nat) : List Nat :=
  (coreList s a).filter (fun c => c % 2 == 0 && (coreList s a).contains (c + 1))
/-- %tile of a block: x, y, z (03 R105). -/
def tileOf (grid : Nat × Nat × Nat) (b : Nat) : Nat × Nat × Nat :=
  (b % grid.1, b / grid.1 % grid.2.1, b / (grid.1 * grid.2.1))
/-- The placement hash (15 R364). -/
def placeIndex (salt : W64) (t : Nat × Nat × Nat) (n : Nat) : Nat :=
  let x := salt ^^^ (BitVec.ofNat 64 t.1 <<< 42) ^^^ (BitVec.ofNat 64 t.2.1 <<< 21) ^^^ BitVec.ofNat 64 t.2.2
  (mix64 x).toNat / 2 ^ 32 * n / 2 ^ 32
/-- A list from its `i`-th element, wrapping. -/
def rotate {α : Type} (i : Nat) (xs : List α) : List α := xs.drop i ++ xs.take i

def gangsPer (l : Launch) : Nat := (l.threads + 31) / 32
/-- A block of one core (15 R364): its gangs and pool fit an empty core. -/
def oneCore (l : Launch) : Bool := gangsPer l + l.header.spawnpool ≤ l.header.perCore
def listCore (e : BitVec 16) : Nat := (e.extractLsb' 0 8).toNat
def listPart (e : BitVec 16) : Option Nat := let p := (e.extractLsb' 8 4).toNat; if p == 0 then none else some (p - 1)

/-- The cores a block may take, in the order it tries them, and the partition of its first gang. -/
def ringOf (s : State) (l : Launch) (b : Nat) : List Nat × Option Nat :=
  match l.place with
  | some es =>
    let from' := es.drop b
    (dedup ((if oneCore l then from'.take 1 else from').map listCore), (from'[0]?).bind listPart)
  | none =>
    let ps := pairList s l.region
    let i := placeIndex (s.effSalt l.region) (tileOf l.grid b) ps.length
    if oneCore l then (rotate i ps, none)
    else
      let cs := coreList s l.region
      (rotate (cs.idxOf ((ps[i]?).getD 0)) cs, none)

/-- Place a block given what is taken on each core; none: it waits (15 R364, R365). DEDUCED, log 65. -/
def planBlock (s : State) (room : Nat → Room) (l : Launch) (b : Nat) : Option Plan :=
  let ring := ringOf s l b
  let n := gangsPer l
  let pool := fun c => if onCore s l.seq c then 0 else l.header.spawnpool
  let cap := fun c => coreCap l.header (pool c) (room c)
  if oneCore l then
    let pick := match l.place with
      | some _ => (ring.1.find? (fun c => n ≤ cap c))
      | none => (ring.1.map (fun c => if cap c < cap (c + 1) then c + 1 else c)).find? (fun c => n ≤ cap c)
    pick.bind (fun c => (fillCore s l c n ring.2 (room c)).map (fun p => [p]))
  else
    let r := ring.1.foldl (fun (acc : Option (Nat × Option Nat × Plan)) c =>
      acc.bind (fun a =>
        let k := min a.1 (cap c)
        if k == 0 then some a
        else (fillCore s l c k a.2.1 (room c)).map (fun p => (a.1 - k, none, a.2.2 ++ [p])))) (some (n, ring.2, []))
    r.bind (fun a => if a.1 == 0 then some a.2.2 else none)

/-! ### Budgets (15 R356, R357). -/

/-- Gang slots, accumulator rows, register bytes and scratch bytes of a block. -/
def needOf (h : Header) (gangs cores pools : Nat) : Nat × Nat × Nat × Nat :=
  (gangs + pools, cores * 4 * h.accrows, (gangs + pools) * h.alloc * 128, cores * h.scratch)
def planNeed (h : Header) (p : Plan) : Nat × Nat × Nat × Nat :=
  needOf h ((p.map (fun c => c.gangs.length)).sum) p.length ((p.map (fun c => c.pool.length)).sum)
/-- The need fits every effective budget, beside the use counted when `used`. -/
def fitsBudgets (s : State) (a : Nat) (used : Bool) (n : Nat × Nat × Nat × Nat) : Bool :=
  (s.ancestry (s.depth + 1) a).all (fun x =>
    let r := s.region x
    let u := fun k => if used then k else 0
    u r.usedGangs + n.1 ≤ (s.ownerOf 1 s.depth x).gangBudget && u r.usedRows + n.2.1 ≤ (s.ownerOf 2 s.depth x).rowBudget &&
      u r.usedVregs + n.2.2.1 ≤ (s.ownerOf 3 s.depth x).vregBudget &&
      u r.usedScratch + n.2.2.2 ≤ (s.ownerOf 4 s.depth x).scratchBudget)
/-- A single block could never start: fault 0x1D (15 R357, R364, R365). -/
def neverFits (s : State) (l : Launch) : Bool :=
  let n := gangsPer l
  let room := l.header.perCore - l.header.spawnpool
  let each := if l.header.pairFlag then room / 2 * 2 else room
  let cores := if oneCore l then 1 else if each == 0 then 193 else (n + each - 1) / each
  let blocks := match l.place with
    | none => (pairList s l.region).isEmpty || (coreList s l.region).length < cores
    | some es => (List.range l.nblocks.toNat).any (fun b => (dedup ((es.drop b).map listCore)).length < cores)
  blocks || !fitsBudgets s l.region false (needOf l.header n cores (cores * l.header.spawnpool))

end Sys2Proof.Machine
end

