-- ==== Sys2Proof/Machine/Launches.lean ====
section
/-!
DEFINITION. LAUNCH with its checks (03 R96, R106, 15 R349, R357), the start of a block (15 R362, R363), and which
blocks are pre-empted for one (15 R359).
-/

namespace Sys2Proof.Machine

open State

/-! ### The kernel header (03 R96, R106). -/

/-- A header from its 256 bytes, or the fault of its first failing check. DESIGN CHOICE, log 91. -/
def parseHeader (bs : List Byte) (addr : W64) (threads : Nat) : Nat ⊕ Header :=
  let f := fun (off n : Nat) => leNat ((bs.drop off).take n)
  let version := f 4 1
  let flags := f 5 1
  let entries := (List.range 16).map (fun i => f (0x60 + 8 * i) 8)
  let h : Header := {
    addr := addr, version := version, population := flags.testBit 0, pairFlag := flags.testBit 1
    progress := flags.testBit 2, check := flags.testBit 3, vregs := f 8 2, kregs := f 0xA 2, argCount := f 0xF 1
    entryCount := f 0xE 1, spawnpool := f 0xD 1, weirs := f 0xC 1, scratch := f 0x10 4
    fairtime := if f 0x16 2 == 0 then 2048 else 16 * f 0x16 2, accrows := f 0x14 2
    windows := (List.range 8).map (fun i => BitVec.ofNat 64 (f (0x20 + 8 * i) 8))
    entries := (entries.take (f 0xE 1)).map (fun e => addr + 256 + BitVec.ofNat 64 (slotPC e)) }
  let reserved := flags / 2 ^ 4 != 0 || f 6 2 != 0 || f 0x18 8 != 0 || f 0xE0 32 != 0 || (entries.drop h.entryCount).any (· != 0)
  if f 0 4 != 0x4B574258 || !(version == 3 || version == 4 || version == 5) || reserved ||
      ((h.population || h.pairFlag) && version != 5) then .inl 0x01
  else if h.vregs % 8 != 0 || h.vregs < 8 || 384 < h.vregs || h.kregs < 1 || 160 < h.kregs ||
      min 16 h.kregs < h.argCount || h.entryCount < 1 || 16 < h.entryCount || 16 < h.weirs || (version == 3 && h.weirs != 0) || 786432 < h.scratch ||
      (f 0x16 2 != 0 && (f 0x16 2 < 16 || 4096 < f 0x16 2)) || 1024 < h.accrows ||
      (h.population && h.pairFlag) || (h.pairFlag && (threads + 31) / 32 % 2 == 1) then .inl 0x02
  else .inr h

/-- The placement list up to 0xFFFF, from the `i`-th entry (15 R349). -/
def readList (s : State) (region : Nat) (va : W64) : Nat → Fw (List (BitVec 16)) × State
  | 0 => (.ok [], s)
  | n + 1 =>
    match fwRead s region va 2 with
    | (.ok bs, s) =>
      if leNat bs == 0xFFFF then (.ok [], s)
      else (match readList s region (va + 2) n with
        | (.ok es, s) => (.ok (BitVec.ofNat 16 (leNat bs) :: es), s)
        | r => r)
    | (.fault f a, s) => (.fault f a, s)
    | (.wait, s) => (.wait, s)
def listOk (cores : List Nat) (nblocks : Nat) (es : List (BitVec 16)) : Bool :=
  es.all (fun e => e.toNat < 2 ^ 12 && listCore e < 192 && (e.extractLsb' 8 4).toNat ≤ 8 && cores.contains (listCore e)) &&
    nblocks ≤ es.length

/-! ### Starting a block (15 R362, R363, R367). -/

/-- The engines of a core at the start of a block: its accumulator rows are zero on each, the planes and the scale memory
on those of its gangs' and its pool's partition pairs (01 R32, 07 R213). DEDUCED, log 66. -/
def clearEngines (s : State) (c base rows : Nat) (pairs : List Nat) : State :=
  (List.range 4).foldl (fun s m => s.modEngine c m (fun e =>
    let acc : Tab (BitVec 34) := e.acc.filter (fun x => x.1 < 64 * base || 64 * (base + rows) ≤ x.1)
    let e := { e with acc := acc }
    if pairs.contains m then { e with active := Plane.zero, shadow := Plane.zero, scaleMem := [] } else e)) s

/-- A block's gangs in %gang order: core, slot number, register base. DEDUCED, log 52. -/
def planGangs (p : Plan) : List (Nat × Nat × Nat) := p.flatMap (fun c => c.gangs.map (fun g => (c.core, 96 * c.core + g.1, g.2)))
/-- Number a list. -/
def numbered {α : Type} (xs : List α) : List (Nat × α) := (List.range xs.length).zip xs

/-- Write a block's bind records: its record, reservations, gangs and threads. -/
def bindBlock (s : State) (q b : Nat) (p : Plan) : State :=
  let l := s.launch q
  let h := l.header
  let gs := planGangs p
  let t := tileOf l.grid b
  let cores := p.map (fun c => c.core)
  let parts := p.map (fun c => ({ core := c.core, scratch := [], tags := [], accBase := c.accBase
                                  slots := sortBy id (c.gangs.map (fun g => 96 * c.core + g.1)) } : BlockPart))
  let s := p.foldl (fun s c => clearEngines s c.core c.accBase h.accrows ((c.gangs ++ c.pool).map (fun g => g.1 / 24))) s
  let blk : Block := { launch := q, index := b, tile := BitVec.ofNat 64 (t.1 * 2 ^ 42 + t.2.1 * 2 ^ 21 + t.2.2)
                       threads := l.threads, gangs := gs.length
                       scope := if cores.length == 1 then 3 else if (dedup (cores.map dieOf)).length == 1 then 4 else 5
                       parts := parts, bars := [], started := s.cycle, saved := false }
  let n := planNeed h p
  let s := chargeRegion s l.region n.1 n.2.1 n.2.2.1 n.2.2.2
  let s := { s with blocks := tput s.blocks (blockKey q b) blk }
  let s := s.modLaunch q (fun l => { l with
    pool := l.pool ++ p.flatMap (fun c => c.pool.map (fun x => (96 * c.core + x.1, x.2)))
    ranOn := dedup (l.ranOn ++ cores) })
  let status : W32 := if s.effPrivilege s.depth l.region then 1 else 0
  let args := (numbered (l.args.take h.argCount)).foldl (fun t x => tset 0 t x.1 x.2) ([] : Tab W32)
  (sortBy (fun x => x.2.2.1) (numbered gs)).foldl (fun s x =>
    let i := x.1
    let slot := x.2.2.1
    let c := x.2.1
    let mate := if h.pairFlag then (gs[if i % 2 == 0 then i + 1 else i - 1]?).map (fun y => y.2.1) else none
    let g : Gang := { Gang.reset with
      launch := q, block := b, index := BitVec.ofNat 11 i, regBase := x.2.2.2, allocRegs := h.alloc
      age := (s.core c).nextAge, k := args, fairtime := h.fairtime
      pair := if h.pairFlag then .paired else .unpaired, partner := mate
      role := if h.pairFlag then BitVec.ofNat 2 (i % 2) else 3 }
    let s := s.modCore c (fun k => { k with nextAge := k.nextAge + 1 })
    bindGang s slot g (min 32 (l.threads - 32 * i)) status (BitVec.ofNat 32 (b * l.threads + 32 * i)) (h.entries.getD 0 0)) s

/-- Dispatch loads TRAPVEC, WALKBASE and ASID from the region (15 R363), with the quantum and the fault domain of its gangs. -/
def loadRegion (s : State) (a : Nat) : State :=
  let d := s.depth
  let w := s.ownerOf 7 d a
  let domain := s.effDomain a
  let quantum := s.effQuantum a
  let s := { s with regions := tmod s.regions domain (fun r => { r with csrTrapvec := some r.faultDomain }) }
  { s with regions := tmod s.regions a (fun r => { r with
    csrWalkbase := some w.walkbase, csrAsid := some w.asid, quantumNow := some quantum, domainNow := some domain }) }
/-- Start bound blocks: the command is started with its first gang, and every gang's entry is checked. -/
def startBlocks (s : State) (q : Nat) (slots : List Nat) : State :=
  let l := s.launch q
  let s := loadRegion s l.region
  let s := if (tfind s.commands q).any (fun c => c.state == 1) then setCommand s q 2 0 0 0 else s
  slots.foldl (fun s n => checkEntry s n (l.header.entries.getD 0 0)) s

/-- %popindex of a population: the index in slot order (01 R22, R25). DEDUCED, log 51. -/
def numberPopulation (s : State) (q : Nat) : State :=
  let gs := (s.gangs.filter (fun g => g.2.launch == q)).flatMap (fun g => s.liveOf g.1)
  (numbered gs).foldl (fun s x => s.modLane x.2 (fun l =>
    let p := BitVec.ofNat 32 x.1
    { l with popindex := p, lineage := 0#16 ++ p ++ 0#16 })) s

/-- Bind every block of a population before any starts; none: it cannot be resident (01 R22). -/
def bindAll (s : State) (q : Nat) : Nat → Nat → Option State
  | 0, _ => some s
  | n + 1, b =>
    match planBlock s (roomOf s) (s.launch q) b with
    | none => none
    | some p => if fitsBudgets s (s.launch q).region true (planNeed (s.launch q).header p) then bindAll (bindBlock s q b p) q n (b + 1)
                else none

/-! ### LAUNCH. -/

/-- The launch of a command: what its header, arguments and list give, or a fault. DEDUCED, log 64. -/
def readLaunch (s : State) (seq : Nat) (c : Command) : Fw Launch × State :=
  let va := fun (off : Nat) => (BitVec.ofNat 64 (c.field off 8) : W64)
  let g := (c.field 0x20 4, c.field 0x24 4, c.field 0x28 4)
  let threads := c.field 0x2C 4
  match fwRead s c.region (va 0x10) 256 with
  | (.wait, s) => (.wait, s)
  | (.fault f a, s) => (.fault f a, s)
  | (.ok bs, s) =>
    match parseHeader bs (va 0x10) threads with
    | .inl f => (.fault f 0, s)
    | .inr h =>
      let side := fun (x : Nat) => 1 ≤ x && x ≤ 2 ^ 21
      let n := g.1 * g.2.1 * g.2.2
      if !side g.1 || !side g.2.1 || !side g.2.2 || 2 ^ 32 ≤ n || threads < 1 || 65536 < threads then (.fault 0x02 0, s)
      else
        match fwRead s c.region (va 0x18) (4 * h.argCount) with
        | (.wait, s) => (.wait, s)
        | (.fault f a, s) => (.fault f a, s)
        | (.ok ws, s) =>
          let l : Launch := { Launch.none with
            seq := seq, queue := c.queue, region := c.region, header := h, grid := g, threads := threads
            args := (List.range h.argCount).map (fun i => BitVec.ofNat 32 (leNat ((ws.drop (4 * i)).take 4)))
            seed := va 0x30, nblocks := BitVec.ofNat 32 n, popsize := BitVec.ofNat 32 (n * threads) }
          if va 0x38 == 0 then (.ok l, s)
          else
            match readList s c.region (va 0x38) (2 ^ 56) with
            | (.wait, s) => (.wait, s)
            | (.fault f a, s) => (.fault f a, s)
            | (.ok es, s) =>
              if listOk (coreList s c.region) n es then (.ok { l with place := some es }, s) else (.fault 0x02 0, s)

/-- Areas of HBM that the firmware has reserved: staging areas, save frames, the emulation table and leases. -/
def reservedAreas (s : State) : List (Nat × Nat) :=
  s.launches.filterMap (fun l => l.2.staging) ++ s.frames.map (fun f => (f.2.base, f.2.size)) ++
    [(s.emulationTable.toNat, 16384), (s.emulationLease.toNat, 301989888)]
def areaFree (s : State) (base size : Nat) : Bool :=
  base + size ≤ 2 ^ 39 && clear base size (reservedAreas s)
/-- An area that the firmware reserves in HBM: one of its choice where that is free, else the lowest free one.
DESIGN CHOICE, log 50. -/
def areaFor (s : State) (chosen size : Nat) : Option Nat :=
  if areaFree s chosen size then some chosen else lowestBase (2 ^ 39) size (reservedAreas s)
/-- Reserve a population's staging area in HBM; none: the firmware has no room for it (18 R403). -/
def reserveStaging (s : State) (q : Nat) : Option State :=
  let size := (s.launch q).popsize.toNat * imageSize (s.launch q).header
  (areaFor s (Config.stagingArea q) size).map (fun base =>
    s.modLaunch q (fun l => { l with staging := some (base, size) }))
/-- LAUNCH: the checks, then the launch's record; a population's blocks start at once, together. A population that can never
be resident gets 0x0F (01 R22), which comes before the 0x1D of a block that fits nowhere (15 R357). DEDUCED, log 100. -/
def execLaunch (seq : Nat) (s : State) : Host.Outcome State Fault Refusal :=
  if (tfind s.launches seq).isSome then .next s
  else
    let r := openCommand s seq 1 true
    match r.1 with
    | none => .next r.2
    | some c =>
      match readLaunch r.2 seq c with
      | (.wait, s) => .next s
      | (.fault f a, s) => .next (setCommand s seq 4 f 0 a)
      | (.ok l, s) =>
        if l.header.population && (589824 < l.nblocks.toNat * l.threads || neverFits s l) then .next (setCommand s seq 4 0x0F 0 0)
        else if neverFits s l then .next (setCommand s seq 4 0x1D 0 0)
        else
          let s' := { s with launches := tput s.launches seq l }
          if !l.header.population then .next s'
          else
            match (reserveStaging s' seq).bind (fun s' => bindAll s' seq l.nblocks.toNat 0) with
            | none => .next (setCommand s seq 4 0x0F 0 0)
            | some s' =>
              let s' := numberPopulation (s'.modLaunch seq (fun l => { l with nextBlock := l.nblocks.toNat })) seq
              .next (startBlocks s' seq ((s'.gangs.filter (fun g => g.2.launch == seq)).map (fun g => g.1)))

/-- Blocks of a launch that wait to start, in the order they are tried: those passed over, then the next. -/
def waitingBlocks (l : Launch) : List Nat := l.waiting ++ (if l.nextBlock < l.nblocks.toNat then [l.nextBlock] else [])
/-- A block could start now. -/
def canStart (s : State) (l : Launch) (b : Nat) : Bool :=
  match planBlock s (roomOf s) l b with
  | none => false
  | some p => fitsBudgets s l.region true (planNeed l.header p)
/-- A block of a region of higher priority could start now: it goes first (01 R21). -/
def outranked (s : State) (l : Launch) : Bool :=
  s.launches.any (fun x => s.effPriority l.region < s.effPriority x.2.region && x.2.ending.isNone && (waitingBlocks x.2).any (canStart s x.2))
/-- BLOCK_DISPATCH (15 R363): a waiting block that fits starts, of the highest priority first. Blocks passed over wait. -/
def execBlockDispatch (seq block : Nat) (s : State) : Host.Outcome State Fault Refusal :=
  match tfind s.launches seq with
  | none => .next s
  | some l =>
    let waits := l.waiting.contains block || (l.nextBlock ≤ block && block < l.nblocks.toNat)
    if !waits || l.ending.isSome || s.power != .running || outranked s l then .next s
    else
      match planBlock s (roomOf s) l block with
      | none => .next s
      | some p =>
        if !fitsBudgets s l.region true (planNeed l.header p) then .next s
        else
          let s := s.modLaunch seq (fun l =>
            if l.waiting.contains block then { l with waiting := l.waiting.erase block }
            else { l with waiting := l.waiting ++ List.range' l.nextBlock (block - l.nextBlock), nextBlock := block + 1 })
          .next (startBlocks (bindBlock s seq block p) seq ((planGangs p).map (fun g => g.2.1)))

/-! ### Whom a block pre-empts (15 R359, R385). -/

/-- Blocks that are saved with a block: every core of it, its population, and blocks with accumulator rows that share an
engine with it. -/
def savedWith (s : State) : Nat → List Nat → List Nat
  | 0, ks => ks
  | n + 1, ks =>
    let rows := fun (k : Nat) => (s.launch (s.block k).launch).header.accrows != 0
    let engines := fun (k : Nat) => (s.block k).parts.flatMap (fun p => p.slots.map (fun m => (p.core, partOf m / 2)))
    let joins := fun (k : Nat) (x : Nat × Block) => ((s.launch x.2.launch).header.population && x.2.launch == (s.block k).launch) ||
      (rows k && rows x.1 && (engines k).any (fun e => (engines x.1).contains e))
    let more := (s.blocks.filter (fun x => !ks.contains x.1 && !x.2.saved && ks.any (fun k => joins k x))).map (fun x => x.1)
    if more.isEmpty then ks else savedWith s n (ks ++ more)
def closure (s : State) (ks : List Nat) : List Nat := savedWith s s.blocks.length ks

/-- A core's room without some blocks. -/
def roomWithout (s : State) (ks : List Nat) (c : Nat) : Room :=
  let gone := (ks.flatMap (fun k => (s.block k).parts)).filter (fun p => p.core == c)
  let r := roomOf s c
  let slots := gone.flatMap (fun p => p.slots.map (fun n => n % 96))
  let acc := gone.map (fun p => p.accBase)
  let heads := ks.flatMap (fun k => ((s.block k).parts.filter (fun p => p.core == c)).map (fun _ => (s.launch (s.block k).launch).header.scratch))
  { runs := r.runs.filter (fun x => !slots.contains x.1), scratch := r.scratch - heads.sum
    acc := r.acc.filter (fun x => !acc.contains x.1 || x.2 == 0) }
/-- The blocks to save so that a block fits; none: no choice makes it fit. -/
def victims (s : State) (q b : Nat) : Option (List Nat) :=
  let l := s.launch q
  let p := s.effPriority l.region
  let prio := fun (k : Nat) => s.effPriority (s.launch (s.block k).launch).region
  let low := (s.blocks.filter (fun x => !x.2.saved && prio x.1 < p)).map (fun x => x.1)
  match planBlock s (roomWithout s low) l b with
  | none => none
  | some plan =>
    let cores := plan.map (fun c => c.core)
    let on := low.filter (fun k => (s.block k).parts.any (fun x => cores.contains x.core))
    -- lowest priority first; the youngest first: later start, then later launch and higher index, which the key orders
    let order := sortBy prio (sortBy (fun k => (s.block k).started) on).reverse
    (order.foldl (fun (acc : List Nat × Bool) k =>
      if acc.2 || acc.1.contains k then acc
      else
        let ks := closure s [k]
        if ks.any (fun x => p ≤ prio x) then acc
        else
          let all := dedup (acc.1 ++ ks)
          (all, (planBlock s (roomWithout s all) l b).isSome)) ([], false)) |> fun r => if r.2 then some r.1 else none

end Sys2Proof.Machine
end

