-- ==== Sys2Proof/Machine/Frames.lean ====
section
/-!
DEFINITION. The bytes of a save frame (16 R386): the header, the gang, block and engine records, each section on 4 KiB.
A field of a record is its offset, its size in bytes and its value; bytes that no field names are zero.
-/

namespace Sys2Proof.Machine

open State

abbrev FrameFields := List (Nat × Nat × Nat)
/-- Fields moved up by an offset. -/
def fieldsAt (base : Nat) (fs : FrameFields) : FrameFields := fs.map (fun f => (base + f.1, f.2))
def pages (n : Nat) : Nat := (n + 4095) / 4096 * 4096
/-- Records one after another from an offset, and where they end. -/
def recordsAt (base : Nat) (rs : List (Nat × FrameFields)) : Nat × FrameFields :=
  rs.foldl (fun (acc : Nat × FrameFields) r => (acc.1 + pages r.1, acc.2 ++ fieldsAt acc.1 r.2)) (base, [])

/-- The bind record of a gang (15 R362). Where the argument words stand is the command's own field; the launch's firmware
record is named by the launch's number. DESIGN CHOICE, log 68. -/
def bindFields (s : State) (n : Nat) (g : Gang) : FrameFields :=
  let l := s.launch g.launch
  let b := s.block (blockKey g.launch g.block)
  let pop := if l.header.population then g.block * l.threads + 32 * g.index.toNat else 0xFFFFFFFF
  [(0, 2, n), (2, 2, g.index.toNat), (4, 4, g.block), (8, 8, l.header.addr.toNat), (0x10, 8, b.tile.toNat),
   (0x18, 4, 2 ^ min 32 (if g.spawnPool then 32 else l.threads - 32 * g.index.toNat) - 1), (0x1C, 2, g.partner.getD 0xFFFF),
   (0x1E, 1, g.role.toNat), (0x20, 4, pop), (0x24, 2, g.regBase),
   (0x28, 8, (tfind s.commands g.launch).elim 0 (fun c => c.field 0x18 8)), (0x30, 8, l.region), (0x38, 8, g.launch)]
/-- What a group adds to a lane's record: its PC, sleep count, number, flags and wait count. -/
def placeFields (f : Frame) (t : Nat) : FrameFields :=
  match f.groups.find? (fun g => g.2.members.contains t) with
  | none => [(0x34, 2, 0xFFFF)]
  | some (gid, g) =>
    let sleeps := match g.status with | .sleep n => n | _ => 0
    let parked := match g.status with | .parked _ => 1 | _ => 0
    let waiting := match g.status with | .ready | .sleep _ | .parked _ => 0 | _ => 4
    [(0, 8, g.pc.toNat), (0x2C, 4, sleeps), (0x34, 2, if g.loose then 0xFFFF else (f.groups.map (fun x => x.1)).idxOf gid),
     (0x37, 1, parked + (if g.yielded then 2 else 0) + waiting), (0x38, 4, g.waitCount)]
/-- The record of a lane. -/
def laneFields (f : Frame) (t : Nat) (l : Lane) : FrameFields :=
  [(8, 8, l.epc.toNat), (0x10, 8, l.eaddr.toNat), (0x18, 8, l.lineage.toNat), (0x20, 4, l.status.toNat), (0x24, 4, l.ecause.toNat),
   (0x28, 4, l.rng.toNat), (0x30, 4, l.popindex.toNat), (0x36, 1, l.p.toNat)] ++ placeFields f t
/-- A barrier as a gang's record has it: phase, arrived, waiting, pending BARA. -/
def barFields (s : State) (f : Frame) (n : Nat) (g : Gang) (i : Nat) : FrameFields :=
  let b := (tfind (s.block (blockKey g.launch g.block)).bars i).getD { phase := 0, arrived := [] }
  let waits := f.groups.any (fun x => x.2.members.any (fun t => slotOf t == n) &&
    (match x.2.status with | .barrier j _ => i == j | _ => false))
  [(8 * i, 4, b.phase), (8 * i + 4, 1, if b.arrived.contains n then 1 else 0), (8 * i + 5, 1, if waits then 1 else 0),
   (8 * i + 6, 1, if (tfind g.bars i).any (fun x => x.bara.isSome) then 1 else 0)]
/-- A weir: declared and signed set, remaining timeout, state, round kind, round PC. -/
def weirFields (i : Nat) (w : Weir) : FrameFields :=
  let kind := match w.round with | none => (0, 0) | some none => (1, 0) | some (some r) => (2, r.1.toNat)
  fieldsAt (32 * i) [(0, 4, w.declared.toNat), (4, 4, w.signed.toNat), (8, 4, w.timeout / 16),
    (12, 1, match w.state with | .idle => 0 | .opened => 1 | .complete => 2), (13, 1, kind.1), (16, 8, kind.2)]
/-- A token: value, state, fault code, EADDR. -/
def tokenFields (i : Nat) (t : Token) : FrameFields :=
  fieldsAt (16 * i) [(0, 4, t.value.toNat), (4, 1, if t.fault.isSome then 2 else if t.done then 1 else 0),
    (5, 1, (t.fault.getD (0, 0)).1), (8, 8, ((t.fault.getD (0, 0)).2).toNat)]
/-- The pair state (18 R401). -/
def pairFields (s : State) (f : Frame) (g : Gang) : FrameFields :=
  let mate := g.partner.elim 0 (fun p => ((tfind f.gangs p).getD (s.gang p)).pairCount)
  let own := [(0, 4, match g.pair with | .paired => 0 | .dissolved => 1 | .solo => 2 | .unpaired => 3), (4, 4, g.pairCount), (8, 4, mate)]
  match g.pairOp with
  | none => own
  | some x => own ++ [(12, 4, 1), (16, 12, (encode x.op.instr).elim 0 (fun w => w.toNat))] ++
      (numbered (x.op.scalars.take 7)).map (fun w => (28 + 4 * w.1, 4, w.2.toNat))
/-- A gang's record and its size. DESIGN CHOICE, log 68. -/
def gangFields (s : State) (f : Frame) (n : Nat) (g : Gang) : Nat × FrameFields :=
  let mine := f.groups.filter (fun x => x.2.members.any (fun t => slotOf t == n))
  let prio := mine.findSome? (fun x => x.2.prio)
  let live := (f.lanes.filter (fun l => slotOf l.1 == n && l.2.live)).map (fun l => l.1)
  let loose := (mine.filter (fun x => x.2.loose)).flatMap (fun x => x.2.members.filter (fun t => slotOf t == n))
  let kreg := fun (r : Nat) => ((g.kpend.find? (fun e => e.reg == r)).elim (tget 0 g.k r) (fun e => e.value)).toNat
  (4096 + g.allocRegs * 128,
    bindFields s n g ++
    [(0x40, 4, (laneMask live).toNat), (0x44, 4, (laneMask loose).toNat), (0x48, 4, g.age),
     (0x4C, 4, g.fairCount + prio.elim 0 (fun p => 2 ^ 17 + p * 2 ^ 18)), (0x50, 8, g.quantum), (0x58, 4, g.fairtime)] ++
    fieldsAt 0x80 ((List.range 16).flatMap (barFields s f n g)) ++
    fieldsAt 0x100 (g.weirs.flatMap (fun w => weirFields w.1 w.2)) ++
    fieldsAt 0x300 ((numbered (g.tokens.take 32)).flatMap (fun t => tokenFields t.1 t.2)) ++
    (List.range 160).map (fun r => (0x500 + 4 * r, 4, kreg r)) ++
    fieldsAt 0x780 (pairFields s f g) ++
    (f.lanes.filter (fun l => slotOf l.1 == n && l.2.live)).flatMap (fun l => fieldsAt (0x800 + 64 * laneOf l.1) (laneFields f l.1 l.2)) ++
    (f.lanes.filter (fun l => slotOf l.1 == n)).flatMap (fun l =>
      l.2.drained.v.map (fun w => (0x1000 + 128 * w.1 + 4 * laneOf l.1, 4, w.2.toNat))))
/-- A block's record and its size: block, accumulator rows, scratch bytes and tags, then scratch, then the rows of ME0 to ME3. -/
def blockFields (s : State) (f : Frame) (k : Nat) : Nat × FrameFields :=
  let b := s.block k
  let h := (s.launch b.launch).header
  let p := (b.parts.find? (fun p => p.core == f.core)).getD BlockPart.none
  let row := fun (m : Nat) (w : Nat × BitVec 34) =>
    (0x1000 + h.scratch + 8 * (64 * h.accrows * m + (w.1 - 64 * p.accBase)), 8, w.2.toNat)
  (4096 + h.scratch + h.accrows * 2048,
    [(0, 4, b.index), (4, 4, h.accrows), (8, 4, h.scratch)] ++ p.tags.map (fun t => (16 + t.1, 1, t.2.toNat)) ++
    p.scratch.map (fun c => (0x1000 + c.1, 1, c.2.toNat)) ++
    f.acc.flatMap (fun e => (e.2.filter (fun w => 64 * p.accBase ≤ w.1 && w.1 < 64 * (p.accBase + h.accrows))).map (row e.1)))
/-- A plane: elements, format, stationary scales. -/
def planeFields (p : Plane) : FrameFields :=
  p.elems.map (fun e => (2 * e.1, 2, e.2.toNat)) ++ [(0x2000, 1, p.format.toNat)] ++
    (numbered (p.scales.getD (List.replicate 128 127))).map (fun b => (0x2001 + b.1, 1, b.2.toNat))
/-- An engine's record and its size. -/
def engineFields (e : Engine) : Nat × FrameFields :=
  (0x5000 + 32768, planeFields e.shadow ++ fieldsAt 0x20C0 (planeFields e.active) ++
    e.scaleMem.map (fun c => (0x5000 + c.1, 1, c.2.toNat)))
/-- A frame's bytes: its size and its fields (16 R386). -/
def frameFields (s : State) (f : Frame) : Nat × FrameFields :=
  let gs := recordsAt 4096 (f.gangs.map (fun g => gangFields s f g.1 g.2))
  let bs := recordsAt gs.1 (f.blocks.map (blockFields s f))
  let es := recordsAt bs.1 (f.engines.map (fun e => engineFields e.2))
  (es.1, [(0, 4, 0x4B575346), (4, 4, 1), (8, 4, f.core), (0xC, 4, f.gangs.length), (0x10, 4, f.blocks.length),
    (0x14, 4, f.engines.length), (0x18, 8, f.time), (0x20, 8, 4096), (0x28, 8, gs.1), (0x30, 8, bs.1)] ++ gs.2 ++ bs.2 ++ es.2)

/-- Write an area of the firmware's own: its fields, and zero elsewhere. -/
def writeArea (s : State) (base size : Nat) (fs : FrameFields) : State :=
  let old := (s.mem.filter (fun c => base ≤ c.1 && c.1 < base + size)).map (fun c => (c.1, (0 : Byte)))
  let new := fs.flatMap (fun f =>
    if f.2.2 == 0 then [] else ((List.range f.2.1).zip (leBytes f.2.1 f.2.2)).map (fun b => (base + f.1 + b.1, b.2)))
  { s with writes := new.reverse ++ old ++ s.writes }.repair base size
/-- Put a frame's bytes into device memory, in an area that the firmware reserves. DESIGN CHOICE, log 68. -/
def writeFrame (s : State) (id : Nat) (f : Frame) : State :=
  let x := frameFields s f
  let base := (areaFor s (Config.frameArea id) x.1).getD (Config.frameArea id)
  { writeArea s base x.1 x.2 with frames := tput s.frames id { f with base := base, size := x.1 } }
/-- What reading a frame back gives: an uncorrectable error, or another magic or version, is a fault (16 R387). -/
def frameFault (s : State) (f : Frame) : Option Nat :=
  if (s.homeFault f.base f.size).isSome then some 0x1A
  else if s.natAt f.base 4 != 0x4B575346 || s.natAt (f.base + 4) 4 != 1 then some 0x01
  else none

end Sys2Proof.Machine
end

