-- ==== Sys2Proof/Machine/Preempt.lean ====
section
/-!
DEFINITION. Pre-emption, save and restore (15 R359, R371, R372, 16 R385-R387).
-/

namespace Sys2Proof.Machine

open State

/-- Slots of some blocks on a core that are not saved. -/
def slotsOf (s : State) (ks : List Nat) (c : Nat) : List Nat :=
  ((partsOn s c).filter (fun p => ks.contains p.1)).flatMap (fun p => p.2.slots)
/-- A request is for dispatch when a waiting launch of higher priority than every block of it is there (15 R359). -/
def forDispatch (s : State) (ks : List Nat) : Bool :=
  let prio := fun (k : Nat) => s.effPriority (s.launch (s.block k).launch).region
  s.power == .running && s.launches.any (fun l => !(waitingBlocks l.2).isEmpty &&
    ks.all (fun k => prio k < s.effPriority l.2.region))

/-- An LSE whose request is gone issues again; an LSEND that has issued completes (10 R296). -/
def wakeLse (s : State) : State :=
  let waits := fun (g : Group) => g.status == .lease && !g.members.any (fun t => s.leaseQueue.any (fun q => q.holder == some t) ||
    (s.core g.core).leases.any (fun l => l.holder == some t && (l.ending || l.record)))
  { s with groups := s.groups.map (fun g => if waits g.2 then (g.1, { g.2 with status := .ready }) else g) }
/-- Stop the gangs of some blocks on a core: none issues any more, and their leases are broken (15 R371). -/
def stopOn (s : State) (ks : List Nat) (dispatch : Bool) (c : Nat) : State :=
  let ns := (slotsOf s ks c).filter (fun n => !(s.core c).saving.contains n)
  if ns.isEmpty then s
  else
    let s := s.modCore c (fun k => { k with saving := k.saving ++ ns, savingFor := dispatch, saveFlush := none })
    wakeLse ((ns.flatMap (fun n => s.liveOf n)).foldl (fun s t => s.endLeasesOf t) s)
def stopBlocks (s : State) (ks : List Nat) (dispatch : Bool) : State :=
  (dedup (ks.flatMap (fun k => (s.block k).parts.map (fun p => p.core)))).foldl (fun s c => stopOn s ks dispatch c) s
/-- PREEMPTION_REQUEST: blocks with a part on the core, whole, with the blocks that share their engines. DEDUCED, log 67. -/
def execPreemptionRequest (core : Nat) (blocks : List Nat) (s : State) : Host.Outcome State Fault Refusal :=
  let ks := blocks.filter (fun k => (partsOn s core).any (fun p => p.1 == k))
  let ks := closure s ks
  .next (stopBlocks s ks (forDispatch s ks))

/-! ### Saving. -/

/-- Work of a stopped gang that must end before the save: requests, reductions, leases, engine instructions and, but for the
ember state, jobs and MREDs that run; one that waits goes on beside the save, its token pending (06 R198, 15 R371,
21 R425). DEDUCED, log 86. -/
def draining (s : State) (n : Nat) : Bool :=
  let k := s.core (coreOf n)
  let ts := s.liveOf n
  let ember := match s.power with | .entering _ => true | _ => false
  s.groups.any (fun g => g.2.members.any (fun t => slotOf t == n) &&
    (match g.2.status with | .requests _ | .region _ | .lease => true | _ => false)) ||
    s.requests.any (fun r => r.2.loads.any (fun l => slotOf l.thread == n) || r.2.ops.any (fun l => slotOf l.thread == n)) ||
    k.leases.any (fun l => match l.holder with | some t => ts.contains t | none => false) ||
    k.engines.any (fun e => e.2.queue.any (fun o => o.gang == n)) || s.heldIssues.any (fun h => h.slot == n) ||
    s.unserved.any (fun m => match m.body with | .red _ _ _ _ _ gs => gs.contains n | _ => false) ||
    (!ember && (k.jobs.any (fun j => j.gang == n) || s.mreds.any (fun m => m.2.gang == n && m.2.phase == 2))) ||
    -- an RSMP whose last gang has arrived completes first (15 R372)
    (let q := (s.gang n).launch
     (s.launch q).header.population && ((s.launch q).rsmp != .idle || popArrived s q))

/-- A weir's remaining timeout in units of 16 cycles, and as restore resumes it (15 R370). DEDUCED, log 45. -/
def saveTimeout (t : Nat) : Nat := if t == 0 then 0 else (t - 1 + 15) / 16 * 16 + 1
def saveGang (g : Gang) : Gang := { g with weirs := g.weirs.map (fun w => (w.1, { w.2 with timeout := saveTimeout w.2.timeout })) }

/-- A group as a save keeps it: what it knew of regions and write-backs is asked again. -/
def saveGroup (g : Group) (ts : List Nat) : Group :=
  { g with members := ts, answers := [], flushed := false, prio := (partOf' g ts).prio }
/-- The parts of groups that belong to saved gangs; a group of both keeps its number for the rest. -/
def cutGroups (s : State) (ns : List Nat) : List (Nat × Group) × State :=
  let mine := fun (t : Nat) => ns.contains (slotOf t)
  (s.groups.filter (fun g => g.2.members.any mine)).foldl (fun (acc : List (Nat × Group) × State) g =>
    let inside := g.2.members.filter mine
    let outside := g.2.members.filter (fun t => !mine t)
    if outside.isEmpty then (acc.1 ++ [(g.1, saveGroup g.2 inside)], { acc.2 with groups := tdel acc.2.groups g.1 })
    else
      (acc.1 ++ [(acc.2.nextId, saveGroup g.2 inside)],
        { acc.2 with nextId := acc.2.nextId + 1, groups := tput acc.2.groups g.1 { g.2 with members := outside, prio := (partOf' g.2 outside).prio } })) ([], s)
/-- Accumulator words of a range of rows. -/
def rowWords (t : Tab (BitVec 34)) (base rows : Nat) : Tab (BitVec 34) :=
  t.filter (fun x => 64 * base ≤ x.1 && x.1 < 64 * (base + rows))

/-- The cycle's passing over of gangs that are saved counts before the save (17 R392). -/
def countSaved (s : State) (c : Nat) (ns : List Nat) : State :=
  let saved := fun (g : Nat) => (tfind s.groups g).any (fun x => x.members.any (fun t => ns.contains (slotOf t)))
  let here := fun (u : CycleUse) => u.core == c
  let s := (s.uses.filter here).foldl (fun s u => countPassed s { u with ready := u.ready.filter saved, gangs := u.gangs.filter ns.contains }) s
  { s with uses := s.uses.map (fun u => if here u then
      { u with ready := u.ready.filter (fun g => !saved g), gangs := u.gangs.filter (fun n => !ns.contains n) } else u) }
/-- Move the stopped gangs of a core into a save frame. DESIGN CHOICE, log 68. -/
def saveCore (s : State) (c : Nat) : State :=
  let s := countSaved s c (s.core c).saving
  let k := s.core c
  let ns := k.saving
  let parts := (partsOn s c).filter (fun p => p.2.slots.any (fun n => ns.contains n))
  let head := fun (key : Nat) => (s.launch (s.block key).launch).header
  let rowed := parts.filter (fun p => (head p.1).accrows != 0)
  let pairs := dedup (rowed.flatMap (fun p => p.2.slots.map (fun n => partOf n / 2)))
  let cut := cutGroups s ns
  let frame : Frame := {
    core := c, time := s.time, base := 0, size := 0, dispatch := k.savingFor
    blocks := parts.map (fun p => p.1)
    gangs := (s.gangs.filter (fun g => ns.contains g.1)).map (fun g => (g.1, saveGang g.2))
    groups := cut.1
    lanes := s.lanes.filter (fun l => ns.contains (slotOf l.1))
    engines := pairs.map (fun m => let e := s.engine c m; (m, { Engine.reset with active := e.active, shadow := e.shadow, scaleMem := e.scaleMem }))
    acc := (List.range 4).map (fun m => (m, rowed.flatMap (fun p => rowWords (s.engine c m).acc p.2.accBase (head p.1).accrows))) }
  let credit := fun (s : State) (p : Nat × BlockPart) =>
    let h := head p.1
    let n := (p.2.slots.filter (fun x => ns.contains x)).length
    s.creditRegion (s.launch (s.block p.1).launch).region n (4 * h.accrows) (n * h.alloc * 128) h.scratch
  let s := parts.foldl credit cut.2
  let s := { s with
    gangs := s.gangs.filter (fun g => !ns.contains g.1)
    lanes := s.lanes.filter (fun l => !ns.contains (slotOf l.1))
    blocks := s.blocks.map (fun (b : Nat × Block) => if frame.blocks.contains b.1 then (b.1, { b.2 with saved := true }) else b)
    nextId := s.nextId + 1 }
  let s := writeFrame s (s.nextId - 1) frame
  let s := s.modCore c (fun k => { k with saving := [], saveFlush := none })
  -- every resident block of a launch is saved for dispatch (15 R354)
  if !frame.dispatch then s
  else (dedup (frame.blocks.map (fun b => (s.block b).launch))).foldl (fun s q =>
    if (tfind s.commands q).any (fun x => x.state == 2) && !s.gangs.any (fun g => g.2.launch == q) then setCommand s q 5 0 0 0
    else s) s
/-- The save is a release at device scope: every dirty byte of the core goes home, those of a leased line when its lease
ends (09 R271, 10 R283). -/
def flushSave (s : State) (c : Nat) : State :=
  if (s.core c).saveFlush.isSome || !(s.core c).pinned.isEmpty then s
  else
    let r := s.flushAll c (fun _ => false)
    if r.1 then r.2.modCore c (fun k => { k with saveFlush := some (r.2.writeBacks c) }) else r.2
/-- SAVE_COMPLETE (15 R371): what runs drains, the core's writes go home, then the gangs are saved. -/
def execSaveComplete (core : Nat) (s : State) : Host.Outcome State Fault Refusal :=
  let ns := (s.core core).saving
  if ns.isEmpty || ns.any (draining s) then .next s
  else
    let s := flushSave s core
    match (s.core core).saveFlush with
    | none => .next s
    | some ids => if ids.any (fun i => (tfind s.net i).isSome) then .next s else .next (saveCore s core)

/-! ### Restoring. -/

/-- Frames that are restored together: those that share a block, and those of one population (15 R359). -/
def framesWith (s : State) : Nat → List Nat → List Nat
  | 0, fs => fs
  | n + 1, fs =>
    let ks := s.frames.flatMap (fun f => if fs.contains f.1 then f.2.blocks else [])
    let pops := (ks.map (fun k => (s.block k).launch)).filter (fun q => (s.launch q).header.population)
    let joins := fun (k : Nat) => ks.contains k || pops.contains (s.block k).launch
    let more := (s.frames.filter (fun f => !fs.contains f.1 && f.2.blocks.any joins)).map (fun f => f.1)
    if more.isEmpty then fs else framesWith s n (fs ++ more)
def frameSet (s : State) (f : Nat) : List (Nat × Frame) :=
  let fs := framesWith s s.frames.length [f]
  s.frames.filter (fun x => fs.contains x.1)
def frameBlocks (fs : List (Nat × Frame)) : List Nat := dedup (fs.flatMap (fun f => f.2.blocks))

/-- Every part of the blocks, and of their populations, is in the frames, and their slots, register bases, rows, scratch and budgets are free. -/
def restorable (s : State) (fs : List (Nat × Frame)) : Bool :=
  let ks := frameBlocks fs
  let head := fun (key : Nat) => (s.launch (s.block key).launch).header
  let inFrames := fun (n : Nat) => fs.any (fun f => f.2.gangs.any (fun g => g.1 == n))
  let pops := (ks.map (fun k => (s.block k).launch)).filter (fun q => (s.launch q).header.population)
  let whole := ks.all (fun k => (s.block k).parts.all (fun p => p.slots.all inFrames)) &&
    !s.gangs.any (fun g => pops.contains g.2.launch)
  let fits := fun (f : Nat × Frame) =>
    let r := roomOf s f.2.core
    let parts := ks.flatMap (fun k => ((s.block k).parts.filter (fun p => p.core == f.2.core)).map (fun p => (k, p)))
    (s.core f.2.core).powered && !(s.core f.2.core).leaving &&
      f.2.gangs.all (fun g => !r.runs.any (fun x => x.1 == g.1 % 96) &&
        clear g.2.regBase g.2.allocRegs ((r.runs.filter (fun x => x.1 / 12 == partOf g.1)).map (fun x => x.2))) &&
      parts.all (fun p => (head p.1).accrows == 0 || clear p.2.accBase (head p.1).accrows r.acc) &&
      r.scratch + ((parts.map (fun p => (head p.1).scratch)).sum) ≤ 786432
  let need := fun (k : Nat) =>
    let ps := (s.block k).parts
    needOf (head k) ((ps.map (fun p => p.slots.length)).sum) ps.length 0
  whole && fs.all fits && ks.all (fun k => fitsBudgets s (s.launch (s.block k).launch).region true (need k))
/-- Highest priority first, and within a priority the oldest save (15 R359). -/
def restoreRank (s : State) (fs : List (Nat × Frame)) : Nat × Nat :=
  let prio := (frameBlocks fs).map (fun k => s.effPriority (s.launch (s.block k).launch).region)
  (prio.foldl max 0, (fs.map (fun f => f.2.time)).foldl min s.time)
def restoresFirst (s : State) (a b : List (Nat × Frame)) : Bool :=
  let x := restoreRank s a
  let y := restoreRank s b
  y.1 < x.1 || (x.1 == y.1 && x.2 < y.2)

/-- Put one frame back: gangs, threads, groups, engines, accumulator rows (16 R387); the restore is an acquire at device
scope (09 R271). -/
def putFrame (s : State) (f : Nat × Frame) : State :=
  let c := f.2.core
  let s := { s.dropClean c with
    gangs := f.2.gangs.foldl (fun t g => tput t g.1 g.2) s.gangs
    lanes := f.2.lanes.foldl (fun t l => tput t l.1 l.2) s.lanes
    groups := f.2.groups.foldl (fun t g => tput t g.1 g.2) s.groups
    frames := tdel s.frames f.1 }
  let s := f.2.engines.foldl (fun s e => s.modEngine c e.1 (fun x => { x with
    active := e.2.active, shadow := e.2.shadow, scaleMem := e.2.scaleMem })) s
  let parts := f.2.blocks.flatMap (fun k => ((s.block k).parts.filter (fun p => p.core == c)).map (fun p =>
    (p.accBase, (s.launch (s.block k).launch).header.accrows)))
  f.2.acc.foldl (fun s e => s.modEngine c e.1 (fun x =>
    let kept : Tab (BitVec 34) := x.acc.filter (fun w => !parts.any (fun p => 64 * p.1 ≤ w.1 && w.1 < 64 * (p.1 + p.2)))
    let acc := e.2.foldl (fun t w => tput t w.1 w.2) kept
    { x with acc := acc })) s
/-- Restore frames: their blocks go on where they stood; a pre-empted launch is started again (15 R354). -/
def restoreFrames (s : State) (fs : List (Nat × Frame)) : State :=
  let ks := frameBlocks fs
  let s := ks.foldl (fun s k =>
    let ps := (s.block k).parts
    let h := (s.launch (s.block k).launch).header
    let n := needOf h ((ps.map (fun p => p.slots.length)).sum) ps.length 0
    chargeRegion s (s.launch (s.block k).launch).region n.1 n.2.1 n.2.2.1 n.2.2.2) s
  let s := fs.foldl putFrame s
  ks.foldl (fun s k =>
    let s := s.modBlock k (fun b => { b with saved := false })
    let q := (s.block k).launch
    let s := if (tfind s.commands q).any (fun c => c.state == 5) then setCommand s q 2 0 0 0 else s
    s.tryBarriers k) s
/-- The blocks of frames that cannot be read end with a fault (16 R387); MREDs they issued run to completion (15 R359). -/
def loseFrames (s : State) (fs : List (Nat × Frame)) (code : Nat) : State :=
  let ks := frameBlocks fs
  let s := fs.foldl (fun s f =>
    let live := fun (n : Nat) => laneMask ((f.2.lanes.filter (fun l => slotOf l.1 == n && l.2.live)).map (fun l => l.1))
    let s := f.2.gangs.foldl (fun s g => journalFault s g.2.launch g.1 code (live g.1) 0) s
    let mine := fun (n : Nat) => f.2.gangs.any (fun g => g.1 == n)
    let s := s.modCore f.2.core (fun k => { k with jobs := k.jobs.filter (fun j => !mine j.gang) })
    { s with
      frames := tdel s.frames f.1
      pfRecords := s.pfRecords.filter (fun r => !f.2.gangs.any (fun g => g.1 == r.2.slot && g.2.age == r.2.age)) }) s
  let qs := dedup (ks.map (fun k => (s.block k).launch))
  let s := { s with blocks := s.blocks.filter (fun b => !ks.contains b.1) }
  qs.foldl (fun s q => s.tryFinishLaunch q) s
/-- Restore frames, or end their blocks when the frames are bad (16 R387). -/
def restoreOrLose (s : State) (fs : List (Nat × Frame)) : State :=
  match fs.findSome? (fun f => frameFault s f.2) with
  | some code => loseFrames s fs code
  | none => restoreFrames s fs
/-- BLOCK_RESTORE (16 R387): a frame with those it is restored with, when nothing that can be restored goes first. -/
def execBlockRestore (frame : Nat) (s : State) : Host.Outcome State Fault Refusal :=
  let fs := frameSet s frame
  if fs.isEmpty || s.power != .running || !restorable s fs then .next s
  else if s.frames.any (fun f => let o := frameSet s f.1; restoresFirst s o fs && restorable s o) then .next s
  else .next (restoreOrLose s fs)

end Sys2Proof.Machine
end

