-- ==== Sys2Proof/Machine/Power.lean ====
section
/-!
DEFINITION. Memory-channel width (12 R311, R312), the ember state (21 R424-R428), firmware images, configuration and
power-up (21 R429-R431), and COMMAND_START.
-/

namespace Sys2Proof.Machine

open State

/-! ### Half width. -/

def setChannel (s : State) (c : Nat) (k : Channel) : State := { s with channels := tput s.channels c k }
/-- What the register reads: its written fields, the state and the cause (12 R311). -/
def Channel.read (k : Channel) : W32 := (k.reg &&& 0x00FFFF07) ||| (if k.half then 8 else 0) ||| BitVec.ofNat 32 (16 * k.cause)
/-- An armed policy's condition: 2 the lane policy, at a lane that fails or at a limit that is not 0; 3 the temperature
policy (12 R311). -/
def policyCause (k : Channel) : Option Nat :=
  let f := fun (lo n : Nat) => k.reg.toNat / 2 ^ lo % 2 ^ n
  if k.reg.getLsbD 1 && (k.failing.isSome || (f 8 8 != 0 && f 8 8 ≤ k.errors)) then some 2
  else if k.reg.getLsbD 2 && f 16 8 ≤ k.degrees then some 3 else none
def wantsHalf (k : Channel) : Option Nat := if k.reg.getLsbD 0 then some 1 else policyCause k
/-- Enter half width when something asks for it and the channel is in full width. -/
def enterHalf (k : Channel) : Channel :=
  match wantsHalf k with
  | some cause => if k.half || k.retraining.isSome then k else { k with retraining := some (true, cause) }
  | none => k
/-- Leave half width when nothing asks for it. -/
def leaveHalf (k : Channel) : Channel :=
  if (wantsHalf k).isNone && k.half && k.retraining.isNone then { k with retraining := some (false, 0) } else k
def writeChannel (k : Channel) (value : W32) : Channel := { k with reg := value &&& 0x00FFFF07 }
def execHalfWidthRequest (channel : Nat) (value : BitVec 32) (s : State) : Host.Outcome State Fault Refusal :=
  if !value.getLsbD 0 then .next s else .next (setChannel s channel (enterHalf (writeChannel (s.channel channel) value)))
def execHalfWidthLeave (channel : Nat) (value : BitVec 32) (s : State) : Host.Outcome State Fault Refusal :=
  if value.getLsbD 0 then .next s
  else .next (setChannel s channel (enterHalf (leaveHalf (writeChannel (s.channel channel) value))))
def execLaneErrorLimit (channel : Nat) (errors : LaneReport) (s : State) : Host.Outcome State Fault Refusal :=
  .next (setChannel s channel (enterHalf { s.channel channel with errors := errors.errors, failing := errors.failing }))
def execTemperatureLimit (channel degrees : Nat) (s : State) : Host.Outcome State Fault Refusal :=
  .next (setChannel s channel (enterHalf { s.channel channel with degrees := degrees }))
/-- The report of a change of width: stack, channel and cause, and the memory-event interrupt (12 R312, step 4). DEDUCED, log 71. -/
def reportChannel (s : State) (c cause : Nat) : State :=
  let s := logRecord s 10 0 2 (c / 32) (c % 32 + cause * 2 ^ 8)
  { s with irqs := s.irqs ++ [.memoryEvent c] }
/-- Bytes of device memory that lie on a memory channel; `il`: their interleave scheme. -/
def onChannel (ch il base len : Nat) : Bool :=
  (List.range ((base % 32 + len + 31) / 32)).any (fun i =>
    let key := base / 32 * 32 + 32 * i
    match targetOf key with
    | .hbm => let a := hbmAt il key; 32 * a.stack + a.channel == ch
    | .lpddr => hbmChannels + tierChannel key == ch
    | _ => false)
/-- A leaf's page has bytes on a channel; a page above 64 KiB has some on every channel of its tier, or of its stack where the
scheme keeps a page on one (12 R313). -/
def pageOn (ch level : Nat) (p : W64) : Bool :=
  if level == 0 then onChannel ch (pteIl p) (ptePa p) 65536
  else match targetOf (ptePa p) with
    | .hbm => ch < hbmChannels && (!(pteIl p == 1 || pteIl p == 3 || pteIl p == 5) || (hbmAt (pteIl p) (ptePa p)).stack == ch / 32)
    | .lpddr => hbmChannels ≤ ch
    | _ => false
/-- A leaf of a table, or of one below it, maps memory on a channel. -/
def mapsChannel (s : State) (ch : Nat) : Nat → Nat → Bool
  | 0, _ => false
  | level + 1, table =>
    ((usedEntries s table).filter (fun i => i < (if level == 3 then 2048 else 1024))).any (fun i =>
      let p : W64 := BitVec.ofNat 64 (s.natAt (table + 8 * i) 8)
      if !pteBit p 0 then false
      else if pteBit p 1 then
        leafOk p level && !pteHost p && pageOn ch level p
      else nodeOk p level && mapsChannel s ch level (ptePa p))
/-- The blocks whose save frame or data lie on a channel that is lost at the exit from the ember state end; the exit faults (21
R428). -/
def loseChannel (s : State) (ch code : Nat) : State :=
  let hit := fun (f : Nat × Frame) => onChannel ch 0 f.2.base f.2.size ||
    f.2.blocks.any (fun k =>
      mapsChannel s ch 4 (((s.walkbase (s.launch (s.block k).launch).region).extractLsb' 14 38).toNat * 2 ^ 14))
  let s := (s.frames.filter hit).foldl (fun s f => if (tfind s.frames f.1).isSome then loseFrames s (frameSet s f.1) code else s) s
  (s.commands.filter (fun c => c.2.type == 6 && c.2.state == 2)).foldl (fun s c => setCommand s c.1 4 code 0 0) s
/-- CHANNEL_RETRAIN_DONE (12 R312, 21 R428). -/
def execChannelRetrainDone (channel : Nat) (good : Bool) (s : State) : Host.Outcome State Fault Refusal :=
  let k := s.channel channel
  let exit := match s.power with | .exiting _ => true | _ => false
  match k.retraining with
  | none => .next s
  | some (half, cause) =>
    if good then
      -- the half of the data lanes that holds no failing lane
      let k' := { k with half := half, upper := half && k.failing.any (fun l => l < 16), cause := if half then cause else 0
                         retraining := none }
      -- a release that came while the channel went half
      let k' := if half && cause == 1 then leaveHalf k' else enterHalf k'
      let s := setChannel s channel k'
      .next (if exit && half == k.half then s else reportChannel s channel cause)
    else if hbmChannels ≤ channel then
      -- the tier has no half width (12 R311)
      .next (loseChannel (logRecord (setChannel s channel { k with retraining := none }) 8 0x1A 1 (channel - hbmChannels) 0) channel 0x1A)
    else if exit && !half then
      .next (setChannel s channel { k with retraining := some (true, cause) })
    else
      let s := reportChannel (setChannel s channel { k with retraining := none }) channel cause
      .next (if exit then loseChannel s channel 0x1A else s)

/-! ### The ember state. -/

def allCores : List Nat := List.range Config.numCores
/-- A command that the device raises itself (21 R424). DEDUCED, log 61. -/
def raiseCommand (s : State) (type : Nat) : Nat × State :=
  let seq := s.nextSeq
  let s := acceptCommand s 255 0 (BitVec.ofNat 8 type :: List.replicate 63 0) none
  let s := setCommand s seq 2 0 0 0
  (seq, s)
/-- Save every core: stop what still runs, then save what has drained; true: nothing is resident. -/
def saveAll (s : State) : Bool × State :=
  let ks := (s.blocks.filter (fun b => b.2.parts.any (fun p => !partSaved s p.core b.1))).map (fun b => b.1)
  let s := stopBlocks s ks false
  let s := allCores.foldl (fun s c =>
    let ns := (s.core c).saving
    if ns.isEmpty then s else match execSaveComplete c s with | .next s => s | _ => s) s
  (s.gangs.isEmpty, s)
/-- The journal's ember states (15 R354): the EMBER command itself goes on to complete. -/
def moveCommand (s : State) (seq state : Nat) : State :=
  match tfind s.commands seq with
  | none => s
  | some c =>
    let c := { c with state := state, before := c.state, time := s.time, updates := c.updates + 1 }
    journalWrite { s with commands := tput s.commands seq c } seq c
def sleepCommands (s : State) (seq : Nat) : State :=
  s.commands.foldl (fun s c =>
    if c.1 != seq && (c.2.state == 1 || c.2.state == 2 || c.2.state == 5) then moveCommand s c.1 6 else s) s
/-- A record returns to the state that it held before the ember state; a launch whose final write-backs were acknowledged
meanwhile completes, and one of whose blocks is restored goes on (15 R354). -/
def wakeCommand (s : State) (seq : Nat) (c : Command) : State :=
  if c.state != 6 then s
  else
    let s := moveCommand s seq c.before
    if (s.launch seq).ending == some [] then s.completeLaunch seq
    else if c.before == 5 && s.gangs.any (fun g => g.2.launch == seq) then setCommand s seq 2 0 0 0 else s
def wakeCommands (s : State) : State := s.commands.foldl (fun s c => wakeCommand s c.1 c.2) s
/-- EMBER and RESUME commands, which run in the ember state too (21 R425, R428). DEDUCED, log 60. -/
def wakeEmber (s : State) : State :=
  s.commands.foldl (fun s c => if c.2.type == 5 || c.2.type == 6 then wakeCommand s c.1 c.2 else s) s
/-- One step of entry, as far as it can go now (21 R425). -/
def enterStep (s : State) (seq step : Nat) : State :=
  match step with
  | 1 => let r := saveAll s; if r.1 then { r.2 with power := .entering 2 } else r.2
  | 2 => { sleepCommands s seq with power := .entering 3 }
  | 3 =>
    let s := allCores.foldl (fun s c => match execCoreLeave c s with | .next s => s | _ => s) s
    if allCores.all (fun c => !(s.core c).powered) then { s with power := .entering 4 } else s
  | 4 =>
    let s := s.migrations.foldl (fun s m => abandonMigration s m.1 m.2) s
    -- jobs and MREDs not complete are abandoned: they keep their captured operands and run again (21 R427)
    { s with
      leaseQueue := [], requests := s.requests.filter (fun r => r.2.kind != .leaseLoad)
      mreds := s.mreds.map (fun m => (m.1, { m.2 with phase := 0 })), power := .entering 5 }
  | _ => wakeEmber (setCommand { s with power := .ember } seq 3 0 0 0)
/-- EMBER_ENTER: starts the entry, or takes its next step; in the ember state it completes at once (21 R428). -/
def execEmberEnter (seq : Nat) (s : State) : Host.Outcome State Fault Refusal :=
  match s.power with
  | .entering n => if (tfind s.commands seq).any (fun c => c.type == 5 && c.state == 2) then .next (enterStep s seq n) else .next s
  | _ =>
    if !(tfind s.commands seq).any (fun c => c.field 0x10 1 == 0 || s.power == .ember) then .next s
    else
      let r := openCommand s seq 5 false
      match r.1, s.power with
      | none, _ => .next r.2
      | some _, .ember => .next (setCommand r.2 seq 3 0 0 0)
      | some _, .running => .next { r.2 with power := .entering 1 }
      | some _, _ => .next r.2
def armCommand (seq bit : Nat) (armed : Bool) (s : State) : Host.Outcome State Fault Refusal :=
  if !(tfind s.commands seq).any (fun c => c.field 0x10 1 == bit) || s.power == .ember then .next s
  else
    let r := openCommand s seq 5 false
    match r.1 with
    | none => .next r.2
    | some _ => .next (setCommand { r.2 with emberArmed := armed } seq 3 0 0 0)
/-- EMBER_ARM, EMBER_DISARM (21 R424). -/
def execEmberArm (seq : Nat) (s : State) : Host.Outcome State Fault Refusal := armCommand seq 1 true s
def execEmberDisarm (seq : Nat) (s : State) : Host.Outcome State Fault Refusal := armCommand seq 2 false s

/-- The frames that are restored next: of those that can be, those that go first (15 R359, 16 R387). -/
def nextFrames (s : State) : List (Nat × Frame) :=
  s.frames.foldl (fun (best : List (Nat × Frame)) f =>
    let fs := frameSet s f.1
    if restorable s fs && (best.isEmpty || restoresFirst s fs best) then fs else best) []
/-- Restore every frame that can be, one set after another; those whose slots are taken stay. -/
def restoreAll : Nat → State → State
  | 0, s => s
  | n + 1, s =>
    match nextFrames s with
    | [] => s
    | fs => restoreAll n (restoreOrLose s fs)
/-- An entry that a supply warning asks for: the device raises the command, once the journal has a slot for it (15 R352, 21
R424). -/
def warnedEntry (s : State) : State :=
  if journalFree s then { (raiseCommand s 5).2 with warned := false, power := .entering 1 } else { s with warned := true }
/-- One step of exit (21 R426). DEDUCED, log 70. -/
def exitStep (s : State) (step : Nat) : State :=
  match step with
  | 1 =>
    let cs : Tab Channel := (List.range memChannels).foldl (fun t c =>
      let k := s.channel c
      tput t c { k with retraining := some (k.half, k.cause) }) s.channels
    { s with channels := cs, power := .exiting 2 }
  | 2 => if s.channels.all (fun c => c.2.retraining.isNone) then { s with power := .exiting 3 } else s
  | 3 => { allCores.foldl (fun s c => match execCoreJoin c s with | .next s => s | _ => s) s with power := .exiting 4 }
  | 4 =>
    match nextFrames s with
    | [] => { s with power := .exiting 5 }
    | fs => restoreOrLose s fs
  | 5 => { wakeCommands s with power := .exiting 6 }
  | _ =>
    let s := { s with power := .running }
    let s := (s.commands.filter (fun c => c.2.type == 6 && c.2.state == 2)).foldl (fun s c => setCommand s c.1 3 0 0 0) s
    if s.warned then warnedEntry s else s
/-- RESUME: starts the exit, or takes its next step; while running it completes at once (21 R426, R428). One whose exit a warning
stopped starts no other: it completes with the next exit. -/
def execResume (seq : Nat) (s : State) : Host.Outcome State Fault Refusal :=
  match s.power with
  | .exiting n => if (tfind s.commands seq).any (fun c => c.type == 6) then .next (exitStep s n) else .next s
  | _ =>
    let stopped := (tfind s.commands seq).any (fun c => c.state == 2) && s.power == .ember
    let r := openCommand s seq 6 false
    match r.1, s.power with
    | none, _ => .next r.2
    | some _, .ember => .next (if stopped then r.2 else { r.2 with power := .exiting 1 })
    | some _, .running => .next (setCommand r.2 seq 3 0 0 0)
    | some _, _ => .next r.2
/-- SUPPLY_WARNING (21 R424, R428). -/
def execSupplyWarning (s : State) : Host.Outcome State Fault Refusal :=
  if !s.emberArmed && !s.warned then .next s
  else match s.power with
    | .running => .next (warnedEntry s)
    | .loading => .next { s with warned := true }
    | .exiting n =>
      if 4 ≤ n then .next { s with warned := true }
      else
        -- the dies are gated again
        let cs : Tab Channel := s.channels.map (fun c => (c.1, { c.2 with retraining := none }))
        .next { s with channels := cs, power := .ember }
    | _ => .next s
/-- SUPPLY_GOOD (21 R426). -/
def execSupplyGood (s : State) : Host.Outcome State Fault Refusal :=
  if !(s.emberArmed || s.supplied) || s.power != .ember then .next { s with supplied := false }
  else if journalFree s then .next { (raiseCommand s 6).2 with supplied := false, power := .exiting 1 }
  else .next { s with supplied := true }

/-! ### Firmware images and configuration. -/

def firmwareKeyBytes : List Byte := leBytes 32 Config.firmwareKey
/-- The check of an image at every load (21 R429): its version when it is accepted. -/
def imageVersion (minimum : Nat) (img : List Byte) : Option Nat :=
  let f := fun (off n : Nat) => leNat ((img.drop off).take n)
  let body := (img.drop 0xC0).take (f 8 8)
  if f 0 4 != 0x4B574657 || f 0x10 48 != 0 || f 8 8 < 4096 || 2 ^ 26 < f 8 8 || img.length < 0xC0 + f 8 8 ||
      sha512 body != (img.drop 0x40).take 64 || !edVerify firmwareKeyBytes (img.take 0x80) ((img.drop 0x80).take 64) ||
      f 4 4 < minimum then none
  else some (f 4 4)
def startImage (s : State) (version : Nat) (img : List Byte) : State :=
  { s with firmware := { s.firmware with version := version, digest := (img.drop 0x40).take 64 } }

/-- FIRMWARE: saves every block, checks the image, and the new firmware, or the old one, restores them (21 R429). -/
def execFirmware (seq : Nat) (s : State) : Host.Outcome State Fault Refusal :=
  match s.power with
  | .loading =>
    (match tfind s.commands seq with
     | none => .next s
     | some c =>
       if c.type != 7 || c.state != 2 then .next s
       else
         let r := saveAll s
         if !r.1 then .next r.2
         else
           let addr := c.field 0x10 8
           let n := c.field 0x18 8
           let img := if 2 ^ 41 < addr + n then (Fw.ok [], r.2) else fwReadPhys r.2 addr n
           let finish := fun (s : State) (state fault : Nat) (a : W64) =>
             let s := setCommand { restoreAll s.frames.length s with power := .running } seq state fault 0 a
             if s.warned then warnedEntry s else s
           match img with
           | (.wait, s) => .next s
           | (.fault f a, s) => .next (finish s 4 f a)
           | (.ok bs, s) =>
             match imageVersion s.firmware.minVersion bs with
             | some v => .next (finish (startImage s v bs) 3 0 0)
             | none => .next (finish s 4 0x02 0))
  | .running =>
    let r := openCommand s seq 7 false
    match r.1 with
    | none => .next r.2
    | some _ => .next { r.2 with power := .loading }
  | _ => .next s

/-- The configuration records of the flash (21 R430): offset, type and bytes of each, and whether it verifies. PRESUMED, log 73. -/
def configRecords : Nat → Nat → List Byte → List (Nat × Nat × List Byte × Bool)
  | 0, _, _ => []
  | n + 1, off, bs =>
    let len := leNat ((bs.drop 2).take 2)
    if bs.length < 68 + len then []
    else
      let head := bs.take (4 + len)
      (off, leNat (bs.take 2), bs.take (68 + len), edVerify firmwareKeyBytes head ((bs.drop (4 + len)).take 64)) ::
        configRecords n (off + 68 + len) (bs.drop (68 + len))
/-- The data of the accepted record of a type, or its built-in default. -/
def configData (fw : Firmware) (type : Nat) : List Byte :=
  ((fw.records.find? (fun r => leNat (r.take 2) == type)).map (fun r => (r.drop 4).take (r.length - 68))).getD (Config.defaultRecord type)
/-- Bring-up: the image starts, reserves the emulation tables and publishes their addresses (16 R379, R380). -/
def bringUp (s : State) (version : Nat) (img : List Byte) : State :=
  { startImage s version img with power := .running, emulationTable := lockTable, emulationLease := leaseArea }
/-- POWER_UP (21 R429, R430): the configuration, then the check of the image; a failure leads to recovery. Device memory
reads as after reset; the host's memory is its own. DEDUCED, log 72. -/
def execPowerUp (s : State) : Host.Outcome State Fault Refusal :=
  let recs := configRecords s.firmware.flash.length 0 s.firmware.flash
  let ok := (recs.filter (fun (r : Nat × Nat × List Byte × Bool) => r.2.2.2)).map (fun r => r.2.2.1)
  let fw := { s.firmware with records := ok, digest := [], version := 0 }
  let fw := { fw with minVersion := leNat (configData fw 2) }
  let t := { State.reset with
    mem := s.mem, writes := (s.mem.filter (fun p => p.1 < hostBase)).map (fun p => (p.1, 0))
    firmware := fw, agenda := s.agenda, nextId := s.nextId, fresh := s.fresh
    badRecords := (recs.filter (fun r => !r.2.2.2)).map (fun r => (r.2.1, r.1)) }
  match imageVersion fw.minVersion fw.image with
  | some v => .next (bringUp t v fw.image)
  | none => .next { t with power := .recovery, emulationTable := 0, emulationLease := 0 }
/-- RECOVERY_IMAGE_LOAD (21 R429): an image from host memory, checked again. -/
def execRecoveryImageLoad (addr length : Nat) (s : State) : Host.Outcome State Fault Refusal :=
  if s.power != .recovery then .next s
  else
    let s := { s with recoveryAddr := addr, recoveryLength := length }
    let img := s.bytesAt (hostBase + addr) length
    match imageVersion s.firmware.minVersion img with
    | some v => .next (bringUp s v img)
    | none => .next s

/-! ### Starting a command that was held back (15 R351). -/

/-- COMMAND_START: the command starts by its type once it may. -/
def execCommandStart (seq : Nat) (s : State) : Host.Outcome State Fault Refusal :=
  match tfind s.commands seq with
  | none => .next s
  | some c =>
    if c.state != 1 then .next s
    else match c.type with
      | 1 => execLaunch seq s
      | 2 => execWait seq s
      | 3 => execSignal seq s
      | 4 => (match c.field 0x18 1 with
        | 0 => execRegionCreate seq s
        | 1 => execRegionModify seq s
        | _ => execRegionDelete seq s)
      | 5 => (match c.field 0x10 1 with
        | 1 => if s.power == .ember then execEmberEnter seq s else execEmberArm seq s
        | 2 => if s.power == .ember then execEmberEnter seq s else execEmberDisarm seq s
        | _ => execEmberEnter seq s)
      | 6 => execResume seq s
      | 7 => execFirmware seq s
      | _ => execMigratePolicy seq s

end Sys2Proof.Machine
end

