-- ==== Sys2Proof/Machine/HostLink.lean ====
section
/-!
DEFINITION. The host's accesses to device memory (21 R420), the links between devices (21 R421-R423), attestation and
out-of-band management (21 R431-R433).
-/

namespace Sys2Proof.Machine

open State

/-- DESIGN CHOICE, log 78. -/
def addReply (s : State) (r : Reply) : State := { s with replies := s.replies ++ [r] }

/-! ### Host accesses. -/

/-- A line that nothing on its way can change: no write-back, registration or reduction of it is in flight. -/
def lineQuiet (s : State) (line : Nat) : Bool :=
  !s.unserved.any (fun m => m.line == line && m.toHome &&
    (match m.body with | .writeBack .. | .leaseWrite .. | .register _ | .red .. => true | _ => false))
/-- Back-invalidate a line in one core: dirty bytes are written back, the line goes (21 R420). -/
def backInvalidate (line : Nat) (s : State) (c : Nat) : State :=
  -- a reply on its way is older than the host's write
  let s := s.markStale c (fun l => l == line)
  match s.l1Line c line with
  | none => s.dropScales c
  | some l =>
    let w := s.wbCells c line (dirtyCells l)
    reportLoss (((s.homeCells line w.1).dropL1 c line).loseBytes c line w.2) c line w.2
def coreNumbers (s : State) : List Nat := s.cores.map (fun k => k.1)
/-- HOST_MEM_WRITE (21 R420): the lines are back-invalidated first; a lease, a release in flight or a drain holds the
write back. `pa` is a key: device memory, or the host's own memory above 2^52, whose line the device may cache. DEDUCED, log 76. -/
def execHostMemWrite (pa : Nat) (data : List Byte) (s : State) : Host.Outcome State Fault Refusal :=
  let lines := (List.range ((pa % 128 + data.length + 127) / 128)).map (fun i => pa / 128 + i)
  let held := lines.any (fun l => (coreNumbers s).any (fun c => s.leasedLine c l || s.pinnedLine c l) || !lineQuiet s l)
  if held then .next s
  else
    let r := s.homeReadyAll lines
    if !r.1 then .next r.2
    else
      let s := lines.foldl (fun s l => (coreNumbers s).foldl (backInvalidate l) s) r.2
      .next (s.homeWrite pa data)
/-- HOST_MEM_READ (21 R420): served at the home once its records are drained; no core's copy is touched, and the host may hold
the lines from then on. -/
def execHostMemRead (pa count : Nat) (s : State) : Host.Outcome State Fault Refusal :=
  let lines := ((List.range ((pa % 128 + count + 127) / 128)).map (fun i => pa / 128 + i)).filter (fun l => isDevMem (l * 128))
  match fwReadPhys s pa count with
  | (.ok bs, s) => .next (addReply { s with hostLines := dedup (s.hostLines ++ lines) } (.memory bs))
  | (.fault _ _, s) => .next (addReply s .error)
  | (.wait, s) => .next s

/-! ### Links. -/

def setPeer (s : State) (p : Nat) (x : Peer) : State := { s with peers := tput s.peers p x }
/-- Apply one access of a peer at its home: its parts one after another, a reduction once the releases of its line are drained;
false: a drain delays it (21 R422). -/
def applyPeer (s : State) (a : PeerAccess) : Bool × State :=
  match a.op with
  | .red op _ =>
    let r := s.homeReadyAll (dedup (a.parts.map (fun p => p.1 / 128)))
    if !r.1 then r
    else (true, a.parts.foldl (fun s p =>
      let n := p.2.length
      s.homeWrite p.1 (leBytes n (atomicOp op.toNat n (s.natAt p.1 n) (leNat p.2)))) r.2)
  | _ => (true, a.parts.foldl (fun s p => s.homeWrite p.1 p.2) s)
/-- Apply the accesses that have arrived, in sequence order, as far as they go. -/
def applyHeld (src : Nat) : Nat → State → State
  | 0, s => s
  | n + 1, s =>
    let p := s.peer src
    match p.held.find? (fun a => a.seq == p.expect) with
    | none => s
    | some a =>
      let r := applyPeer s a
      if !r.1 then r.2
      else applyHeld src n (setPeer r.2 src { p with expect := (p.expect + 1) % 2 ^ 48, held := p.held.erase a })
/-- PEER_ACCESS_ARRIVE (21 R422): applied in sequence order; an access already applied is discarded. -/
def execPeerAccessArrive (acc : PeerAccess) (s : State) : Host.Outcome State Fault Refusal :=
  let p := s.peer acc.source
  -- sequence numbers are compared modulo 2^48
  let ahead := (acc.seq + 2 ^ 48 - p.expect) % 2 ^ 48
  let s := if 2 ^ 47 ≤ ahead || p.held.any (fun a => a.seq == acc.seq) then s
           else setPeer s acc.source { p with held := p.held ++ [acc] }
  .next (applyHeld acc.source (s.peer acc.source).held.length s)
/-- END_TO_END_ACK (21 R422): the access leaves the replay buffer; a gang that waited for it to end leaves its slot. -/
def execEndToEndAck (peer seq : Nat) (s : State) : Host.Outcome State Fault Refusal :=
  let p := s.peer peer
  let gone := p.replay.filter (fun a => a.access.seq == seq)
  .next (reapAll (setPeer s peer { p with replay := p.replay.filter (fun a => a.access.seq != seq) }) (dedup (gone.map (fun a => a.slot))))

/-- An access is a release. -/
def opReleases : PeerOp → Bool
  | .release => true
  | .red _ rel => rel
  | .store => false
/-- An access that is sent again by another path: a release end to end, and the new first hop has to accept it (21 R423). -/
def resend (a : Replayed) : Replayed := { a with endToEnd := a.endToEnd || opReleases a.access.op, accepted := false }
/-- A hop of a port failed: the report, and the accesses it served go another way. A die bridge retrains at half its lanes and
goes on (21 R423). -/
def failHop (s : State) (port : Nat) : State :=
  let s := logRecord s 12 0x1F 2 port 0
  if 16 ≤ port then { s with ports := tput s.ports port { up := true, half := true, retries := 0, since := s.time } }
  else
    let s := { s with ports := tput s.ports port { up := false, half := false, retries := 0, since := s.time } }
    let path := s.otherPort port
    let served := (List.range 256).filter (fun p => (s.peer p).path == some port && (tfind s.peers p).isSome)
    let s := served.foldl (fun s p =>
      let x := s.peer p
      setPeer s p { x with path := path, replay := x.replay.map resend }) s
    path.elim s (fun q => { s with ports := tput s.ports q { s.port q with since := s.time } })
/-- FLIT_RETRY (21 R421): the flit is sent again; the sixteenth retry of it in a row fails the hop. -/
def execFlitRetry (port : Nat) (s : State) : Host.Outcome State Fault Refusal :=
  let p := s.port port
  if !p.up then .next s
  else if 15 ≤ p.retries then .next (failHop s port)
  else .next { s with ports := tput s.ports port { p with retries := p.retries + 1 } }
/-- The first hop of a port acknowledges the flits that were sent to it: their accesses are accepted, and the next flit's retries
count from 0 (21 R421, R422). -/
def flitAck (s : State) (port : Nat) : State :=
  if !(s.port port).up then s
  else
    let here := fun (p : Nat × Peer) => s.servedBy p.1 == port && p.2.path.isSome
    { s with
      peers := s.peers.map (fun (p : Nat × Peer) =>
        if here p then (p.1, { p.2 with replay := p.2.replay.map (fun a => { a with accepted := true }) }) else p)
      ports := tput s.ports port { s.port port with retries := 0, since := s.time } }
/-- A hop has acknowledged no flit for 10,000 ticks although flits wait (21 R421); a die bridge's flits are those of its die, of
which State holds none, so its silence is the event's own finding. DESIGN CHOICE, log 102. -/
def hopSilent (s : State) (port : Nat) : Bool := 16 ≤ port || (s.unaccepted port && (s.port port).since + 10000 ≤ s.time)
/-- HOP_FAILURE (21 R421, R423): a hop that acknowledges nothing fails. -/
def execHopFailure (port : Nat) (s : State) : Host.Outcome State Fault Refusal :=
  if (s.port port).up && hopSilent s port then .next (failHop s port) else .next s
/-- LINK_RETRY_TIMER (21 R423): destinations without a path are tried again by their own port. -/
def execLinkRetryTimer (s : State) : Host.Outcome State Fault Refusal :=
  let lost := s.peers.filter (fun p => p.2.path.isNone)
  .next (lost.foldl (fun s p =>
    let s := { s with ports := tput s.ports (portOf p.1) Port.reset }
    setPeer s p.1 { p.2 with path := some (portOf p.1) }) s)

/-! ### Attestation (21 R431, R432). -/

/-- The seed of the device identity key. -/
def identitySeed : List Byte := (sha512 (leBytes 32 Config.pufSecret)).take 32
/-- The identity certificate: configuration record type 5, or its built-in default. -/
def certificate (s : State) : List Byte := configData s.firmware 5
/-- The three measurements. -/
def measurement (s : State) (i : Nat) : List Byte :=
  match i with
  | 1 => sha512 Config.bootRom
  | 2 => s.firmware.digest
  | _ => sha512 s.firmware.records.flatten
def execGetVersion (s : State) : Host.Outcome State Fault Refusal := .next (addReply s .version)
def execGetCapabilities (s : State) : Host.Outcome State Fault Refusal := .next (addReply s .capabilities)
/-- NEGOTIATE_ALGORITHMS: Ed25519 is bit 10 of the signature algorithms and SHA-512 bit 2 of the hashes that SPDM 1.3 numbers.
PRESUMED, log 74. -/
def execNegotiateAlgorithms (sigs hashes : List Nat) (s : State) : Host.Outcome State Fault Refusal :=
  .next (addReply s (.algorithms (sigs.contains 10 && hashes.contains 2)))
def execGetDigests (s : State) : Host.Outcome State Fault Refusal := .next (addReply s (.digests [sha512 (certificate s)]))
def execGetCertificate (offset length : Nat) (s : State) : Host.Outcome State Fault Refusal :=
  .next (addReply s (.certificate (((certificate s).drop offset).take length)))
def execChallenge (nonce : List Byte) (s : State) : Host.Outcome State Fault Refusal :=
  .next (addReply s (.challengeAuth (edSign identitySeed (Config.spdmTranscript 0 nonce))))
/-- GET_MEASUREMENTS: index 0 reads how many there are, 255 all of them, as SPDM numbers them. PRESUMED, log 74. -/
def execGetMeasurements (index : Nat) (nonce : List Byte) (s : State) : Host.Outcome State Fault Refusal :=
  let is := if index == 255 then [1, 2, 3] else if 1 ≤ index && index ≤ 3 then [index] else []
  if index != 0 && is.isEmpty then .next (addReply s .error)
  else .next (addReply s (.measurements (is.map (fun i => (i, measurement s i))) (edSign identitySeed (Config.spdmTranscript 1 nonce))))

/-! ### Out-of-band management (21 R433): reads only. -/

def execMctpControl (message : List Byte) (s : State) : Host.Outcome State Fault Refusal :=
  .next (addReply s (.mctp (Config.mctpReply message)))
def words64 (bs : List Byte) : List W64 := (List.range (bs.length / 8)).map (fun i => BitVec.ofNat 64 (leNat ((bs.drop (8 * i)).take 8)))
/-- The ember state as a vendor message reads it: 0 running, 1 entering, 2 in it, 3 leaving it, 4 recovery. DESIGN CHOICE, log
108. -/
def emberCode (s : State) : Nat :=
  match s.power with
  | .running | .loading => 0
  | .entering _ => 1
  | .ember => 2
  | .exiting _ => 3
  | .recovery => 4
def execVendorRead (item : VendorItem) (s : State) : Host.Outcome State Fault Refusal :=
  match item with
  | .errorLog i => .next (addReply s (.vendor (words64 (s.bytesAt (s.logBase.toNat + 32 * (i % 2 ^ s.logSize)) 32))))
  | .journal i => .next (addReply s (.vendor (words64 (s.bytesAt (s.journalBase.toNat + 64 * (i % 2 ^ s.journalSize)) 64))))
  | .temperature c => .next { addReply s (.vendor [(Config.sensor (s.fresh + c)).zeroExtend 64]) with fresh := s.fresh + c + 1 }
  | .supply => .next { addReply s (.vendor [(Config.sensor s.fresh).zeroExtend 64]) with fresh := s.fresh + 1 }
  | .emberState => .next (addReply s (.vendor [BitVec.ofNat 64 (emberCode s)]))

/-! ### A slot whose opcode is unassigned (03 R94). -/

/-- ILLEGAL_INSTRUCTION: fault 0x01 in every thread of the issuing group. -/
def execIllegalInstruction (_word : BitVec 96) (s : State) : Host.Outcome State Fault Refusal :=
  match s.cur with
  | none => .next s
  | some (_, gid) =>
    match tfind s.groups gid with
    | none => .next s
    | some g => if g.status != .ready then .next s else .next (s.refuse gid g (g.members.map (fun t => (t, Disp.trap 0x01 0))))

end Sys2Proof.Machine
end

