-- ==== Sys2Proof/Machine/Timers.lean ====
section
/-!
DEFINITION. Timers: sleep counts (04 R116), weir timeouts (07 R206), fairness (01 R37), time quanta (15 R359).
-/

namespace Sys2Proof.Machine

open State

/-- SLEEP_END: a group whose count has reached 0 is ready. -/
def execSleepEnd (core group : Nat) (s : State) : Host.Outcome State Fault Refusal :=
  .next (match tfind s.groups group with
    | some g => if g.core == core && g.status == .sleep 0 then s.modGroup group (fun x => { x with status := .ready, waitCount := 0 }) else s
    | none => s)

/-- A timeout that has reached 0 expires: the timed joiners go on with false, the round stays open. -/
def expireWeir (s : State) (n weir : Nat) : State :=
  let x := s.weir n weir
  if x.timeout != 1 then s else (s.wakeJoiners n weir true false).setWeir n weir { x with timeout := 0 }
/-- Every timeout that has reached 0 expires: what the end of a cycle leaves to do. -/
def expireWeirs (s : State) : State :=
  s.gangs.foldl (fun s g => g.2.weirs.foldl (fun s w => expireWeir s g.1 w.1) s) s
/-- What is left of the current cycle may still issue an instruction of a core. -/
def issuesLeft (s : State) (core : Nat) : Bool :=
  let now := s.agenda.takeWhile (fun x => match x with | .wait _ => false | _ => true)
  (now ++ (if now.length == s.agenda.length then s.turn else [])).any (fun x => match x with
    | .issue c _ => c == core
    | _ => false)
/-- WEIR_TIMEOUT: a signature of the same cycle comes first, so while one may come the timeout waits (01 R19, 07 R206). -/
def execWeirTimeout (core slot weir : Nat) (s : State) : Host.Outcome State Fault Refusal :=
  if issuesLeft s core then .next s else .next (expireWeir s (96 * core + slot) weir)

/-- The groups of a gang. -/
def gangGroups (s : State) (n : Nat) : List (Nat × Group) := s.groups.filter (fun g => g.2.members.any (fun t => slotOf t == n))
/-- The ready group of the gang with the highest wait count, the lower PC on a tie. -/
def longestWaiting (s : State) (n : Nat) : Option (Nat × Group) :=
  ((gangGroups s n).filter (fun g => g.2.status == .ready)).foldl (fun best g =>
    match best with
    | none => some g
    | some b =>
      if b.2.waitCount < g.2.waitCount || (b.2.waitCount == g.2.waitCount && g.2.pc.toNat < b.2.pc.toNat) then some g else some b) none
/-- A count that has reached FAIRTIME gives the longest-waiting group priority for 64 issues. -/
def giveFairness (s : State) (n : Nat) : State :=
  let g := s.gang n
  if !(s.headerOf n).progress || !g.fairDue || (gangGroups s n).any (fun x => x.2.prio.isSome) then s
  else
    let s := s.modGang n (fun g => { g with fairCount := 0, fairDue := false })
    match longestWaiting s n with
    | some x => s.modGroup x.1 (fun y => { y with prio := some 64 })
    | none => s
/-- Every count of a core's gangs that has reached FAIRTIME acts before the core issues (17 R389). -/
def fairNow (s : State) (core : Nat) : State :=
  (s.gangs.filter (fun g => g.2.fairDue && coreOf g.1 == core)).foldl (fun s g => giveFairness s g.1) s
/-- FAIRNESS_TIMER_EXPIRY. -/
def execFairnessTimerExpiry (core slot : Nat) (s : State) : Host.Outcome State Fault Refusal :=
  .next (giveFairness s (96 * core + slot))

/-- QUANTUM_EXPIRY: a gang whose clock has reached its region's quantum ends with fault 0x1D. -/
def execQuantumExpiry (core slot : Nat) (s : State) : Host.Outcome State Fault Refusal :=
  let n := 96 * core + slot
  let q := s.quantumOf (s.regionOf n)
  if (tfind s.gangs n).isNone || q == 0 || (s.gang n).quantum < q || s.liveOf n == [] then .next s
  else .next (s.endGang n 0x1D (laneMask (s.liveOf n)) 0)

end Sys2Proof.Machine
end

