-- ==== Sys2Proof/Machine/Dispatch.lean ====
section
/-!
DEFINITION. `exec`: one arm per constructor of `Instr`, each one call of that row's meaning.
-/

namespace Sys2Proof.Machine

def exec (i : Instr) (s : State) : Host.Outcome State Fault Refusal :=
  match i with
  | .nop h f => Sys2Proof.Machine.execNop h f s
  | .bra h f => Sys2Proof.Machine.execBra h f s
  | .brx h f => Sys2Proof.Machine.execBrx h f s
  | .brs h f => Sys2Proof.Machine.execBrs h f s
  | .call h f => Sys2Proof.Machine.execCall h f s
  | .ret h f => Sys2Proof.Machine.execRet h f s
  | .exit h f => Sys2Proof.Machine.execExit h f s
  | .yield h f => Sys2Proof.Machine.execYield h f s
  | .sleep h f => Sys2Proof.Machine.execSleep h f s
  | .trap h f => Sys2Proof.Machine.execTrap h f s
  | .iadd h f => Sys2Proof.Machine.execIadd h f s
  | .isub h f => Sys2Proof.Machine.execIsub h f s
  | .iaddx h f => Sys2Proof.Machine.execIaddx h f s
  | .isubx h f => Sys2Proof.Machine.execIsubx h f s
  | .imul h f => Sys2Proof.Machine.execImul h f s
  | .imulh h f => Sys2Proof.Machine.execImulh h f s
  | .imad h f => Sys2Proof.Machine.execImad h f s
  | .imadw h f => Sys2Proof.Machine.execImadw h f s
  | .imin h f => Sys2Proof.Machine.execImin h f s
  | .imax h f => Sys2Proof.Machine.execImax h f s
  | .iabs h f => Sys2Proof.Machine.execIabs h f s
  | .ineg h f => Sys2Proof.Machine.execIneg h f s
  | .idot4 h f => Sys2Proof.Machine.execIdot4 h f s
  | .isad h f => Sys2Proof.Machine.execIsad h f s
  | .and h f => Sys2Proof.Machine.execAnd h f s
  | .or h f => Sys2Proof.Machine.execOr h f s
  | .xor h f => Sys2Proof.Machine.execXor h f s
  | .andn h f => Sys2Proof.Machine.execAndn h f s
  | .not h f => Sys2Proof.Machine.execNot h f s
  | .blog h f => Sys2Proof.Machine.execBlog h f s
  | .shl h f => Sys2Proof.Machine.execShl h f s
  | .shr h f => Sys2Proof.Machine.execShr h f s
  | .sar h f => Sys2Proof.Machine.execSar h f s
  | .rot h f => Sys2Proof.Machine.execRot h f s
  | .fshf h f => Sys2Proof.Machine.execFshf h f s
  | .bfe h f => Sys2Proof.Machine.execBfe h f s
  | .bfi h f => Sys2Proof.Machine.execBfi h f s
  | .popc h f => Sys2Proof.Machine.execPopc h f s
  | .clz h f => Sys2Proof.Machine.execClz h f s
  | .brev h f => Sys2Proof.Machine.execBrev h f s
  | .icmp h f => Sys2Proof.Machine.execIcmp h f s
  | .isel h f => Sys2Proof.Machine.execIsel h f s
  | .plop h f => Sys2Proof.Machine.execPlop h f s
  | .lea h f => Sys2Proof.Machine.execLea h f s
  | .mov h f => Sys2Proof.Machine.execMov h f s
  | .movi h f => Sys2Proof.Machine.execMovi h f s
  | .bswz h f => Sys2Proof.Machine.execBswz h f s
  | .fadd h f => Sys2Proof.Machine.execFadd h f s
  | .fmul h f => Sys2Proof.Machine.execFmul h f s
  | .ffma h f => Sys2Proof.Machine.execFfma h f s
  | .fmin h f => Sys2Proof.Machine.execFmin h f s
  | .fmax h f => Sys2Proof.Machine.execFmax h f s
  | .fcmp h f => Sys2Proof.Machine.execFcmp h f s
  | .fclass h f => Sys2Proof.Machine.execFclass h f s
  | .fdot2 h f => Sys2Proof.Machine.execFdot2 h f s
  | .fscale h f => Sys2Proof.Machine.execFscale h f s
  | .frcp h f => Sys2Proof.Machine.execFrcp h f s
  | .frsq h f => Sys2Proof.Machine.execFrsq h f s
  | .fsqrt h f => Sys2Proof.Machine.execFsqrt h f s
  | .fdiv h f => Sys2Proof.Machine.execFdiv h f s
  | .fex2 h f => Sys2Proof.Machine.execFex2 h f s
  | .flg2 h f => Sys2Proof.Machine.execFlg2 h f s
  | .fsin h f => Sys2Proof.Machine.execFsin h f s
  | .fcos h f => Sys2Proof.Machine.execFcos h f s
  | .ftanh h f => Sys2Proof.Machine.execFtanh h f s
  | .frnd h f => Sys2Proof.Machine.execFrnd h f s
  | .cvt h f => Sys2Proof.Machine.execCvt h f s
  | .cvtn h f => Sys2Proof.Machine.execCvtn h f s
  | .pack h f => Sys2Proof.Machine.execPack h f s
  | .unpk h f => Sys2Proof.Machine.execUnpk h f s
  | .lxch h f => Sys2Proof.Machine.execLxch h f s
  | .cons h f => Sys2Proof.Machine.execCons h f s
  | .pmask h f => Sys2Proof.Machine.execPmask h f s
  | .redux h f => Sys2Proof.Machine.execRedux h f s
  | .scan h f => Sys2Proof.Machine.execScan h f s
  | .eqmask h f => Sys2Proof.Machine.execEqmask h f s
  | .bcast h f => Sys2Proof.Machine.execBcast h f s
  | .smov h f => Sys2Proof.Machine.execSmov h f s
  | .smovi h f => Sys2Proof.Machine.execSmovi h f s
  | .sadd h f => Sys2Proof.Machine.execSadd h f s
  | .ssub h f => Sys2Proof.Machine.execSsub h f s
  | .smul h f => Sys2Proof.Machine.execSmul h f s
  | .smad h f => Sys2Proof.Machine.execSmad h f s
  | .sand h f => Sys2Proof.Machine.execSand h f s
  | .sor h f => Sys2Proof.Machine.execSor h f s
  | .sxor h f => Sys2Proof.Machine.execSxor h f s
  | .sshl h f => Sys2Proof.Machine.execSshl h f s
  | .sshr h f => Sys2Proof.Machine.execSshr h f s
  | .scmp h f => Sys2Proof.Machine.execScmp h f s
  | .ssel h f => Sys2Proof.Machine.execSsel h f s
  | .sld h f => Sys2Proof.Machine.execSld h f s
  | .sst h f => Sys2Proof.Machine.execSst h f s
  | .rdlane h f => Sys2Proof.Machine.execRdlane h f s
  | .srd h f => Sys2Proof.Machine.execSrd h f s
  | .ld h f => Sys2Proof.Machine.execLd h f s
  | .st h f => Sys2Proof.Machine.execSt h f s
  | .ldf h f => Sys2Proof.Machine.execLdf h f s
  | .stf h f => Sys2Proof.Machine.execStf h f s
  | .lds h f => Sys2Proof.Machine.execLds h f s
  | .sts h f => Sys2Proof.Machine.execSts h f s
  | .ldc h f => Sys2Proof.Machine.execLdc h f s
  | .pref h f => Sys2Proof.Machine.execPref h f s
  | .cctl h f => Sys2Proof.Machine.execCctl h f s
  | .atom h f => Sys2Proof.Machine.execAtom h f s
  | .cas h f => Sys2Proof.Machine.execCas h f s
  | .red h f => Sys2Proof.Machine.execRed h f s
  | .atoms h f => Sys2Proof.Machine.execAtoms h f s
  | .cass h f => Sys2Proof.Machine.execCass h f s
  | .lse h f => Sys2Proof.Machine.execLse h f s
  | .stl h f => Sys2Proof.Machine.execStl h f s
  | .lsend h f => Sys2Proof.Machine.execLsend h f s
  | .mred h f => Sys2Proof.Machine.execMred h f s
  | .fence h f => Sys2Proof.Machine.execFence h f s
  | .bar h f => Sys2Proof.Machine.execBar h f s
  | .bara h f => Sys2Proof.Machine.execBara h f s
  | .wdecl h f => Sys2Proof.Machine.execWdecl h f s
  | .wsign h f => Sys2Proof.Machine.execWsign h f s
  | .wjoin h f => Sys2Proof.Machine.execWjoin h f s
  | .tkwait h f => Sys2Proof.Machine.execTkwait h f s
  | .rgn h f => Sys2Proof.Machine.execRgn h f s
  | .mld h f => Sys2Proof.Machine.execMld h f s
  | .mswp h f => Sys2Proof.Machine.execMswp h f s
  | .mma h f => Sys2Proof.Machine.execMma h f s
  | .mmap h f => Sys2Proof.Machine.execMmap h f s
  | .mguide h f => Sys2Proof.Machine.execMguide h f s
  | .accz h f => Sys2Proof.Machine.execAccz h f s
  | .accrd h f => Sys2Proof.Machine.execAccrd h f s
  | .accwr h f => Sys2Proof.Machine.execAccwr h f s
  | .acc2s h f => Sys2Proof.Machine.execAcc2s h f s
  | .scld h f => Sys2Proof.Machine.execScld h f s
  | .cpy h f => Sys2Proof.Machine.execCpy h f s
  | .cpy2d h f => Sys2Proof.Machine.execCpy2d h f s
  | .gath h f => Sys2Proof.Machine.execGath h f s
  | .scat h f => Sys2Proof.Machine.execScat h f s
  | .qdual h f => Sys2Proof.Machine.execQdual h f s
  | .cast h f => Sys2Proof.Machine.execCast h f s
  | .rsmp h f => Sys2Proof.Machine.execRsmp h f s
  | .pdiss h f => Sys2Proof.Machine.execPdiss h f s
  | .spawn h f => Sys2Proof.Machine.execSpawn h f s
  | .rng h f => Sys2Proof.Machine.execRng h f s
  | .halt h f => Sys2Proof.Machine.execHalt h f s
  | .rtt h f => Sys2Proof.Machine.execRtt h f s
  | .csrr h f => Sys2Proof.Machine.execCsrr h f s
  | .csrw h f => Sys2Proof.Machine.execCsrw h f s
  | .tinv h f => Sys2Proof.Machine.execTinv h f s
  | .pmig h f => Sys2Proof.Machine.execPmig h f s
  | .dbrk h f => Sys2Proof.Machine.execDbrk h f s
  | .releaseRecordRegister msg => Sys2Proof.Machine.execReleaseRecordRegister msg s
  | .drainProbe msg => Sys2Proof.Machine.execDrainProbe msg s
  | .drainAck msg => Sys2Proof.Machine.execDrainAck msg s
  | .writeBackAck msg => Sys2Proof.Machine.execWriteBackAck msg s
  | .coreLeave core => Sys2Proof.Machine.execCoreLeave core s
  | .coreJoin core => Sys2Proof.Machine.execCoreJoin core s
  | .leaseGrant line => Sys2Proof.Machine.execLeaseGrant line s
  | .leaseExpiry core line => Sys2Proof.Machine.execLeaseExpiry core line s
  | .leaseWriteThrough msg => Sys2Proof.Machine.execLeaseWriteThrough msg s
  | .leaseRevocation line => Sys2Proof.Machine.execLeaseRevocation line s
  | .revocationNotice msg => Sys2Proof.Machine.execRevocationNotice msg s
  | .implicitLeaseEnd core line => Sys2Proof.Machine.execImplicitLeaseEnd core line s
  | .timeSyncCheck core => Sys2Proof.Machine.execTimeSyncCheck core s
  | .timeSyncReload core => Sys2Proof.Machine.execTimeSyncReload core s
  | .redRouterHoldExpiry msg => Sys2Proof.Machine.execRedRouterHoldExpiry msg s
  | .redHomeApply msg => Sys2Proof.Machine.execRedHomeApply msg s
  | .regionDrain msg => Sys2Proof.Machine.execRegionDrain msg s
  | .regionTransitionApply region => Sys2Proof.Machine.execRegionTransitionApply region s
  | .pageFaultRecord core => Sys2Proof.Machine.execPageFaultRecord core s
  | .unpark record => Sys2Proof.Machine.execUnpark record s
  | .deliverPageFault record => Sys2Proof.Machine.execDeliverPageFault record s
  | .migrationStart mig => Sys2Proof.Machine.execMigrationStart mig s
  | .migrationCopy mig => Sys2Proof.Machine.execMigrationCopy mig s
  | .migrationWindowEnd => Sys2Proof.Machine.execMigrationWindowEnd s
  | .sampleRecord => Sys2Proof.Machine.execSampleRecord s
  | .mredDispatch op => Sys2Proof.Machine.execMredDispatch op s
  | .mredWaitPoll op => Sys2Proof.Machine.execMredWaitPoll op s
  | .mredWaitLimit op => Sys2Proof.Machine.execMredWaitLimit op s
  | .mredComplete op => Sys2Proof.Machine.execMredComplete op s
  | .jobComplete core channel => Sys2Proof.Machine.execJobComplete core channel s
  | .matrixComplete core engine => Sys2Proof.Machine.execMatrixComplete core engine s
  | .rsmpStageOutComplete launch => Sys2Proof.Machine.execRsmpStageOutComplete launch s
  | .rsmpResume launch => Sys2Proof.Machine.execRsmpResume launch s
  | .sleepEnd core group => Sys2Proof.Machine.execSleepEnd core group s
  | .weirTimeout core slot weir => Sys2Proof.Machine.execWeirTimeout core slot weir s
  | .fairnessTimerExpiry core slot => Sys2Proof.Machine.execFairnessTimerExpiry core slot s
  | .quantumExpiry core slot => Sys2Proof.Machine.execQuantumExpiry core slot s
  | .queueWake queue => Sys2Proof.Machine.execQueueWake queue s
  | .queuePoll => Sys2Proof.Machine.execQueuePoll s
  | .commandStart seq => Sys2Proof.Machine.execCommandStart seq s
  | .launch seq => Sys2Proof.Machine.execLaunch seq s
  | .wait seq => Sys2Proof.Machine.execWait seq s
  | .waitTimeout seq => Sys2Proof.Machine.execWaitTimeout seq s
  | .signal seq => Sys2Proof.Machine.execSignal seq s
  | .regionCreate seq => Sys2Proof.Machine.execRegionCreate seq s
  | .regionModify seq => Sys2Proof.Machine.execRegionModify seq s
  | .regionDelete seq => Sys2Proof.Machine.execRegionDelete seq s
  | .emberEnter seq => Sys2Proof.Machine.execEmberEnter seq s
  | .emberArm seq => Sys2Proof.Machine.execEmberArm seq s
  | .emberDisarm seq => Sys2Proof.Machine.execEmberDisarm seq s
  | .resume seq => Sys2Proof.Machine.execResume seq s
  | .firmware seq => Sys2Proof.Machine.execFirmware seq s
  | .migratePolicy seq => Sys2Proof.Machine.execMigratePolicy seq s
  | .blockDispatch seq block => Sys2Proof.Machine.execBlockDispatch seq block s
  | .preemptionRequest core blocks => Sys2Proof.Machine.execPreemptionRequest core blocks s
  | .saveComplete core => Sys2Proof.Machine.execSaveComplete core s
  | .blockRestore frame => Sys2Proof.Machine.execBlockRestore frame s
  | .haltResume slot => Sys2Proof.Machine.execHaltResume slot s
  | .haltRelease slot => Sys2Proof.Machine.execHaltRelease slot s
  | .haltControlNoEffect value => Sys2Proof.Machine.execHaltControlNoEffect value s
  | .queueTableWrite queue field value => Sys2Proof.Machine.execQueueTableWrite queue field value s
  | .halfWidthRequest channel value => Sys2Proof.Machine.execHalfWidthRequest channel value s
  | .halfWidthLeave channel value => Sys2Proof.Machine.execHalfWidthLeave channel value s
  | .laneErrorLimit channel errors => Sys2Proof.Machine.execLaneErrorLimit channel errors s
  | .temperatureLimit channel degrees => Sys2Proof.Machine.execTemperatureLimit channel degrees s
  | .channelRetrainDone channel good => Sys2Proof.Machine.execChannelRetrainDone channel good s
  | .registerWrite reg value => Sys2Proof.Machine.execRegisterWrite reg value s
  | .recoveryImageLoad addr length => Sys2Proof.Machine.execRecoveryImageLoad addr length s
  | .powerUp => Sys2Proof.Machine.execPowerUp s
  | .hostMemWrite pa data => Sys2Proof.Machine.execHostMemWrite pa data s
  | .hostMemRead pa count => Sys2Proof.Machine.execHostMemRead pa count s
  | .peerAccessArrive acc => Sys2Proof.Machine.execPeerAccessArrive acc s
  | .endToEndAck peer seq => Sys2Proof.Machine.execEndToEndAck peer seq s
  | .flitRetry port => Sys2Proof.Machine.execFlitRetry port s
  | .hopFailure port => Sys2Proof.Machine.execHopFailure port s
  | .linkRetryTimer => Sys2Proof.Machine.execLinkRetryTimer s
  | .supplyWarning => Sys2Proof.Machine.execSupplyWarning s
  | .supplyGood => Sys2Proof.Machine.execSupplyGood s
  | .getVersion => Sys2Proof.Machine.execGetVersion s
  | .getCapabilities => Sys2Proof.Machine.execGetCapabilities s
  | .negotiateAlgorithms sigs hashes => Sys2Proof.Machine.execNegotiateAlgorithms sigs hashes s
  | .getDigests => Sys2Proof.Machine.execGetDigests s
  | .getCertificate offset length => Sys2Proof.Machine.execGetCertificate offset length s
  | .challenge nonce => Sys2Proof.Machine.execChallenge nonce s
  | .getMeasurements index nonce => Sys2Proof.Machine.execGetMeasurements index nonce s
  | .mctpControl message => Sys2Proof.Machine.execMctpControl message s
  | .vendorRead item => Sys2Proof.Machine.execVendorRead item s
  | .illegalInstruction word => Sys2Proof.Machine.execIllegalInstruction word s
  | .homeRead msg => Sys2Proof.Machine.execHomeRead msg s
  | .fill msg => Sys2Proof.Machine.execFill msg s

end Sys2Proof.Machine
end

