-- ==== Sys2Proof/Machine/Issue.lean ====
section
/-!
DEFINITION. One group's issue (15 R368, R369): the fetch, the merge at a marked slot, the decoded instruction, and what
the fairness timer counts.
-/

namespace Sys2Proof.Machine

open State

/-- Cores run in this state of the device. -/
def coresRun (s : State) : Bool := match s.power with
  | .running | .loading | .entering _ => true
  | _ => false
/-- The gang of a thread is halted or stopped to be saved. -/
def threadStopped (s : State) (t : Nat) : Bool :=
  (s.gang (slotOf t)).halted || (s.core (coreOf (slotOf t))).saving.contains (slotOf t)
/-- A group that may issue in this cycle. -/
def mayIssue (s : State) (c : Nat) (g : Group) : Bool :=
  coresRun s && (s.core c).powered && !(s.core c).leaving && g.core == c && g.status == .ready && g.hold == 0 &&
    !g.members.isEmpty
/-- The fetch gives a thread its line. -/
def fetches (s : State) (t : Nat) (pc : W64) : Bool := match (fetchLine s (s.who t) pc).1 with
  | .ok _ => true
  | _ => false
/-- The issuing part of a group: its lowest thread that is not stopped, and the threads whose fetch gives what its own
gives. -/
def issuePart (s : State) (g : Group) : List Nat :=
  match g.members.filter (fun t => !threadStopped s t) with
  | [] => []
  | t :: ts => t :: ts.filter (fun u => s.prvOf u == s.prvOf t || (fetches s t g.pc && fetches s u g.pc))
/-- Leave only the issuing part in the group; the rest stands beside it. -/
def isolate (s : State) (gid : Nat) (g : Group) : State :=
  let part := issuePart s g
  let rest := g.members.filter (fun t => !part.contains t)
  if part.isEmpty || rest.isEmpty then s
  else (s.modGroup gid (fun x => partOf' x part)).addGroup (partOf' g rest)

/-- The instruction a group stands at, when the fetch gives one. -/
def fetchGroup (s : State) (g : Group) : Fetch × State :=
  match g.members with
  | [] => (.wait, s)
  | t :: _ => if pcOk g.pc then fetchLine s (s.who t) g.pc else (.fault 0x04 g.pc, s)
/-- A fetch that gives no line: the fault in every thread, or a park of each gang's threads (12 R321). -/
def fetchStop (s : State) (gid : Nat) (g : Group) : Fetch → State
  | .fault code ea =>
    let s := if code == 0x07 || code == 0x19 || code == 0x1A then
        s.reportError (s.who (g.members.headD 0)) false code ea else s
    (s.dispose gid g.pc (g.members.map (fun t => (t, Disp.trap code ea)))).bump
  | .notPresent =>
    let r := s.parkLanes g.core 2 (g.members.map (fun t => (t, g.pc)))
    (r.1.dispose gid g.pc r.2).bump
  | _ => s
/-- What stands at a PC of a line. -/
def instrAt (l : Line) (pc : W64) : Instr := decodeSlot (lineSlot l (pcSlot pc))

/-- A ready group of a gang (15 R369): its next instruction's interlocked operands are available. -/
def groupReady (s : State) (c : Nat) (g : Group) : Bool :=
  mayIssue s c g && !g.members.all (threadStopped s) &&
    (match (fetchGroup s g).1 with
     | .ok l =>
       let i := instrAt l g.pc
       (hdrOfInstr i).all (fun h => !s.waitsFor g.members (g.members.head?.elim 0 slotOf) i h)
     | .wait => false
     | _ => true)
/-- The port an instruction takes in its cycle (15 R369): 1 the vector ALU, 2 memory, 3 engines; 4 marks an engine's
instruction of class 0xA. -/
def issuePort (i : Instr) : List Nat :=
  let c := classOf i
  if 1 ≤ c && c ≤ 4 then [1]
  else if c == 0xA then [3, 4]
  else if c == 0xB || c == 0xC || opcodeOfInstr i == 0x208 then [3]
  else if c == 7 || c == 8 then [2] else []
/-- What a partition has issued in this cycle. -/
def useOf (s : State) (c p : Nat) : CycleUse :=
  (s.uses.find? (fun u => u.core == c && u.part == p)).getD { core := c, part := p, issuers := [], ready := [], gangs := [], threads := [], pair := none, ports := [], tried := [] }
/-- A partition issues at most two instructions in a cycle, one to each port (15 R369). An engine's instruction of P(2m) comes
before that of P(2m + 1) in the same cycle, so after the latter it waits for the next (18 R396). DEDUCED, log 14. -/
def hasRoom (s : State) (c p : Nat) (i : Instr) : Bool :=
  let u := useOf s c p
  u.issuers.length < 2 && !(issuePort i).any (fun x => u.ports.contains x) &&
    !(p % 2 == 0 && classOf i == 0xA && (useOf s c (p + 1)).ports.contains 4)
/-- A thread issues once in a cycle, but for the second slot of a pair, which issues for the same group (03 R80, 15 R369). -/
def freshIssue (s : State) (c gid p : Nat) (g : Group) : Bool :=
  let u := useOf s c p
  if u.pair == some gid then g.members.all u.threads.contains else !g.members.any u.threads.contains
/-- Slots j and j + 1 issue together (03 R80): the group has gone on to slot j + 1 and may issue in this cycle. A slot that is
itself the second of a pair and was entered by a branch issues alone (03 R77). -/
def pairs (t : State) (c gid : Nat) (l : Line) (i : Instr) (pc : W64) (branched : Bool) : Bool :=
  linePair l (pcSlot pc) && !(branched && 1 ≤ pcSlot pc && linePair l (pcSlot pc - 1)) && classOf i != 0 && (match hdrOfInstr i with | some h => h.stall == 0 | none => false) &&
    (tfind t.groups gid).any (fun g => g.pc == pc + 12 && !g.branched && mayIssue t c g)
/-- Count an issue of group `gid` of a partition: what it takes of the cycle, the groups it passes over (01 R37), and
what may still issue in the cycle: the second of a pair, another group, or nothing (15 R369). -/
def recordUse (before : State) (c gid p : Nat) (members : List Nat) (ports : List Nat) (second : Bool) (t : State) : State :=
  let slots := dedup (members.map slotOf)
  let u := useOf before c p
  let passed := (before.groups.filter (fun x => x.1 != gid && x.2.members.any (fun t => slots.contains (slotOf t)) &&
    groupReady before c x.2)).map (fun x => x.1)
  let u : CycleUse := { u with
    issuers := u.issuers ++ [gid], ready := dedup (u.ready ++ passed), gangs := dedup (u.gangs ++ slots)
    threads := u.threads ++ members, pair := if second && u.issuers.isEmpty then some gid else none, ports := u.ports ++ ports }
  let uses := u :: t.uses.filter (fun x => !(x.core == c && x.part == p))
  let others := t.turn.filter (fun x => match x with
    | .issue c' g => !(c' == c && (u.issuers.contains g || (1 < u.issuers.length &&
        ((tfind t.groups g).bind (fun x => x.members.head?.map (fun m => partOf (slotOf m)))) == some p)))
    | _ => true)
  { t with uses := uses, turn := if second && u.issuers.length < 2 then .issue c gid :: others else others }

/-- The page of an entry is not present: each gang's threads park there, and the check waits for the page (12 R321). -/
def parkEntry (s : State) (gid : Nat) (g : Group) (handler : Bool) : State :=
  let r := s.parkLanes g.core 2 (g.members.map (fun t => (t, g.pc)))
  ((r.1.modGroup gid (fun x => { x with toEnter := some handler })).dispose gid g.pc r.2).bump
/-- The line of an entry may have come: its target mask is checked (03 R76). A fetch that faults leaves the group at the
entry, where the fault is raised, but a transfer to a handler fails with it (16 R376). -/
def enterGroup (s : State) (gid : Nat) (g : Group) (handler : Bool) : State :=
  let go := fun (s : State) => s.modGroup gid (fun x => { x with status := .ready, toEnter := none })
  match fetchGroup s g with
  | (.wait, s) => s
  | (.ok l, s) =>
    if lineTarget l (pcSlot g.pc) then go s
    else if handler then failEntry s gid g 0x05
    else (s.dispose gid g.pc (g.members.map (fun t => (t, Disp.trap 0x05 g.pc)))).bump
  | (.fault code _, s) => if handler then failEntry s gid g code else go s
  | (.notPresent, s) => parkEntry s gid g handler
/-- A group at an entry whose line it waits for. -/
def waitsEntry (s : State) (g : Group) : Option Bool :=
  match g.status with
  | .entering h => if coresRun s && (s.core g.core).powered && !(s.core g.core).leaving && !g.members.any (threadStopped s) then some h else none
  | _ => none

/-- The groups of a partition in the order of 15 R369. -/
def issueOrder (s : State) (c p : Nat) : List Nat :=
  let mine := s.groups.filter (fun x => x.2.core == c && x.2.members.head?.elim false (fun t => partOf (slotOf t) == p) && mayIssue s c x.2)
  let grant := fun (x : Nat × Group) => ((s.core c).leases.filter (fun l => l.holder.any (fun t => x.2.members.contains t) && !l.revoked)).map (fun l => l.granted)
  let age := fun (x : Nat × Group) => (x.2.members.map (fun t => (s.gang (slotOf t)).age)).foldl min (2 ^ 64)
  let byPc := sortBy (fun x => x.2.pc.toNat) mine
  let inGang := sortBy (fun x => if x.2.prio.isSome then 0 else if x.2.yielded then 2 else 1) byPc
  let aged := sortBy age (inGang.filter (fun x => (grant x).isEmpty))
  let held := sortBy (fun x => (grant x).foldl min (2 ^ 64)) (byPc.filter (fun x => !(grant x).isEmpty))
  (held ++ aged).map (fun x => x.1)

/-- A group could issue in what is left of the cycle and has not been tried. -/
def candidate (s : State) (c p gid : Nat) : Bool :=
  let u := useOf s c p
  !u.issuers.contains gid && !u.tried.contains gid && (tfind s.groups gid).any (fun g =>
    groupReady s c g && freshIssue s c gid p g && (match (fetchGroup s g).1 with
      | .ok l => hasRoom s c p (instrAt l g.pc)
      | _ => true))
/-- Another group comes first in the order of 15 R369: a group's turn is not yet. The second slot of a pair follows the
first. -/
def waitsTurn (s : State) (c p gid : Nat) : Bool :=
  (useOf s c p).pair != some gid && ((issueOrder s c p).takeWhile (fun x => x != gid)).any (candidate s c p)
/-- A group that was tried and could not issue leaves the cycle to those after it. -/
def recordTry (c p gid : Nat) (t : State) : State :=
  let u := useOf t c p
  { t with uses := { u with tried := u.tried ++ [gid] } :: t.uses.filter (fun x => !(x.core == c && x.part == p)) }

/-- Issue one group's next instruction: the fetch, the merge at a marked slot, then `exec`. -/
def issueGroup (c gid : Nat) (s : State) : Host.Outcome State Fault Refusal :=
  match tfind s.groups gid with
  | none => .next s
  | some g0 =>
    if let some h := waitsEntry s g0 then .next (if g0.core == c then enterGroup s gid g0 h else s)
    else if !mayIssue s c g0 || (issuePart s g0).isEmpty || waitsTurn s c (g0.members.head?.elim 0 (fun t => partOf (slotOf t))) gid ||
        1 < (useOf s c (g0.members.head?.elim 0 (fun t => partOf (slotOf t)))).issuers.length then .next s
    else
      let s1 := isolate s gid g0
      let g := (tfind s1.groups gid).getD g0
      let p := g.members.head?.elim 0 (fun t => partOf (slotOf t))
      match fetchGroup s1 g with
      | (.ok l, s2) =>
        let i := instrAt l g.pc
        let merged := if lineTarget l (pcSlot g.pc) then s2.mergeHere gid g else s2
        -- a merged group splits by gang at a gang-pure instruction (01 R16)
        let s3 := if laneLocal i then merged else merged.splitByGang gid ((tfind merged.groups gid).getD g)
        if !(tfind s3.groups gid).any (fun x => mayIssue s3 c x && freshIssue s3 c gid p x) || !hasRoom s3 c p i then .next s3
        else
          match exec i { s3 with cur := some (c, gid) } with
          | .next t =>
            let x := (tfind s3.groups gid).getD g
            .next (if t.issued == s3.issued then recordTry c p gid t
                   else recordUse s3 c gid p x.members (issuePort i) (pairs t c gid l i x.pc x.branched) t)
          | o => o
      | (f, s2) =>
        let t := if freshIssue s2 c gid p g then fetchStop s2 gid g f else s2
        .next (if t.issued == s2.issued then recordTry c p gid t else recordUse s2 c gid p g.members [] false t)

end Sys2Proof.Machine
end

