-- ==== Sys2Proof/Machine/Cycle.lean ====
section
/-!
DEFINITION. Time and the order of events when no schedule is given: one core cycle with its timers (00 R6, 15 R370), and
what is due in it. Every order that the spec leaves open is a choice of `State.agenda`; `dues` is one of them.
-/

namespace Sys2Proof.Machine

open State

/-- One tick passes in this cycle: 13 cycles are 10 ticks. DEDUCED, log 8. -/
def ticksNow (cycle : Nat) : Bool := 13 ≤ 10 * cycle % 13 + 10
/-- A group's stall and sleep counts. -/
def stepGroup (g : Group) : Group :=
  { g with hold := g.hold - 1, status := match g.status with | .sleep n => .sleep (n - 1) | st => st }
/-- A gang's weir timeouts, and its quantum clock when a tick passes (15 R359, R370). -/
def stepGang (tick : Bool) (g : Gang) : Gang :=
  { g with
    weirs := g.weirs.map (fun w => (w.1, { w.2 with timeout := if 1 < w.2.timeout then w.2.timeout - 1 else w.2.timeout }))
    quantum := if tick then g.quantum + 1 else g.quantum }
/-- One core cycle. -/
def advanceCycle (s : State) : State :=
  let tick := ticksNow s.cycle
  let s := expireWeirs (s.uses.foldl countPassed s)
  mergeAll <| retryHeld { s with
    uses := []
    cycle := s.cycle + 1, time := if tick then s.time + 1 else s.time
    groups := s.groups.map (fun g => (g.1, stepGroup g.2)), gangs := s.gangs.map (fun g => (g.1, stepGang tick g.2)) }
/-- Several cycles. -/
def advance : Nat → State → State
  | 0, s => s
  | n + 1, s => advance n (advanceCycle s)

/-! ### What is due. -/

/-- The event that a message waits for. -/
def messageEvent (id : Nat) (m : Msg) : Instr :=
  match m.body with
  | .read _ => .homeRead id
  | .fill .. => .fill id
  | .register _ => .releaseRecordRegister id
  | .probe _ => .drainProbe id
  | .drainAck => .drainAck id
  | .writeBack .. => .writeBackAck id
  | .leaseWrite .. => .leaseWriteThrough id
  | .revoked _ => .revocationNotice id
  | .red _ _ _ _ held _ => if held then .redRouterHoldExpiry id else .redHomeApply id
  | .regionDrain _ => .regionDrain id

/-- Leases: grants, expiries, implicit ends, revocations. -/
def leaseDues (s : State) : List Instr :=
  (dedup (s.leaseQueue.map (fun q => q.line))).map (fun l => .leaseGrant l) ++
    (s.leaseTab.filter (fun e => ceiling e.2 ≤ s.time)).map (fun e => .leaseRevocation e.1) ++
    s.cores.flatMap (fun k => (k.2.leases.filter (fun l => !l.ending && !l.revoked)).filterMap (fun l =>
      if l.record then some (.leaseExpiry k.1 l.line)
      else if l.holder.isNone then some (.implicitLeaseEnd k.1 l.line)
      else if l.leasemax ≤ s.clockOf k.1 - l.granted then some (.leaseExpiry k.1 l.line) else none))
/-- Engines, jobs, banks. -/
def workDues (s : State) : List Instr :=
  s.cores.flatMap (fun k => (dedup (k.2.jobs.map (fun j => j.channel))).map (fun c => Instr.jobComplete k.1 c) ++
    (k.2.engines.filter (fun e => !e.2.queue.isEmpty)).map (fun e => Instr.matrixComplete k.1 e.1)) ++
    s.mreds.flatMap (fun m => match m.2.phase with
      | 0 => [.mredDispatch m.1]
      | 1 => [.mredWaitPoll m.1, .mredWaitLimit m.1]
      | _ => [.mredComplete m.1])
/-- Weir timeouts at 0: what arrives in the cycle comes first (07 R206). -/
def weirDues (s : State) : List Instr :=
  s.gangs.flatMap (fun g => (g.2.weirs.filter (fun w => w.2.timeout == 1)).map (fun w => .weirTimeout (coreOf g.1) (g.1 % 96) w.1))
/-- Timers of groups and gangs. -/
def timerDues (s : State) : List Instr :=
  (s.groups.filter (fun g => g.2.status == .sleep 0)).map (fun g => .sleepEnd g.2.core g.1) ++
    (s.gangs.filter (fun g => g.2.fairDue)).map (fun g => .fairnessTimerExpiry (coreOf g.1) (g.1 % 96)) ++
    (s.gangs.filter (fun g => let q := s.quantumOf (s.regionOf g.1); q != 0 && q ≤ g.2.quantum)).map (fun g =>
      .quantumExpiry (coreOf g.1) (g.1 % 96))
/-- Memory policy, paging and sampling. -/
def memoryDues (s : State) : List Instr :=
  (s.regionDir.filter (fun d => !d.2.queue.isEmpty)).map (fun d => .regionTransitionApply d.1) ++
    (s.cores.filter (fun k => !k.2.pfQueue.isEmpty)).map (fun k => .pageFaultRecord k.1) ++
    (if migrates s || s.migrations.any (fun m => m.2.step != 0) then
      s.migrations.map (fun m => if m.2.step == 0 then .migrationStart m.1 else .migrationCopy m.1) else []) ++
    (if s.samples.isEmpty then [] else [.sampleRecord]) ++
    (s.channels.filter (fun c => c.2.retraining.isSome)).map (fun c => .channelRetrainDone c.1 true) ++
    (if s.policy.any (fun p => p.started + p.window ≤ s.time) then [.migrationWindowEnd] else [])
/-- The event of a command: its start, or its next step. -/
def commandDues (s : State) : List Instr :=
  s.commands.flatMap (fun c => match c.2.state, c.2.type with
    | 1, _ => [Instr.commandStart c.1]
    | 2, 2 => [.wait c.1, .waitTimeout c.1]
    | 2, 3 => [.signal c.1]
    | 2, 5 => [.emberEnter c.1]
    | 2, 6 | 4, 6 => [.resume c.1]
    | 2, 7 => [.firmware c.1]
    | _, _ => []) ++
    (if s.time % 10 ^ 6 == 0 && s.queues.any (fun q => q.2.enabled) then [.queuePoll] else []) ++
    (if s.time % 10 ^ 6 == 0 && s.peers.any (fun p => p.2.path.isNone) then [.linkRetryTimer] else []) ++
    (if s.warned && s.power == .running && journalFree s then [.supplyWarning] else []) ++
    (if s.supplied && s.power == .ember && journalFree s then [.supplyGood] else [])
/-- Ports whose first hop acknowledges: the flits that wait there (21 R421). DESIGN CHOICE, log 6. -/
def acksDue (s : State) : List Choice := ((List.range 16).filter (fun p => s.unaccepted p && (s.port p).up)).map Choice.flitAck
/-- Launches: RSMP, waiting blocks, pre-emption, restores. -/
def launchDues (s : State) : List Instr :=
  (sortBy (fun l => 2 ^ 16 - s.effPriority l.2.region) s.launches).flatMap (fun l =>
    let next := waitingBlocks l.2
    let rsmp := if l.2.rsmp != .idle then [Instr.rsmpResume l.1]
      else if l.2.header.population && (s.gangs.any (fun g => g.2.launch == l.1 && (rsmpStand s g.1).isSome)) then [.rsmpStageOutComplete l.1] else []
    rsmp ++ next.map (fun b => .blockDispatch l.1 b) ++
      (match next with
       | b :: _ =>
         if (planBlock s (roomOf s) l.2 b).isSome then []
         else match victims s l.1 b with
           | some ks => ks.flatMap (fun k => ((s.block k).parts.take 1).map (fun p => .preemptionRequest p.core [k]))
           | none => []
       | [] => [])) ++
    (s.cores.filter (fun k => !k.2.saving.isEmpty)).map (fun k => .saveComplete k.1) ++
    s.frames.map (fun f => .blockRestore f.1)

/-- Cores and partitions that hold groups, P(2m) before P(2m + 1) (18 R396). -/
def partitions (s : State) : List (Nat × Nat) :=
  sortBy (fun x => 8 * x.1 + x.2) <| dedup (s.groups.filterMap (fun g => g.2.members.head?.map (fun t => (g.2.core, partOf (slotOf t)))))
/-- All that is due in a cycle: events first, then each partition's candidates in their order. DESIGN CHOICE, log 6. -/
def dues (s : State) : List Choice :=
  (s.net.map (fun m => messageEvent m.1 m.2) ++ leaseDues s ++ workDues s ++ timerDues s ++ memoryDues s ++ commandDues s ++
    launchDues s).map Choice.event ++ acksDue s ++
    ((s.groups.filter (fun g => (waitsEntry s g.2).isSome)).map (fun g => Choice.issue g.2.core g.1)) ++
    (partitions s).flatMap (fun p => (issueOrder (fairNow s p.1) p.1 p.2).map (fun g => Choice.issue p.1 g)) ++
    (weirDues s).map Choice.event

/-- An event is well formed: it is no instruction of a core, and its arguments name parts that the device has. DESIGN CHOICE, log 7. -/
def eventOk (i : Instr) : Bool := (hdrOfInstr i).isNone && i.wellFormed
/-- Act on one choice of the schedule. -/
def choose (ch : Choice) (s : State) : Host.Outcome State Fault Refusal :=
  match ch with
  | .wait n => .next (advance n s)
  | .event i => if eventOk i then exec i s else .fault .noSuchEvent
  | .issue c g => issueGroup c g (fairNow s c)
  | .fails w => .next { s with failed := dedup (w :: s.failed) }
  | .corrected source unit location => .next (correctError s source unit location)
  | .flitAck port => .next (flitAck s port)
/-- The next choice: the schedule's, else what is still due in the cycle, else the next cycle begins. DESIGN CHOICE, log 5. -/
def choice (s : State) : Host.Outcome State Fault Refusal :=
  match s.agenda, s.turn with
  | ch :: rest, _ => choose ch { s with agenda := rest }
  | [], ch :: rest => choose ch { s with turn := rest }
  | [], [] => let t := advanceCycle s; .next { t with turn := dues t }
/-- The stores of a step reach memory, and the issue is over. -/
def commit (m : Tab Byte) (t : State) : State := { t with mem := commitWrites m t.writes, writes := [], cur := none }

end Sys2Proof.Machine
end

