-- ==== Sys2Proof/Machine/Step.lean ====
section
/-!
DEFINITION. `step`: one choice of the schedule, its stores committed; and the state whose very next step issues a given
instruction word.
-/

namespace Sys2Proof.Machine

def step (s : State) : Host.Outcome State Fault Refusal :=
  match choice s with
  | .next t => .next (commit s.mem t)
  | .fault f => .fault f
  | .refused r => .refused r

/-- The kernel that `withFetchWord` loads: every register, one weir bank, no window. -/
def fetchHeader : Header :=
  { Header.none with vregs := 384, kregs := 160, weirs := 16, scratch := 786432, accrows := 1024, entries := [0x10000] }
/-- The gang of 32 supervisor threads in slot 0 that runs it. -/
def fetchGang : Gang := { Gang.reset with launch := 1, allocRegs := 400 }
def fetchLane : Lane := { Lane.reset with live := true, status := 1 }

/-- A launch of one gang in slot 0 of core 0 whose group stands at VA 0x10000, with that page's translation and the line
that holds the word in core 0, and a schedule whose next choice is the group's issue. DESIGN CHOICE, log 4. -/
def State.withFetchWord (s : State) (_nbits w : Nat) : State :=
  let line := mkLine [BitVec.ofNat 96 w] 1 0
  let core := { s.core 0 with
    powered := true, leaving := false, saving := []
    tlb := { asid := 0, level := 0, vpn := 1, pte := 0x200FF, pteAt := 0 } :: (s.core 0).tlb
    icache := tput (s.core 0).icache 0x800 line }
  let launch := { Launch.none with seq := 1, header := fetchHeader, nblocks := 1, popsize := 32, nextBlock := 1, ranOn := [0] }
  let part := { BlockPart.none with slots := [0] }
  let group : Group := { core := 0, pc := 0x10000, members := List.range 32, status := .ready, branched := true, loose := false
                         waitCount := 0, yielded := false, hold := 0, prio := none, answers := [] }
  { s with
    cores := tput s.cores 0 core, launches := tput s.launches 1 launch, power := .running
    blocks := tput s.blocks (blockKey 1 0) { Block.none with launch := 1, threads := 32, gangs := 1, parts := [part] }
    gangs := tput s.gangs 0 fetchGang, groups := tput s.groups s.nextId group, nextId := s.nextId + 1
    lanes := (List.range 32).foldl (fun t l => tput t l fetchLane) s.lanes
    regions := tput s.regions 0 Region.none
    agenda := [.issue 0 s.nextId], turn := [], uses := [] }

end Sys2Proof.Machine
end

