-- ==== Sys2Proof/Safety.lean ====
section
/-!
DEFINITION. The terms that claims about the machine use: memory in its canonical form, what a thread reads at a distance
(03 R81), when an instruction executes normally (03 R97), and what changes when its threads go on.
-/

namespace Sys2Proof.Machine

/-- Memory in its canonical form. -/
abbrev Memory.wf (m : Tab Byte) : Prop := canonical 0 m = true
/-- Between steps: memory canonical, every store committed, no issue under way. -/
structure State.Between (s : State) : Prop where
  mem : Memory.wf s.mem
  writes : s.writes = []
  cur : s.cur = none

/-! ### Reading at a distance (03 R81). -/

/-- A thread `d` of distance further on. -/
def Lane.later (l : Lane) (d : Nat) : Lane := { l with nd := l.nd + d }
/-- A thread's vector register, predicate, and pair of vector registers as it reads them `d` of distance further on. -/
def State.vLater (s : State) (u n d : Nat) : W32 := ((s.lane u).later d).vreg n
def State.pLater (s : State) (u n d : Nat) : Bool := ((s.lane u).later d).pred n
/-- A scalar register of a gang as the threads `us` of one group read it `d` of distance further on. -/
def State.kLater (s : State) (us : List Nat) (slot n d : Nat) : W32 := (s.gang slot).kread us (fun t => s.ndOf t + d) n
/-- What is left of a thread and of a gang without registers and distances. -/
def Lane.rest (l : Lane) : Lane := { l with v := [], p := 0, nd := 0, pend := [] }
def Gang.rest (g : Gang) : Gang := { g with k := [], kpend := [] }

/-- What an instruction writes to a register or a predicate: the value and the distance from which it is read. -/
abbrev Write (α : Type) := Option (α × Nat)
/-- A reading at distance `n` after a write: the written value from its distance on, before it `old`. -/
def Write.seen {α : Type} (w : Write α) (n : Nat) (old : α) : α := match w with
  | some (x, l) => if l ≤ n then x else old
  | none => old
/-- `n` consecutive registers from `d` hold the words of `x`, read from distance `l` on. -/
def wordWrites (d n x l : Nat) (r : Nat) : Write W32 :=
  if d ≤ r ∧ r < d + n then some (BitVec.ofNat 32 (x / 2 ^ (32 * (r - d))), l) else none
/-- Nothing is written. -/
def noWrites {α : Type} (_ : Nat) : Write α := none

/-- What threads `ts` read in `t`, having gone on by `stall` since `s`: the vector registers that `v` and the predicates
that `p` say are written, and every other register as before. -/
structure LaneReads (s t : State) (ts : List Nat) (stall : Nat) (v : Nat → Nat → Write W32)
    (p : Nat → Nat → Write Bool) : Prop where
  vregs : ∀ u ∈ ts, ∀ n d, t.vLater u n d = (v u n).seen (stall + d) (s.vLater u n (stall + d))
  preds : ∀ u ∈ ts, ∀ n < 7, ∀ d, t.pLater u n d = (p u n).seen (stall + d) (s.pLater u n (stall + d))
  rest : ∀ u ∈ ts, (t.lane u).rest = (s.lane u).rest
  others : ∀ u, u ∉ ts → t.lane u = s.lane u
/-- What live threads of gangs read of scalar registers in `t`: those among `ts`, which went on by `stall`, and those of
other groups, which read a written register at once (04 R118). -/
structure ScalarReads (s t : State) (ts : List Nat) (stall slot : Nat) (k : Nat → Write W32) : Prop where
  inside : ∀ us, us ≠ [] → (∀ u ∈ us, u ∈ ts) → ∀ n r d,
    t.kLater us n r d = (if n = slot then k r else none).seen (stall + d) (s.kLater us n r (stall + d))
  outside : ∀ us, us ≠ [] → (∀ u ∈ us, (s.lane u).live = true ∧ u ∉ ts) → ∀ n r d,
    t.kLater us n r d = match (if n = slot then k r else none) with | some (x, _) => x | none => s.kLater us n r d
  rest : ∀ n, (t.gang n).rest = (s.gang n).rest

/-- A group after an instruction of header `h` whose threads all stand at `pc`, held back by `st`. -/
def Group.gone (g : Group) (i : Instr) (h : Hdr) (pc : W64) (st : Status) (branched : Bool) : Group :=
  { g with
    pc := pc, status := st, branched := branched, hold := h.stall.toNat, waitCount := 0
    yielded := g.yielded || (h.y || opcodeOfInstr i == 0x007)
    prio := match g.prio with | some n => if n ≤ 1 || st.endsPrio then none else some (n - 1) | none => none
    answers := if pc == g.pc then g.answers else [], flushed := pc == g.pc && g.flushed
    toEnter := if pc == g.pc then g.toEnter else none }
/-- A group but for its yield mark, which another group's issue clears (01 R38). -/
def Group.unyield (g : Group) : Group := { g with yielded := false }
/-- The group stands at `pc`, held back by `st`; every other group is as it was. -/
structure GroupGone (s t : State) (i : Instr) (h : Hdr) (gid : Nat) (g : Group) (pc : W64) (st : Status) (branched : Bool) :
    Prop where
  here : tfind t.groups gid = some (g.gone i h pc st branched)
  there : ∀ k, k ≠ gid → (tfind t.groups k).map Group.unyield = (tfind s.groups k).map Group.unyield

/-- Beside its effect up to `s`, an instruction writes the registers that `v`, `p` and `k` say, its threads went on by its
stall count to `pc`, where `st` holds them back, and nothing else changed. -/
structure Lands (s t : State) (i : Instr) (h : Hdr) (gid : Nat) (g : Group) (v : Nat → Nat → Write W32)
    (p : Nat → Nat → Write Bool) (slot : Nat) (k : Nat → Write W32) (pc : W64) (st : Status) (branched : Bool) : Prop where
  frame : t = { s with lanes := t.lanes, gangs := t.gangs, groups := t.groups, issued := s.issued + 1 }
  lanes : LaneReads s t g.members h.stall.toNat v p
  scalars : ScalarReads s t g.members h.stall.toNat slot k
  group : GroupGone s t i h gid g pc st branched
/-- The threads of a group went on by the instruction's stall count to `pc`, and nothing else changed. -/
abbrev GoesTo (s t : State) (i : Instr) (h : Hdr) (gid : Nat) (g : Group) (pc : W64) (st : Status) (branched : Bool) : Prop :=
  Lands s t i h gid g (fun _ => noWrites) (fun _ => noWrites) 0 noWrites pc st branched
/-- The instruction's only effects are on registers, and its group stands at the next instruction. -/
abbrev Result (s t : State) (i : Instr) (h : Hdr) (gid : Nat) (g : Group) (v : Nat → Nat → Write W32)
    (p : Nat → Nat → Write Bool) (slot : Nat) (k : Nat → Write W32) : Prop :=
  Lands s t i h gid g v p slot k (nextPc g.pc) .ready false

/-- What translation, a fetch and a constant read may change: TLBs and the caches of translations, lines and constants,
accessed and dirty bits, set in bytes of memory, drains of release records, and which lines the L2 slices and the host hold. -/
structure Looked (s t : State) : Prop where
  frame : t = { s with cores := t.cores, writes := t.writes, net := t.net, nextId := t.nextId, drains := t.drains,
                       records := t.records, failed := t.failed, fresh := t.fresh, l2 := t.l2, hostLines := t.hostLines }
  cores : ∀ c, t.core c = { s.core c with tlb := (t.core c).tlb, walks := (t.core c).walks
                                          icache := (t.core c).icache, ccache := (t.core c).ccache }
  bytes : ∀ a, ∃ m : Byte, m &&& 0x3F = 0 ∧ t.byteAt a = s.byteAt a ||| m

/-! ### When an instruction executes normally (03 R97). -/

/-- The gang of a group's first thread. -/
def Group.slot (g : Group) : Nat := g.members.head?.elim 0 slotOf
/-- Group `gid` is listed once, holds live threads of resident gangs, and no other group holds one of them. -/
structure Stands (s : State) (gid : Nat) (g : Group) : Prop where
  group : tfind s.groups gid = some g
  once : ∀ x ∈ s.groups, x.1 = gid → x.2 = g
  some : g.members ≠ []
  nodup : g.members.Nodup
  alone : ∀ x ∈ s.groups, x.1 ≠ gid → ∀ t ∈ g.members, t ∉ x.2.members
  gangs : ∀ t ∈ g.members, (tfind s.gangs (slotOf t)).isSome = true
  live : ∀ t ∈ g.members, (s.lane t).live = true
/-- Group `gid` of core `c` is the one that issues `i`, with its header `h`, for all its threads at once. -/
structure Issues (s : State) (i : Instr) (h : Hdr) (c gid : Nat) (g : Group) : Prop where
  cur : s.cur = some (c, gid)
  header : hdrOfInstr i = some h
  stands : Stands s gid g
  ready : g.status = .ready
  hold : g.hold = 0
  oneGang : laneLocal i = true ∨ ∀ t ∈ g.members, slotOf t = g.slot
  gathered : gathers i = true → ∀ x ∈ s.groups, State.arrivedIn gid g.slot g.pc x = false
/-- The registers an instruction names for a group: those of its fields, and those it names through others (03 R81, R83). -/
def State.operandsOf (s : State) (i : Instr) (h : Hdr) (g : Group) : List RegRef :=
  State.regsOf i h ++ s.namedRegs g.members g.slot i
/-- And no check stops it. -/
structure Clear (s : State) (i : Instr) (h : Hdr) (c gid : Nat) (g : Group) : Prop extends Issues s i h c gid g where
  legal : illegal (s.headerOf g.slot) i = false
  privilege : privileged i = true → ∀ t ∈ g.members, s.prvOf t = true
  fields : fieldFault (s.headerOf g.slot) (partOf g.slot) i = none
  free : s.waitsFor g.members g.slot i h = false
  reached : ((s.headerOf g.slot).check || (s.core c).check) = true →
    ∀ t ∈ g.members, s.scoreboard t (s.operandsOf i h g) = none
  sound : ∀ t ∈ g.members, ∀ n, FailedWord.vreg t n ∉ s.failed
/-- The issue's context then: every thread of the group acts where its guard holds. -/
def State.issueCtx (s : State) (i : Instr) (h : Hdr) (c gid : Nat) (g : Group) : State.Ctx := s.ctxOf i h c gid g g.members

/-- Threads `ts`, one after another, reach `pc` by a transfer: it is a canonical address of a slot, and the line that each
thread's fetch gives marks the slot as a target (03 R76). `s1` is the state after the fetches. -/
def State.Reaches (s : State) : List Nat → W64 → State → Prop
  | [], _, s1 => s1 = s
  | u :: us, pc, s1 => canonicalVa pc = true ∧ pcOk pc = true ∧
      ∃ l s', fetchLine s (s.who u) pc = (.ok l, s') ∧ lineTarget l (pcSlot pc) = true ∧ s'.Reaches us pc s1
/-- Threads `ts`, one after another, take an exception to the handler at `vec`, thread `u` with EADDR `ea u` (16
R376). -/
def State.Enters (s : State) : List Nat → (vec epc : W64) → Nat → (Nat → W64) → State → Prop
  | [], _, _, _, _, s1 => s1 = s
  | u :: us, vec, epc, code, ea, s1 =>
    s.entryFails u = false ∧
      ∃ s', s.enterHandler u epc code (ea u) = (some (vec, .ready), s') ∧ s'.Enters us vec epc code ea s1
/-- A group that took an exception instead of issuing stands at the handler; nothing else changed beside the entries. -/
structure Trapped (s t : State) (gid : Nat) (g : Group) (vec : W64) : Prop where
  frame : t = { s with groups := t.groups, issued := s.issued + 1 }
  here : tfind t.groups gid = some { g with
    pc := vec, status := .ready, branched := true, answers := if vec == g.pc then g.answers else []
    flushed := vec == g.pc && g.flushed, toEnter := if vec == g.pc then g.toEnter else none }
  there : ∀ k, k ≠ gid → tfind t.groups k = tfind s.groups k
/-- A thread stands in a ready group at `pc`. -/
def State.StandsAt (s : State) (u : Nat) (pc : W64) : Prop :=
  ∃ k g, tfind s.groups k = some g ∧ u ∈ g.members ∧ g.pc = pc ∧ g.status = .ready

/-- What the threads whose guard holds write. -/
def State.byGuard {α : Type} (s : State) (h : Hdr) (w : Nat → Nat → Write α) (u n : Nat) : Write α :=
  if s.acts h u then w u n else none
/-- The sources of an instruction can be read: `v u` are thread u's values, and `s1` is the state after the reads. With
no thread whose guard holds, nothing is read. -/
def State.Operands (s : State) (cx : State.Ctx) (ts : List Nat) (srcs : List Src) (opnd : BitVec 20) (v : Nat → List Nat)
    (s1 : State) : Prop :=
  if cx.act = [] then s1 = s
  else s.readers cx srcs = [cx.act] ∧ s.readSrcs cx ts opnd srcs = (none, v, s1)
/-- A predicate written; predicate 7 discards (01 R10). -/
def predWrites (d : Nat) (x : Bool) (l n : Nat) : Write Bool := if n = d then some (x, l) else none

/-! ### Rows of the instruction tables: sources, registers of D, latency, and the result of the sources' values. -/

structure LaneRow where
  h : Hdr
  f : FmtA
  srcs : List Src
  regs : Nat
  lat : Nat
  val : List Nat → Nat
structure PredRow where
  h : Hdr
  f : FmtA
  srcs : List Src
  lat : Nat
  val : List Nat → Bool

/-- The first, second and third operand as integers of the type (02 R43). -/
def opA (f : FmtA) (v : List Nat) : Int := tyVal f.ty (v.getD 0 0)
def opB (f : FmtA) (v : List Nat) : Int := tyVal f.ty (v.getD 1 0)
def opC (f : FmtA) (v : List Nat) : Int := tyVal f.ty (v.getD 2 0)
/-- Integer arithmetic: the exact result, wrapped or clamped to the type (05 R130-R137). -/
def integerRow : Instr → Option LaneRow
  | .iadd h f => some ⟨h, f, [tyA f, tyB f], wideRegs f, 4, fun v => tyResult f.ty f.sat (opA f v + opB f v)⟩
  | .isub h f => some ⟨h, f, [tyA f, tyB f], wideRegs f, 4, fun v => tyResult f.ty f.sat (opA f v - opB f v)⟩
  | .imul h f => some ⟨h, f, [tyA f, tyB f], wideRegs f, 6, fun v => tyResult f.ty f.sat (opA f v * opB f v)⟩
  | .imulh h f => some ⟨h, f, [tyA f, tyB f], wideRegs f, 6,
      fun v => tyResult f.ty f.sat (opA f v * opB f v / 2 ^ tyWidth f.ty)⟩
  | .imad h f => some ⟨h, f, [tyA f, tyB f, tyC f], wideRegs f, 6,
      fun v => tyResult f.ty f.sat (opA f v * opB f v + opC f v)⟩
  | .imadw h f => some ⟨h, f, [srcA f 1 (.int 32), srcB f 1 (.int 32), srcC f 2 (.int 64)], 2, 6, fun v =>
      let wide : BitVec 5 := if tySigned f.ty then 7 else 3
      tyResult wide f.sat (opA f v * opB f v + tyVal wide (v.getD 2 0))⟩
  | .imin h f => some ⟨h, f, [tyA f, tyB f], wideRegs f, 4, fun v => tyResult f.ty f.sat (min (opA f v) (opB f v))⟩
  | .imax h f => some ⟨h, f, [tyA f, tyB f], wideRegs f, 4, fun v => tyResult f.ty f.sat (max (opA f v) (opB f v))⟩
  | .iabs h f => some ⟨h, f, [tyA f], wideRegs f, 4, fun v => tyResult f.ty f.sat ((opA f v).natAbs : Int)⟩
  | .ineg h f => some ⟨h, f, [tyA f], wideRegs f, 4, fun v => tyResult f.ty f.sat (-opA f v)⟩
  | .idot4 h f => some ⟨h, f, [tyA f, tyB f, tyC f], 1, 6, fun v =>
      let a := fun i => byteVal (f.mods.getLsbD 1) (v.getD 0 0) i
      let b := fun i => byteVal (f.mods.getLsbD 0) (v.getD 1 0) i
      tyResult f.ty f.sat (opC f v + a 0 * b 0 + a 1 * b 1 + a 2 * b 2 + a 3 * b 3)⟩
  | .isad h f => some ⟨h, f, [tyA f, tyB f, tyC f], wideRegs f, 4,
      fun v => tyResult f.ty f.sat (((opA f v - opB f v).natAbs : Int) + opC f v)⟩
  | _ => none

/-- Logic, shifts, fields, moves: a result of the type's width (05 R138-R148). -/
def logicRow : Instr → Option LaneRow
  | .and h f => some ⟨h, f, [tyA f, tyB f], wideRegs f, 4, fun v => (v.getD 0 0 &&& v.getD 1 0) % 2 ^ tyWidth f.ty⟩
  | .or h f => some ⟨h, f, [tyA f, tyB f], wideRegs f, 4, fun v => (v.getD 0 0 ||| v.getD 1 0) % 2 ^ tyWidth f.ty⟩
  | .xor h f => some ⟨h, f, [tyA f, tyB f], wideRegs f, 4, fun v => (v.getD 0 0 ^^^ v.getD 1 0) % 2 ^ tyWidth f.ty⟩
  | .andn h f => some ⟨h, f, [tyA f, tyB f], wideRegs f, 4, fun v =>
      (v.getD 0 0 &&& (2 ^ tyWidth f.ty - 1 - v.getD 1 0 % 2 ^ tyWidth f.ty)) % 2 ^ tyWidth f.ty⟩
  | .not h f => some ⟨h, f, [tyA f], wideRegs f, 4, fun v => 2 ^ tyWidth f.ty - 1 - v.getD 0 0 % 2 ^ tyWidth f.ty⟩
  | .blog h f => some ⟨h, f, [tyA f, tyB f, tyC f], wideRegs f, 4, fun v => ofBits (tyWidth f.ty) (fun i =>
      f.opnd.getLsbD (12 + ((v.getD 0 0).testBit i).toNat + 2 * ((v.getD 1 0).testBit i).toNat +
        4 * ((v.getD 2 0).testBit i).toNat)) % 2 ^ tyWidth f.ty⟩
  | .shl h f => some ⟨h, f, [tyA f, cntB f], wideRegs f, 4, fun v =>
      if tyWidth f.ty ≤ v.getD 1 0 then 0 else v.getD 0 0 * 2 ^ v.getD 1 0 % 2 ^ tyWidth f.ty⟩
  | .shr h f => some ⟨h, f, [tyA f, cntB f], wideRegs f, 4, fun v =>
      if tyWidth f.ty ≤ v.getD 1 0 then 0 else v.getD 0 0 % 2 ^ tyWidth f.ty / 2 ^ v.getD 1 0 % 2 ^ tyWidth f.ty⟩
  | .sar h f => some ⟨h, f, [tyA f, cntB f], wideRegs f, 4, fun v =>
      sarBits (tyWidth f.ty) (v.getD 0 0) (v.getD 1 0) % 2 ^ tyWidth f.ty⟩
  | .rot h f => some ⟨h, f, [tyA f, cntB f], wideRegs f, 4, fun v =>
      rotBits (tyWidth f.ty) (v.getD 0 0) (v.getD 1 0) % 2 ^ tyWidth f.ty⟩
  | .fshf h f => some ⟨h, f, [tyA f, tyB f, tyC f], wideRegs f, 4, fun v =>
      let w := v.getD 0 0 % 2 ^ 32 * 2 ^ 32 + v.getD 1 0 % 2 ^ 32
      (if f.mods.getLsbD 0 then w * 2 ^ (v.getD 2 0 % 32) / 2 ^ 32 % 2 ^ 32 else w / 2 ^ (v.getD 2 0 % 32) % 2 ^ 32) %
        2 ^ tyWidth f.ty⟩
  | .bfe h f => some ⟨h, f, [tyA f, cntB f], wideRegs f, 4, fun v =>
      bfe (tySigned f.ty) (tyWidth f.ty) (v.getD 0 0) (v.getD 1 0) % 2 ^ tyWidth f.ty⟩
  | .bfi h f => some ⟨h, f, [tyA f, cntB f, tyC f], wideRegs f, 4, fun v =>
      bfi (tyWidth f.ty) (v.getD 0 0) (v.getD 1 0) (v.getD 2 0) % 2 ^ tyWidth f.ty⟩
  | .popc h f => some ⟨h, f, [tyA f], 1, 4, fun v => (List.range (tyWidth f.ty)).countP (v.getD 0 0).testBit⟩
  | .clz h f => some ⟨h, f, [tyA f], 1, 4, fun v => leadingZeros (tyWidth f.ty) (v.getD 0 0)⟩
  | .brev h f => some ⟨h, f, [tyA f], wideRegs f, 4, fun v =>
      ofBits (tyWidth f.ty) (fun i => (v.getD 0 0).testBit (tyWidth f.ty - 1 - i)) % 2 ^ tyWidth f.ty⟩
  | .lea h f => some ⟨h, f, [srcA f 2 (.int 64), cntB f], 2, 4, fun v =>
      wrap 64 ((v.getD 0 0 : Int) + opB f v * 2 ^ f.mods.toNat)⟩
  | .mov h f => some ⟨h, f, [tyA f], wideRegs f, 4, fun v => v.getD 0 0 % 2 ^ tyWidth f.ty⟩
  | .bswz h f => some ⟨h, f, [tyA f, tyB f, tyC f], wideRegs f, 4, fun v =>
      swizzle (v.getD 0 0) (v.getD 1 0) (v.getD 2 0) % 2 ^ tyWidth f.ty⟩
  | _ => none

/-- Comparisons into a predicate (05 R143, R153). -/
def compareRow : Instr → Option PredRow
  | .icmp h f => some ⟨h, f, [tyA f, tyB f], 4, fun v => cond f.mods.toNat (opA f v) (opB f v)⟩
  | .fcmp h f => some ⟨h, f, [tyA f, tyB f], 5, fun v =>
      fcond (f.mods.toNat % 8) (foperand (tyFmt f.ty) (ftzOf f) (v.getD 0 0))
        (foperand (tyFmt f.ty) (ftzOf f) (v.getD 1 0))⟩
  | _ => none

/-- Float arithmetic on the elements of the type, an exact value rounded once (05 R150). -/
def perElement (f : FmtA) (op : List FVal → FVal) : List Nat → Nat :=
  perElem f.ty (fun v => fround (tyFmt f.ty) f.rnd.toNat 0 f.sat (ftzOf f) (op (v.map (foperand (tyFmt f.ty) (ftzOf f)))))
/-- The nine functions of 05 R157, correctly rounded. -/
def perFunction (f : FmtA) (op : List FVal → FnVal) : List Nat → Nat := fun v =>
  roundFn (tyFmt f.ty) f.rnd.toNat f.sat (ftzOf f) (op (v.map (foperand (tyFmt f.ty) (ftzOf f))))
/-- Float arithmetic (05 R149-R156, R159, R163, R164). -/
def floatRow : Instr → Option LaneRow
  | .fadd h f => some ⟨h, f, [tyA f, tyB f], 1, 5, perElement f fun v => fadd f.rnd.toNat (v0 v) (v1 v)⟩
  | .fmul h f => some ⟨h, f, [tyA f, tyB f], 1, 5, perElement f fun v => fmul (v0 v) (v1 v)⟩
  | .ffma h f => some ⟨h, f, [tyA f, tyB f, tyC f], 1, 5, perElement f fun v =>
      fadd f.rnd.toNat (fmul (v0 v) (v1 v)) (v2 v)⟩
  | .fmin h f => some ⟨h, f, [tyA f, tyB f], 1, 5, perElement f fun v => fminNum (v0 v) (v1 v)⟩
  | .fmax h f => some ⟨h, f, [tyA f, tyB f], 1, 5, perElement f fun v => fmaxNum (v0 v) (v1 v)⟩
  | .fclass h f => some ⟨h, f, [tyA f], 1, 5, fun v =>
      2 ^ fclassBit (tyFmt f.ty) (foperand (tyFmt f.ty) (ftzOf f) (v.getD 0 0))⟩
  | .fdot2 h f => some ⟨h, f, [tyA f, tyB f, srcC f 1 .f32], 1, 6, fun v =>
      let e := fun (n i : Nat) => foperand (tyFmt f.ty) (ftzOf f) (v.getD n 0 / 2 ^ (16 * i) % 2 ^ 16)
      let sum := fadd f.rnd.toNat (fmul (e 0 0) (e 1 0)) (fmul (e 0 1) (e 1 1))
      fround f32 f.rnd.toNat 0 f.sat (ftzOf f) (fadd f.rnd.toNat sum (foperand f32 (ftzOf f) (v.getD 2 0)))⟩
  | .fscale h f => some ⟨h, f, [tyA f, srcB f 1 (.int 32)], 1, 5, fun v =>
      fround (tyFmt f.ty) f.rnd.toNat 0 f.sat (ftzOf f)
        (fscale (foperand (tyFmt f.ty) (ftzOf f) (v.getD 0 0)) (signed 32 (v.getD 1 0)))⟩
  | .frnd h f => some ⟨h, f, [tyA f], 1, 6, perElement f fun v => frnd f.rnd.toNat (v0 v)⟩
  | .pack h f =>
    let imm : ImmKind := if f.ty == 8 then .int 32 else .f32
    let half := fun (x : Nat) => if f.ty == 8 then x % 2 ^ 16
      else fround (tyFmt f.ty) f.rnd.toNat 0 f.sat (ftzOf f) (foperand f32 (ftzOf f) x)
    some ⟨h, f, [srcA f 1 imm, srcB f 1 imm], 1, 6, fun v => half (v.getD 0 0) + half (v.getD 1 0) * 2 ^ 16⟩
  | .unpk h f => some ⟨h, f, [tyA f], 1, 6, fun v =>
      let n := f.mods.toNat % 8
      if f.ty == 8 then (if n < 4 then v.getD 0 0 / 2 ^ (8 * n) % 256 else v.getD 0 0 / 2 ^ (16 * (n - 4)) % 2 ^ 16)
      else fround f32 0 0 false false (foperand (tyFmt f.ty) (ftzOf f) (v.getD 0 0 / 2 ^ (16 * n)))⟩
  | _ => none
/-- The special functions (05 R157, 02 R67): variable latency. -/
def functionRow : Instr → Option LaneRow
  | .frcp h f => some ⟨h, f, [tyA f], 1, 0, perFunction f fun v => .exact (fnRcp (v0 v))⟩
  | .frsq h f => some ⟨h, f, [tyA f], 1, 0, perFunction f fun v => .exact (fnRsq (v0 v))⟩
  | .fsqrt h f => some ⟨h, f, [tyA f], 1, 0, perFunction f fun v => .exact (fnSqrt (v0 v))⟩
  | .fdiv h f => some ⟨h, f, [tyA f, tyB f], 1, 0, perFunction f fun v => .exact (fnDiv (v0 v) (v1 v))⟩
  | .fex2 h f => some ⟨h, f, [tyA f], 1, 0, perFunction f fun v => fnEx2 (v0 v)⟩
  | .flg2 h f => some ⟨h, f, [tyA f], 1, 0, perFunction f fun v => fnLg2 (v0 v)⟩
  | .fsin h f => some ⟨h, f, [tyA f], 1, 0, perFunction f fun v => fnSin (v0 v)⟩
  | .fcos h f => some ⟨h, f, [tyA f], 1, 0, perFunction f fun v => fnCos (v0 v)⟩
  | .ftanh h f => some ⟨h, f, [tyA f], 1, 0, perFunction f fun v => fnTanh (v0 v)⟩
  | _ => none

/-- The 32-bit number that a thread's `j`-th next draw gives, its random counter `j` further on (02 R52). -/
def State.drawNo (s : State) (u j : Nat) : W32 :=
  drawOf (s.launch (s.gang (slotOf u)).launch).seed ((s.lane u).lineage.extractLsb' 48 16) (s.lane u).popindex
    ((s.lane u).rng + BitVec.ofNat 24 j)
/-- The random counters of threads after `n` draws each. -/
def State.drawn (s : State) (ts : List Nat) (n : Nat) : State :=
  ts.foldl (fun s u => s.modLane u (fun l => { l with rng := l.rng + BitVec.ofNat 24 n })) s

/-- Rows of class 0x5: the result in thread `t` from the values `x` of A in the threads and Src(B) = `b` of `t`, for the
group's threads, those whose guard holds, and the gang's slot. -/
structure CrossRow where
  h : Hdr
  f : FmtA
  srcs : List Src
  regs : Nat
  val : (ts act : List Nat) → (slot : Nat) → (x : Nat → Nat) → (b t : Nat) → Nat
def crossRow : Instr → Option CrossRow
  | .lxch h f => some ⟨h, f, [cntB f], wideRegs f, fun ts _ slot x b t =>
      let j := 32 * slot + (lxchLane f (laneOf t) b).getD (laneOf t)
      if j ∈ ts then x j else 0⟩
  | .bcast h f => some ⟨h, f, [cntB f], wideRegs f, fun ts _ slot x b _ =>
      if 32 * slot + b % 32 ∈ ts then x (32 * slot + b % 32) else 0⟩
  | .redux h f => if f.mods.getLsbD 5 then none else
      some ⟨h, f, [], wideRegs f, fun _ act _ x _ _ => combine f (act.map x)⟩
  | .scan h f => some ⟨h, f, [], wideRegs f, fun _ act _ x _ t =>
      combine f ((act.filter (fun u => if f.mods.getLsbD 3 then u < t else u ≤ t)).map x)⟩
  | .eqmask h f => some ⟨h, f, [], 1, fun _ act _ x _ t =>
      (laneMask (act.filter (fun j => if f.mods.getLsbD 0 then !act.any (fun u => u < j && x u == x j) else x j == x t))).toNat⟩
  | _ => none

/-- Rows of class 0x6 whose result is for the gang (04 R118-R126). -/
structure ScalarRow where
  h : Hdr
  f : FmtA
  srcs : List Src
  regs : Nat
  val : List Nat → Nat
def scalarRow : Instr → Option ScalarRow
  | .smov h f => some ⟨h, f, [tyA f], wideRegs f, fun v => v.getD 0 0⟩
  | .sadd h f => some ⟨h, f, [tyA f, tyB f], wideRegs f, fun v => tyResult f.ty f.sat (opA f v + opB f v)⟩
  | .ssub h f => some ⟨h, f, [tyA f, tyB f], wideRegs f, fun v => tyResult f.ty f.sat (opA f v - opB f v)⟩
  | .smul h f => some ⟨h, f, [tyA f, tyB f], wideRegs f, fun v => tyResult f.ty f.sat (opA f v * opB f v)⟩
  | .smad h f => some ⟨h, f, [tyA f, tyB f, tyC f], wideRegs f, fun v => tyResult f.ty f.sat (opA f v * opB f v + opC f v)⟩
  | .sand h f => some ⟨h, f, [tyA f, tyB f], wideRegs f, fun v => v.getD 0 0 &&& v.getD 1 0⟩
  | .sor h f => some ⟨h, f, [tyA f, tyB f], wideRegs f, fun v => v.getD 0 0 ||| v.getD 1 0⟩
  | .sxor h f => some ⟨h, f, [tyA f, tyB f], wideRegs f, fun v => v.getD 0 0 ^^^ v.getD 1 0⟩
  | .sshl h f => some ⟨h, f, [tyA f, cntB f], wideRegs f, fun v => shlBits (tyWidth f.ty) (v.getD 0 0) (v.getD 1 0)⟩
  | .sshr h f => some ⟨h, f, [tyA f, cntB f], wideRegs f, fun v =>
      if tySigned f.ty then sarBits (tyWidth f.ty) (v.getD 0 0) (v.getD 1 0) else shrBits (tyWidth f.ty) (v.getD 0 0) (v.getD 1 0)⟩
  | .scmp h f => some ⟨h, f, [tyA f, tyB f], 1, fun v => if cond f.mods.toNat (opA f v) (opB f v) then 1 else 0⟩
  | .ssel h f => some ⟨h, f, [tyA f, tyB f, srcC f 1 (.int 32)], wideRegs f, fun v =>
      if v.getD 2 0 = 0 then v.getD 1 0 else v.getD 0 0⟩
  | _ => none
/-- The sources of a scalar instruction can be read for the gang; with no thread whose guard holds, nothing is read. -/
def State.GangOperands (s : State) (cx : State.Ctx) (srcs : List Src) (opnd : BitVec 20) (v : Nat → List Nat) (s1 : State) : Prop :=
  if cx.act = [] then s1 = s else s.readSrcs cx cx.act opnd srcs = (none, v, s1)
/-- What an instruction writes for the gang: nothing when no guard holds (04 R118). -/
def gangWrites (cx : State.Ctx) (w : Nat → Write W32) (n : Nat) : Write W32 := if cx.act = [] then none else w n

/-! ### Accesses to memory. -/

/-- A group that stays at its instruction, held back by `st`; nothing else changed. -/
structure Waits (s t : State) (gid : Nat) (g : Group) (st : Status) : Prop where
  frame : t = { s with groups := t.groups, issued := s.issued + 1 }
  here : tfind t.groups gid = some { g with
    status := st, prio := if st.endsPrio then none else g.prio }
  there : ∀ k, k ≠ gid → tfind t.groups k = tfind s.groups k
/-- Threads `ts`, one after another, access canonical addresses that are multiples of `align`, on pages that grant it:
`accs` are their accesses, and `s1` is the state after the translations (06 R176). -/
def State.Translates (s : State) (acc : Acc) (align : Nat) (va : Nat → W64) : List Nat → List LaneAcc → State → Prop
  | [], accs, s1 => accs = [] ∧ s1 = s
  | u :: us, accs, s1 => canonicalVa (va u) = true ∧ (va u).toNat % align = 0 ∧
      ∃ key pte s' rest, translate s (s.who u) (va u) acc = (.ok key pte, s') ∧ accs = ⟨u, va u, key, pte⟩ :: rest ∧
        s'.Translates acc align va us rest s1
/-- Threads `ts`, one after another, are refused an access by exception `code`: their addresses are not canonical, or no
multiples of `align`, or the translation faults (06 R176). -/
def State.Denies (s : State) (acc : Acc) (align : Nat) (va : Nat → W64) (code : Nat) : List Nat → State → Prop
  | [], s1 => s1 = s
  | u :: us, s1 =>
    (code = 0x11 ∧ canonicalVa (va u) = false ∧ s.Denies acc align va code us s1) ∨
    (code = 0x15 ∧ canonicalVa (va u) = true ∧ (va u).toNat % align ≠ 0 ∧ s.Denies acc align va code us s1) ∨
    (canonicalVa (va u) = true ∧ (va u).toNat % align = 0 ∧
      ∃ s', translate s (s.who u) (va u) acc = (.fault code, s') ∧ s'.Denies acc align va code us s1)
/-- The scales of formatted loads: with `.scl`, each thread's in turn from its scale page (02 R61, R62); without, none. `us`:
the line requests made for them. -/
def State.Scales (s : State) (cx : State.Ctx) (scl : Bool) (accs : List LaneAcc) (es : List (Option (BitVec 8)))
    (us : List LineUse) (s1 : State) : Prop :=
  if scl then accs.foldl (scaleAt cx) ({}, s) = ({ ok := accs.zip es, uses := us }, s1) ∧ es.length = accs.length
  else es = accs.map (fun _ => none) ∧ us = [] ∧ s1 = s
/-- The load of a thread's access: its bytes go to the registers from D. -/
def loadOf (f : FmtM) (scalar : Bool) (conv : LoadConv) (a : LaneAcc) : LaneLoad :=
  { thread := a.thread, dst := f.d.toNat, scalar := scalar, key := a.key, size := accessBytes f, conv := conv }
def formatLoadOf (f : FmtM) (a : LaneAcc) (scale : Option (BitVec 8)) : LaneLoad :=
  ldfLoad f a.thread a.key (pteFormat a.pte) scale
/-- The words of `ws`, in consecutive registers from `d`, readable at once. -/
def listWrites (d : Nat) (ws : List W32) (r : Nat) : Write W32 := if d ≤ r then (ws[r - d]?).map (fun x => (x, 0)) else none
/-- A byte of a core's L1: its value and whether it is dirty. -/
def State.l1Byte (s : State) (c key : Nat) : Option (Byte × Bool) :=
  (s.l1Line c (key / 128)).bind (fun l => tfind l.cells (key % 128))
/-- The byte that the last of some stores leaves at `key`. -/
def storedAt (stores : List (LaneAcc × List Byte)) (key : Nat) : Option Byte :=
  (stores.reverse.find? (fun a => a.1.key ≤ key && key < a.1.key + a.2.length)).bind (fun a => a.2[key - a.1.key]?)
/-- The data of a store of vector registers, and of SST's scalar registers. -/
def State.laneData (s : State) (cx : State.Ctx) (f : FmtM) (u : Nat) : Nat := s.fieldValue cx f.kB f.b (widthRegs f.width) u
def State.gangData (s : State) (cx : State.Ctx) (f : FmtM) : Nat :=
  ofWords ((List.range (widthRegs f.width)).map (fun j => s.kreg cx.ts cx.slot (f.b.toNat + j)))

/-- Scratch accesses: SLD and SST act for the issuer; LDS and STS add an index register, scaled by the access. -/
structure ScratchRow where
  h : Hdr
  f : FmtM
  scalar : Bool
  conv : LoadConv
  index : State → State.Ctx → Nat → Nat
def scratchLoadRow : Instr → Option ScratchRow
  | .ld h f => if f.space = 1 then some ⟨h, f, false, ldConv f, fun _ _ _ => 0⟩ else none
  | .sld h f => if f.space = 0 then none else some ⟨h, f, true, .zext, fun _ _ _ => 0⟩
  | .lds h f => some ⟨h, f, false, ldConv f, fun s cx u => s.fieldValue cx f.kB f.b 1 u * accessBytes f⟩
  | _ => none
structure ScratchStoreRow where
  h : Hdr
  f : FmtM
  scalar : Bool
  data : State → State.Ctx → Nat → Nat
  index : State → State.Ctx → Nat → Nat
def scratchStoreRow : Instr → Option ScratchStoreRow
  | .st h f => if f.space = 0 then none else some ⟨h, f, false, fun s cx u => s.laneData cx f u, fun _ _ _ => 0⟩
  | .sst h f => if f.space = 0 then none else some ⟨h, f, true, fun s cx _ => s.gangData cx f, fun _ _ _ => 0⟩
  | .sts h f => some ⟨h, f, false, fun s cx u => s.laneData cx f u, fun s cx u => s.fieldValue cx f.kB f.c 1 u * accessBytes f⟩
  | _ => none
/-- The scratch of a gang's block on its core, in canonical form: what every run keeps. -/
def State.scratchWf (s : State) (slot : Nat) : Prop := canonical 0 (s.scratchPart slot).scratch = true
/-- Scratch offsets of threads that pass the checks of 01 R29: in the kernel's scratch, aligned, and intact for a read. -/
def State.InScratch (s : State) (cx : State.Ctx) (f : FmtM) (index : Nat → Nat) (reads : Bool) (ts : List Nat) (off : Nat → Nat) :
    Prop :=
  ∀ u ∈ ts, s.scratchCheck (slotOf u) (s.scratchAt cx f (index u) u) (accessBytes f) = .inl (off u) ∧
    (reads = true → s.scratchFailed (slotOf u) (off u) (accessBytes f) = false)
/-- Formatted scratch accesses: the segment's tag gives the element, which lies aligned in the kernel's scratch. -/
def State.FormatInScratch (s : State) (cx : State.Ctx) (f : FmtM) (reads : Bool) (ts : List Nat) (off : Nat → Nat) : Prop :=
  ∀ u ∈ ts, s.scratchAt cx f 0 u = off u ∧ s.scratchTag (slotOf u) (off u) ≠ 0 ∧
    off u % elemSize (s.scratchTag (slotOf u) (off u)) = 0 ∧
    off u + elemSize (s.scratchTag (slotOf u) (off u)) ≤ (s.headerOf (slotOf u)).scratch ∧ off u < (s.headerOf (slotOf u)).scratch ∧
    (reads = true → s.scratchFailed (slotOf u) (off u) (elemSize (s.scratchTag (slotOf u) (off u))) = false)
/-- Window reads of threads, one after another: `n` words from a multiple of `n` each (06 R180). `ws u`: what thread u
reads. -/
def State.ReadsWindow (s0 s : State) (base : W64) (idx : Nat → Nat) (n : Nat) : List Nat → (Nat → List W32) → State → Prop
  | [], _, s1 => s1 = s
  | u :: us, ws, s1 => base ≠ 0 ∧ idx u < 2 ^ 17 ∧ idx u % n = 0 ∧
      ∃ s', constWords s (s0.who u) base (idx u) n = (ws u, none, s') ∧ State.ReadsWindow s0 s' base idx n us ws s1
/-- The write-backs of some lines of a core that are in flight: what CCTL waits for (06 R182). -/
def State.lineWriteBacks (s : State) (c : Nat) (lines : List Nat) : List Nat :=
  s.net.filterMap (fun m => match m.2.body with
    | .writeBack .. => if m.2.core == c && lines.contains m.2.line then some m.1 else none
    | _ => none)
/-- Global accesses that each thread of the group makes: the access, its alignment, its kind for the sampler. -/
def accessRow : Instr → Option (Hdr × FmtM × Acc × Nat × Nat)
  | .ld h f => if f.space = 0 then some (h, f, .read, accessBytes f, 0) else none
  | .st h f => if f.space = 0 then some (h, f, .write, accessBytes f, 1) else none
  | .ldf h f => if f.space = 1 then none else some (h, f, .read, 1, 0)
  | .stf h f => if f.space = 1 then none else some (h, f, .write, 1, 1)
  | .atom h f | .cas h f => some (h, f, .rw, accessBytes f, 2)
  | .red h f => some (h, f, .rw, accessBytes f, 4)
  | .lse h f => some (h, f, .lease, accessBytes f, 3)
  | .stl h f => some (h, f, .write, accessBytes f, 3)
  | .lsend h f => some (h, f, .write, 1, 3)
  | _ => none
/-- The access is marked for the headgate (10 R302); those of a lease are not. -/
def marked : Instr → Bool
  | .ld _ f | .st _ f | .ldf _ f | .stf _ f | .atom _ f | .cas _ f | .red _ f => f.mark
  | _ => false
/-- Every access of a store, an atomic or an LSE lies in a region in state S, and nothing holds the instruction back (07 R208,
10 R299). The bytes of a store only say which of its reductions are older. -/
def InSharedRegion (s : State) (cx : State.Ctx) (i : Instr) (accs : List LaneAcc) : Prop :=
  let stores := fun (f : FmtM) (n : LaneAcc → Nat) =>
    (∀ a ∈ accs, s.storeRoute cx.core cx.gid f.mark a (n a) = .denied) ∧
      s.mayWrite cx.core (accs.map (fun a => a.thread)) (memRel f) (memRel f && s.wideFor cx.act f.scope) = true ∧
      (s.core cx.core).epoch + accs.length < 2 ^ 32
  let atomics := fun (f : FmtM) (red : Bool) (op : Nat) => ∀ a ∈ accs, placeOf s cx.core a red op f.mark = .denied
  s.outstanding cx.core ≤ Config.maxOutstanding ∧
  match i with
  | .st _ f => stores f (fun _ => accessBytes f)
  | .stf _ f => stores f (fun a => elemSize (pteFormat a.pte))
  | .atom _ f => atomics f false f.op.toNat ∧ unitBusy s cx.core ≤ Config.atomicUnit
  | .cas _ f => atomics f false 17 ∧ unitBusy s cx.core ≤ Config.atomicUnit
  | .red _ f => atomics f true f.op.toNat
  | .lse _ _ => ∀ a ∈ accs, leaseTrap s true a = some (a.thread, .trap 0x12 a.va)
  | _ => False
/-- The operations of ATOM, CAS or RED: each thread's, and its place (06 R185, 10 R295, R302). -/
def State.atomics (s : State) (cx : State.Ctx) (f : FmtM) (red : Bool) (op : Nat) (mk : Nat → LaneOp) (accs : List LaneAcc) :
    List (LaneAcc × LaneOp × Place) :=
  accs.map (fun a => (a, { mk a.thread with key := a.key }, placeOf s cx.core a red op f.mark))
/-- The message of a core's reductions of one line (10 R297, R303). -/
def redMsg (c line : Nat) (o : LaneAcc × LaneOp) (ops : List (LaneAcc × LaneOp)) (epoch : Option Nat) (held : Bool) : Msg :=
  { core := c, toHome := true, line := line
    body := .red ((o :: ops).map (fun x => (x.1.key, x.2.operand))) o.2.size o.2.op epoch held
      (dedup ((o :: ops).map (fun x => slotOf x.1.thread))) }
/-- The lines of some operations. -/
def linesOf (ops : List (LaneAcc × LaneOp × Place)) : List Nat := dedup (ops.map (fun o => o.1.key / 128))
/-- The eager part of a release has nothing left to write back but what it writes through itself (10 R283). -/
def State.EagerFree (s : State) (c gid : Nat) (skip : Nat → Bool) : Prop :=
  (tfind s.groups gid).any (fun g => g.flushed) = true ∨
    ((s.core c).pinned = [] ∧ (∀ l ∈ s.dirtyLines c, skip l = true) ∧ s.writeBacks c = [])
/-- A release at die scope or wider may go on at once: its records have epochs, and where it is eager nothing is left (10
R282, R283). -/
def State.ReleaseFree (s : State) (c gid n : Nat) (rel through : Bool) (skip : Nat → Bool) : Prop :=
  rel = true → (s.core c).epoch + n < 2 ^ 32 ∧ (through = true → s.EagerFree c gid skip)
/-- None of the operations of an ATOM or CAS faults or must wait (06 R176, 10 R283, R291, R295). -/
structure AtomicsRun (s : State) (cx : State.Ctx) (f : FmtM) (ops : List (LaneAcc × LaneOp × Place)) : Prop where
  place : ∀ o ∈ ops, placeTrap o.1 o.2.2 = none
  sound : ∀ o ∈ ops, s.dataFault cx.core o.1.key (accessBytes f) (!s.l1Serves cx.core o.1.key (accessBytes f) true) = none
  free : ∀ o ∈ ops, s.lineBusy cx.core (o.1.key / 128) = false ∧ explicitLease s cx.core (o.1.key / 128) = false ∧
    s.pinnedLine cx.core (o.1.key / 128) = false ∧ s.redPending cx.core o.1.key (accessBytes f) = false
  queue : queueRoom s (linesOf ops) = true
  room : unitBusy s cx.core + (linesOf ops).length ≤ Config.atomicUnit ∧
    s.outstanding cx.core + atomicNeeds s cx.core (linesOf ops) (fun l => ops.any (fun o => o.1.key / 128 == l && o.2.2 != .l1)) ≤
      Config.maxOutstanding
  order : s.mayWrite cx.core (ops.map (fun o => o.1.thread)) (memRel f) (memRel f && s.wideFor cx.act f.scope) = true
  release : s.ReleaseFree cx.core cx.gid ops.length (memRel f && s.wideFor cx.act f.scope)
    (ops.any (fun o => o.2.2 != .l1)) (fun _ => false)
/-- The same for RED (10 R297, R303). -/
structure RedsRun (s : State) (cx : State.Ctx) (f : FmtM) (ops : List (LaneAcc × LaneOp × Place)) : Prop where
  place : ∀ o ∈ ops, placeTrap o.1 o.2.2 = none
  sound : ∀ o ∈ ops, o.2.2 ≠ .peer → s.dataFault cx.core o.1.key (accessBytes f) true = none
  free : ∀ o ∈ ops, o.2.2 ≠ .peer → s.lineBusy cx.core (o.1.key / 128) = false ∧ s.pinnedLine cx.core (o.1.key / 128) = false
  fits : s.peerFits ((ops.filter (fun o => o.2.2 == .peer)).map (fun o => (State.peerOf o.1.key, accessBytes f))) = true
  room : s.outstanding cx.core + atomicNeeds s cx.core (linesOf (ops.filter (fun o => o.2.2 != .peer))) (fun _ => true) ≤
    Config.maxOutstanding
  order : s.mayWrite cx.core (ops.map (fun o => o.1.thread)) (memRel f) (memRel f && s.wideFor cx.act f.scope) = true
  release : s.ReleaseFree cx.core cx.gid ops.length (memRel f && s.wideFor cx.act f.scope)
    (ops.any (fun o => o.2.2 != .l1)) (fun _ => false)

/-- The word of an accumulator row after a gang's stream of `n` rows from `base` on: in those rows, when its guard held, the dot
product of the streamed row with the plane's column is added, block by block (07 R214, 02 R68, R69). -/
def State.streamed (s : State) (e : Engine) (slot : Nat) (f : FmtX) (ks : List W32) (sc : List Byte) (acts : Bool) (base n row k : Nat)
    (w : Nat) : Nat :=
  let l := if isB8 f.sfmt then 32 else 16
  if acts ∧ base ≤ row ∧ row < base + n then
    dotInto l (if isB8 f.sfmt then 30 else 40) (streamScale e f ks sc (row - base)) (planeScale e.active k)
      (fdecode f32 (ks.getD 2 0).toNat) (fdecode f32 (ks.getD 3 0).toNat) (64 / l) 0
      ((rowElems s slot (rowsOf ks f.sfmt (rowCount f)) f.sfmt (row - base)).map (elemVal f.sfmt)) (planeColumn e.active k) w % 2 ^ 34
  else w

/-! ### Instructions that issue once for the gang. -/

/-- The rows of a copy of class 0xB: how many, their bytes, strides and multiples at the source and at the destination, and
the index array (08 R229-R232). -/
structure CopyRows where
  n : Nat
  len : Nat
  sst : Nat
  dst : Nat
  ms : Nat → Nat
  md : Nat → Nat
  index : List Span
/-- No older job of the block writes the index array (08 R225). -/
def indexQuiet (s : State) (o : Once) (at' n : Nat) : Bool :=
  !(s.core o.core).jobs.any (fun j => j.block == s.blockOf o.slot && overlaps j.writes [⟨true, at', 4 * n⟩])
def copyRows (s : State) (o : Once) (f : FmtX) : Option CopyRows :=
  match o.instr with
  | .cpy .. =>
    let n := (o.k f.kS.toNat).toNat
    if 16 ≤ n ∧ n ≤ 2 ^ 24 ∧ n % 16 = 0 then some ⟨1, n, 0, 0, fun _ => 0, fun _ => 0, []⟩ else none
  | .cpy2d .. =>
    let k := fun i => (o.k (f.kS.toNat + i)).toNat
    if rowBytesOk (k 0) = true ∧ k 1 % 16 = 0 ∧ k 2 % 16 = 0 then some ⟨rowCount f, k 0, k 1, k 2, id, id, []⟩ else none
  | .gath .. =>
    let k := fun i => (o.k (f.kS.toNat + i)).toNat
    let x := indexArray o (k 1) (rowCount f) s
    if rowBytesOk (k 0) = true ∧ k 1 % 4 = 0 ∧ k 2 % 16 = 0 ∧ indexQuiet s o (k 1) (rowCount f) = true ∧ x.2 = none then
      some ⟨rowCount f, k 0, k 2, k 0, x.1, id, [⟨true, k 1, 4 * rowCount f⟩]⟩ else none
  | .scat .. =>
    let k := fun i => (o.k (f.kS.toNat + i)).toNat
    let x := indexArray o (k 1) (rowCount f) s
    if rowBytesOk (k 0) = true ∧ k 1 % 4 = 0 ∧ k 2 % 16 = 0 ∧ indexQuiet s o (k 1) (rowCount f) = true ∧ x.2 = none then
      some ⟨rowCount f, k 0, k 0, k 2, id, x.1, [⟨true, k 1, 4 * rowCount f⟩]⟩ else none
  | _ => none
/-- The source and the destination of a copy, in scratch or translated (08 R222, R227). -/
def copySource (s : State) (o : Once) (f : FmtX) (r : CopyRows) : Mapped × State :=
  copyOperand o f.srcScr false f.kP.toNat r.sst r.ms r.n r.len s
def copyTarget (s : State) (o : Once) (f : FmtX) (r : CopyRows) : Mapped × State :=
  copyOperand o f.dstScr true f.kQ.toNat r.dst r.md r.n r.len (copySource s o f r).2
/-- The operands of a copy are aligned, every row can be reached, the source has one tag, and nothing overlaps (08 R224-R227). -/
structure CopyOk (s : State) (o : Once) (f : FmtX) (r : CopyRows) : Prop where
  source : (copySource s o f r).1.stop = none
  target : (copyTarget s o f r).1.stop = none
  apart : overlaps ((copySource s o f r).1.rows.flatten ++ r.index) (copyTarget s o f r).1.rows.flatten = false
/-- A byte of a stretch: of the gang's scratch, or of memory. -/
def State.spanByte (s : State) (slot : Nat) (p : Span) (k : Nat) : Byte :=
  if p.scr then tget 0 (s.scratchPart slot).scratch (p.start + k) else s.byteAt (p.start + k)
/-- The byte that the last of some moves leaves at a place of scratch, or of memory. -/
def State.moved (s : State) (slot : Nat) (moves : List (Span × Span)) (scr : Bool) (at' : Nat) : Option Byte :=
  (moves.reverse.find? (fun m => m.2.scr == scr && m.2.start ≤ at' && at' < m.2.last)).map (fun m =>
    s.spanByte slot m.1 (at' - m.2.start))
/-- A gang's block stands, with scratch on the gang's core in canonical form. -/
def State.HasScratch (s : State) (slot : Nat) : Prop :=
  (∃ p ∈ (s.block (s.blockOf slot)).parts, p.core = coreOf slot) ∧ (tfind s.blocks (s.blockOf slot)).isSome = true ∧ s.scratchWf slot
/-- A scratch operand of a job: aligned, in the kernel's scratch, and as a source of one format (08 R224-R227). -/
def ScratchOk (s : State) (slot base : Nat) (rows : List (Nat × Nat)) (want : Option (BitVec 6)) : Prop :=
  base % 16 = 0 ∧ (∀ r ∈ rows, r.1 + r.2 ≤ (s.headerOf slot).scratch) ∧
    ∀ f, want = some f → ∀ g ∈ segsOf (rows.map (fun r => ⟨true, r.1, r.2⟩)), s.scratchTag slot (g * 4096) = f
/-- QDUAL's operands (08 R233): in scratch, aligned, of the source's format, and apart. -/
def QuantOk (s : State) (o : Once) (f : FmtX) : Prop :=
  let k := fun r => (o.k r).toNat
  let es := elemSize f.sfmt
  let stride := if k (f.kP.toNat + 1) = 0 then 64 * es else k (f.kP.toNat + 1)
  let rows := rowOff (k f.kP.toNat) stride id 64 (64 * es)
  let tiles := [k f.kQ.toNat, k (f.kQ.toNat + 1)]
  let scales := [k f.kS.toNat, k (f.kS.toNat + 1)]
  let outs : List Span := tiles.map (fun a => ⟨true, a, 4096⟩) ++ scales.map (fun a => ⟨true, a, 128⟩)
  stride % 16 = 0 ∧ (∀ a ∈ tiles, a % 4096 = 0) ∧ ScratchOk s o.slot (k f.kP.toNat) rows (some f.sfmt) ∧
    (∀ a ∈ tiles, ScratchOk s o.slot a [(a, 4096)] none) ∧ (∀ a ∈ scales, ScratchOk s o.slot a [(a, 128)] none) ∧
    outs.Pairwise (fun a b => overlap a b = false) ∧ overlaps (rows.map (fun r => ⟨true, r.1, r.2⟩)) outs = false
/-- CAST's operands (08 R234). -/
def CastOk (s : State) (o : Once) (f : FmtX) : Prop :=
  let n := (o.k f.kS.toNat).toNat
  let a := ((o.k f.kP.toNat).toNat, n * elemSize f.sfmt)
  let b := ((o.k f.kQ.toNat).toNat, n * elemSize f.tfmt)
  1 ≤ n ∧ n ≤ 2 ^ 20 ∧ ScratchOk s o.slot a.1 [a] (some f.sfmt) ∧ ScratchOk s o.slot b.1 [b] none ∧
    overlap ⟨true, a.1, a.2⟩ ⟨true, b.1, b.2⟩ = false
/-- MRED's operands (06 R196-R198, 13 R332): aligned, in device memory, reachable as each needs, with flags inside their
scopes, the root with room, and every line of the operation free to go home. -/
def MredOk (s : State) (o : Once) (f : FmtX) : Prop :=
  let m := mredArgs f o
  1 ≤ m.n ∧ m.n ≤ 65536 ∧ m.src.toNat % m.es = 0 ∧ m.dst.toNat % m.dn = 0 ∧ (m.pub = true → m.pflag.toNat % 4 = 0) ∧
    (m.wt = true → m.wflag.toNat % 4 = 0) ∧
    ∃ a0 s0 a d flags s1, mredPlace o m.src (m.n * m.es) false s = (.inr a0, s0) ∧
      mredPlaces o s0 m.operands = (.inr (a :: d :: flags), s1) ∧
      let x : MredTo := { a := a, d := d, p := if m.pub then flags.head? else none, w := if m.wt then flags.getLast? else none }
      regionShared s1 d = false ∧ (∀ y ∈ x.p, regionShared s1 y = false ∧ x.inside y m.pscope = true) ∧
        (∀ y ∈ x.w, x.inside y m.wscope = true) ∧
        (x.tier = true → (m.pub = true → m.pscope = 5) ∧ (m.wt = true → m.wscope = 5)) ∧
        rootFull s1 (x.context (f.eng.toNat % 2)) = false ∧ (s1.writeBackFit o.core (spanLines (x.spans m))).1 = true ∧
        (m.pub = true → (mredFlush o (s1.writeBackFit o.core (spanLines (x.spans m))).2).1 = none) ∧
        ∀ l ∈ spanLines (x.spans m), mredHeld s1 o.core (spanLines [x.source m]) l = false
/-- The operands of an instruction that issues once for the gang pass the checks of its entry (06 R197, 07 R209-R214, 08
R224-R234), and nothing it reads is still under way (03 R81). -/
def Accepts (s : State) (o : Once) (f : FmtX) : Prop :=
  match o.instr with
  | .qdual .. => QuantOk s o f
  | .cast .. => CastOk s o f
  | .mred .. => MredOk s o f
  | .cpy .. | .cpy2d .. | .gath .. | .scat .. => ∃ r, copyRows s o f = some r ∧ CopyOk s o f r
  | i =>
    tfind (s.gang o.slot).engineFault f.eng.toNat = none ∧
      matrixFault (s.headerOf o.slot) s o.slot i f o.scalars (s.engine o.core f.eng.toNat) = none ∧
      valuesLocked s o f = false ∧ valueFailed s o f = none ∧
      (f.sc = true → ∃ bs s1, s.cachedScales o (scaleVas o.scalars (rowsOf o.scalars f.sfmt (rowCount f))) = (.inr bs, s1))

end Sys2Proof.Machine
end

