-- ==== Sys2Proof/Certificates/Slice0/Obligations.lean ====
section
/-!
DEFINITION. The statements about the machine. Each docstring names the rules that a statement formalises.
-/

open Sys2Proof Sys2Proof.Machine

/-! ### Instructions on registers: the result, its latency, and the frame. -/

/-- Integer arithmetic writes each acting thread's result, exact and then wrapped or clamped to the type (05 R130, R131,
R133-R137), readable at the entry's latency; nothing else changes and the group goes on to the next slot. IADDX and ISUBX
write the low bits of A ± B with the carry or borrow of predicate [22:20], and the carry or borrow out of the type's width
to predicate [25:23] (05 R132). -/
def Obligations.IntegerResults : Prop :=
  (∀ (i : Instr) (r : LaneRow), integerRow i = some r →
   ∀ (s s1 : State) (c gid : Nat) (g : Group) (v : Nat → List Nat), Clear s i r.h c gid g →
     s.Operands (s.issueCtx i r.h c gid g) (s.issueCtx i r.h c gid g).act r.srcs r.f.opnd v s1 →
     ∃ t, exec i s = .next t ∧ Looked s s1 ∧ Result s1 t i r.h gid g
       (s.byGuard r.h (fun u => wordWrites r.f.d.toNat r.regs (r.val (v u)) r.lat)) (s.byGuard r.h (fun _ => noWrites)) 0 noWrites) ∧
  (∀ (sub : Bool) (h : Hdr) (f : FmtA) (s s1 : State) (c gid : Nat) (g : Group) (v : Nat → List Nat),
     let i := if sub then Instr.isubx h f else Instr.iaddx h f
     let w := 2 ^ tyWidth f.ty
     let cin := (f.mods.extractLsb' 0 3).toNat
     Clear s i h c gid g →
     s.Operands (s.issueCtx i h c gid g) (s.issueCtx i h c gid g).act [tyA f, tyB f] f.opnd v s1 →
     ∃ t, exec i s = .next t ∧ Looked s s1 ∧
       let a := fun u => (v u).getD 0 0 % w
       let b := fun u => (v u).getD 1 0 % w
       let k := fun u => if cin ≠ 7 ∧ (s.lane u).pred cin = true then 1 else 0
       let sum := fun u => if sub then (a u + w - b u + w - k u) % w else (a u + b u + k u) % w
       let out := fun u => if sub then decide (a u < b u + k u) else decide (w ≤ a u + b u + k u)
       Result s1 t i h gid g (s.byGuard h (fun u => wordWrites f.d.toNat (wideRegs f) (sum u) 4))
         (s.byGuard h (fun u => predWrites (f.mods.extractLsb' 3 3).toNat (out u) 4)) 0 noWrites)

/-- Logic, shifts, bit fields, counts, LEA, MOV and BSWZ write each acting thread's result (05 R138-R142, R146-R148). ISEL
writes A where the predicate that C names, inverted when [20] is set, is true, and B elsewhere (05 R144). MOVI writes its
32-bit immediate, extended to 64 bits by the type (05 R147). -/
def Obligations.MoveAndLogicResults : Prop :=
  (∀ (i : Instr) (r : LaneRow), logicRow i = some r →
   ∀ (s s1 : State) (c gid : Nat) (g : Group) (v : Nat → List Nat), Clear s i r.h c gid g →
     s.Operands (s.issueCtx i r.h c gid g) (s.issueCtx i r.h c gid g).act r.srcs r.f.opnd v s1 →
     ∃ t, exec i s = .next t ∧ Looked s s1 ∧ Result s1 t i r.h gid g
       (s.byGuard r.h (fun u => wordWrites r.f.d.toNat r.regs (r.val (v u)) r.lat)) (s.byGuard r.h (fun _ => noWrites)) 0 noWrites) ∧
  (∀ (h : Hdr) (f : FmtA) (s s1 : State) (c gid : Nat) (g : Group) (v : Nat → List Nat),
     Clear s (.isel h f) h c gid g →
     s.Operands (s.issueCtx (.isel h f) h c gid g) (s.issueCtx (.isel h f) h c gid g).act [tyA f, tyB f] f.opnd v s1 →
     ∃ t, exec (.isel h f) s = .next t ∧ Looked s s1 ∧ Result s1 t (.isel h f) h gid g
       (s.byGuard h (fun u => wordWrites f.d.toNat (wideRegs f)
         (if (s.lane u).pred f.c.toNat != f.mods.getLsbD 0 then (v u).getD 0 0 else (v u).getD 1 0) 4))
       (s.byGuard h (fun _ => noWrites)) 0 noWrites) ∧
  (∀ (h : Hdr) (f : FmtI) (s : State) (c gid : Nat) (g : Group), Clear s (.movi h f) h c gid g →
     ∃ t, exec (.movi h f) s = .next t ∧ Result s t (.movi h f) h gid g
       (s.byGuard h (fun _ =>
         if f.ty = 8 then wordWrites f.d.toNat 1 f.imm.toNat 4
         else if f.ty = 7 then wordWrites f.d.toNat 2 (wrap 64 f.imm.toInt) 4 else wordWrites f.d.toNat 2 f.imm.toNat 4))
       (s.byGuard h (fun _ => noWrites)) 0 noWrites)

/-- ICMP and FCMP write predicate D in each acting thread (05 R143, R153). PLOP writes the bit of its truth table that
predicates A, B and C select (05 R139, R145). -/
def Obligations.PredicateResults : Prop :=
  (∀ (i : Instr) (r : PredRow), compareRow i = some r →
   ∀ (s s1 : State) (c gid : Nat) (g : Group) (v : Nat → List Nat), Clear s i r.h c gid g →
     s.Operands (s.issueCtx i r.h c gid g) (s.issueCtx i r.h c gid g).act r.srcs r.f.opnd v s1 →
     ∃ t, exec i s = .next t ∧ Looked s s1 ∧ Result s1 t i r.h gid g
       (s.byGuard r.h (fun _ => noWrites)) (s.byGuard r.h (fun u => predWrites r.f.d.toNat (r.val (v u)) r.lat)) 0 noWrites) ∧
  (∀ (h : Hdr) (f : FmtA) (s : State) (c gid : Nat) (g : Group), Clear s (.plop h f) h c gid g →
     ∃ t, exec (.plop h f) s = .next t ∧
       let b := fun (u : Nat) (n : BitVec 9) => ((s.lane u).pred n.toNat).toNat
       Result s t (.plop h f) h gid g (s.byGuard h (fun _ => noWrites))
         (s.byGuard h (fun u => predWrites f.d.toNat (f.opnd.getLsbD (12 + b u f.a + 2 * b u f.b + 4 * b u f.c)) 4)) 0 noWrites)

/-- Float arithmetic writes each acting thread's result, the exact value of the operands rounded once to the type (05
R150-R156, R159, R163, R164). The functions of class 0x4 write each acting thread's rounded value (05 R157, R158): how far a
value is worked out before it is rounded is the model's own reading, log 21. -/
def Obligations.FloatResults : Prop :=
  (∀ (i : Instr) (r : LaneRow), floatRow i = some r →
   ∀ (s s1 : State) (c gid : Nat) (g : Group) (v : Nat → List Nat), Clear s i r.h c gid g →
     s.Operands (s.issueCtx i r.h c gid g) (s.issueCtx i r.h c gid g).act r.srcs r.f.opnd v s1 →
     ∃ t, exec i s = .next t ∧ Looked s s1 ∧ Result s1 t i r.h gid g
       (s.byGuard r.h (fun u => wordWrites r.f.d.toNat r.regs (r.val (v u)) r.lat)) (s.byGuard r.h (fun _ => noWrites)) 0 noWrites) ∧
  (∀ (i : Instr) (r : LaneRow), functionRow i = some r →
   ∀ (s s1 : State) (c gid : Nat) (g : Group) (v : Nat → List Nat), Clear s i r.h c gid g →
     s.Operands (s.issueCtx i r.h c gid g) (s.issueCtx i r.h c gid g).act r.srcs r.f.opnd v s1 →
     ∃ t, exec i s = .next t ∧ Looked s s1 ∧ Result s1 t i r.h gid g
       (s.byGuard r.h (fun u => wordWrites r.f.d.toNat r.regs (r.val (v u)) r.lat)) (s.byGuard r.h (fun _ => noWrites)) 0 noWrites)

/-- CVT writes the converted value; under `.rst` it rounds with the thread's next draw, and only then the thread's random
counter advances, by one (05 R160, R161, 02 R52). CVTN writes a code byte per element, each rounded with a draw of its own
under `.rst`, the low element first (05 R162, 02 R52). RNG writes one draw to each register of D and advances each acting
thread's counter by as many (08 R241, 02 R52).
The model's own choices here: the tie of a binary8 result at precision 1, log 90. -/
def Obligations.ConversionResults : Prop :=
  (∀ (h : Hdr) (f : FmtA) (s s1 : State) (c gid : Nat) (g : Group) (v : Nat → List Nat),
     let src := srcA f (if is64Ty f.cvtSrcTy then 2 else 1)
       (if f.cvtSrcTy = 0x15 ∨ f.cvtSrcTy = 0x16 then .int 32 else tyImm f.cvtSrcTy)
     let cx := s.issueCtx (.cvt h f) h c gid g
     Clear s (.cvt h f) h c gid g → s.Operands cx cx.act [src] f.opnd v s1 →
     ∃ t, exec (.cvt h f) s = .next t ∧ Looked s s1 ∧
       Result (s1.drawn cx.act (if f.rnd = 4 then 1 else 0)) t (.cvt h f) h gid g
         (s.byGuard h (fun u => wordWrites f.d.toNat (wideRegs f)
           (cvtResult f (if f.rnd = 4 then s1.drawNo u 0 else 0) ((v u).getD 0 0)) 6))
         (s.byGuard h (fun _ => noWrites)) 0 noWrites) ∧
  (∀ (h : Hdr) (f : FmtA) (s s1 : State) (c gid : Nat) (g : Group) (v : Nat → List Nat),
     let cx := s.issueCtx (.cvtn h f) h c gid g
     let draws := if f.rnd = 4 then (if isPackedTy f.ty then 2 else 1) else 0
     Clear s (.cvtn h f) h c gid g → s.Operands cx cx.act [tyA f] f.opnd v s1 →
     ∃ t, exec (.cvtn h f) s = .next t ∧ Looked s s1 ∧
       let code := fun (u j x : Nat) => b8Round f.mods f.rnd.toNat (if f.rnd = 4 then s1.drawNo u j else 0) f.sat
         (foperand (tyFmt f.ty) false x)
       let x := fun u => (v u).getD 0 0
       Result (s1.drawn cx.act draws) t (.cvtn h f) h gid g
         (s.byGuard h (fun u => wordWrites f.d.toNat 1
           (if isPackedTy f.ty then code u 0 (x u % 2 ^ 16) + code u 1 (x u / 2 ^ 16) * 256 else code u 0 (x u)) 6))
         (s.byGuard h (fun _ => noWrites)) 0 noWrites) ∧
  (∀ (h : Hdr) (f : FmtA) (s : State) (c gid : Nat) (g : Group),
     let cx := s.issueCtx (.rng h f) h c gid g
     Clear s (.rng h f) h c gid g →
     ∃ t, exec (.rng h f) s = .next t ∧ Result (s.drawn cx.act (wideRegs f)) t (.rng h f) h gid g
       (s.byGuard h (fun u r => if f.d.toNat ≤ r ∧ r < f.d.toNat + wideRegs f then some (s.drawNo u (r - f.d.toNat), 6) else none))
       (s.byGuard h (fun _ => noWrites)) 0 noWrites)

/-- LXCH, BCAST, SCAN, EQMASK and the per-lane REDUX write, in each acting thread, the value they compute from what the
gang's lanes held before (06 R165-R167, R169-R171), readable 8 of distance on. CONS writes the consensus of predicate A
over the acting threads to their predicate D, and PMASK without [25] the mask of the acting lanes where predicate A is
true to their register D (06 R168).
The model's own choices here: log 19. -/
def Obligations.CrossLaneResults : Prop :=
  (∀ (i : Instr) (r : CrossRow), crossRow i = some r →
   ∀ (s s1 : State) (c gid : Nat) (g : Group) (v : Nat → List Nat),
     let cx := s.issueCtx i r.h c gid g
     Clear s i r.h c gid g → s.Operands cx cx.act r.srcs r.f.opnd v s1 →
     (∀ u ∈ g.members, s1.failedVreg u [tyA r.f] = none) →
     ∃ t, exec i s = .next t ∧ Looked s s1 ∧ Result s1 t i r.h gid g
       (s.byGuard r.h (fun u => wordWrites r.f.d.toNat r.regs
         (r.val g.members cx.act g.slot (laneValue s1 r.f) ((v u).headD 0) u) 8))
       (s.byGuard r.h (fun _ => noWrites)) 0 noWrites) ∧
  (∀ (h : Hdr) (f : FmtA) (s : State) (c gid : Nat) (g : Group),
     (Clear s (.cons h f) h c gid g →
       ∃ t, exec (.cons h f) s = .next t ∧
         let held := (g.members.filter (s.acts h)).map (fun u => (s.lane u).pred f.a.toNat)
         let yes := held.countP id
         let all := held.length
         Result s t (.cons h f) h gid g (s.byGuard h (fun _ => noWrites))
           (s.byGuard h (fun _ => predWrites f.d.toNat
             (if f.mods = 0 then decide (0 < yes) else if f.mods = 1 then decide (yes = all)
              else if f.mods = 2 then decide (yes = all ∨ yes = 0) else decide (all < 2 * yes)) 8)) 0 noWrites) ∧
     (f.mods.getLsbD 5 = false → Clear s (.pmask h f) h c gid g →
       ∃ t, exec (.pmask h f) s = .next t ∧ Result s t (.pmask h f) h gid g
         (s.byGuard h (fun _ => wordWrites f.d.toNat 1
           (laneMask ((g.members.filter (s.acts h)).filter (fun u => (s.lane u).pred f.a.toNat))).toNat 8))
         (s.byGuard h (fun _ => noWrites)) 0 noWrites))

/-- Scalar arithmetic and logic write the gang's registers from D when a guard holds: the group's own threads read them at
distance 4, the gang's other groups at once (04 R118-R125). SMOVI writes its immediate, RDLANE a lane's register when the
lane is live and in the group and else 0, to the gang's registers (04 R120, R125). The scalar forms of REDUX and PMASK
write the gang's registers (06 R168, R169).
The model's own choices here: log 89. -/
def Obligations.ScalarResults : Prop :=
  (∀ (i : Instr) (r : ScalarRow), scalarRow i = some r →
   ∀ (s s1 : State) (c gid : Nat) (g : Group) (v : Nat → List Nat),
     let cx := s.issueCtx i r.h c gid g
     Clear s i r.h c gid g → s.GangOperands cx r.srcs r.f.opnd v s1 →
     ∃ t, exec i s = .next t ∧ Looked s s1 ∧ Result s1 t i r.h gid g (s.byGuard r.h (fun _ => noWrites))
       (s.byGuard r.h (fun _ => noWrites)) g.slot
       (gangWrites cx (wordWrites r.f.d.toNat r.regs (r.val (v (cx.act.headD 0))) 4))) ∧
  ((∀ (h : Hdr) (f : FmtI) (s : State) (c gid : Nat) (g : Group), Clear s (.smovi h f) h c gid g →
     ∃ t, exec (.smovi h f) s = .next t ∧ Result s t (.smovi h f) h gid g (s.byGuard h (fun _ => noWrites))
       (s.byGuard h (fun _ => noWrites)) g.slot (gangWrites (s.issueCtx (.smovi h f) h c gid g)
         (if f.ty = 8 then wordWrites f.d.toNat 1 f.imm.toNat 4
          else if f.ty = 7 then wordWrites f.d.toNat 2 (wrap 64 f.imm.toInt) 4 else wordWrites f.d.toNat 2 f.imm.toNat 4))) ∧
   (∀ (h : Hdr) (f : FmtA) (s s1 : State) (c gid : Nat) (g : Group) (v : Nat → List Nat),
     let cx := s.issueCtx (.rdlane h f) h c gid g
     Clear s (.rdlane h f) h c gid g → s.GangOperands cx [cntB f] f.opnd v s1 →
     ∃ t, exec (.rdlane h f) s = .next t ∧ Looked s s1 ∧
       let u := 32 * g.slot + (v (cx.act.headD 0)).getD 0 0 % 32
       Result s1 t (.rdlane h f) h gid g (s.byGuard h (fun _ => noWrites)) (s.byGuard h (fun _ => noWrites)) g.slot
         (gangWrites cx (wordWrites f.d.toNat (wideRegs f) (if u ∈ g.members then laneValue s f u else 0) 8)))) ∧
  (∀ (h : Hdr) (f : FmtA) (s : State) (c gid : Nat) (g : Group), f.mods.getLsbD 5 = true →
     (Clear s (.redux h f) h c gid g → (∀ u ∈ g.members, s.failedVreg u [tyA f] = none) →
       ∃ t, exec (.redux h f) s = .next t ∧ Result s t (.redux h f) h gid g (s.byGuard h (fun _ => noWrites))
         (s.byGuard h (fun _ => noWrites)) g.slot (gangWrites (s.issueCtx (.redux h f) h c gid g)
           (wordWrites f.d.toNat (wideRegs f) (combine f ((g.members.filter (s.acts h)).map (laneValue s f))) 8))) ∧
     (Clear s (.pmask h f) h c gid g →
       ∃ t, exec (.pmask h f) s = .next t ∧ Result s t (.pmask h f) h gid g (s.byGuard h (fun _ => noWrites))
         (s.byGuard h (fun _ => noWrites)) g.slot (gangWrites (s.issueCtx (.pmask h f) h c gid g)
           (wordWrites f.d.toNat 1
             (laneMask ((g.members.filter (s.acts h)).filter (fun u => (s.lane u).pred f.a.toNat))).toNat 8))))

/-- SRD writes a special register's value: with [25] to the gang's registers, else in each acting thread its own value (04
R126, 01 R25). A thread that reads %time keeps what it read, and no later read of it gives less (01 R25).
The model's own choices here: log 81. -/
def Obligations.SpecialRegisterReads : Prop :=
  ∀ (h : Hdr) (f : FmtA) (s : State) (c gid : Nat) (g : Group), Clear s (.srd h f) h c gid g →
    let n := (f.mods.extractLsb' 0 5).toNat
    let w := if n = 6 ∨ n = 8 ∨ n = 9 ∨ n = 10 ∨ n = 15 then 2 else 1
    let cx := s.issueCtx (.srd h f) h c gid g
    ∃ t, exec (.srd h f) s = .next t ∧
      if f.mods.getLsbD 5 then
        let x := groupSpecial s n cx
        Result (if cx.act = [] then s else s.noteTime n cx.ts (fun _ => x)) t (.srd h f) h gid g (s.byGuard h (fun _ => noWrites))
          (s.byGuard h (fun _ => noWrites)) g.slot (gangWrites cx (wordWrites f.d.toNat w x 4))
      else Result (s.noteTime n cx.act (specialReg s n)) t (.srd h f) h gid g
          (s.byGuard h (fun u => wordWrites f.d.toNat w (specialReg s n u) 4)) (s.byGuard h (fun _ => noWrites)) 0 noWrites

/-- A source reads by its kind: consecutive vector registers of the thread, scalar registers of the gang, the immediate
read by type, words of a window through memory at the window's base; an absent window is fault 0x02 with the word index
(03 R84, R89, 05 R128).
The model's own choices here: log 94. -/
def Obligations.OperandValues : Prop :=
  ∀ (s : State) (cx : State.Ctx) (ts : List Nat) (src : Src) (opnd : BitVec 20), ts ≠ [] →
    (src.k = .vec → ∃ v, s.readSrcs cx ts opnd [src] = (none, v, s) ∧ ∀ t, ∃ x, v t = [x] ∧ x < 2 ^ (32 * src.n) ∧
      ∀ i < src.n, BitVec.ofNat 32 (x / 2 ^ (32 * i)) = (s.lane t).vreg (src.r.toNat + i)) ∧
    (src.k = .scl → ∃ v, s.readSrcs cx ts opnd [src] = (none, v, s) ∧ ∀ t, ∃ x, v t = [x] ∧ x < 2 ^ (32 * src.n) ∧
      ∀ i < src.n, BitVec.ofNat 32 (x / 2 ^ (32 * i)) = s.kreg cx.ts cx.slot (src.r.toNat + i)) ∧
    (src.k = .imm → s.readSrcs cx ts opnd [src] = (none, fun _ => [match src.imm with
      | .int w => (opnd.signExtend w).toNat
      | .f32 => opnd.toNat * 2 ^ 12
      | .half => opnd.toNat % 2 ^ 16
      | .packed => opnd.toNat % 2 ^ 16 + 2 ^ 16 * (opnd.toNat % 2 ^ 16)], s)) ∧
    (src.k = .win → 0 < src.n →
      let base := cx.head.windows.getD (opnd.extractLsb' 17 3).toNat 0
      let w := (opnd.extractLsb' 0 17).toNat
      (base = 0 → s.readSrcs cx ts opnd [src] = (some (.fault 0x02 (BitVec.ofNat 64 w)), fun _ => [], s)) ∧
      (∀ key pte s1, src.n = 1 → base ≠ 0 → s.failed = [] →
        translate s (s.who (ts.head?.getD 0)) (base + BitVec.ofNat 64 (4 * w)) .read = (.ok key pte, s1) →
        s1.failed = [] → s1.record (key / 128) = none → s1.drainFor (key / 128) = none → s1.channelKeeps (key / 128) = false →
        tfind (s1.core (s.who (ts.head?.getD 0)).core).ccache (key / 4) = none → ∃ s2 v,
          s.readSrcs cx ts opnd [src] = (none, v, s2) ∧ ∀ t, v t = [s1.natAt key 4 % 2 ^ 32]))

/-! ### Control: transfers, exceptions, ends. -/

/-- NOP and YIELD change nothing but the distance and the PC; after YIELD the group carries the yield mark (04 R109,
R115). SLEEP holds the group, past the instruction, for its count of cycles: the immediate, a scalar register, or the
largest of the threads' registers; a count of 0 does not hold it (04 R116). -/
def Obligations.NopYieldSleep : Prop :=
  (∀ (h : Hdr) (f : FmtC) (i : Instr), i = .nop h f ∨ i = .yield h f →
   ∀ (s : State) (c gid : Nat) (g : Group), Clear s i h c gid g →
     ∃ t, exec i s = .next t ∧ GoesTo s t i h gid g (nextPc g.pc) .ready false) ∧
  (∀ (h : Hdr) (f : FmtC) (s : State) (c gid : Nat) (g : Group), Clear s (.sleep h f) h c gid g →
     (∀ u ∈ g.members, s.acts h u = true) →
     let n := if f.mods.getLsbD 18 then
         (if f.kA = .scl then (s.kreg g.members g.slot f.a.toNat).toNat
          else (g.members.map (fun u => ((s.lane u).vreg f.a.toNat).toNat)).foldl max 0)
       else (f.mods.extractLsb' 0 18).toNat
     ∃ t, exec (.sleep h f) s = .next t ∧
       GoesTo s t (.sleep h f) h gid g (nextPc g.pc) (if n = 0 then .ready else .sleep n) false)

/-- BRA whose guard holds in every thread sends the group to the slot at its offset, when the transfer passes the checks;
whose guard holds in no thread, on to the next slot (04 R110, 03 R75, R76). BRA whose guard holds in some threads splits
the group: each thread whose guard holds stands at the target, every other at the next slot (04 R110, 01 R37). The premise
on the numbers of groups is the model's own bookkeeping. BRX and RET send the group to the address in a register pair (04
R111). BRS branches for the whole group by a scalar register: when it is not zero, when it is zero, or by its value as an
index into a table of as many entries as [15:0] + 1, beyond which the group goes on (04 R112). CALL writes the start of
the next line to its register pair and sends the group to its target (04 R113). -/
def Obligations.Transfers : Prop :=
  (∀ (h : Hdr) (f : FmtC) (s : State) (c gid : Nat) (g : Group), Clear s (.bra h f) h c gid g →
     (∀ (n : Nat) (s1 : State), (slotNumber g.pc : Int) + f.off.toInt = n → slotPC n < 2 ^ 64 →
       (∀ u ∈ g.members, s.acts h u = true) → s.Reaches g.members (BitVec.ofNat 64 (slotPC n)) s1 →
       ∃ t, exec (.bra h f) s = .next t ∧ Looked s s1 ∧
         GoesTo s1 t (.bra h f) h gid g (BitVec.ofNat 64 (slotPC n)) .ready true) ∧
     ((∀ u ∈ g.members, s.acts h u = false) →
       ∃ t, exec (.bra h f) s = .next t ∧ GoesTo s t (.bra h f) h gid g (nextPc g.pc) .ready false)) ∧
  (∀ (h : Hdr) (f : FmtC) (s s1 : State) (c gid n : Nat) (g : Group), Clear s (.bra h f) h c gid g →
     (∀ x ∈ s.groups, x.1 < s.nextId) →
     (slotNumber g.pc : Int) + f.off.toInt = n → slotPC n < 2 ^ 64 →
     s.Reaches (g.members.filter (s.acts h)) (BitVec.ofNat 64 (slotPC n)) s1 →
     ∃ t, exec (.bra h f) s = .next t ∧ Looked s s1 ∧
       (∀ u ∈ g.members, t.StandsAt u (if s.acts h u then BitVec.ofNat 64 (slotPC n) else nextPc g.pc)) ∧
       LaneReads s t g.members h.stall.toNat (fun _ => noWrites) (fun _ => noWrites)) ∧
  (∀ (h : Hdr) (f : FmtC) (i : Instr), i = .brx h f ∨ i = .ret h f →
   ∀ (s s1 : State) (c gid : Nat) (g : Group) (pc : W64), Clear s i h c gid g →
     (∀ u ∈ g.members, s.acts h u = true ∧
       (if f.kA = .vec then (s.lane u).vpair f.a.toNat else s.kpair g.members g.slot f.a.toNat) = pc) →
     s.Reaches g.members pc s1 →
     ∃ t, exec i s = .next t ∧ Looked s s1 ∧ GoesTo s1 t i h gid g pc .ready true) ∧
  (∀ (h : Hdr) (f : FmtC) (s : State) (c gid : Nat) (g : Group), Clear s (.brs h f) h c gid g →
     (∃ u ∈ g.members, s.acts h u = true) →
     let k := (s.kreg g.members g.slot f.a.toNat).toNat
     let mode := (f.mods.extractLsb' 17 2).toNat
     let size := (f.mods.extractLsb' 0 16).toNat + 1
     let taken := if mode = 0 then k ≠ 0 else if mode = 1 then k = 0 else k < size
     let index := if mode ≤ 1 then 0 else k
     (∀ (n : Nat) (s1 : State), taken → (slotNumber g.pc : Int) + f.off.toInt + index = n → slotPC n < 2 ^ 64 →
       s.Reaches g.members (BitVec.ofNat 64 (slotPC n)) s1 →
       ∃ t, exec (.brs h f) s = .next t ∧ Looked s s1 ∧
         GoesTo s1 t (.brs h f) h gid g (BitVec.ofNat 64 (slotPC n)) .ready true) ∧
     (¬ taken → ∃ t, exec (.brs h f) s = .next t ∧ GoesTo s t (.brs h f) h gid g (nextPc g.pc) .ready false)) ∧
  (∀ (h : Hdr) (f : FmtC) (s s1 : State) (c gid n : Nat) (g : Group), Clear s (.call h f) h c gid g →
     (slotNumber g.pc : Int) + f.off.toInt = n → slotPC n < 2 ^ 64 →
     (∀ u ∈ g.members, s.acts h u = true) → s.Reaches g.members (BitVec.ofNat 64 (slotPC n)) s1 →
     ∃ t, exec (.call h f) s = .next t ∧ Looked s s1 ∧
       Lands s1 t (.call h f) h gid g (fun _ => wordWrites f.d.toNat 2 ((g.pc.toNat / 64 + 1) * 64) 2) (fun _ => noWrites) 0
         noWrites (BitVec.ofNat 64 (slotPC n)) .ready true)

/-- Taking an exception in one thread: EPC, ECAUSE and EADDR are written; STATUS keeps the privilege in bit 1, enters
supervisor mode and masks further handlers; the PC is the trap vector's, once its line says that it is a target (16 R376,
03 R76). With no trap vector, or inside a handler, an exception enters no handler, and the instruction that raises it in
such threads ends their gangs: none of the gangs' threads is live afterwards, and none that was live stands in a group (16
R376, R377). -/
def Obligations.ExceptionEntry : Prop :=
  (∀ (s s1 : State) (u : Nat) (epc : W64) (code : Nat) (ea : W64) (l : Line),
     let vec := s.trapvec (s.regionOf (slotOf u))
     (s.lane u).status.getLsbD 2 = false → vec ≠ 0 → canonicalVa vec = true → pcOk vec = true →
     fetchLine s { s.who u with prv := true } vec = (.ok l, s1) → lineTarget l (pcSlot vec) = true →
     ∃ t, s.enterHandler u epc code ea = (some (vec, .ready), t) ∧ Looked s s1 ∧ t = { s1 with lanes := t.lanes } ∧
       (∀ w, w ≠ u → t.lane w = s.lane w) ∧
       t.lane u = { s.lane u with
         epc := epc, ecause := BitVec.ofNat 32 code, eaddr := ea
         status := if (s.lane u).status.getLsbD 0 then 0b111 else 0b101 }) ∧
  (∀ (s : State) (u : Nat) (epc : W64) (code : Nat) (ea : W64),
     (s.lane u).status.getLsbD 2 = true ∨ s.trapvec (s.regionOf (slotOf u)) = 0 →
     s.enterHandler u epc code ea = (none, s)) ∧
  (∀ (i : Instr) (h : Hdr) (s : State) (c gid : Nat) (g : Group), Issues s i h c gid g →
     illegal (s.headerOf g.slot) i = true →
     (∀ u ∈ g.members, (s.lane u).status.getLsbD 2 = true ∨ s.trapvec (s.regionOf (slotOf u)) = 0) →
     ∃ t, exec i s = .next t ∧ ∀ u ∈ g.members, ∀ v, slotOf v = slotOf u →
       (t.lane v).live = false ∧ ((s.lane v).live = true → ∀ x ∈ t.groups, v ∉ x.2.members))

/-- TRAP and DBRK take exceptions 0x1B and 0x1C with their immediate in EADDR, which return past the instruction (04 R117,
08 R250, 16 R376). RTT returns to EPC: STATUS takes its privilege back from bit 1 and opens handlers again (08 R247). -/
def Obligations.TrapsAndReturns : Prop :=
  (∀ (h : Hdr) (f : FmtC) (i : Instr) (code : Nat), (i = .trap h f ∧ code = 0x1B) ∨ (i = .dbrk h f ∧ code = 0x1C) →
   ∀ (s s1 : State) (c gid : Nat) (g : Group) (vec : W64), Clear s i h c gid g → (∀ u ∈ g.members, s.acts h u = true) →
     s.Enters g.members vec (nextPc g.pc) code (fun _ => (f.mods.extractLsb' 0 16).zeroExtend 64) s1 →
     ∃ t, exec i s = .next t ∧ GoesTo s1 t i h gid g vec .ready true) ∧
  (∀ (h : Hdr) (f : FmtC) (s : State) (c gid : Nat) (g : Group) (pc : W64), Clear s (.rtt h f) h c gid g →
     (∀ u ∈ g.members, s.acts h u = true ∧ (s.lane u).epc = pc) →
     let back := fun (l : Lane) => { l with status := if l.status.getLsbD 1 then 0b11 else 0 }
     let s1 := g.members.foldl (fun s u => s.modLane u back) s
     ∃ t, exec (.rtt h f) s = .next t ∧ GoesTo s1 t (.rtt h f) h gid g pc .ready true)

/-- HALT stops its gang, logs the stop, and leaves its threads past the instruction (08 R246, 15 R360). EXIT ends the
threads whose guard holds, in gangs without weirs: they are not live and stand in no group; every other thread stays live
(04 R114). Ending a gang: none of its threads is live or in a group afterwards, and threads of other gangs are as before
(16 R377). -/
def Obligations.ThreadsEnd : Prop :=
  (∀ (h : Hdr) (f : FmtC) (s : State) (c gid : Nat) (g : Group), Clear s (.halt h f) h c gid g →
     (∃ u ∈ g.members, s.acts h u = true) →
     let s1 := logRecord (s.modGang g.slot (fun x => { x with halted := true })) 15 0 2 c g.slot
     (s1.gang g.slot).halted = true ∧
     ∃ t, exec (.halt h f) s = .next t ∧ GoesTo s1 t (.halt h f) h gid g (nextPc g.pc) .ready false) ∧
  (∀ (h : Hdr) (f : FmtC) (s : State) (c gid : Nat) (g : Group), Clear s (.exit h f) h c gid g →
     (∀ u ∈ g.members, (s.gang (slotOf u)).weirs = []) →
     ∃ t, exec (.exit h f) s = .next t ∧
       (∀ u ∈ g.members, s.acts h u = true → (t.lane u).live = false ∧ ∀ x ∈ t.groups, u ∉ x.2.members) ∧
       (∀ u, (u ∉ g.members ∨ s.acts h u = false) → (t.lane u).live = (s.lane u).live)) ∧
  (∀ (s : State) (n code : Nat) (mask : W32) (ea : W64),
     let t := s.endGang n code mask ea
     (∀ u, slotOf u = n → (t.lane u).live = false ∧ ((s.lane u).live = true → ∀ x ∈ t.groups, u ∉ x.2.members)) ∧
     (∀ u, slotOf u ≠ n → (t.lane u).live = (s.lane u).live))

/-- An opcode without a meaning, or one that the kernel's encoding version does not have, takes exception 0x01 with EADDR
0 in every thread; no register but the exception's changes (03 R94, R97, 16 R378). A privileged instruction in threads
without privilege takes exception 0x03 with EADDR 0 (01 R26, 03 R97). A reserved or malformed field, or a register at or
above the kernel's counts, takes exception 0x02: EADDR is the register's number of R83, or 0 (03 R83-R97).
The model's own choices here: log 10, 11, 12. -/
def Obligations.IllegalPrivilegedFields : Prop :=
  (∀ (i : Instr) (h : Hdr) (s s1 : State) (c gid : Nat) (g : Group) (vec : W64), Issues s i h c gid g →
     illegal (s.headerOf g.slot) i = true → s.Enters g.members vec g.pc 0x01 (fun _ => 0) s1 →
     ∃ t, exec i s = .next t ∧ Trapped s1 t gid g vec) ∧
  (∀ (i : Instr) (h : Hdr) (s s1 : State) (c gid : Nat) (g : Group) (vec : W64), Issues s i h c gid g →
     illegal (s.headerOf g.slot) i = false → privileged i = true → (∀ u ∈ g.members, s.prvOf u = false) →
     s.Enters g.members vec g.pc 0x03 (fun _ => 0) s1 →
     ∃ t, exec i s = .next t ∧ Trapped s1 t gid g vec) ∧
  (∀ (i : Instr) (h : Hdr) (s s1 : State) (c gid : Nat) (g : Group) (vec ea : W64), Issues s i h c gid g →
     illegal (s.headerOf g.slot) i = false → (privileged i = true → ∀ u ∈ g.members, s.prvOf u = true) →
     fieldFault (s.headerOf g.slot) (partOf g.slot) i = some ea → s.Enters g.members vec g.pc 0x02 (fun _ => ea) s1 →
     ∃ t, exec i s = .next t ∧ Trapped s1 t gid g vec)

/-- With the scoreboard check on, a register whose fixed-latency result is not reached takes exception 0x08 with the
register's number in EADDR (03 R83). An instruction that waits for a variable-latency result does not issue: nothing
changes (03 R81), but that a group's priority ends when the result is a memory access's (01 R37).
The model's own choices here: log 88. -/
def Obligations.ScoreboardAndInterlock : Prop :=
  (∀ (i : Instr) (h : Hdr) (s s1 : State) (c gid : Nat) (g : Group) (vec : W64) (r : RegRef), Issues s i h c gid g →
     illegal (s.headerOf g.slot) i = false → (privileged i = true → ∀ u ∈ g.members, s.prvOf u = true) →
     fieldFault (s.headerOf g.slot) (partOf g.slot) i = none →
     s.waitsFor g.members g.slot i h = false → ((s.headerOf g.slot).check || (s.core c).check) = true →
     (∀ u ∈ g.members, s.scoreboard u (s.operandsOf i h g) = some r) →
     s.Enters g.members vec g.pc 0x08 (fun _ => BitVec.ofNat 64 (regNumber r)) s1 →
     ∃ t, exec i s = .next t ∧ Trapped s1 t gid g vec) ∧
  (∀ (i : Instr) (h : Hdr) (s : State) (c gid : Nat) (g : Group), Issues s i h c gid g →
     illegal (s.headerOf g.slot) i = false → (privileged i = true → ∀ u ∈ g.members, s.prvOf u = true) →
     fieldFault (s.headerOf g.slot) (partOf g.slot) i = none → s.waitsFor g.members g.slot i h = true →
     exec i s = .next (if s.waitsForMemory g.members g.slot i h then s.modGroup gid (fun x => { x with prio := none }) else s))

/-! ### Loads and stores. -/

/-- Global loads: LD, SLD for the gang's lowest acting lane, and LDF, whose page's format and scale convert the bytes. The
threads go on; under an acquire they wait for their values first (06 R173, R176, R178, 04 R124, 10 R281). What
`performLoads` does is the next statement; the sampler counts the instruction's line requests (12 R323).
The model's own choices here: log 24, 36. -/
def Obligations.GlobalLoads : Prop :=
  (∀ (i : Instr) (h : Hdr) (f : FmtM) (scalar : Bool) (conv : LoadConv), f.space = 0 →
    (i = .ld h f ∧ scalar = false ∧ conv = ldConv f) ∨ (i = .sld h f ∧ scalar = true ∧ conv = .zext) →
  ∀ (s s1 s2 : State) (c gid : Nat) (g : Group) (accs : List LaneAcc) (waits : List Nat) (uses : List LineUse),
    let cx := s.issueCtx i h c gid g
    let ts := if scalar then [issuer cx] else cx.act
    Clear s i h c gid g → cx.act ≠ [] →
    s.Translates .read (accessBytes f) (s.globalVa cx f) ts accs s1 →
    s1.performLoads c (accs.map (fun a => (a, loadOf f scalar conv a)))
      (memAcq f && s1.wideFor ts f.scope) (memAcq f) f.mark = ({ waits := waits, uses := uses }, s2) →
    ∃ t, exec i s = .next t ∧ Looked s s1 ∧
      GoesTo (s2.countUses c (asidOf s cx) 0 uses) t i h gid g (nextPc g.pc) (if waits = [] then .ready else .requests waits) false) ∧
  (∀ (h : Hdr) (f : FmtM), f.space ≠ 1 →
  ∀ (s s1 s2 s3 : State) (c gid : Nat) (g : Group) (accs : List LaneAcc) (es : List (Option (BitVec 8))) (waits : List Nat)
    (us uses : List LineUse),
    let i := Instr.ldf h f
    let cx := s.issueCtx i h c gid g
    let acq := memAcq f && s1.wideFor cx.act f.scope
    Clear s i h c gid g → cx.act ≠ [] → s.Translates .read 1 (s.globalVa cx f) cx.act accs s1 →
    (∀ a ∈ accs, formatFault a = none ∧ s1.loadFault c a (elemSize (pteFormat a.pte)) acq = none) →
    s1.Scales cx (f.op.getLsbD 0) accs es us s2 → accs.Pairwise (fun a b => laneOf a.thread ≤ laneOf b.thread) →
    s2.performLoads c ((accs.zip es).map (fun a => (a.1, formatLoadOf f a.1 a.2))) acq (memAcq f) f.mark
      = ({ waits := waits, uses := uses }, s3) →
    ∃ t, exec i s = .next t ∧ Looked s s1 ∧
      GoesTo (s3.countUses c (asidOf s cx) 0 (uses ++ us)) t i h gid g (nextPc g.pc)
        (if waits = [] then .ready else .requests waits) false)

/-- Loads of one instruction: a thread all of whose bytes L1 serves has them in its registers at once; for another, its
registers are interlocked and one request for its line is on its way home, of the far kind when the line is no memory of
this device. Memory does not change (10 R277, R281, R303, 06 R173, R178, 03 R81). A loaded value goes to the registers of
D, which are no longer interlocked: a thread's vector registers, or for SLD the gang's scalar registers (06 R173, 04 R124,
03 R81). -/
def Obligations.LoadsDeliver : Prop :=
  (∀ (s : State) (c : Nat) (loads : List (LaneAcc × LaneLoad)) (acq order mark : Bool),
     (loads.map (fun l => l.2.thread)).Nodup →
     (∀ l ∈ loads, l.2.scalar = false ∧ (tfind s.lanes l.2.thread).isSome = true ∧ l.2.key = l.1.key ∧ 0 < l.2.size) →
     (∀ x ∈ s.requests, x.1 < s.nextId) → (∀ x ∈ s.net, x.1 < s.nextId) →
     (∀ l ∈ loads, cacheable l.1.key = true →
       s.lineBusy c (l.1.key / 128) = false ∧ s.redPending c l.1.key l.2.size = false ∧ s.loadFault c l.1 l.2.size acq = none) →
     s.outstanding c + (dedup (loads.map (fun l => l.1.key / 128))).length ≤ Config.maxOutstanding →
     let here := fun (l : LaneAcc × LaneLoad) => cacheable l.1.key && s.l1Serves c l.1.key l.2.size acq
     ∃ waits uses t, s.performLoads c loads acq order mark = ({ waits := waits, uses := uses }, t) ∧
       t = { s with lanes := t.lanes, cores := t.cores, requests := t.requests, net := t.net, nextId := t.nextId,
                    fresh := t.fresh, failed := t.failed } ∧
       (acq = false → t.cores = s.cores) ∧ (∀ u, (∀ l ∈ loads, l.2.thread ≠ u) → t.lane u = s.lane u) ∧
       (order = false ∨ (∀ l ∈ loads, here l = true) → waits = []) ∧
       ∀ l ∈ loads,
         if here l then
           ∀ n d, t.vLater l.2.thread n d =
             (listWrites l.2.dst (State.convert l.2.conv l.2.size (s.l1Value c l.1.key l.2.size)) n).seen d (s.vLater l.2.thread n d)
         else
           t.lane l.2.thread = { s.lane l.2.thread with
             lock := (s.lane l.2.thread).lock ++ (List.range (State.loadRegs l.2)).map (fun j => RegRef.v (l.2.dst + j)) } ∧
           ∃ id q m, tfind t.requests id = some q ∧ q.core = c ∧ q.line = l.1.key / 128 ∧ q.acquire = acq ∧ l.2 ∈ q.loads ∧
             q.kind = (if cacheable l.1.key then .load else .farLoad) ∧
             tfind t.net m = some { core := c, toHome := true, line := l.1.key / 128, body := .read id } ∧
             (order = true → id ∈ waits)) ∧
  (∀ (s : State) (l : LaneLoad) (x : Nat),
     let t := s.deliver l x
     let ws := State.convert l.conv l.size x
     (l.scalar = false → (tfind s.lanes l.thread).isSome = true →
       t = { s with lanes := t.lanes } ∧ (∀ u, u ≠ l.thread → t.lane u = s.lane u) ∧
       (∀ n d, t.vLater l.thread n d = (listWrites l.dst ws n).seen d (s.vLater l.thread n d)) ∧
       (t.lane l.thread).lock = (s.lane l.thread).lock.filter (fun r => !(List.range (State.loadRegs l)).any (fun j => RegRef.v (l.dst + j) == r))) ∧
     (l.scalar = true → (tfind s.gangs (slotOf l.thread)).isSome = true →
       t = { s with gangs := t.gangs } ∧ (∀ n, n ≠ slotOf l.thread → t.gang n = s.gang n) ∧
       (∀ us n d, t.kLater us (slotOf l.thread) n d = (listWrites l.dst ws n).seen d (s.kLater us (slotOf l.thread) n d)) ∧
       (t.gang (slotOf l.thread)).klock =
         (s.gang (slotOf l.thread)).klock.filter (fun r => !(List.range (State.loadRegs l)).any (fun j => l.dst + j == r))))

/-- Global stores: ST, SST for the gang's lowest acting lane, and STF, which converts to the page's format (06 R174, R176,
R178, 04 R124). What `performStores` does is the next statement; the sampler counts the instruction's line requests (12
R323).
The model's own choices here: log 24, 36. -/
def Obligations.GlobalStores : Prop :=
  (∀ (i : Instr) (h : Hdr) (f : FmtM) (scalar : Bool), f.space = 0 →
    (i = .st h f ∧ scalar = false) ∨ (i = .sst h f ∧ scalar = true) →
  ∀ (s s1 s2 : State) (c gid : Nat) (g : Group) (accs : List LaneAcc) (uses : List LineUse),
    let cx := s.issueCtx i h c gid g
    let ts := if scalar then [issuer cx] else cx.act
    let data := fun u => if scalar then s.gangData cx f else s.laneData cx f u
    Clear s i h c gid g → cx.act ≠ [] →
    s.Translates .write (accessBytes f) (s.globalVa cx f) ts accs s1 →
    s1.performStores cx (accs.map (fun a => (a, leBytes (accessBytes f) (data a.thread))))
      (memRel f && s1.wideFor ts f.scope) (memRel f) f.mark (fun _ => none) = ({ uses := uses }, s2) →
    ∃ t, exec i s = .next t ∧ Looked s s1 ∧
      GoesTo (s2.countUses c (asidOf s cx) 1 uses) t i h gid g (nextPc g.pc) .ready false) ∧
  (∀ (h : Hdr) (f : FmtM), f.space ≠ 1 →
  ∀ (s s1 s2 : State) (c gid : Nat) (g : Group) (accs : List LaneAcc) (uses : List LineUse),
    let i := Instr.stf h f
    let cx := s.issueCtx i h c gid g
    let data := fun (a : LaneAcc) =>
      stfBytes (pteFormat a.pte) (f.op.toNat % 8) (f.op.getLsbD 3) (s.fieldValue cx f.kB f.b 1 a.thread)
    Clear s i h c gid g → cx.act ≠ [] → s.Translates .write 1 (s.globalVa cx f) cx.act accs s1 →
    s1.performStores cx (accs.map (fun a => (a, data a)))
      (memRel f && s1.wideFor cx.act f.scope) (memRel f) f.mark formatFault = ({ uses := uses }, s2) →
    ∃ t, exec i s = .next t ∧ Looked s s1 ∧
      GoesTo (s2.countUses c (asidOf s cx) 1 uses) t i h gid g (nextPc g.pc) .ready false)

/-- Stores of one instruction to lines that the core holds, none a release at die scope or wider: the stored bytes are valid
and dirty in the core's L1, of two threads' bytes at one address the higher lane's; every other byte of L1 and all of memory
are unchanged (06 R174, 10 R276, R277). A release store at die scope or wider, to a line that the core holds and whose set
has a way for it, sends the record of the core's epoch to the
line's home, pins the line, and counts the epoch; an epoch that would wrap starts again at 0 once every dirty byte is home
(10 R282).
The model's own choices here: log 30. -/
def Obligations.StoresAndReleases : Prop :=
  (∀ (s : State) (cx : State.Ctx) (stores : List (LaneAcc × List Byte)) (order mark : Bool) (late : LaneAcc → Option Nat),
     stores.Pairwise (fun a b => laneOf a.1.thread ≤ laneOf b.1.thread) →
     (∀ a ∈ stores, s.storeRoute cx.core cx.gid mark a.1 a.2.length = .l1 ∧ a.1.key % 128 + a.2.length ≤ 128 ∧
       (s.l1Line cx.core (a.1.key / 128)).isSome = true ∧ late a.1 = none ∧ s.storeFault cx.core a.1 a.2.length = none) →
     s.outstanding cx.core + stores.length ≤ Config.maxOutstanding →
     s.mayWrite cx.core (stores.map (fun a => a.1.thread)) order false = true →
     ∃ uses t, s.performStores cx stores false order mark late = ({ uses := uses }, t) ∧
       t = { s with cores := t.cores, fresh := t.fresh } ∧
       (∀ key, t.l1Byte cx.core key = match storedAt stores key with | some b => some (b, true) | none => s.l1Byte cx.core key) ∧
       (∀ k, k ≠ cx.core → t.core k = s.core k)) ∧
  (∀ (s : State) (cx : State.Ctx) (a : LaneAcc) (bs : List Byte) (order mark : Bool),
     s.storeRoute cx.core cx.gid mark a bs.length = .l1 → targetOf a.key ≠ .host → s.storeFault cx.core a bs.length = none →
     (s.l1Line cx.core (a.key / 128)).isSome = true → s.setRoom cx.core (a.key / 128) = true →
     s.outstanding cx.core + 1 ≤ Config.maxOutstanding → s.mayWrite cx.core [a.thread] order true = true →
     (s.core cx.core).epoch + 1 < 2 ^ 32 ∨
       ((s.core cx.core).pinned = [] ∧ s.dirtyLines cx.core = [] ∧ s.writeBacks cx.core = []) →
     let e := if (s.core cx.core).epoch + 1 < 2 ^ 32 then (s.core cx.core).epoch else 0
     ∃ t uses id, s.performStores cx [(a, bs)] true order mark (fun _ => none) = ({ uses := uses }, t) ∧
       tfind t.net id = some { core := cx.core, toHome := true, line := a.key / 128, body := .register e } ∧
       (t.core cx.core).epoch = e + 1 ∧ a.key / 128 ∈ (t.core cx.core).pinned)

/-- Scratch loads and stores: LD, LDS, SLD and LDF deliver what the block's scratch holds at each thread's offset; ST,
STS, SST and STF write there, lowest lane first, once the threads' earlier reads have their values, a release once all
their accesses are complete (01 R29, R30, 06 R173-R179, 04 R124, 09 R260). -/
def Obligations.ScratchAccesses : Prop :=
  (∀ (i : Instr) (r : ScratchRow), scratchLoadRow i = some r → ∀ (s : State) (c gid : Nat) (g : Group) (off : Nat → Nat),
    let cx := s.issueCtx i r.h c gid g
    let ts := if r.scalar then [issuer cx] else cx.act
    Clear s i r.h c gid g → cx.act ≠ [] → s.InScratch cx r.f (r.index s cx) true ts off →
    let s1 := ts.foldl (fun s' u => s'.deliver (loadOf r.f r.scalar r.conv ⟨u, 0, 0, 0⟩)
      (s.scratchRead (slotOf u) (off u) (accessBytes r.f))) s
    ∃ t, exec i s = .next t ∧ GoesTo s1 t i r.h gid g (nextPc g.pc) .ready false) ∧
  (∀ (i : Instr) (r : ScratchStoreRow), scratchStoreRow i = some r → ∀ (s : State) (c gid : Nat) (g : Group) (off : Nat → Nat),
    let cx := s.issueCtx i r.h c gid g
    let ts := if r.scalar then [issuer cx] else cx.act
    Clear s i r.h c gid g → cx.act ≠ [] → s.InScratch cx r.f (r.index s cx) false ts off →
    (∀ u ∈ ts, s.readsQuiet u = true ∧ (memRel r.f = true → s.threadQuiet u = true)) →
    let s1 := ts.foldl (fun s' u => s'.scratchWrite (slotOf u) (off u) (leBytes (accessBytes r.f) (r.data s cx u))) s
    ∃ t, exec i s = .next t ∧ GoesTo s1 t i r.h gid g (nextPc g.pc) .ready false) ∧
  (∀ (h : Hdr) (f : FmtM) (s : State) (c gid : Nat) (g : Group) (off : Nat → Nat), f.space = 1 →
    let tag := fun u => s.scratchTag (slotOf u) (off u)
    (let cx := s.issueCtx (.ldf h f) h c gid g
     Clear s (.ldf h f) h c gid g → s.FormatInScratch cx f true cx.act off →
     let s1 := cx.act.foldl (fun s' u => s'.deliver { thread := u, dst := f.d.toNat, scalar := false, key := 0
                                                      size := elemSize (tag u), conv := .fmt (tag u) none }
        (s.scratchRead (slotOf u) (off u) (elemSize (tag u)))) s
     ∃ t, exec (.ldf h f) s = .next t ∧ GoesTo s1 t (.ldf h f) h gid g (nextPc g.pc) .ready false) ∧
    (let cx := s.issueCtx (.stf h f) h c gid g
     Clear s (.stf h f) h c gid g → s.FormatInScratch cx f false cx.act off →
     (∀ u ∈ cx.act, s.readsQuiet u = true ∧ (memRel f = true → s.threadQuiet u = true)) →
     let s1 := cx.act.foldl (fun s' u => s'.scratchWrite (slotOf u) (off u)
        (stfBytes (tag u) (f.op.toNat % 8) (f.op.getLsbD 3) (s.fieldValue cx f.kB f.b 1 u))) s
     ∃ t, exec (.stf h f) s = .next t ∧ GoesTo s1 t (.stf h f) h gid g (nextPc g.pc) .ready false))

/-- ATOMS and CASS: lane after lane, the old value of scratch goes to D and the new value is written; a failed compare
writes nothing (06 R183, R188, R189). They wait like stores (09 R260). A scratch write changes the block's bytes from the
offset on, and nothing else (01 R29). -/
def Obligations.ScratchEffects : Prop :=
  (∀ (i : Instr) (h : Hdr) (f : FmtM) (cas : Bool), (i = .atoms h f ∧ cas = false) ∨ (i = .cass h f ∧ cas = true) →
   ∀ (s : State) (c gid : Nat) (g : Group) (off : Nat → Nat),
     let cx := s.issueCtx i h c gid g
     let op := fun u => if cas then casOf s cx f u else atomOf s cx f u
     Clear s i h c gid g → s.InScratch cx f (fun _ => 0) true cx.act off →
     (∀ u ∈ cx.act, s.readsQuiet u = true ∧ (memRel f = true → s.threadQuiet u = true)) →
     let s1 := cx.act.foldl (fun (s' : State) u =>
       let m := s'.scratchRead (slotOf u) (off u) (accessBytes f)
       deliverOld (match rmw (op u) m with
         | some x => s'.scratchWrite (slotOf u) (off u) (leBytes (accessBytes f) x)
         | none => s') (op u) m) s
     ∃ t, exec i s = .next t ∧ GoesTo s1 t i h gid g (nextPc g.pc) .ready false) ∧
  (∀ (s : State) (slot off : Nat) (bs : List Byte),
     let t := s.scratchWrite slot off bs
     (∃ p ∈ (s.block (s.blockOf slot)).parts, p.core = coreOf slot) → (tfind s.blocks (s.blockOf slot)).isSome = true →
     s.scratchWf slot →
     (∀ a, tget 0 (t.scratchPart slot).scratch a =
       if off ≤ a ∧ a < off + bs.length then bs.getD (a - off) 0 else tget 0 (s.scratchPart slot).scratch a) ∧
     t = { s with blocks := t.blocks, failed := t.failed } ∧
     (∀ k, k ≠ s.blockOf slot → tfind t.blocks k = tfind s.blocks k))

/-- LDC and LD.win write the words of a constant window, each thread's from its index (03 R89, 06 R173, R180). PREF only
asks for lines, and with [22] set does nothing: no byte of L1 changes, no byte of memory but the accessed bit of a table entry
(12 R319), and the requests it adds load no register; CCTL empties the constant or the instruction cache, or writes lines back and
for `.wbinv` drops them: then its threads wait for the acknowledgements of those lines (06 R181, R182).
The model's own choices here: log 17, 94. -/
def Obligations.WindowsAndCacheHints : Prop :=
  (∀ (i : Instr) (h : Hdr) (f : FmtM), i = .ldc h f ∨ (i = .ld h f ∧ f.space ≠ 0 ∧ f.space ≠ 1) →
   ∀ (s s1 : State) (c gid : Nat) (g : Group) (ws : Nat → List W32),
     let cx := s.issueCtx i h c gid g
     Clear s i h c gid g →
     s.ReadsWindow s (cx.head.windows.getD ((f.off.extractLsb' 17 3).toNat) 0)
       (fun u => s.fieldValue cx f.kA f.a 1 u + (f.off.extractLsb' 0 17).toNat) (widthRegs f.width) cx.act ws s1 →
     ∃ t, exec i s = .next t ∧
       GoesTo (cx.act.foldl (fun s' u => s'.writeVs u none f.d.toNat (ws u)) s1) t i h gid g (nextPc g.pc) .ready false) ∧
  ((∀ (h : Hdr) (f : FmtM) (s : State) (c gid : Nat) (g : Group), Clear s (.pref h f) h c gid g →
     let cx := s.issueCtx (.pref h f) h c gid g
     let s1 := if f.op.getLsbD 0 then s else cx.act.foldl (fun s' u => prefetch s' cx u (s.globalVa cx f u)) s
     (∃ t, exec (.pref h f) s = .next t ∧ GoesTo s1 t (.pref h f) h gid g (nextPc g.pc) .ready false) ∧
     ((∀ x ∈ s.requests, x.1 < s.nextId) →
       s1 = { s with cores := s1.cores, writes := s1.writes, net := s1.net, nextId := s1.nextId, drains := s1.drains
                     records := s1.records, failed := s1.failed, fresh := s1.fresh, l2 := s1.l2, hostLines := s1.hostLines
                     requests := s1.requests } ∧
       (∀ k key, s1.l1Byte k key = s.l1Byte k key) ∧ (∀ a, ∃ m : Byte, m &&& 0x3F = 0 ∧ s1.byteAt a = s.byteAt a ||| m) ∧
       (∀ x ∈ s.requests, x ∈ s1.requests) ∧
       ∀ x ∈ s1.requests, x ∈ s.requests ∨ (x.2.core = c ∧ x.2.kind = .load ∧ x.2.loads = [] ∧ x.2.ops = []))) ∧
   (∀ (h : Hdr) (f : FmtM) (s : State) (c gid : Nat) (g : Group), Clear s (.cctl h f) h c gid g →
     let cx := s.issueCtx (.cctl h f) h c gid g
     cx.act ≠ [] →
     (f.op = 0 → ∃ t, exec (.cctl h f) s = .next t ∧
       GoesTo (s.modCore c (fun k => { k with ccache := [] })) t (.cctl h f) h gid g (nextPc g.pc) .ready false) ∧
     (f.op = 1 → ∃ t, exec (.cctl h f) s = .next t ∧
       GoesTo (s.modCore c (fun k => { k with icache := [] })) t (.cctl h f) h gid g (nextPc g.pc) .ready false) ∧
     (∀ (s1 : State) (accs : List LaneAcc), f.op = 2 ∨ f.op = 3 → s.Translates .read 1 (s.globalVa cx f) cx.act accs s1 →
       let lines := (dedup ((accs.filter (fun a => cacheable a.key)).map (fun a => a.key / 128))).filter (fun l => !s1.leasedLine c l)
       (∀ l ∈ lines, s1.pinnedLine c l = false) → (s1.writeBackFit c lines).1 = true →
       let s2 := (s1.writeBackFit c lines).2
       let waits := s2.lineWriteBacks c lines
       let s3 := if f.op = 3 then lines.foldl (fun s' l => (s'.dropL1 c l).markStale c (fun x => x == l)) s2 else s2
       ∃ t, exec (.cctl h f) s = .next t ∧
         GoesTo s3 t (.cctl h f) h gid g (nextPc g.pc) (if waits = [] then .ready else .requests waits) false) ∧
     (f.op = 4 →
       let lines := (s.dirtyLines c).filter (fun l => !s.leasedLine c l)
       (∀ l ∈ lines, s.pinnedLine c l = false) → (s.writeBackFit c lines).1 = true →
       let s2 := (s.writeBackFit c lines).2
       let waits := s2.lineWriteBacks c lines
       ∃ t, exec (.cctl h f) s = .next t ∧
         GoesTo s2 t (.cctl h f) h gid g (nextPc g.pc) (if waits = [] then .ready else .requests waits) false)))

/-- Global accesses that every thread of the group is refused; nothing is loaded or stored, EADDR is the address, and the
sampler counts a line request for each line (06 R176, R178, 12 R323). The exception is 0x11 at an address that is not
canonical, 0x15 at one that is no multiple of the access's size, and otherwise the fault of the translation: 0x11 of a page
that does not permit the access, or of a malformed table, 0x19 or 0x1A of a table that cannot be read (12 R316-R318); it is
0x12 of a store, an atomic or an LSE in a region in state S (07 R208, 10 R299). A page that a core's TLB holds and that does
not permit the access, and whose entry has not changed, gives 0x11 (12 R318, R320). -/
def Obligations.AccessTraps : Prop :=
  (∀ (i : Instr) (h : Hdr) (f : FmtM) (acc : Acc) (align kind : Nat), accessRow i = some (h, f, acc, align, kind) →
   ∀ (s s1 s2 : State) (c gid : Nat) (g : Group) (vec : W64) (code : Nat),
     let cx := s.issueCtx i h c gid g
     let va := s.globalVa cx f
     Clear s i h c gid g → (∀ u ∈ g.members, s.acts h u = true) → s.Denies acc align va code g.members s1 →
     (s1.countUses c (asidOf s cx) kind (State.faultUses [] (g.members.map (fun u => (u, .trap code (va u)))))).Enters
       g.members vec g.pc code va s2 →
     ∃ t, exec i s = .next t ∧ Looked s s1 ∧ Trapped s2 t gid g vec) ∧
  (∀ (i : Instr) (h : Hdr) (f : FmtM) (acc : Acc) (align kind : Nat), accessRow i = some (h, f, acc, align, kind) →
   ∀ (s s1 s2 : State) (c gid : Nat) (g : Group) (vec : W64) (accs : List LaneAcc),
     let cx := s.issueCtx i h c gid g
     let va := s.globalVa cx f
     Clear s i h c gid g → (∀ u ∈ g.members, s.acts h u = true) →
     g.members.Pairwise (fun a b => laneOf a ≤ laneOf b) → s.Translates acc align va g.members accs s1 → InSharedRegion s1 cx i accs →
     ((s1.markDraw (marked i)).countUses c (asidOf s cx) kind
       (State.faultUses [] (g.members.map (fun u => (u, .trap 0x12 (va u)))))).Enters g.members vec g.pc 0x12 va s2 →
     ∃ t, exec i s = .next t ∧ Looked s s1 ∧ Trapped s2 t gid g vec) ∧
  (∀ (s : State) (w : Who) (a : W64) (acc : Acc) (e : TlbEntry), canonicalVa a = true →
     (s.core w.core).tlb.find? (fun x => tlbHit x w.asid (a.toNat % 2 ^ 57)) = some e → permits e.pte w.prv acc = false →
     (walk s w (a.toNat % 2 ^ 57) false).2.1 = some e → (translate s w a acc).1 = .fault 0x11)

/-- ATOM and CAS send their operations, one request for each line, and interlock D; RED sends its reductions, one message
for each line, and waits for nothing (06 R183-R188, 10 R283, R295, R297, R303). What a request does at its home is
`LeasesGrantAndEnd`.
The model's own choices here: log 28, 29, 95. -/
def Obligations.AtomicsSend : Prop :=
  (∀ (i : Instr) (h : Hdr) (f : FmtM) (cas : Bool), (i = .atom h f ∧ cas = false) ∨ (i = .cas h f ∧ cas = true) →
  ∀ (s s1 : State) (c gid : Nat) (g : Group) (accs : List LaneAcc),
    let cx := s.issueCtx i h c gid g
    let mk := fun u => if cas then casOf s cx f u else atomOf s cx f u
    Clear s i h c gid g → cx.act ≠ [] → s.Translates .rw (accessBytes f) (s.globalVa cx f) cx.act accs s1 →
    let ops := s1.atomics cx f false (if cas then 17 else f.op.toNat) mk accs
    AtomicsRun s1 cx f ops →
    let wide := s1.wideFor cx.act f.scope
    let r := sendAtomics (ops.foldl (fun s' o => lockOld s' o.2.1) (s1.markDraw f.mark)) c ops (memAcq f && wide) (memRel f && wide)
    let uses := State.lineUses accs (fun a => (s1.l1Line c (a.key / 128)).isSome) (fun a => ops.any (fun o => o.1 == a && o.2.2 == .far))
    ∃ t, exec i s = .next t ∧
      GoesTo (r.2.countUses c (asidOf s cx) 2 uses) t i h gid g (nextPc g.pc)
        (if memAcq f = false ∨ r.1 = [] then .ready else .requests r.1) false) ∧
  (∀ (h : Hdr) (f : FmtM) (s s1 : State) (c gid : Nat) (g : Group) (accs : List LaneAcc),
    let i := Instr.red h f
    let cx := s.issueCtx i h c gid g
    Clear s i h c gid g → cx.act ≠ [] → s.Translates .rw (accessBytes f) (s.globalVa cx f) cx.act accs s1 →
    let ops := s1.atomics cx f true f.op.toNat (atomOf s cx f) accs
    RedsRun s1 cx f ops →
    let s2 := redPeers (s1.markDraw f.mark) f.op.toNat (memRel f && s1.wideFor cx.act f.scope)
      ((ops.filter (fun o => o.2.2 == .peer)).map (fun o => (o.1, o.2.1)))
    let s3 := (linesOf (ops.filter (fun o => o.2.2 != .peer))).foldl (fun s' line =>
      let mine := ops.filter (fun o => o.2.2 != .peer && o.1.key / 128 == line)
      sendRed s' c line (mine.map (fun o => (o.1, o.2.1)))
        (memRel f && s1.wideFor cx.act f.scope && mine.all (fun o => o.2.2 == .l1)) (!memRel f && mergeable f.op.toNat)) s2
    let uses := State.lineUses accs (fun _ => false) (fun a => ops.any (fun o => o.1 == a && o.2.2 == .far))
    ∃ t, exec i s = .next t ∧ GoesTo (s3.countUses c (asidOf s cx) 4 uses) t i h gid g (nextPc g.pc) .ready false) ∧
  (∀ (s : State) (c : Nat) (ops : List (LaneAcc × LaneOp × Place)) (acq rel : Bool),
    (∀ x ∈ s.requests, x.1 < s.nextId) → (∀ x ∈ s.net, x.1 < s.nextId) →
    (ops.map (fun o => o.2.1.thread)).Nodup → (∀ o ∈ ops, (tfind s.lanes o.2.1.thread).isSome = true) →
    let r := sendAtomics (ops.foldl (fun s' o => lockOld s' o.2.1) s) c ops acq rel
    r.1.length = (linesOf ops).length ∧ r.1.Nodup ∧
    (∀ line ∈ linesOf ops,
      let mine := ops.filter (fun o => o.1.key / 128 == line)
      let near := mine.any (fun o => o.2.2 == .l1)
      ∃ id ∈ r.1, ∃ q, tfind r.2.requests id = some q ∧ q.core = c ∧ q.line = line ∧ q.ops = mine.map (fun o => o.2.1) ∧
        q.acquire = acq ∧ q.kind = (if near then .atomic else .atomicFar) ∧ (q.release.isSome = (rel && near)) ∧
        (if near = true ∨ isDevMem (line * 128) = true then
           ∃ x ∈ r.2.leaseQueue, x.req = id ∧ x.core = c ∧ x.line = line ∧ x.holder = none
         else ∃ m, tfind r.2.net m = some { core := c, toHome := true, line := line, body := .read id })) ∧
    ∀ o ∈ ops, r.2.lane o.2.1.thread = { s.lane o.2.1.thread with
      lock := (s.lane o.2.1.thread).lock ++ (List.range (o.2.1.size / 4)).map (fun j => RegRef.v (o.2.1.dst + j)) }) ∧
  (∀ (s : State) (c line : Nat) (o : LaneAcc × LaneOp) (ops : List (LaneAcc × LaneOp)) (rel held : Bool),
    let t := sendRed s c line (o :: ops) rel held
    t.lanes = s.lanes ∧ t.requests = s.requests ∧
    ∃ id, tfind t.net id = some (redMsg c line o ops (if rel then some ((s.core c).epoch + ops.length) else none) held))

/-- LSE: lanes that hold their lease or are refused read the line and write their predicate; lanes that ask for free lines
are granted them at once, while no other group of the partition holds leases (06 R190-R192, 10 R291, R292). A granted
lease: the thread has the bytes of memory in D and its predicate true; the lease stands in the core's lease buffer and in
the home's table, with the core's LEASEMAX (06 R192, 08 R245, 10 R291, R292). STL stores into the leased line while the
lease runs, and writes its predicate true; without a lease, or past LEASEMAX, it stores nothing and writes false (06 R193).
LSEND of a lease starts its write-through, after the record of a release, and the group waits for the acknowledgement;
without a lease it writes its predicate false and goes on (06 R194, 10 R283, R292). The wait ends with the write-through's
event: `LeasesGrantAndEnd`.
The model's own choices here: log 33, 34. -/
def Obligations.LeaseInstructions : Prop :=
  ((∀ (h : Hdr) (f : FmtM) (s s1 s2 : State) (c gid : Nat) (g : Group) (accs : List LaneAcc) (waits : List Nat) (us : List LineUse),
     let i := Instr.lse h f
     let cx := s.issueCtx i h c gid g
     Clear s i h c gid g → cx.act ≠ [] → s.Translates .lease (accessBytes f) (s.globalVa cx f) cx.act accs s1 →
     (∀ a ∈ accs, leaseTrap s1 true a = none ∧ s1.readsQuiet a.thread = true) →
     let now := (lseCases s1 c accs).filter (fun p => p.2 != .ask)
     let ask := (lseCases s1 c accs).filter (fun p => p.2 == .ask)
     s1.performLoads c (now.map (fun p => (p.1, lseLoad f p.1))) (memAcq f && s1.wideFor cx.act f.scope) (memAcq f) false
       = ({ waits := waits, uses := us }, s2) →
     let s3 := logRefusal (now.foldl (fun s' p => s'.writeP p.1.thread (leasePred f) (p.2 == .held) none) s2) c
       ((now.filter (fun p => p.2 == .refused)).map (·.1))
     let r := ask.foldl (lseAsk h f cx) ([], s3)
     leaseTaken s3 cx = false → r.1 = [] →
     ∃ t, exec i s = .next t ∧
       GoesTo (r.2.countUses c (asidOf s cx) 3 (us ++ State.lineUses (ask.map (fun p => p.1)) (fun _ => false) s3.inM)) t i h gid g
         (nextPc g.pc) (if waits = [] then .ready else .requests waits) false) ∧
   (∀ (h : Hdr) (f : FmtM) (s s1 : State) (c gid : Nat) (g : Group) (u key : Nat) (pte : W64),
     let i := Instr.lse h f
     let cx := s.issueCtx i h c gid g
     let a : LaneAcc := ⟨u, s.globalVa cx f u, key, pte⟩
     let line := key / 128
     let rq : Request := { core := c, line := line, kind := .leaseLoad, loads := [lseLoad f a], ops := [], va := a.va
                           acquire := memAcq f && s1.wideFor [u] f.scope, release := none, near := pteNear pte, il := pteIl pte }
     let lq : LeaseReq := { core := c, line := line, holder := some u, req := s1.nextId, pred := leasePred f
                            stall := h.stall.toNat, leasemax := (s1.core c).leasemax, issue := s1.issued }
     let live := (s1.core c).leases.filter (liveLease s1 c)
     Clear s i h c gid g → cx.act = [u] → s.Translates .lease (accessBytes f) (s.globalVa cx f) [u] [a] s1 →
     leaseTrap s1 true a = none → s1.readsQuiet u = true → s1.outstanding c ≤ Config.maxOutstanding →
     (∀ l ∈ live, l.holder = some u → l.line ≠ line) → (live.filter (fun l => l.holder == some u)).length < 2 →
     bufferUse s1 c < Config.coreLeases → s1.channelKeeps line = false →
     (s1.core c).outside = false → leaseTaken s1 cx = false → lineFree s1 line = true → (∀ q ∈ s1.leaseQueue, q.line ≠ line) →
     grantReady s1 rq s1.nextId = true → grantFault s1 rq = none → s1.record line = none → s1.drainFor line = none →
     ∃ t, exec i s = .next t ∧
       GoesTo ((grantLine (s1.touchL2 line) rq lq u).countUses c (asidOf s cx) 3 (State.lineUses [a] (fun _ => false) s1.inM)) t i h gid g
         (nextPc g.pc) .ready false)) ∧
  (∀ (s : State) (r : Request) (q : LeaseReq) (t : Nat) (l : LaneLoad),
     r.loads = [l] → r.core = q.core → r.line = q.line → q.holder = some t → l.thread = t → l.scalar = false → l.conv = .zext →
     l.key / 128 = r.line → l.key % 128 + l.size ≤ 128 → q.pred < 7 → (tfind s.lanes t).isSome = true →
     Memory.wf s.mem → s.ownCells r.core r.line = [] → s.l1Line r.core r.line = none →
     (s.setOf r.core r.line).length < Config.l1Ways → (∀ k, FailedWord.l1 r.core k ∈ s.failed → k / 16 ≠ r.line) →
     let s1 := grantLine s r q t
     (∀ n, l.dst ≤ n → n < l.dst + State.loadRegs l →
       (s1.lane t).vreg n = BitVec.ofNat 32 (s.natAt l.key l.size / 2 ^ (32 * (n - l.dst)))) ∧
     (s1.lane t).pred q.pred = true ∧
     (∃ x ∈ (s1.core r.core).leases, x.line = r.line ∧ x.holder = some t ∧ x.leasemax = (s.core r.core).leasemax ∧
       x.granted = s.clockOf r.core ∧ x.revoked = false) ∧
     (∃ e, tfind s1.leaseTab r.line = some e ∧ e.core = r.core ∧ e.holder = some t ∧ e.tick = s.time ∧ e.leasemax = q.leasemax) ∧
     s1.mem = s.mem ∧ s1.writes = s.writes) ∧
  ((∀ (h : Hdr) (f : FmtM) (s s1 : State) (c gid : Nat) (g : Group) (accs : List LaneAcc),
     let i := Instr.stl h f
     let cx := s.issueCtx i h c gid g
     Clear s i h c gid g → cx.act ≠ [] → s.Translates .write (accessBytes f) (s.globalVa cx f) cx.act accs s1 →
     (∀ a ∈ accs, leaseTrap s1 false a = none ∧ s1.readsQuiet a.thread = true ∧
       ∀ l, leaseOf s1 c (a.key / 128) a.thread = some l → l.revoked = false ∧ s1.storeFault c a (accessBytes f) = none ∧
         (s1.l1Line c (a.key / 128)).isSome = true) →
     let s2 := (accs.foldl (stlLane f cx (s.laneData cx f)) ([], s1)).2
     let uses := State.lineUses accs (fun a => (s1.l1Line c (a.key / 128)).isSome) s1.inM
     ∃ t, exec i s = .next t ∧ GoesTo (s2.countUses c (asidOf s cx) 3 uses) t i h gid g (nextPc g.pc) .ready false) ∧
   (∀ (f : FmtM) (cx : State.Ctx) (data : Nat → Nat) (s : State) (a : LaneAcc),
     let p := leasePred f
     (leaseOf s cx.core (a.key / 128) a.thread = none → stlLane f cx data ([], s) a = ([], s.writeP a.thread p false none)) ∧
     (∀ l, leaseOf s cx.core (a.key / 128) a.thread = some l → l.revoked = false →
       (l.leasemax ≤ s.clockOf cx.core - l.granted → stlLane f cx data ([], s) a = ([], s.writeP a.thread p false none)) ∧
       (s.clockOf cx.core - l.granted < l.leasemax → s.storeFault cx.core a (accessBytes f) = none →
         a.key % 128 + accessBytes f ≤ 128 → (s.l1Line cx.core (a.key / 128)).isSome = true →
         let t := (stlLane f cx data ([], s) a).2
         (stlLane f cx data ([], s) a).1 = [] ∧ (p < 7 → (t.lane a.thread).pred p = true) ∧
         ∀ k < accessBytes f, t.l1Byte cx.core (a.key + k) = some (BitVec.ofNat 8 (data a.thread / 256 ^ k), true))))) ∧
  ((∀ (h : Hdr) (f : FmtM) (s s1 s2 : State) (c gid : Nat) (g : Group) (accs : List LaneAcc),
     let i := Instr.lsend h f
     let cx := s.issueCtx i h c gid g
     Clear s i h c gid g → cx.act ≠ [] → s.Translates .write 1 (s.globalVa cx f) cx.act accs s1 →
     let held := accs.filter (fun a => (leaseOf s1 c (a.key / 128) a.thread).any (liveLease s1 c))
     let rel := memRel f && s1.wideFor cx.act f.scope && !held.isEmpty
     let far := rel && held.any (farLease s1)
     let w := if far then s1.flushAll c (fun l => held.any (fun a => a.key / 128 == l)) else (true, s1)
     let uses := State.lineUses accs (fun _ => false)
     (∀ a ∈ accs, leaseTrap s1 false a = none ∧ ∀ l, leaseOf s1 c (a.key / 128) a.thread = some l → l.revoked = false) →
     s1.mayWrite c (accs.map (fun a => a.thread)) (memRel f) false = true →
     (rel = true → s1.probesAwait c (held.map (fun a => a.key / 128)) = true ∧ (s1.core c).epoch + held.length < 2 ^ 32 ∧
       (far = true → (s1.core c).pinned = [])) →
     w.1 = true →
     (held = [] → ∃ t, exec i s = .next t ∧
       GoesTo ((accs.foldl (fun s' a => s'.writeP a.thread (leasePred f) false none) s1).countUses c (asidOf s cx) 3 (uses s1.inM)) t
         i h gid g (nextPc g.pc) .ready false) ∧
     (held ≠ [] → accs.foldl (lsendLane h f cx rel (if far then w.2.writeBacks c else [])) ([], w.2)
         = (held.map (fun a => (a.thread, .stay .lease)), s2) →
       ∃ t, exec i s = .next t ∧ Waits (s2.countUses c (asidOf s cx) 3 (uses w.2.inM)) t gid g .lease)) ∧
   (∀ (h : Hdr) (f : FmtM) (cx : State.Ctx) (rel : Bool) (flush : List Nat) (s : State) (a : LaneAcc),
     let line := a.key / 128
     let r := lsendLane h f cx rel flush ([], s) a
     let note := some (leasePred f, h.stall.toNat, lineVa a.va)
     (leaseOf s cx.core line a.thread = none → r = ([], s.writeP a.thread (leasePred f) false none)) ∧
     (∀ l, leaseOf s cx.core line a.thread = some l → l.revoked = false →
       (l.leasemax ≤ s.clockOf cx.core - l.granted → r = ([], s.writeP a.thread (leasePred f) false none)) ∧
       (s.clockOf cx.core - l.granted < l.leasemax →
         (rel = true → farLease s a = false → s.setRoom cx.core line = true →
           r.1 = [(a.thread, .stay .lease)] ∧ line ∈ (r.2.core cx.core).pinned ∧
           (∃ id, tfind r.2.net id = some
             { core := cx.core, toHome := true, line := line, body := .register (s.core cx.core).epoch }) ∧
           ∃ x ∈ (r.2.core cx.core).leases, x.line = line ∧ x.holder = some a.thread ∧ x.record = true ∧ x.ending = false ∧
             x.notify = note) ∧
         (rel = false ∨ farLease s a = true → flush = [] → s.pinnedLine cx.core line = false →
           s.outstanding cx.core < Config.maxOutstanding →
           let cells := (s.l1Line cx.core line).elim ([], []) (fun k => s.wbCells cx.core line (State.dirtyCells k))
           r.1 = [(a.thread, .stay .lease)] ∧
           (∃ id, tfind r.2.net id = some
             { core := cx.core, toHome := true, line := line, body := .leaseWrite cells.1 cells.2 (some a.thread) }) ∧
           ∃ x ∈ (r.2.core cx.core).leases, x.line = line ∧ x.holder = some a.thread ∧ x.ending = true ∧ x.notify = note)))))

/-! ### Synchronisation, weirs, engines, populations. -/

/-- FENCE goes on when the earlier accesses it orders are complete and, for a release at die scope or wider, every dirty
byte is written back; an acquire drops the core's clean bytes (07 R200, 10 R281, R283). BAR and BARA: the gang, all its
live threads at the instruction, arrives at the open phase of its block's barrier; after BAR it waits past the instruction
unless the phase has completed, after BARA it goes on, and BAR.wait waits for the phase of its last BARA (07 R201, R202).
A barrier's open phase completes when every live gang of its block has arrived: the next phase opens with no arrival, and
the groups that waited for it are ready; while one has not arrived, nothing changes (07 R201).
The model's own choices here: log 30. -/
def Obligations.FencesAndBarriers : Prop :=
  (∀ (h : Hdr) (f : FmtM) (s : State) (c gid : Nat) (g : Group),
     let i := Instr.fence h f
     let cx := s.issueCtx i h c gid g
     let wide := s.wideFor cx.act f.scope
     Clear s i h c gid g → cx.act ≠ [] →
     s.releaseReady c cx.act (memRel f && wide) = true →
     (memRel f = true → wide = true → s.EagerFree c gid (fun _ => false)) →
     ∃ t, exec i s = .next t ∧ GoesTo (if memAcq f ∧ wide then s.dropClean c else s) t i h gid g (nextPc g.pc) .ready false) ∧
  (∀ (i : Instr) (h : Hdr) (f : FmtC) (wait : Bool), (i = .bar h f ∧ wait = true) ∨ (i = .bara h f ∧ wait = false) →
   ∀ (s : State) (c gid : Nat) (g : Group),
     let cx := s.issueCtx i h c gid g
     let id := barId f
     let bk := s.blockOf g.slot
     let b := s.block bk
     let st := barState b id
     Clear s i h c gid g → s.missing cx = [] → cx.act ≠ [] →
     ((wait && f.mods.getLsbD 4) = false → g.slot ∉ st.arrived → s.releaseReady c g.members (wideScope b.scope) = true →
       (wideScope b.scope = true → s.EagerFree c gid (fun _ => false)) →
       let s2 := (s.modBlock bk (fun b => { b with bars := tput b.bars id { phase := st.phase, arrived := st.arrived ++ [g.slot] } })).modGang
         g.slot (fun x => { x with bars := tput x.bars id { nextPhase := st.phase + 1, bara := if wait then none else some st.phase } })
       let s3 := s2.tryBarrier bk id
       ∃ t, exec i s = .next t ∧
         if wait = false then GoesTo s3 t i h gid g (nextPc g.pc) .ready false
         else if (barState (s3.block bk) id).phase = st.phase then GoesTo s3 t i h gid g (nextPc g.pc) (.barrier id st.phase) false
         else GoesTo (s3.acquireAt c b.scope) t i h gid g (nextPc g.pc) .ready false) ∧
     ((wait && f.mods.getLsbD 4) = true →
       let s1 := s.modGang g.slot (fun x => { x with bars := tmod x.bars id (fun y => { y with bara := none }) })
       ∃ t, exec i s = .next t ∧ match (tfind (s.gang g.slot).bars id).bind (fun y => y.bara) with
         | none => GoesTo s t i h gid g (nextPc g.pc) .ready false
         | some p => if p < st.phase then GoesTo (s1.acquireAt c b.scope) t i h gid g (nextPc g.pc) .ready false
           else GoesTo s1 t i h gid g (nextPc g.pc) (.barrier id p) false)) ∧
  (∀ (s : State) (bk id : Nat), (tfind s.blocks bk).isSome = true →
     let b := s.block bk
     let st := barState b id
     let slots := b.parts.flatMap (fun p => p.slots)
     let members := slots.filter (fun n => s.liveOf n != [] && (tfind (s.gang n).barrierMember id).getD 0 ≤ st.phase)
     let t := s.tryBarrier bk id
     (b.saved = false → st.arrived ≠ [] → (∀ n ∈ members, n ∈ st.arrived) →
       barState (t.block bk) id = { phase := st.phase + 1, arrived := [] } ∧
       ∀ gid g p, tfind s.groups gid = some g → g.status = .barrier id p → p ≤ st.phase → (∃ u ∈ g.members, slotOf u ∈ slots) →
         (tfind t.groups gid).map (fun x => x.status) = some .ready) ∧
     (∀ n ∈ members, n ∉ st.arrived → t = s))

/-- WDECL opens a weir with its declared set, WSIGN and WJOIN sign, once the threads' earlier accesses are complete (09
R272); the signature that completes the declared set wakes the joiners with true and closes the round, and WJOIN before
that writes false or waits (07 R203-R206). -/
def Obligations.WeirsDeclareAndSign : Prop :=
  ∀ (h : Hdr) (f : FmtC) (s : State) (c gid : Nat) (g : Group),
    let w := f.weir.toNat
    let x := s.weir g.slot w
    let mask := laneMask g.members
    let signed := x.signed ||| mask
    let closed := (s.wakeJoiners g.slot w false true).closeRound g.slot w
    let opened := { x with signed := signed, round := some none, state := .opened }
    let tell := fun (s' : State) (b : Bool) => g.members.foldl (fun s'' u => s''.writeP u f.d.toNat b none) s'
    (Clear s (.wdecl h f) h c gid g → (∃ u ∈ g.members, s.acts h u = true) → x.signed = 0 →
      let set := if f.mods.getLsbD 0 then mask else s.kreg g.members g.slot f.a.toNat &&& laneMask (s.liveOf g.slot)
      ∃ t, exec (.wdecl h f) s = .next t ∧
        GoesTo (s.setWeir g.slot w { Weir.idle with declared := set, state := if set = 0 then .idle else .opened }) t (.wdecl h f) h
          gid g (nextPc g.pc) .ready false) ∧
    (Clear s (.wsign h f) h c gid g → State.weirFault x mask none = false → (∀ u ∈ g.members, s.threadQuiet u = true) →
      ∃ t, exec (.wsign h f) s = .next t ∧
        GoesTo (if signed = x.declared then closed else s.setWeir g.slot w opened) t (.wsign h f) h gid g (nextPc g.pc) .ready false) ∧
    (Clear s (.wjoin h f) h c gid g → State.weirFault x mask none = false → (∀ u ∈ g.members, s.threadQuiet u = true) →
      ∃ t, exec (.wjoin h f) s = .next t ∧
        if signed = x.declared then GoesTo (tell closed true) t (.wjoin h f) h gid g (nextPc g.pc) .ready false
        else if f.mods = 0 then GoesTo (tell (s.setWeir g.slot w opened) false) t (.wjoin h f) h gid g (nextPc g.pc) .ready false
        else
          let n := 16 * f.mods.toNat + 1
          let left := if f.mods = 0x7FFFF then x.timeout else if x.timeout = 0 then n else min x.timeout n
          GoesTo (s.setWeir g.slot w { opened with timeout := left }) t (.wjoin h f) h gid g
            (nextPc g.pc) (.join w (f.mods != 0x7FFFF) (BitVec.ofNat 3 f.d.toNat)) false) ∧
    (∀ (s1 : State) (vec : W64) (i : Instr), i = .wsign h f ∨ i = .wjoin h f → Clear s i h c gid g →
      State.weirFault x mask none = true → s.Enters g.members vec g.pc 0x0A (fun _ => BitVec.ofNat 64 w) s1 →
      ∃ t, exec i s = .next t ∧ Trapped s1 t gid g vec)

/-- TKWAIT goes on when the gang has no such token, or its work is complete: a recorded fault is raised once; the thread that
issued the work sees its results and the token is taken, which for another's wait stays without its fault (07 R207). RGN
queues its state change at the region's home and waits past the instruction for it; it is a release first (07 R208, 10 R299,
R300).
The model's own choices here: log 9, 42. -/
def Obligations.TokensAndRegions : Prop :=
  (∀ (h : Hdr) (f : FmtC) (s : State) (c gid : Nat) (g : Group), Clear s (.tkwait h f) h c gid g →
     (∃ u ∈ g.members, s.acts h u = true) →
     let v := s.kreg g.members g.slot f.a.toNat
     match (s.gang g.slot).tokens.find? (fun x => x.value == v) with
     | none => ∃ t, exec (.tkwait h f) s = .next t ∧ GoesTo s t (.tkwait h f) h gid g (nextPc g.pc) .ready false
     | some x => s.tokenComplete c x = true →
       let gone := g.members.contains x.thread || !(s.lane x.thread).live
       let s1 := s.modGang g.slot (fun y => { y with tokens := y.tokens.filterMap (fun z =>
         if z.job ≠ x.job then some z else if gone then none else some { z with fault := none }) })
       let s2 := if x.thread ∈ g.members then s1.dropClean c else s1
       (x.fault = none → ∃ t, exec (.tkwait h f) s = .next t ∧ GoesTo s2 t (.tkwait h f) h gid g (nextPc g.pc) .ready false) ∧
       (∀ code ea vec s3, x.fault = some (code, ea) → s2.Enters g.members vec g.pc code (fun _ => ea) s3 →
         ∃ t, exec (.tkwait h f) s = .next t ∧ Trapped s3 t gid g vec)) ∧
  (∀ (h : Hdr) (f : FmtM) (s s1 : State) (c gid key : Nat) (g : Group) (pte : W64),
     let i := Instr.rgn h f
     let cx := s.issueCtx i h c gid g
     let u := cx.act.headD 0
     let va := s.globalVa cx f u
     Clear s i h c gid g → cx.act ≠ [] → canonicalVa va = true → translate s (s.who u) va .write = (.ok key pte, s1) →
     pteNear pte = true → targetOf key = .hbm → s1.releaseReady c [u] true = true → s1.EagerFree c gid (fun _ => false) →
     let d := regionEntry s1 (key / 4096)
     let s2 := startTransition { s1 with
       nextId := s1.nextId + 1
       regionDir := tput s1.regionDir (key / 4096) { d with queue := d.queue ++ [(f.op.toNat, c, s1.nextId)] } } (key / 4096)
     ∃ t, exec i s = .next t ∧ GoesTo s2 t i h gid g (nextPc g.pc) (.region s1.nextId) false)

/-- An instruction of classes 0xA and 0xB, or MRED, takes effect once for the gang. Without a weir: when all live threads
of the gang are at it and a guard holds. MLD, MSWP, MMA, MMAP, MGUIDE, ACCZ, ACCRD, ACCWR, ACC2S, SCLD, CPY, CPY2D, GATH,
SCAT, QDUAL, CAST and MRED then issue whenever their operands pass the checks of their entry (`Accepts`). With a weir: a
group that does not complete the declared set signs and goes on; the one that does issues for the set, and the round
closes (01 R18, 07 R203, R209, 08 R221, 06 R196). MMAP, MGUIDE, and MLD and MSWP with the pair bit, in a pair kernel: the
entry's checks first; the first gang of the pair waits at it; when the other gang reaches its own with equal fields and
scalars, it is queued once for both, and both go on; unequal ones fault with 0x0C; alone after PDISS it is queued by itself,
but MGUIDE does nothing more (07 R215, 18 R401).
The model's own choices here: log 43, 44. -/
def Obligations.OnceInstructions : Prop :=
  (∀ (i : Instr) (h : Hdr) (f : FmtX) (b : OnceBody), roundBody i = some (f, b) →
   ∀ (s s1 : State) (c gid : Nat) (g : Group),
     let cx := s.issueCtx i h c gid g
     let w := f.weir.toNat
     let x := s.weir g.slot w
     let mask := laneMask g.members
     Clear s i h c gid g → State.pairedInstr cx.head i = false → s.setQuiet cx i f = true →
     (f.wv = false → s.missing cx = [] → cx.act ≠ [] →
       let o := s.onceOf cx i mask true []
       (b o s = (.done, s1) → ∃ t, exec i s = .next t ∧ GoesTo s1 t i h gid g (nextPc g.pc) .ready false) ∧
       (Accepts s o f → ∃ u t, b o s = (.done, u) ∧ exec i s = .next t ∧ GoesTo u t i h gid g (nextPc g.pc) .ready false)) ∧
     (f.wv = true → State.weirFault x mask (some (g.pc, i)) = false →
       (x.signed ||| mask ≠ x.declared →
         let locks := s.roundLocks cx i f
         let s2 := (s.lockAll locks).setWeir g.slot w
           { x with signed := x.signed ||| mask, round := some (some (g.pc, i)), state := .opened
                    guardHeld := x.guardHeld || !cx.act.isEmpty, locked := x.locked ++ locks }
         ∃ t, exec i s = .next t ∧ GoesTo s2 t i h gid g (nextPc g.pc) .ready false) ∧
       (x.signed ||| mask = x.declared → (x.guardHeld = true ∨ cx.act ≠ []) →
         let o := s.onceOf cx i x.declared true x.locked
         let after := fun (u : State) => (u.closeRound g.slot w).unlockAll x.locked
         (b o s = (.done, s1) → ∃ t, exec i s = .next t ∧ GoesTo (after s1) t i h gid g (nextPc g.pc) .ready false) ∧
         (Accepts s o f → ∃ u t, b o s = (.done, u) ∧ exec i s = .next t ∧
           GoesTo (after u) t i h gid g (nextPc g.pc) .ready false)))) ∧
  (∀ (i : Instr) (h : Hdr) (f : FmtX), fmtX? i = some f → f.wv = false →
   ∀ (s : State) (c gid p : Nat) (g : Group),
     let cx := s.issueCtx i h c gid g
     let o := s.onceOf cx i (laneMask g.members) (!cx.act.isEmpty) []
     let role := (s.gang g.slot).pair
     Clear s i h c gid g → State.pairedInstr cx.head i = true → s.missing cx = [] → role ≠ .dissolved →
     (cx.act ≠ [] → Accepts s o f) →
     ∃ sc u, matrixEntry i f o s = (.inr sc, u) ∧
       (role = .paired → (s.gang g.slot).partner = some p → p ≠ g.slot → (s.gang g.slot).pairOp = none →
         ((s.gang p).pairOp = none →
           ∃ t, exec i s = .next t ∧
             Waits (u.modGang g.slot (fun y => { y with pairOp := some { op := o, scale := sc } })) t gid g .pairWait) ∧
         (∀ x, (s.gang p).pairOp = some x → pairKey o = pairKey x.op →
           let s2 := (answerPair u x none).modGang g.slot (fun y => { y with pairCount := y.pairCount + 1 })
           let s3 := if o.act ∨ x.op.act then enqueue f { op := o, scale := sc } (some x) s2 else s2
           ∃ t, exec i s = .next t ∧ GoesTo s3 t i h gid g (nextPc g.pc) .ready false) ∧
         (∀ x vec s2, (s.gang p).pairOp = some x → pairKey o ≠ pairKey x.op →
           (answerPair u x (some (0x0C, 0))).Enters g.members vec g.pc 0x0C (fun _ => 0) s2 →
           Stands (answerPair u x (some (0x0C, 0))) gid g →
           ∃ t, exec i s = .next t ∧ Trapped s2 t gid g vec)) ∧
       (role ≠ .paired →
         let s2 := if o.act ∧ opcodeOfInstr i ≠ 0x284 then enqueue f { op := o, scale := sc } none u else u
         ∃ t, exec i s = .next t ∧ GoesTo s2 t i h gid g (nextPc g.pc) .ready false))

/-- A class 0xA instruction that passes its checks stands last in its engine's queue, with its gang, lanes and scalars; an
MGUIDE of a solo gang does nothing (07 R209, R215, R217, 18 R397). MATRIX_COMPLETE performs the oldest instruction of an
engine: its registers are no longer interlocked and its tokens complete (18 R397). MSWP swaps the planes, MLD loads the
shadow plane, MMA and the MMAP of a gang alone add each streamed row's dot product with each plane column, blocks scaled, to
the word of its accumulator row, the MMAP of a pair the rows of the conditional gang and those of the unconditional one, each
where its gang's guard held, and in rows that both write first the conditional's (07 R214, R216); ACCZ clears its rows and no other, ACCWR rounds the registers of its issue into its rows,
ACC2S writes its rows to scratch, SCLD loads scale memory from scratch, ACCRD in FP32 gives each lane its two words of each row; MGUIDE of a pair
replaces each row C of the conditional gang by w·(C − U) + U, whose rows U stay (07 R213, R217-R219).
The model's own choices here: log 44, 90 (the blocks with a scale or a tensor scale of zero). -/
def Obligations.EngineQueuesAndEffects : Prop :=
  (∀ (i : Instr) (f : FmtX), fmtX? i = some f → classOf i = 0xA → f.sc = false →
   ∀ (s : State) (o : Once), o.instr = i → o.act = true → tfind (s.gang o.slot).engineFault f.eng.toNat = none →
     matrixFault (s.headerOf o.slot) s o.slot i f o.scalars (s.engine o.core f.eng.toNat) = none → valuesLocked s o f = false → valueFailed s o f = none →
     let paired := State.pairedInstr (s.headerOf o.slot) i
     (paired = true → (s.gang o.slot).pair ≠ .paired) →
     let r := matrixBody i f o s
     r.1 = .done ∧
     if opcodeOfInstr i = 0x284 ∧ paired = true then r.2 = s
     else ∃ op, (r.2.engine o.core f.eng.toNat).queue = (s.engine o.core f.eng.toNat).queue ++ [op] ∧
       op.instr = i ∧ op.gang = o.slot ∧ op.lanes = o.lanes ∧ op.scalars = o.scalars ∧ op.doSelf = true ∧
       op.other = none ∧ (op.token.isSome = true ↔ f.tk = true) ∧
       (opcodeOfInstr i = 0x287 → op.values = o.threads.flatMap (fun t => (List.range (accRegs f)).map (fun r =>
         (32 * r + laneOf t, (s.lane t).vreg ((o.scalars.getD 0 0).toNat + r)))))) ∧
  ((∀ (s s1 : State) (c m : Nat) (o : EngineOp) (rest : List EngineOp), (s.engine c m).queue = o :: rest →
     performOp c m o (s.modEngine c m (fun e => { e with queue := rest })) = (none, s1) →
     let s2 := o.locked.foldl (fun s' x => s'.modLane x.1 (fun l => { l with lock := l.lock.erase x.2 })) s1
     let s3 := if o.token.isSome then s2.finishToken o.gang o.id none else s2
     let s4 := match o.other with
       | some (p, _, _, some _) => s3.finishToken p o.id none
       | _ => s3
     exec (.matrixComplete c m) s = .next (match o.other with
       | some (p, _) => (s4.reap o.gang).reap p
       | none => s4.reap o.gang)) ∧
   (∀ (s : State) (c m : Nat) (o : EngineOp), s.failed = [] →
     let r := performOp c m o s
     (∀ h f, o.instr = .mswp h f → r.1 = none ∧ (r.2.engine c m).active = (s.engine c m).shadow ∧
       (r.2.engine c m).shadow = (s.engine c m).active) ∧
     (∀ h f, o.instr = .mld h f → r.1 = none ∧ (r.2.engine c m).active = (s.engine c m).active ∧
       (r.2.engine c m).shadow.format = f.tfmt ∧ ∀ j < 64, ∀ n < 64, tget 0 (r.2.engine c m).shadow.elems (j * 64 + n) =
         BitVec.ofNat 16 (s.scratchRead o.gang ((rowsOf o.scalars f.tfmt 64).start j + n * elemSize f.tfmt) (elemSize f.tfmt))) ∧
     (∀ h f, o.instr = .accz h f → r.1 = none ∧ ∀ row, ∀ n < 64, accWord (r.2.engine c m) row n =
       if o.accBase + f.rowBase.toNat ≤ row ∧ row < o.accBase + f.rowBase.toNat + rowCount f then 0
       else accWord (s.engine c m) row n) ∧
     (∀ h f, o.instr = .accrd h f → f.sfmt = 1 → r.1 = none ∧ ∀ l ∈ maskLanes o.lanes, (s.lane (32 * o.gang + l)).live = true →
       ∀ j < rowCount f,
         let d := (o.scalars.getD 0 0).toNat + 2 * j
         let word := fun n => BitVec.ofNat 32 (readOut f (accWord (s.engine c m) (o.accBase + f.rowBase.toNat + j) n))
         (r.2.lane (32 * o.gang + l)).vreg d = word l ∧ (r.2.lane (32 * o.gang + l)).vreg (d + 1) = word (l + 32)) ∧
     (∀ h f h' f' p ks' tk, o.instr = .mguide h f → o.other = some (p, .mguide h' f', ks', tk) → r.1 = none ∧
       let cb := o.accBase + (if o.selfCond then f.rowBase else f'.rowBase).toNat
       let ub := o.accBase + (if o.selfCond then f'.rowBase else f.rowBase).toNat
       let w := fdecode f32 ((if o.selfCond then o.scalars else ks').getD 0 0).toNat
       let rnd := fround acc34 0 0 false false
       cb + rowCount f ≤ ub ∨ ub + rowCount f ≤ cb → ∀ row, ∀ n < 64, accWord (r.2.engine c m) row n =
         if cb ≤ row ∧ row < cb + rowCount f then
           let u := fdecode acc34 (accWord (s.engine c m) (ub + (row - cb)) n)
           let d := fdecode acc34 (rnd (fadd 0 (fdecode acc34 (accWord (s.engine c m) row n)) (fneg u)))
           rnd (fadd 0 (fmul w d) u) % 2 ^ 34
         else accWord (s.engine c m) row n)) ∧
   (∀ (s : State) (c m : Nat) (o : EngineOp), s.failed = [] →
     let r := performOp c m o s
     let e := s.engine c m
     let ks := fun i => (o.scalars.getD i 0).toNat
     (∀ h f, o.instr = .mma h f ∨ (o.instr = .mmap h f ∧ o.other = none) →
       r.1 = none ∧ ∀ row, ∀ n < 64, accWord (r.2.engine c m) row n =
         s.streamed e o.gang f o.scalars o.scale true (o.accBase + f.rowBase.toNat) (rowCount f) row n (accWord e row n)) ∧
     (∀ h f h' f' p ks' tk, o.instr = .mmap h f → o.other = some (p, .mmap h' f', ks', tk) →
       let own := s.streamed e o.gang f o.scalars o.scale o.doSelf (o.accBase + f.rowBase.toNat) (rowCount f)
       let mate := s.streamed e p f' ks' o.scaleOther o.doOther (o.accBase + f'.rowBase.toNat) (rowCount f)
       r.1 = none ∧ ∀ row, ∀ n < 64, accWord (r.2.engine c m) row n =
         if o.selfCond then mate row n (own row n (accWord e row n)) else own row n (mate row n (accWord e row n))) ∧
     (∀ h f, o.instr = .accwr h f →
       let base := o.accBase + f.rowBase.toNat
       r.1 = none ∧ ∀ row, ∀ n < 64, accWord (r.2.engine c m) row n =
         match o.values.find? (fun v => v.1 == 32 * (2 * (row - base) + n / 32) + n % 32) with
         | some v => if base ≤ row ∧ row < base + rowCount f then fround acc34 0 0 false false (fdecode f32 v.2.toNat) % 2 ^ 34
                     else accWord e row n
         | none => accWord e row n) ∧
     (∀ h f, o.instr = .acc2s h f → (∃ p ∈ (s.block (s.blockOf o.gang)).parts, p.core = coreOf o.gang) →
       (tfind s.blocks (s.blockOf o.gang)).isSome = true → s.scratchWf o.gang →
       let rows := rowsOf o.scalars f.sfmt (rowCount f)
       r.1 = none ∧ ∀ i < rowCount f,
         (∀ j < rowCount f, i < j → rows.start j + rows.len ≤ rows.start i ∨ rows.start i + rows.len ≤ rows.start j) →
         ∀ n < 64, r.2.scratchRead o.gang (rows.start i + n * elemSize f.sfmt) (elemSize f.sfmt) =
           readOut f (accWord e (o.accBase + f.rowBase.toNat + i) n) % 2 ^ (8 * elemSize f.sfmt)) ∧
     (∀ h f, o.instr = .scld h f → s.scratchWf o.gang → risingFrom none e.scaleMem = true →
       r.1 = none ∧ ∀ k, tget 0 (r.2.engine c m).scaleMem k =
         if ks 1 ≤ k ∧ k < ks 1 + 128 * rowCount f then tget 0 (s.scratchPart o.gang).scratch (ks 0 + (k - ks 1))
         else tget 0 e.scaleMem k)))

/-- A class 0xB instruction that is accepted stands last among its core's jobs, its token in the gang's register (08 R221,
R222); JOB_COMPLETE performs the oldest job of a channel when no older job must go before it and no write of the core is on
its way to its lines, and its token completes; what a peer's port has no room for is left to be done (08 R225, 09 R258, 21
R422). The moves of CPY, CPY2D, GATH and SCAT are their rows, of GATH's sources and SCAT's destinations at the multiples that
the index array names; performed, each byte of a destination is the byte of the last row that covers it (08 R229-R232). QDUAL
leaves the 64 by 64 tile quantised by rows and by columns, with the scales of its blocks (08 R233, 02 R70), and CAST its
elements rounded to their format, each with its own draw under stochastic rounding (08 R234); no other byte of scratch changes.
The model's own choices here: log 38, 44, 107. -/
def Obligations.JobsComplete : Prop :=
  (∀ (i : Instr) (f : FmtX) (b : OnceBody), roundBody i = some (f, b) → classOf i = 0xB →
    ∀ (s t : State) (o : Once), b o s = (.done, t) → (tfind s.gangs o.slot).isSome = true →
    ∃ j, (t.core o.core).jobs = (s.core o.core).jobs ++ [j] ∧ j.channel = f.eng.toNat ∧ j.gang = o.slot ∧
      (∀ ts, t.kreg ts o.slot f.tok.toNat = j.token) ∧ j.token ≠ 0 ∧
      ∃ x ∈ (t.gang o.slot).tokens, x.value = j.token ∧ x.job = j.id ∧ x.done = false) ∧
  (∀ (s : State) (o : Once) (f : FmtX), f.srcScr = true → f.dstScr = true →
    let k := fun r => (o.k r).toNat
    let n := k f.kS.toNat
    let a := k f.kP.toNat
    let b := k f.kQ.toNat
    let size := (s.headerOf o.slot).scratch
    16 ≤ n → n ≤ 2 ^ 24 → n % 16 = 0 → a % 16 = 0 → b % 16 = 0 → a + n ≤ size → b + n ≤ size → (a + n ≤ b ∨ b + n ≤ a) →
    (∀ x, a ≤ 4096 * x + 4095 → 4096 * x < a + n → s.scratchTag o.slot (4096 * x) = s.scratchTag o.slot a) →
    ∃ t j, cpyBody f o s = (.done, t) ∧ (t.core o.core).jobs = (s.core o.core).jobs ++ [j] ∧ j.op = .copy ∧
      j.moves = [(⟨true, a, n⟩, ⟨true, b, n⟩)]) ∧
  (∀ (s s1 s2 : State) (c n : Nat) (j : Job) (left : List (Span × Span)), (s.core c).jobs.find? (fun x => x.channel == n) = some j →
    (tfind s.gangs j.gang).isSome = true → jobReady s c j = true → s.homeReadyAll (spanLines j.reads) = (true, s1) →
    jobFault s1 c j = none → performJob c j s1 = (left, s2) →
    exec (.jobComplete c n) s = .next (
      if left = [] then
        ((s2.modCore c (fun k => { k with jobs := k.jobs.filter (fun x => x.id != j.id) })).finishToken j.gang j.id none).reap j.gang
      else s2.modCore c (fun k => { k with jobs := k.jobs.map (fun x => if x.id == j.id then { x with moves := left } else x) }))) ∧
  (∀ (i : Instr) (f : FmtX) (b : OnceBody), roundBody i = some (f, b) → ∀ (s : State) (o : Once) (r : CopyRows), o.instr = i →
    copyRows s o f = some r → CopyOk s o f r →
    ∃ t j, b o s = (.done, t) ∧ (t.core o.core).jobs = (s.core o.core).jobs ++ [j] ∧ j.op = .copy ∧ j.gang = o.slot ∧
      j.moves = ((copySource s o f r).1.rows.zip (copyTarget s o f r).1.rows).flatMap (fun p => zipRows 1024 p.1 p.2) ∧
      (f.srcScr = true → f.dstScr = true → j.moves = (List.range r.n).map (fun k =>
        (⟨true, (o.k f.kP.toNat).toNat + r.ms k * r.sst, r.len⟩, ⟨true, (o.k f.kQ.toNat).toNat + r.md k * r.dst, r.len⟩)))) ∧
  (∀ (s : State) (c : Nat) (j : Job), j.op = .copy → s.HasScratch j.gang → coreOf j.gang = c →
    (∀ m ∈ j.moves, m.1.len = m.2.len ∧ ∀ p, p = m.1 ∨ p = m.2 → p.scr = false → targetOf p.start ≠ .peer) →
    (∀ m ∈ j.moves, m.1.scr = false → ∀ q ∈ lineSpans m.1, s.ownCells c (q.start / 128) = []) →
    overlaps (j.moves.map (fun m => m.1)) (j.moves.map (fun m => m.2)) = false →
    let r := performJob c j s
    r.1 = [] ∧
    (∀ k, tget 0 (r.2.scratchPart j.gang).scratch k = (s.moved j.gang j.moves true k).getD (tget 0 (s.scratchPart j.gang).scratch k)) ∧
    ∀ a, r.2.byteAt a = (s.moved j.gang j.moves false a).getD (s.byteAt a)) ∧
  ((∀ (s : State) (o : Once) (f : FmtX), QuantOk s o f →
     ∃ t j, qdualBody f o s = (.done, t) ∧ (t.core o.core).jobs = (s.core o.core).jobs ++ [j] ∧ j.gang = o.slot ∧
       j.op = .quant f.sfmt f.tfmt
         (if (o.k (f.kP.toNat + 1)).toNat = 0 then 64 * elemSize f.sfmt else (o.k (f.kP.toNat + 1)).toNat) ∧
       j.offsets = [f.kP.toNat, f.kQ.toNat, f.kQ.toNat + 1, f.kS.toNat, f.kS.toNat + 1].map (fun r => (o.k r).toNat)) ∧
   (∀ (s : State) (c : Nat) (j : Job) (a b : BitVec 6) (st src tr tc sr sc : Nat), j.op = .quant a b st →
     j.offsets = [src, tr, tc, sr, sc] → s.HasScratch j.gang →
     let outs : List Span := [⟨true, tr, 4096⟩, ⟨true, tc, 4096⟩, ⟨true, sr, 128⟩, ⟨true, sc, 128⟩]
     outs.Pairwise (fun x y => overlap x y = false) →
     let x := fun (i n : Nat) => elemVal a (s.scratchRead j.gang (src + i * st + n * elemSize a) (elemSize a))
     let row := fun (i h : Nat) => quantBlock b ((List.range 32).map (fun n => x i (32 * h + n)))
     let col := fun (n h : Nat) => quantBlock b ((List.range 32).map (fun i => x (32 * h + i) n))
     let r := performJob c j s
     let byte := fun k => tget 0 (r.2.scratchPart j.gang).scratch k
     r.1 = [] ∧
     (∀ i < 64, ∀ n < 64, byte (tr + 64 * i + n) = BitVec.ofNat 8 ((row i (n / 32)).2.getD (n % 32) 0) ∧
       byte (tc + 64 * i + n) = BitVec.ofNat 8 ((col n (i / 32)).2.getD (i % 32) 0)) ∧
     (∀ i < 64, ∀ h < 2, byte (sr + 2 * i + h) = BitVec.ofNat 8 (row i h).1 ∧ byte (sc + 2 * i + h) = BitVec.ofNat 8 (col i h).1) ∧
     ∀ k, (∀ p ∈ outs, k < p.start ∨ p.last ≤ k) → byte k = tget 0 (s.scratchPart j.gang).scratch k) ∧
   (∀ (s : State) (o : Once) (f : FmtX), CastOk s o f →
     let l := s.lane o.thread
     ∃ t j, castBody f o s = (.done, t) ∧ (t.core o.core).jobs = (s.core o.core).jobs ++ [j] ∧ j.gang = o.slot ∧
       j.op = .cast f.sfmt f.tfmt f.rndBits.toNat f.satBit (s.launch (s.gang o.slot).launch).seed (l.lineage.extractLsb' 48 16)
         l.popindex l.rng ∧
       j.offsets = [f.kP.toNat, f.kQ.toNat, f.kS.toNat].map (fun r => (o.k r).toNat)) ∧
   (∀ (s : State) (c : Nat) (j : Job) (a b : BitVec 6) (rnd : Nat) (sat : Bool) (seed : W64) (gen : BitVec 16) (pop : W32)
     (first : BitVec 24) (src dst n : Nat), j.op = .cast a b rnd sat seed gen pop first → j.offsets = [src, dst, n] →
     s.HasScratch j.gang → overlap ⟨true, src, n * elemSize a⟩ ⟨true, dst, n * elemSize b⟩ = false →
     let r := performJob c j s
     r.1 = [] ∧
     (∀ k < n, r.2.scratchRead j.gang (dst + k * elemSize b) (elemSize b) =
       castElem a b rnd sat (if rnd = 4 then drawOf seed gen pop (first + BitVec.ofNat 24 k) else 0)
         (s.scratchRead j.gang (src + k * elemSize a) (elemSize a)) % 2 ^ (8 * elemSize b)) ∧
     ∀ k, k < dst ∨ dst + n * elemSize b ≤ k → tget 0 (r.2.scratchPart j.gang).scratch k = tget 0 (s.scratchPart j.gang).scratch k))

/-- MRED queues its operation with its token (06 R196-R198). The operation takes its contexts, waits for its flag or is
aborted at the limit with 0x1D, and at its end, with its core's writes home, the homes hold the reduced value and the
published flag, whether it runs in the banks or at its root, its source combined in address order when the destination is in
the tier (13 R330-R342).
The model's own choices here: log 22, 46, 47, 48. -/
def Obligations.BankReductionsRun : Prop :=
  (∀ (f : FmtX) (s t : State) (o : Once), mredBody f o s = (.done, t) → (tfind s.gangs o.slot).isSome = true →
    (∀ x ∈ s.mreds, x.1 < s.nextId) →
    ∃ id m, tfind t.mreds id = some m ∧ tfind s.mreds id = none ∧ m.gang = o.slot ∧ m.phase = 0 ∧
      m.src.len = (o.k (f.kP.toNat + 2)).toNat * (if f.sfmt = 1 then 4 else 2) ∧
      ∀ ts, t.kreg ts o.slot f.tok.toNat = m.token) ∧
  (∀ (s : State) (op : Nat) (m : Mred), tfind s.mreds op = some m →
    (m.phase = 0 → banksRun s = true → contextsFree s op m = true →
      exec (.mredDispatch op) s =
        .next { s with mreds := tput s.mreds op { m with phase := if m.wait.isSome then 1 else 2, since := s.time } }) ∧
    (∀ key v scope x s1, m.phase = 1 → m.wait = some (key, v, scope) → failedByte s key 4 = none →
      readFlag s m key scope = (some x, s1) →
      exec (.mredWaitPoll op) s = .next (if x = v then { s1 with mreds := tput s1.mreds op { m with phase := 2 } } else s1)) ∧
    (∀ key v scope x s1, m.phase = 1 → m.wait = some (key, v, scope) → readFlag s m key scope = (x, s1) →
      m.since + waitLimit s m < s.time ∨ (m.since + waitLimit s m = s.time ∧ x ≠ some v) →
      exec (.mredWaitLimit op) s = .next (endMred (logRecord s1 9 0x1D 2 (mredUnit m) m.dst) op m (some (0x1D, 0)))) ∧
    (∀ s1, m.phase = 2 → contextsFree s op m = true → mredQuiet s m = true → mredBusy s m = false →
      s.homeReadyAll (spanLines [m.src]) = (true, s1) → failedByte s1 m.src.start m.src.len = none →
      (m.far = true → nodeFailed s1 m = none ∧
        ∀ key ∈ m.dst :: (m.publish.map (fun p => p.1)).toList, s1.regionState (key / 4096) ≠ 0) →
      let es := if m.fmt = 1 then 4 else 2
      let node := fun a => if targetOf m.src.start = .hbm ∧ m.lead < 16384 then nodeOf m.il a else 0
      let v := mredCombine m.operator m.fmt
        ((List.range (m.src.len / es)).map (fun j => (node (m.src.start + j * es), s1.natAt (m.src.start + j * es) es)))
      let s2 := s1.homeWrite m.dst (leBytes (if m.operator = 2 then 8 else 4) (v.1 + v.2 * 2 ^ 32))
      let s3 := match m.publish with
        | some (key, x, _) => s2.homeWrite key (leBytes 4 x.toNat)
        | none => s2
      exec (.mredComplete op) s = .next (endMred s3 op m none)))

/-- RSMP, with all live threads of its gang at it, ends their leases, is a release at device scope and then waits for the
population (08 R236, 10 R292); PDISS makes a paired gang solo and its partner dissolved, and what the two wait with is
performed alone or faults; SPAWN, a release at core scope, starts as many gangs as it can, and writes their number (07 R215,
08 R239, R240). A gang that starts from the spawn pool or with its block: its lanes are live at the entry with registers,
counters and exception registers at zero, their population indices rising from the first (08 R240, 15 R363, 01 R17).
The model's own choices here: log 52, 84, 101. -/
def Obligations.PopulationInstructions : Prop :=
  ((∀ (h : Hdr) (f : FmtX) (s : State) (c gid : Nat) (g : Group),
     let i := Instr.rsmp h f
     let cx := s.issueCtx i h c gid g
     let s1 := g.members.foldl (fun s' u => s'.endLeasesOf u) s
     Clear s i h c gid g → s.missing cx = [] → cx.act ≠ [] → s1.releaseReady c g.members true = true →
     s1.EagerFree c gid (fun _ => false) →
     ∃ t, exec i s = .next t ∧ Waits s1 t gid g (.rsmp f.kP.toNat f.kQ.toNat f.kS.toNat h.stall.toNat)) ∧
   (∀ (h : Hdr) (f : FmtC) (s : State) (c gid : Nat) (g : Group),
     let i := Instr.pdiss h f
     let n := g.slot
     Clear s i h c gid g → (∃ u ∈ g.members, s.acts h u = true) →
     (∀ p, (s.gang n).pair = .paired → (s.gang n).partner = some p → p ≠ n →
       let s1 := performAlone (s.modGang n (fun y => { y with pair := .solo, role := 2, partner := none })) n
       let s2 := s1.modGang p (fun y => { y with pair := if y.pair == .paired then .dissolved else y.pair, partner := none })
       (s1.gang n).pair = .solo ∧ ((tfind s.gangs p).isSome = true → (s.gang p).pair = .paired → (s2.gang p).pair = .dissolved) ∧
       ((s.gang p).pairOp = none →
         ∃ t, exec i s = .next t ∧ GoesTo s2 t i h gid g (nextPc g.pc) .ready false) ∧
       (∀ x, (s.gang p).pairOp = some x → Stands (answerPair s2 x (some (0x0D, 0xFFFF))) gid g →
         ∃ t, exec i s = .next t ∧ GoesTo (answerPair s2 x (some (0x0D, 0xFFFF))) t i h gid g (nextPc g.pc) .ready false)) ∧
     ((s.gang n).pair = .dissolved →
       ∃ t, exec i s = .next t ∧ GoesTo (s.modGang n (fun y => { y with pair := .solo, role := 2 })) t i h gid g (nextPc g.pc)
         .ready false) ∧
     ((s.gang n).pair = .solo ∨ (s.gang n).pair = .unpaired →
       ∃ t, exec i s = .next t ∧ GoesTo s t i h gid g (nextPc g.pc) .ready false)) ∧
   (∀ (h : Hdr) (f : FmtC) (s : State) (c gid : Nat) (g : Group),
     let i := Instr.spawn h f
     let cx := s.issueCtx i h c gid g
     Clear s i h c gid g → cx.act ≠ [] → s.releaseReady c [issuer cx] false = true →
     let free := sortBy (fun p => p.1) ((s.launch (s.gang g.slot).launch).pool.filter (fun p => coreOf p.1 == c))
     let m := min (s.kreg g.members g.slot f.a.toNat).toNat (min free.length (2048 - (s.block (s.blockOf g.slot)).gangs))
     let ks := (List.range (min 8 (s.headerOf g.slot).kregs)).map (fun j => s.kreg g.members g.slot j)
     let s1 := (free.take m).foldl (fun s' p => spawnOne cx f.mods.toNat ks s' p.1 p.2) s
     Stands s1 gid g →
     ∃ t, exec i s = .next t ∧ Result s1 t i h gid g (s.byGuard h (fun _ => noWrites)) (s.byGuard h (fun _ => noWrites)) g.slot
       (wordWrites f.d.toNat 1 m 0))) ∧
  (∀ (s : State) (n : Nat) (g : Gang) (live : Nat) (status pop0 : W32) (entry : W64), 0 < live → live ≤ 32 →
     s.tableFree (coreOf n) (partOf n) = true →
     let t := bindGang s n g live status pop0 entry
     t.gang n = g ∧
     (∀ l < live, t.lane (32 * n + l) = { Lane.reset with
       live := true, status := status, popindex := pop0 + BitVec.ofNat 32 l
       lineage := 0#16 ++ (pop0 + BitVec.ofNat 32 l) ++ 0#16 }) ∧
     (∀ l < live, t.StandsAt (32 * n + l) entry) ∧
     (∀ u, (∀ l < live, u ≠ 32 * n + l) → t.lane u = s.lane u))

/-- The counts of a resampling add up to the asked number of threads, and each copy of a thread has its ordinal (08 R237,
18 R405). When every gang of a population has arrived with equal scalars and a lawful count, the image of each copy's source is
in its staging entry: exception registers, status, predicates and vector registers (18 R403, R404). The stage-in gives each
slot of the first M the registers of its image, counter 0, its index and its lineage, the other slots no live thread; then the
population stands past its RSMP (08 R236-R238, 18 R404).
The model's own choices here: log 49, 50. -/
def Obligations.PopulationResamples : Prop :=
  (∀ (m u : Nat) (ws : List Nat), 0 < m → u < 2 ^ 32 → 0 < ws.sum →
     (resample m u ws).length = m ∧
     ∀ j p, (resample m u ws)[j]? = some p → p.1 < ws.length ∧ ws.getD p.1 0 ≠ 0 ∧
       (p.2 = 0 ∨ (resample m u ws)[j - 1]? = some (p.1, p.2 - 1))) ∧
  ((∀ (s : State) (q first m w u st : Nat) (pc : W64) (rest : List Nat),
     (popGangs s q).filter (fun n => s.liveOf n != []) = first :: rest → (s.launch q).rsmp = .idle →
     popArrived s q = true → rsmpStand s first = some (pc, w, m, u, st) →
     (∀ n ∈ first :: rest, scalarHash s n = scalarHash s first) → s.failed = [] →
     let k := fun r => (s.kreg (s.liveOf first) first r).toNat
     1 ≤ k m → k m ≤ (popThreads s q).length → k w < (s.headerOf first).vregs →
     let ws := (popThreads s q).map (fun t => if (s.lane t).live then ((s.lane t).vreg (k w)).toNat else 0)
     let ws' := if ws.sum = 0 then (popThreads s q).map (fun t => if (s.lane t).live then 1 else 0) else ws
     let copies := resample (k m) (k u) ws'
     exec (.rsmpStageOutComplete q) s =
       .next ((stageOut s q copies).modLaunch q (fun l => { l with rsmp := .stageIn pc (.rsmp w m u st) copies }))) ∧
   (∀ (s : State) (q j i o : Nat) (copies : List (Nat × Nat)), copies[j]? = some (i, o) →
     (stageOut s q copies).bytesAt (imageAt s q j) (imageSize (s.launch q).header) =
       imageBytes (s.launch q).header (s.lane ((popThreads s q).getD i 0)).drained) ∧
   (∀ (h : Header) (l : Lane),
     let x := ofImage h l (imageBytes h l)
     x.epc = l.epc ∧ x.eaddr = l.eaddr ∧ x.status = l.status ∧ x.ecause = l.ecause ∧ x.p = l.p ∧
       ∀ r < h.vregs, tget 0 x.v r = tget 0 l.v r) ∧
   (∀ (s : State) (q : Nat) (pc : W64) (stand : Status) (copies : List (Nat × Nat)), (popThreads s q).Nodup →
     let order := popThreads s q
     let h := (s.launch q).header
     let t := popMove s q pc stand copies
     (∀ j i o, copies[j]? = some (i, o) → j < order.length →
       t.lane (order.getD j 0) =
         { ofImage h (s.lane (order.getD i 0)).drained (s.bytesAt (imageAt s q j) (imageSize h)) with
           live := true, rng := 0, popindex := BitVec.ofNat 32 j
           lineage := ((s.launch q).generation + 1) ++ BitVec.ofNat 32 i ++ BitVec.ofNat 16 o }) ∧
     (∀ j, copies.length ≤ j → j < order.length → (t.lane (order.getD j 0)).live = false) ∧
     ∀ v, v ∉ order → t.lane v = s.lane v) ∧
   (∀ (s : State) (q w m u st : Nat) (pc : W64) (copies : List (Nat × Nat)), (s.launch q).rsmp = .stageIn pc (.rsmp w m u st) copies →
     (tfind s.launches q).isSome = true → badImage s q copies = none → (popThreads s q).Nodup → (∀ x ∈ s.groups, x.1 < s.nextId) →
     ∃ t, exec (.rsmpResume q) s = .next t ∧ (t.launch q).rsmp = .idle ∧ (t.launch q).generation = (s.launch q).generation + 1 ∧
       ∀ j, j < copies.length → j < (popThreads s q).length → t.StandsAt ((popThreads s q).getD j 0) (nextPc pc)))

/-- CSRR gives each acting lane, or with [22] the gang, the register's value; CSRW writes it: a lane's own registers in
each acting lane, any other once (08 R244, R245, 01 R26). What a control register reads after a write: LEASEMAX and
FAIRTIME clamped, bases and counts cut to their fields, TRAPVEC in every region of the fault domain (08 R244, 01 R26). TINV removes translations from every core: of
one page, of an address space but its global pages, or all (08 R248); PMIG writes each acting lane the status of its
request, and starts the migrations that are accepted (08 R249).
The model's own choices here: log 53, 55. -/
def Obligations.SystemInstructions : Prop :=
  ((∀ (h : Hdr) (f : FmtM) (s : State) (c gid : Nat) (g : Group),
     let i := Instr.csrr h f
     let cx := s.issueCtx i h c gid g
     let n := f.off.toNat
     let w := widthRegs f.width
     Clear s i h c gid g → cx.act ≠ [] →
     let s1 := if n = 0x022 then s.dropClean c else s
     ∃ t, exec i s = .next t ∧
       if csrThreadHeld n then Result s t i h gid g (s.byGuard h (fun u => wordWrites f.d.toNat w (laneCsr (s.lane u) n) 0))
         (s.byGuard h (fun _ => noWrites)) 0 noWrites
       else if f.op = 1 then Result s1 t i h gid g (s.byGuard h (fun _ => noWrites)) (s.byGuard h (fun _ => noWrites)) g.slot
         (wordWrites f.d.toNat w (readCsr s g.slot n) 0)
       else Result s1 t i h gid g (s.byGuard h (fun _ => wordWrites f.d.toNat w (readCsr s g.slot n) 0))
         (s.byGuard h (fun _ => noWrites)) 0 noWrites) ∧
   (∀ (h : Hdr) (f : FmtM) (s : State) (c gid : Nat) (g : Group),
     let i := Instr.csrw h f
     let cx := s.issueCtx i h c gid g
     let n := f.off.toNat
     let val := s.laneData cx f
     Clear s i h c gid g → cx.act ≠ [] →
     let s1 := if csrThreadHeld n then cx.act.foldl (fun s' u => s'.modLane u (fun l => setLaneCsr l n (val u))) s
       else writeCsr s g.slot n (val (cx.act.headD 0))
     ∃ t, exec i s = .next t ∧ GoesTo s1 t i h gid g (nextPc g.pc) .ready false)) ∧
  ((∀ (s : State) (slot x : Nat), (tfind s.gangs slot).isSome = true → (tfind s.regions (s.regionOf slot)).isSome = true →
     (tfind s.launches (s.gang slot).launch).isSome = true → (tfind s.regions (s.domainOf (s.regionOf slot))).isSome = true →
     let r := fun n => readCsr (writeCsr s slot n x) slot n
     (∀ a, s.domainOf a = s.domainOf (s.regionOf slot) → (writeCsr s slot 0x004 x).trapvec a = BitVec.ofNat 64 x) ∧
     r 0x004 = x % 2 ^ 64 ∧ r 0x010 = x % 2 ∧ r 0x011 = min 1024 (max 1 (x % 2 ^ 32)) ∧
     r 0x012 = min 65536 (max 256 (x % 2 ^ 32)) / 16 * 16 ∧ r 0x020 = x % 32 ∧ r 0x021 = baseBits x + x % 32 ∧
     r 0x022 = x % 2 ^ 64 ∧ r 0x030 = baseBits x ∧ r 0x031 = x % 2 ^ 16 ∧ r 0x040 = x % 2 ^ 32 ∧ r 0x041 = x % 2 ^ 32) ∧
   (∀ (l : Lane) (x : Nat),
     let r := fun n => laneCsr (setLaneCsr l n x) n
     r 0x000 = x % 8 ∧ r 0x001 = x % 2 ^ 64 ∧ r 0x002 = x % 256 ∧ r 0x003 = x % 2 ^ 64)) ∧
  ((∀ (h : Hdr) (f : FmtM) (s : State) (c gid u : Nat) (g : Group) (us : List Nat),
     let i := Instr.tinv h f
     let cx := s.issueCtx i h c gid g
     let va := s.globalVa cx f u
     let a := (s.kreg g.members g.slot f.a.toNat).toNat % 2 ^ 16
     Clear s i h c gid g → cx.act = u :: us →
     let s1 := if f.op = 0 then (if canonicalVa va then dropPage s (s.asid (s.regionOf g.slot)).toNat (va.toNat % 2 ^ 57) else s)
       else if f.op = 1 then dropTranslations s (fun e => e.asid == a && !pteBit e.pte 8) (fun e => e.asid == a)
       else dropTranslations s (fun _ => true) (fun _ => true)
     ∃ t, exec i s = .next t ∧ GoesTo s1 t i h gid g (nextPc g.pc) .ready false) ∧
   (∀ (h : Hdr) (f : FmtM) (s s1 : State) (c gid : Nat) (g : Group) (ls : List (Nat × Option (Nat × W64))),
     let i := Instr.pmig h f
     let cx := s.issueCtx i h c gid g
     let tier := f.op.getLsbD 0
     Clear s i h c gid g → pmigLeaves s cx f = (some ls, s1) →
     ∃ t, exec i s = .next t ∧ Result (pmigStart s1 cx f tier ls) t i h gid g
       (fun u => match ls.find? (fun l => l.1 == u) with
         | some l => wordWrites f.d.toNat 1 (migrationStatus s1 tier l.2) 0
         | none => noWrites) (fun _ => noWrites) 0 noWrites))

/-! ### Homes, leases, paging, timers. -/

/-- A read at the home of a line without a release record is answered with the line's bytes, but for those that its core
wrote and the home has not taken, and its region's state; a read of a line with a record waits, and the record's cores are
probed (10 R277, R286); one whose channel retrains waits (12 R312). The reply to a load reaches its core: a live thread that
waited has the reply's bytes in D, the request is no longer outstanding, and a group that waited for it alone is ready (10
R277, 06 R173).
The model's own choices here: log 32. -/
def Obligations.HomeReadsAndFills : Prop :=
  (∀ (s : State) (msg id : Nat) (m : Msg) (r : Request), arriving s msg = some m → m.toHome = true → m.body = .read id →
     tfind s.requests id = some r → r.kind = .load → (∀ x ∈ s.net, x.1 < s.nextId) →
     (s.channelHolds r = true → exec (.homeRead msg) s = .next { s with fresh := s.fresh + 1 }) ∧
     (s.channelHolds r = false → s.drainFor m.line = none → s.record m.line = none →
       ∃ t n, exec (.homeRead msg) s = .next t ∧ t = { s with net := t.net, nextId := s.nextId + 1, l2 := t.l2 } ∧ tfind t.net msg = none ∧
         tfind t.net n = some { core := m.core, toHome := false, line := m.line
                                body := .fill id (s.viewBytes m.core m.line) (if r.near then s.regionState (m.line / 32) else 0) }) ∧
     (∀ rec', s.channelHolds r = false → tfind s.drains m.line = none → s.record m.line = some rec' → s.probesOf m.line rec' ≠ [] →
       ∃ t, exec (.homeRead msg) s = .next t ∧
         (∃ d, tfind t.drains m.line = some d ∧ d.reads = [m] ∧ d.await = (s.probesOf m.line rec').map (·.1)) ∧
         ∀ p ∈ s.probesOf m.line rec', ∃ n, tfind t.net n = some { core := p.1, toHome := false, line := m.line, body := .probe p.2 })) ∧
  (∀ (s : State) (c line : Nat) (k : L1Line), s.l1Line c line = some k → (∀ x ∈ s.net, x.2.core = c → x.2.line = line → x.2.toHome = false) →
     (∀ p ∈ k.cells, p.1 < 128) → (k.cells.map (·.1)).Nodup →
     s.viewBytes c line = (List.range 128).map (fun o => match tfind k.cells o with
       | some (b, true) => b
       | _ => (s.bytesAt (line * 128) 128).getD o 0)) ∧
  (∀ (s : State) (msg id st : Nat) (m : Msg) (bytes : List Byte) (r : Request) (l : LaneLoad),
     arriving s msg = some m → m.toHome = false → m.body = .fill id bytes st → tfind s.requests id = some r →
     r.kind = .load → r.loads = [l] → r.ops = [] → r.pref = none → l.scalar = false → (s.lane l.thread).live = true →
     let x := State.loadValue bytes (l.key % 128) l.size
     ∃ t, exec (.fill msg) s = .next t ∧ tfind t.requests id = none ∧
       (∀ n d, t.vLater l.thread n d = (listWrites l.dst (State.convert l.conv l.size x) n).seen d (s.vLater l.thread n d)) ∧
       (∀ gid g, tfind s.groups gid = some g → g.status = .requests [id] → tfind t.groups gid = some { g with status := .ready }) ∧
       t.mem = s.mem ∧ t.writes = s.writes)

/-- A release record registers at the line's home, and the core may write the line back; during a drain of the line, or
while the slice makes room for the record, the registration waits. Four cores fit a record, a fifth makes it coarse. A
probe of a core without a line to write back is acknowledged; else its lines are on their way and it waits for them. The
last acknowledgement ends the drain (10 R282-R288). A write-back that reaches its home writes the bytes of its mask there
and no other (10 R277). What a slice acknowledges to a core comes after its older messages to that core (10 R280).
The model's own choices here: log 31, 32, 39, 87. -/
def Obligations.RecordsAndWriteBacks : Prop :=
  (∀ (s : State) (msg : Nat) (m : Msg), arriving s msg = some m →
     (∀ e, m.toHome = true → m.body = .register e → s.sentBack m.core m.line = false →
       (∀ d, s.drainFor m.line = some d → (s.core m.core).probes = [] → exec (.releaseRecordRegister msg) s =
         .next { s.dropMsg msg with drains := tmod s.drains d (fun x => { x with regs := x.regs ++ [(m.line, m.core, e)] }) }) ∧
       (s.drainFor m.line = none →
         ((s.record m.line).isSome ∨ (s.records.filter (fun p => homeOf p.1 == homeOf m.line)).length < Config.recordsPerSlice) →
         (s.core m.core).probes = [] → (s.core m.core).leases = [] → (∀ l ∈ s.launches, l.2.ranOn.contains m.core = false) →
         exec (.releaseRecordRegister msg) s = .next (unpin ({ s.dropMsg msg with
           records := tput s.records m.line (State.register1 (s.record m.line) m.core e) }.dropHost m.line) m.core m.line)) ∧
       (∀ v s1, s.drainFor m.line = none → (s.dropMsg msg).recordRoom m.line m.core = (some v, s1) →
         exec (.releaseRecordRegister msg) s = .next (waitRecord s1 v m.line m.core e))) ∧
     (∀ e, m.toHome = false → m.body = .probe e → (s.core m.core).probes = [] →
       let p : Probe := { line := m.line, epoch := e, region := none, started := false, await := [] }
       (s.writeBacks m.core = [] → s.probeLines m.core p = [] → (s.core m.core).leases = [] →
         ∃ t n, exec (.drainProbe msg) s = .next t ∧
           tfind t.net n = some { core := m.core, toHome := true, line := m.line, body := .drainAck } ∧
           (t.core m.core).probes = [] ∧ t.mem = s.mem) ∧
       (probeBlocked s m.core p = false →
         let r := ((s.dropMsg msg).modCore m.core (fun k => { k with probes := [p] })).writeBackFit m.core (s.probeLines m.core p)
         r.1 = true → r.2.writeBacks m.core ≠ [] →
         exec (.drainProbe msg) s = .next (r.2.modCore m.core (fun k => { k with
           probes := [{ p with started := true, await := r.2.writeBacks m.core }] })))) ∧
     (∀ d, m.toHome = true → m.body = .drainAck → tfind s.drains m.line = some d →
       (∀ c ∈ ackedCores d, s.sentBack c m.line = false) →
       exec (.drainAck msg) s = .next (
         if d.await.filter (fun c => c != m.core) = [] then endDrain (s.dropMsg msg) m.line d
         else { s.dropMsg msg with drains := tput s.drains m.line { d with await := d.await.filter (fun c => c != m.core) } }))) ∧
  (∀ (s : State) (line : Nat) (m : Msg) (d : Drain) (id : Nat) (r : Request), d.reads = [m] → d.regs = [] → m.line = line →
     m.body = .read id → tfind s.requests id = some r → r.kind = .load →
     (∀ x ∈ s.drains, x.1 ≠ line → x.2.regs = [] ∧ ∀ y ∈ x.2.reads, y.line ≠ line) →
     let t := endDrain s line d
     tfind t.drains line = none ∧ t.record line = none ∧
       ∃ n, tfind t.net n = some { core := m.core, toHome := false, line := line,
                                   body := .fill id (s.viewBytes m.core line) (if r.near then s.regionState (line / 32) else 0) }) ∧
  ((∀ (c e : Nat), State.register1 none c e = .pointer [(c, e)]) ∧
   (∀ (es : List (Nat × Nat)) (c e : Nat), (∀ p ∈ es, p.1 ≠ c) →
     (es.length < 4 → State.register1 (some (.pointer es)) c e = .pointer (es ++ [(c, e)])) ∧
     (4 ≤ es.length → ∃ v, State.register1 (some (.pointer es)) c e = .coarse v ∧
       ∀ k < 24, v.getLsbD k = decide (k = c / 8 ∨ ∃ p ∈ es, k = p.1 / 8)))) ∧
  (∀ (s : State) (msg : Nat) (m : Msg) (cells : List (Nat × Byte)) (lost : List Nat), arriving s msg = some m → m.toHome = true →
     m.body = .writeBack cells lost → s.sentBack m.core m.line = false →
     let s1 := (s.dropMsg msg).homeCells m.line cells
     exec (.writeBackAck msg) s = .next (ackWriteBack (reportLoss s1 m.core m.line lost) msg m.core) ∧
     ((cells.map (·.1)).Nodup → ∀ a, s1.byteAt a = match cells.find? (fun p => m.line * 128 + p.1 == a) with
       | some p => p.2
       | none => s.byteAt a) ∧
     ((∀ l ∈ s.launches, l.2.ending = none ∧ l.2.ranOn.contains m.core = false) → ∀ (s2 : State), s2.launches = s.launches →
       ∀ a, (ackWriteBack s2 msg m.core).byteAt a = s2.byteAt a))

/-- Two reductions of the same words that meet at a router leave as one; at the home a reduction changes each word by its
operation, and no other byte, and its release is registered with it (10 R283, R297). A region's oldest transition takes
effect when the drain, the pending operations and the leases it waits for are done; its group goes on; a core's region drain
without a line to write back is acknowledged, and the core no longer knows the region's lines to be in state C; at the home
the acknowledgement ends the wait for that core (10 R299, R300, 07 R208).
The model's own choices here: log 40, 42. -/
def Obligations.ReductionsAndRegions : Prop :=
  ((∀ (s : State) (msg : Nat) (cells : List (Nat × Nat)) (size op : Nat) (rel : Option Nat) (gs : List Nat) (m : Msg),
     arriving s msg = some m → m.body = .red cells size op rel true gs → (s.net.map (·.1)).Nodup →
     (∀ p ∈ s.net, p.1 ≠ msg → mayMerge m.body p.2.body = false) →
     exec (.redRouterHoldExpiry msg) s = .next { s with net := tput s.net msg { m with body := .red cells size op rel false gs } }) ∧
   (∀ (s : State) (a b x : Nat) (ma mb : Msg) (ka kb : List (Nat × Nat)) (n op : Nat) (ga gb : List Nat),
     s.net = [(a, ma), (b, mb)] → a < b → ma.body = .red ka n op none true ga → mb.body = .red kb n op none true gb →
     ka.map (fun k => k.1) = kb.map (fun k => k.1) → mergeable op = true → ma.line = mb.line →
     s.deliverable a = true → s.deliverable b = true → x = a ∨ x = b →
     exec (.redRouterHoldExpiry x) s = .next { s with net := [(a, { ma with
       body := .red ((ka.zip kb).map (fun k => (k.1.1, atomicOp op n k.1.2 k.2.2))) n op none false (dedup (ga ++ gb)) })] }) ∧
   (∀ (s : State) (msg : Nat) (cells : List (Nat × Nat)) (size op : Nat) (rel : Option Nat) (gs : List Nat) (m : Msg),
     arriving s msg = some m → m.body = .red cells size op rel false gs → s.drainFor m.line = none → s.record m.line = none →
     s.channelKeeps m.line = false → (∀ g ∈ gs, s.sentBack (coreOf g) m.line = false) →
     (rel ≠ none → (s.records.filter (fun p => homeOf p.1 == homeOf m.line)).length < Config.recordsPerSlice) →
     cells.Pairwise (fun x y => x.1 + size ≤ y.1 ∨ y.1 + size ≤ x.1) →
     Memory.wf s.mem →
     ∃ t, exec (.redHomeApply msg) s = .next (reapAll t gs) ∧ tfind t.net msg = none ∧
       t.record m.line = rel.map (fun e => Record.pointer [(m.core, e)]) ∧
       ∀ a, t.byteAt a = match cells.find? (fun k => k.1 ≤ a && a < k.1 + size) with
         | some k => BitVec.ofNat 8 (atomicOp op size (s.natAt k.1 size) k.2 / 256 ^ (a - k.1))
         | none => s.byteAt a)) ∧
  ((∀ (s : State) (region target core id : Nat) (rest : List (Nat × Nat × Nat)),
     let d := regionEntry s region
     let old := if d.state = 3 then 0 else d.state
     d.queue = (target, core, id) :: rest →
     (old = target ∨ ((∀ e ∈ s.leaseTab, e.1 / 32 ≠ region) ∧
       ((old = 0 ∧ d.await = some []) ∨ (old = 1 ∧ d.pending = 0) ∨ old = 2))) →
     (∀ m ∈ s.migrations, m.2.step ≠ 2) → s.sentBack core (32 * region) = false →
     ∃ t, exec (.regionTransitionApply region) s = .next t ∧ (target < 3 → t.regionState region = target) ∧
       ∀ gid g, tfind s.groups gid = some g → g.status = .region id → (tfind t.groups gid).map (fun x => x.status) = some .ready) ∧
   (∀ (s : State) (region target core id : Nat) (rest : List (Nat × Nat × Nat)) (e : Nat × HomeLease),
     let d := regionEntry s region
     d.queue = (target, core, id) :: rest → (if d.state = 3 then 0 else d.state) ≠ target → e ∈ s.leaseTab → e.1 / 32 = region →
     exec (.regionTransitionApply region) s = .next s) ∧
   (∀ (s : State) (msg r : Nat) (m : Msg), arriving s msg = some m → m.toHome = false → m.body = .regionDrain r →
     (s.core m.core).probes = [] → s.writeBacks m.core = [] → (s.core m.core).leases = [] →
     s.probeLines m.core { line := m.line, epoch := none, region := some r, started := false, await := [] } = [] →
     ∃ t, exec (.regionDrain msg) s = .next t ∧ (t.core m.core).probes = [] ∧
       (∀ line l, t.l1Line m.core line = some l → line / 32 = r → l.cConf = false) ∧
       ∃ n, tfind t.net n = some { core := m.core, toHome := true, line := m.line, body := .regionDrain r }) ∧
   (∀ (s : State) (msg r : Nat) (m : Msg) (d : RegionDir), arriving s msg = some m → m.toHome = true → m.body = .regionDrain r →
     tfind s.regionDir r = some d →
     ∃ t, exec (.regionDrain msg) s = .next t ∧
       tfind t.regionDir r = some { d with await := d.await.map (fun a => a.filter (fun x => x != m.core)) }))

/-- A core that leaves issues no more; without leases, releases, requests or dirty lines it is off, its L1 is empty and
every home lists it as absent. It joins with an empty L1, its epoch 0 and its clock starting (10 R289, R290). A core whose
time differs by more than 4 ticks is outside the guard band until its time is loaded again (10 R294). What the difference is
the spec leaves open: it is a free value.
The model's own choices here: log 8, 9. -/
def Obligations.CoresAndTime : Prop :=
  ((∀ (s : State) (c : Nat), (s.core c).powered = true → ∃ t, exec (.coreLeave c) s = .next t ∧ (t.core c).leaving = true) ∧
   (∀ (s : State) (c : Nat), (s.core c).powered = true → (s.core c).leases = [] → (s.core c).pinned = [] →
     (∀ r ∈ s.requests, r.2.core ≠ c) → (∀ l ∈ (s.core c).l1, State.dirtyCells l.2 = []) → s.writeBacks c = [] →
     ∃ t, exec (.coreLeave c) s = .next t ∧ (t.core c).powered = false ∧ (t.core c).l1 = [] ∧
       (∀ i < Config.numSlices, t.present i c = false) ∧ t.mem = s.mem) ∧
   (∀ (s : State) (c : Nat), (s.core c).powered = false →
     ∃ t, exec (.coreJoin c) s = .next t ∧ (t.core c).powered = true ∧ (t.core c).leaving = false ∧ (t.core c).epoch = 0 ∧
       (t.core c).l1 = [] ∧ t.clockOf c = 0 ∧ (∀ i, t.present i c = true) ∧ t.mem = s.mem)) ∧
  (∀ (s : State) (c : Nat),
     (∃ t, exec (.timeSyncCheck c) s = .next t ∧ (t.core c).timeView = Config.drift s.fresh c ∧
       (t.core c).outside = decide (4 < (Config.drift s.fresh c).natAbs)) ∧
     (∃ t, exec (.timeSyncReload c) s = .next t ∧ (t.core c).timeView = 0 ∧ (t.core c).outside = false ∧
       (∀ d, d ≠ c → t.core d = s.core d)))

/-- The grant of a lease: the oldest request of the line takes it when no lease stands on the line, the core's older messages
have arrived, and the line is drained. The line is fetched; the thread of an LSE holds it for its core's LEASEMAX and goes on
with its value and a true predicate; an ATOM's or CAS's operations are performed in L1 and written at the home; a far one is
performed at the home, and its reply carries the old values (06 R184, R188, R191, R192, 10 R291, R295, R302). A lease ends
at its LEASEMAX, or at once when it is an ATOM's or CAS's: its line's dirty bytes are on their way home, and stay dirty until
it has them. The home accepts them while it holds the lease, or refuses; past its ceiling it revokes the lease and tells the core, whose thread loses it
(10 R292, R293, R295, R296).
The model's own choices here: log 33, 35, 82. -/
def Obligations.LeasesGrantAndEnd : Prop :=
  ((∀ (s s1 s2 : State) (line : Nat) (q : LeaseReq) (r : Request), s.leaseQueue.find? (fun x => x.line == line) = some q →
     tfind s.requests q.req = some r →
     (if r.kind = .atomicFar then tfind s.leaseTab line = none else lineFree s line = true) → grantReady s r q.req = true →
     s.channelHolds r = false → s.homeReady line = (true, s1) →
     (if r.release = none then s2 = s1 else s1.recordRoom line r.core = (none, s2)) →
     exec (.leaseGrant line) s = .next (match q.holder with
       | some t => grantLse s2 r q t
       | none => if r.kind = .atomicFar then grantFar s2 r q else grantAtomic s2 r q)) ∧
   (∀ (s : State) (line t : Nat) (q : LeaseReq) (r : Request) (l : LaneLoad), s.leaseQueue.find? (fun x => x.line == line) = some q →
     tfind s.requests q.req = some r → r.kind = .leaseLoad → r.line = line → r.loads = [l] → r.release = none → r.acquire = false →
     q.holder = some t → l.thread = t → l.scalar = false → l.conv = .zext → l.size = 4 ∨ l.size = 8 → l.key / 128 = line →
     l.key % 128 + l.size ≤ 128 → lineFree s line = true → grantReady s r q.req = true → s.channelHolds r = false →
     s.drainFor line = none → s.record line = none → s.channelKeeps line = false → s.failed = [] → q.pred < 7 → (tfind s.lanes t).isSome = true →
     (∀ k, s.l1Line r.core line = some k → (k.cells.map (·.1)).Nodup) → findLease s r.core line (some t) = none →
     let v := State.loadValue (s.viewBytes r.core line) (l.key % 128) l.size
     ∃ u, exec (.leaseGrant line) s = .next u ∧ (u.lane t).pred q.pred = true ∧
       tfind u.leaseTab line = some { core := r.core, holder := some t, tick := s.time, leasemax := q.leasemax } ∧
       (∃ x, findLease u r.core line (some t) = some x ∧ x.granted = s.clockOf r.core ∧ x.leasemax = (s.core r.core).leasemax ∧
         x.revoked = false ∧ x.ending = false) ∧
       (∀ n d, l.dst ≤ n → n < l.dst + l.size / 4 → u.vLater t n d = BitVec.ofNat 32 (v / 2 ^ (32 * (n - l.dst)))) ∧
       u.mem = s.mem ∧ u.writes = s.writes ∧
       (∀ gid g, tfind s.groups gid = some g → s.groupWith t = some (gid, g) → g.members = [t] →
         (∀ x ∈ s.groups, x.1 ≠ gid → t ∉ x.2.members) →
         ∃ k x, tfind u.groups k = some x ∧ t ∈ x.members ∧ x.pc = nextPc g.pc ∧ x.status = .ready ∧ x.hold = q.stall)) ∧
   (∀ (s : State) (c : Nat) (o : LaneOp), (tfind s.lanes o.thread).isSome = true → (s.l1Line c (o.key / 128)).isSome = true →
     o.size = 4 ∨ o.size = 8 →
     let old := s.l1Value c o.key o.size
     let a := applyInL1 s c [o]
     a.1 = (rmw o old).isSome ∧ a.2.1 = acquires o old ∧
     (∀ n d, o.dst ≤ n → n < o.dst + o.size / 4 → a.2.2.vLater o.thread n d = BitVec.ofNat 32 (old / 2 ^ (32 * (n - o.dst)))) ∧
     a.2.2.l1Value c o.key o.size = (match rmw o old with | some x => x % 256 ^ o.size | none => old) ∧
     (∀ b, a.2.2.byteAt b = match rmw o old with
       | some x => if o.key ≤ b ∧ b < o.key + o.size then BitVec.ofNat 8 (x / 256 ^ (b - o.key)) else s.byteAt b
       | none => s.byteAt b)) ∧
   (∀ (s : State) (r : Request) (q : LeaseReq) (o : LaneOp), r.ops = [o] →
     let old := s.natAt o.key o.size
     let t := grantFar s r q
     (∃ n, tfind t.net n = some { core := r.core, toHome := false, line := r.line, body := .fill q.req (leBytes o.size old) 0 }) ∧
     (∀ b, t.byteAt b = match rmw o old with
       | some x => if o.key ≤ b ∧ b < o.key + o.size then BitVec.ofNat 8 (x / 256 ^ (b - o.key)) else s.byteAt b
       | none => s.byteAt b))) ∧
  ((∀ (s : State) (c line : Nat), exec (.leaseExpiry c line) s = .next
     (((s.core c).leases.filter (fun l => l.line == line && l.holder.isSome && !l.ending && !l.revoked && !l.record &&
       l.leasemax ≤ s.clockOf c - l.granted)).foldl (fun s' l => s'.endLease c line l.holder none) s |>.endWaiting c) ∧
     exec (.implicitLeaseEnd c line) s = .next (s.endLease c line none none)) ∧
   (∀ (s : State) (c line : Nat) (l : Lease) (k : L1Line), (s.core c).leases.filter (fun x => x.line == line) = [l] →
     l.ending = false → l.revoked = false → l.record = false → l.flush = [] → s.failed = [] → s.l1Line c line = some k →
     s.pinnedLine c line = false → s.outstanding c < Config.maxOutstanding →
     let gone := fun (t : State) => findLease t c line l.holder = some { l with ending := true, notify := none } ∧
       t.l1Line c line = some k ∧
       ∃ n, tfind t.net n = some { core := c, toHome := true, line := line, body := .leaseWrite (State.dirtyCells k) [] l.holder }
     (l.holder ≠ none → l.leasemax ≤ s.clockOf c - l.granted → ∃ t, exec (.leaseExpiry c line) s = .next t ∧ gone t) ∧
     (l.holder = none → ∃ t, exec (.implicitLeaseEnd c line) s = .next t ∧ gone t)) ∧
   (∀ (s : State) (msg : Nat) (m : Msg) (cells : List (Nat × Byte)) (lost : List Nat) (holder : Option Nat) (l : Lease),
     arriving s msg = some m → m.toHome = true → m.body = .leaseWrite cells lost holder → findLease s m.core m.line holder = some l →
     s.sentBack m.core m.line = false →
     (∀ e, tfind s.leaseTab m.line = some e → e.core = m.core → e.holder = holder → s.time ≤ ceiling e →
       exec (.leaseWriteThrough msg) s = .next (ackWriteBack (leaseAccepted (reportLoss
         (cleanSent { (s.dropMsg msg).homeCells m.line cells with leaseTab := tdel s.leaseTab m.line } m.core m.line cells lost)
         m.core m.line lost) m.core m.line l) msg m.core)) ∧
     (∀ e, tfind s.leaseTab m.line = some e → e.core = m.core → e.holder = holder → ceiling e < s.time →
       let s1 := leaseRevoked { s.dropMsg msg with leaseTab := tdel s.leaseTab m.line } m.core m.line l
       exec (.leaseWriteThrough msg) s = .next (ackWriteBack (match holder with | some t => s1.reap (slotOf t) | none => s1) msg m.core)) ∧
     ((∀ e, tfind s.leaseTab m.line = some e → e.core ≠ m.core ∨ e.holder ≠ holder) →
       let s1 := leaseRevoked (s.dropMsg msg) m.core m.line l
       exec (.leaseWriteThrough msg) s = .next (ackWriteBack (match holder with | some t => s1.reap (slotOf t) | none => s1) msg m.core))) ∧
   (∀ (s : State) (line : Nat) (e : HomeLease), tfind s.leaseTab line = some e →
     ceiling e < s.time ∨ (ceiling e = s.time ∧ writeThroughDue s line e = false) →
     exec (.leaseRevocation line) s = .next (({ s with leaseTab := tdel s.leaseTab line } : State).send'
       { core := e.core, toHome := false, line := line, body := .revoked e.holder })) ∧
   (∀ (s : State) (msg : Nat) (m : Msg) (holder : Option Nat) (l : Lease), arriving s msg = some m → m.toHome = false →
     m.body = .revoked holder → findLease (s.dropMsg msg) m.core m.line holder = some l → l.ending = false →
     exec (.revocationNotice msg) s = .next (runProbes (leaseRevoked (s.dropMsg msg) m.core m.line l) m.core)) ∧
   (∀ (s : State) (c line : Nat) (l : Lease) (t : Nat), l.holder = some t → l.notify = none → (s.lane t).live = true →
     findLease s c line (some t) = some l →
     ∃ x, findLease (leaseRevoked s c line l) c line (some t) = some x ∧ x.revoked = true))

/-- A page-fault record reaches the management core, and a record that found the queue full takes its place; an unpark makes
the threads that parked with it ready to issue again, or those at a target to check its line; a delivered page fault is exception 0x10 in them, with the address that
each of them met (12 R321, R322). A page migrates: its entry is marked, then, its accesses complete, its lines written back
and its release records drained, its 64 KiB are copied to a frame of the other tier, and the entry points there (12
R326-R328). The frame is the next free one of that tier, or where the model has none a free value. The end of a policy
window begins the next one; a sample is written at the ring's head, which moves on by 32 bytes around the ring (15 R373, 12
R324, R325).
The model's own choices here: log 37. -/
def Obligations.PagesFaultAndMigrate : Prop :=
  ((∀ (s : State) (c r : Nat) (rest : List Nat), (s.core c).pfQueue = r :: rest →
     exec (.pageFaultRecord c) s = .next { s.modCore c (fun k => { k with pfQueue := rest ++ waitingRecord s c }) with
       pfRecords := tmod s.pfRecords r (fun x => { x with sent := true }) }) ∧
   (∀ (s : State) (n : Nat) (r : PfRecord), tfind s.pfRecords n = some r → r.sent = true → r.issue = none →
     ∃ t, exec (.unpark n) s = .next t ∧ tfind t.pfRecords n = none ∧
       ∀ gid g, tfind s.groups gid = some g → g.status = .parked n →
         (tfind t.groups gid).map (fun x => (x.pc, x.members, x.status)) = some (g.pc, g.members, g.toEnter.elim .ready .entering)) ∧
   (∀ (s : State) (n : Nat) (r : PfRecord) (o : Once), tfind s.pfRecords n = some r → r.sent = true → r.issue = some o →
     recordSaved s r = false →
     exec (.unpark n) s = .next (issueAway { s with pfRecords := tdel s.pfRecords n } o) ∧
     exec (.deliverPageFault n) s = .next (({ s with pfRecords := tdel s.pfRecords n } : State).recordFault o (0x10, r.va))) ∧
   (∀ (s s1 : State) (n gid : Nat) (r : PfRecord) (g : Group) (vec : W64), tfind s.pfRecords n = some r → r.sent = true →
     r.issue = none → recordSaved s r = false → s.groups.filter (fun x => x.2.status == .parked n) = [(gid, g)] →
     tfind s.groups gid = some g → g.members ≠ [] → g.toEnter ≠ some true →
     ({ s with pfRecords := tdel s.pfRecords n } : State).Enters g.members vec g.pc 0x10
       (fun u => (tfind r.at' u).getD r.va) s1 →
     ∃ t, exec (.deliverPageFault n) s = .next t ∧ t = { s1 with groups := t.groups } ∧
       (tfind t.groups gid).map (fun x => (x.pc, x.members, x.status)) = some (vec, g.members, .ready))) ∧
  ((∀ (s s1 : State) (n : Nat) (m : Migration), tfind s.migrations n = some m → m.step = 0 →
     (∀ x ∈ s.migrations, x.2.step = 0) → migrates s = true → s.homeReady (m.pteAt / 128) = (true, s1) →
     let p : W64 := BitVec.ofNat 64 (s1.natAt m.pteAt 8)
     pteBit p 0 = true → pteBit p 1 = true → leafOk p 0 = true → pteHost p = false → pteMigrating p = false →
     ptePa p = ptePa m.pte → pteBit p 10 = (m.toTier == 0) →
     ∃ t, exec (.migrationStart n) s = .next t ∧ tfind t.migrations n = some { m with pte := p, step := 1 } ∧
       t.natAt m.pteAt 8 = (p ||| 0x800).toNat) ∧
   (∀ (s : State) (n : Nat) (m : Migration), tfind s.migrations n = some m → m.step = 1 → frameQuiet s m = true →
     let t := drainFrame (forceC s (oldFrame m)) (oldFrame m)
     exec (.migrationCopy n) s = .next { t with
       migrations := tput t.migrations n { m with step := 2, await := frameWrites t (oldFrame m) } }) ∧
   (∀ (s s1 : State) (n x : Nat) (m : Migration), tfind s.migrations n = some m → m.step = 2 → m.await = [] →
     frameQuiet s m = true → frameDirty s (oldFrame m) = false → frameRecords s (oldFrame m) = (true, s1) → s.failed = [] →
     Memory.wf s.mem → (∀ k ∈ s.cores, ∀ l ∈ k.2.leases, inFrame (oldFrame m) (l.line * 128) = false) →
     s.freeFrames.find? (fun y => (2 ^ 23 ≤ y) == (m.toTier == 1)) = some x →
     (m.pteAt + 8 ≤ x * 65536 ∨ x * 65536 + 65536 ≤ m.pteAt) →
     ∃ t, exec (.migrationCopy n) s = .next t ∧ tfind t.migrations n = none ∧
       (∀ k < 65536, t.byteAt (x * 65536 + k) = s.byteAt (oldFrame m + k)) ∧
       ptePa (BitVec.ofNat 64 (t.natAt m.pteAt 8)) = x % 2 ^ 36 * 65536 ∧
       pteBit (BitVec.ofNat 64 (t.natAt m.pteAt 8)) 10 = (m.toTier == 1) ∧
       pteMigrating (BitVec.ofNat 64 (t.natAt m.pteAt 8)) = false ∧
       oldFrame m / 65536 ∈ t.freeFrames)) ∧
  ((∀ (s : State) (p : Policy), s.policy = some p → p.started + p.window ≤ s.time →
     ∃ t, exec .migrationWindowEnd s = .next t ∧ t.policy = some { p with started := p.started + p.window } ∧
       (p.enable = false → t = { s with policy := t.policy })) ∧
   (∀ (s : State) (r : List Byte) (rest : List (List Byte)), s.samples = r :: rest →
     let l := s.sampleBase.toNat % 32
     12 ≤ l → l ≤ 30 → s.sampleLost = false → r.length = 32 →
     let at' := s.sampleBase.toNat % 2 ^ 52 / 2 ^ 12 * 2 ^ 12 + s.sampleHead.toNat
     ∃ t, exec .sampleRecord s = .next t ∧ t.samples = rest ∧
       t.sampleHead = BitVec.ofNat 64 ((s.sampleHead.toNat + 32) % 2 ^ l) ∧
       ∀ a, t.byteAt a = if at' ≤ a ∧ a < at' + 32 then r.getD (a - at') 0 else s.byteAt a))

/-- A sleeping group whose count is over is ready; a weir's timeout, once no issue of the cycle can sign it any more, wakes
its timed joiners with false; a gang whose fairness timer has run out gives its longest-waiting group 64 issues; a gang past
its region's quantum ends with 0x1D (04 R116, 07 R206, 01 R19, R37, 15 R359).
The model's own choices here: log 54. -/
def Obligations.TimersExpire : Prop :=
  (∀ (s : State) (c gid : Nat) (g : Group), tfind s.groups gid = some g → g.core = c → g.status = .sleep 0 →
    exec (.sleepEnd c gid) s = .next { s with groups := tput s.groups gid { g with status := .ready, waitCount := 0 } }) ∧
  (∀ (s : State) (c slot w : Nat), issuesLeft s c = true → exec (.weirTimeout c slot w) s = .next s) ∧
  (∀ (s : State) (c slot w gid : Nat) (g : Group) (d : BitVec 3),
    let n := 96 * c + slot
    issuesLeft s c = false → (tfind s.gangs n).isSome = true → (s.weir n w).timeout = 1 → tfind s.groups gid = some g →
    (∀ x ∈ s.groups, x.1 = gid → x.2 = g) → g.status = .join w true d → (∃ u ∈ g.members, slotOf u = n) →
    (∀ x ∈ s.groups, x.1 ≠ gid → ∀ u ∈ g.members, u ∉ x.2.members) → d ≠ 7 →
    ∃ t, exec (.weirTimeout c slot w) s = .next t ∧ (t.weir n w).timeout = 0 ∧ (t.weir n w).round = (s.weir n w).round ∧
      (tfind t.groups gid).map (fun x => x.status) = some .ready ∧ ∀ u ∈ g.members, (t.lane u).pred d.toNat = false) ∧
  (∀ (s : State) (c slot gid : Nat) (g : Group),
    let n := 96 * c + slot
    (s.headerOf n).progress = true → (s.gang n).fairDue = true → (tfind s.gangs n).isSome = true →
    (∀ x ∈ gangGroups s n, x.2.prio = none) → longestWaiting s n = some (gid, g) → tfind s.groups gid = some g →
    ∃ t, exec (.fairnessTimerExpiry c slot) s = .next t ∧ (t.gang n).fairCount = 0 ∧ (t.gang n).fairDue = false ∧
      tfind t.groups gid = some { g with prio := some 64 }) ∧
  (∀ (s : State) (c slot : Nat),
    let n := 96 * c + slot
    let q := s.quantumOf (s.regionOf n)
    (tfind s.gangs n).isSome = true → q ≠ 0 → q ≤ (s.gang n).quantum → s.liveOf n ≠ [] →
    exec (.quantumExpiry c slot) s = .next (s.endGang n 0x1D (laneMask (s.liveOf n)) 0))

/-! ### The management core. -/

/-- A pending record of an enabled queue is accepted: its command takes the next sequence number, in state 1 or, for a
malformed record, in state 4 with its fault, and the head word counts it (15 R347, R348, R350). The poll takes every
queue. Commands start in their queue's order: one that waits holds back those after it, and WAIT and the order flag hold
back until what is before them has ended. A started command is in state 2; its event is the start of its type (15 R351,
R352). A command's change of state is journaled: the 64-byte record of its sequence number, with the CRC of its first 56
bytes, and the interrupt when the command asks for it (15 R352-R354).
The model's own choices here: log 56, 57, 58, 80. -/
def Obligations.CommandsRun : Prop :=
  ((∀ (s s1 s2 s3 : State) (q : Nat) (tail head bs : List Byte),
     let e := s.queue q
     let i := leNat head
     e.enabled = true → s.power ≠ .recovery → fwReadPhys s (e.key e.tail) 4 = (.ok tail, s1) →
     fwReadPhys s1 (e.key e.head) 4 = (.ok head, s2) → (leNat tail + 2 ^ 32 - i) % 2 ^ 32 = 1 → journalFree s2 = true →
     s2.queue q = e → fwReadPhys s2 (e.key e.base + 64 * (i % 2 ^ e.size)) 64 = (.ok bs, s3) →
     ∃ t c, exec (.queueWake q) s = .next t ∧ t.nextSeq = s3.nextSeq + 1 ∧ tfind t.commands s3.nextSeq = some c ∧
       c.queue = q ∧ c.index = i ∧ c.bytes = bs ∧
       (match malformed c with | none => c.state = 1 ∧ c.fault = 0 | some f => c.state = 4 ∧ c.fault = f) ∧
       (∀ k < 4, t.byteAt (e.key e.head + k) = (leBytes 4 ((i + 1) % 2 ^ 32)).getD k 0) ∧
       (∀ n, n ≠ s3.nextSeq → tfind t.commands n = tfind s3.commands n)) ∧
   (∀ (s s1 s2 : State) (q : Nat) (tail head : List Byte), (s.queue q).enabled = true → s.power ≠ .recovery →
     fwReadPhys s ((s.queue q).key (s.queue q).tail) 4 = (.ok tail, s1) →
     fwReadPhys s1 ((s.queue q).key (s.queue q).head) 4 = (.ok head, s2) → leNat tail = leNat head → leNat head < 2 ^ 32 →
     exec (.queueWake q) s = .next s2) ∧
   (∀ s : State, (∀ q < Config.numQueues, (s.queue q).enabled = false) → exec .queuePoll s = .next s) ∧
   (∀ s : State, exec .queuePoll s =
     .next ((List.range Config.numQueues).foldl (fun s q => match exec (.queueWake q) s with | .next u => u | _ => s) s))) ∧
  ((∀ (s : State) (seq ty n : Nat) (hold : Bool) (c x : Command), tfind s.commands seq = some c → c.state = 1 →
     s.power = .running → (n, x) ∈ s.commands → n < seq → x.queue = c.queue →
     x.state = 1 ∨ (x.incomplete = true ∧ (x.type = 2 ∨ x.after = true ∨ c.after = true)) →
     openCommand s seq ty hold = (none, s)) ∧
   (∀ (s : State) (seq ty : Nat) (c : Command), tfind s.commands seq = some c → c.type = ty → startable s seq c = true →
     (regionKnown s c = true → ∃ c' t, openCommand s seq ty false = (some c', t) ∧ c'.state = 2 ∧ c'.bytes = c.bytes ∧
       c'.startTime = s.time ∧ tfind t.commands seq = some c') ∧
     (regionKnown s c = false → ∃ c' t, openCommand s seq ty false = (none, t) ∧ tfind t.commands seq = some c' ∧
       c'.state = 4 ∧ c'.fault = 0x02)) ∧
   (∀ (s : State) (seq : Nat) (c : Command), tfind s.commands seq = some c → c.state = 1 →
     (c.type = 1 → ∃ t, exec (.commandStart seq) s = .next t ∧ exec (.launch seq) s = .next t) ∧
     (c.type = 2 → ∃ t, exec (.commandStart seq) s = .next t ∧ exec (.wait seq) s = .next t) ∧
     (c.type = 3 → ∃ t, exec (.commandStart seq) s = .next t ∧ exec (.signal seq) s = .next t) ∧
     (c.type = 4 → c.field 0x18 1 = 0 → ∃ t, exec (.commandStart seq) s = .next t ∧ exec (.regionCreate seq) s = .next t) ∧
     (c.type = 4 → c.field 0x18 1 = 1 → ∃ t, exec (.commandStart seq) s = .next t ∧ exec (.regionModify seq) s = .next t) ∧
     (c.type = 4 → c.field 0x18 1 = 2 → ∃ t, exec (.commandStart seq) s = .next t ∧ exec (.regionDelete seq) s = .next t) ∧
     (c.type = 5 → c.field 0x10 1 = 0 → ∃ t, exec (.commandStart seq) s = .next t ∧ exec (.emberEnter seq) s = .next t) ∧
     (c.type = 5 → c.field 0x10 1 = 1 → s.power ≠ .ember →
       ∃ t, exec (.commandStart seq) s = .next t ∧ exec (.emberArm seq) s = .next t) ∧
     (c.type = 5 → c.field 0x10 1 = 2 → s.power ≠ .ember →
       ∃ t, exec (.commandStart seq) s = .next t ∧ exec (.emberDisarm seq) s = .next t) ∧
     (c.type = 6 → ∃ t, exec (.commandStart seq) s = .next t ∧ exec (.resume seq) s = .next t) ∧
     (c.type = 7 → ∃ t, exec (.commandStart seq) s = .next t ∧ exec (.firmware seq) s = .next t) ∧
     (c.type = 8 → ∃ t, exec (.commandStart seq) s = .next t ∧ exec (.migratePolicy seq) s = .next t))) ∧
  ((∀ (s : State) (seq st f : Nat) (slot detail : W64) (c : Command), tfind s.commands seq = some c →
     let t := setCommand s seq st f slot detail
     ∃ c', tfind t.commands seq = some c' ∧ c'.state = st ∧ c'.fault = f ∧ c'.before = c.state ∧ c'.bytes = c.bytes ∧
       c'.updates = c.updates + 1 ∧ c'.time = s.time ∧
       (6 ≤ s.journalSize → s.journalSize ≤ 20 → ∀ k < 64,
         t.byteAt (s.journalBase.toNat + 64 * (seq % 2 ^ s.journalSize) + k) = (journalBytes seq c').getD k 0) ∧
       t.irqs = s.irqs ++ (if c.notify = true ∧ (st = 3 ∨ st = 4) then [.journal seq] else [])) ∧
   (∀ (seq : Nat) (c : Command), seq < 2 ^ 64 → c.type < 256 → c.state < 256 → c.fault < 256 → c.queue < 256 →
     (journalBytes seq c).length = 64 ∧ leNat ((journalBytes seq c).take 8) = seq ∧
     leNat (((journalBytes seq c).drop 8).take 1) = c.type ∧ leNat (((journalBytes seq c).drop 9).take 1) = c.state ∧
     leNat (((journalBytes seq c).drop 10).take 1) = c.fault ∧ leNat (((journalBytes seq c).drop 11).take 1) = c.queue ∧
     leNat (((journalBytes seq c).drop 56).take 4) = (crc32 ((journalBytes seq c).take 56)).toNat))

/-- A kernel header that passes its checks lies in their bounds, and a launch that reads has its payload's values (03 R96,
15 R349). LAUNCH: a launch that passes its checks waits for its blocks' dispatch; a population's blocks start at once and
together, with a staging area of popsize images reserved in HBM, clear of the other launches' (18 R403); one that fails a
check, or could never start, ends in state 4 with its fault (03 R96, 15 R349, R357, 01 R22).
The model's own choices here: log 50, 64, 91, 100. -/
def Obligations.LaunchesStart : Prop :=
  ((∀ (bs : List Byte) (addr : W64) (threads : Nat) (h : Header), parseHeader bs addr threads = .inr h →
     (h.version = 3 ∨ h.version = 4 ∨ h.version = 5) ∧ h.vregs % 8 = 0 ∧ 8 ≤ h.vregs ∧ h.vregs ≤ 384 ∧ 1 ≤ h.kregs ∧
     h.kregs ≤ 160 ∧ h.argCount ≤ min 16 h.kregs ∧ 1 ≤ h.entryCount ∧ h.entryCount ≤ 16 ∧ h.entries.length = h.entryCount ∧
     h.weirs ≤ 16 ∧ h.scratch ≤ 786432 ∧ h.accrows ≤ 1024 ∧ 256 ≤ h.fairtime ∧ h.fairtime ≤ 65536 ∧
     (h.population = true → h.pairFlag = false) ∧ ((h.population = true ∨ h.pairFlag = true) → h.version = 5)) ∧
   (∀ (bs : List Byte) (addr : W64) (threads : Nat), leNat (bs.take 4) ≠ 0x4B574258 → parseHeader bs addr threads = .inl 0x01) ∧
   (∀ (s t : State) (seq : Nat) (c : Command) (l : Launch), readLaunch s seq c = (.ok l, t) →
     let n := c.field 0x20 4 * c.field 0x24 4 * c.field 0x28 4
     l.seq = seq ∧ l.region = c.region ∧ l.grid = (c.field 0x20 4, c.field 0x24 4, c.field 0x28 4) ∧
     l.threads = c.field 0x2C 4 ∧ 1 ≤ l.threads ∧ l.threads ≤ 65536 ∧ 1 ≤ n ∧ n < 2 ^ 32 ∧ l.nblocks = BitVec.ofNat 32 n ∧
     l.popsize = BitVec.ofNat 32 (n * l.threads) ∧ l.seed = BitVec.ofNat 64 (c.field 0x30 8) ∧
     l.args.length = l.header.argCount)) ∧
  (∀ (s s1 : State) (seq : Nat) (c : Command), tfind s.launches seq = none → openCommand s seq 1 true = (some c, s1) →
     (∀ (l : Launch) (s2 : State), readLaunch s1 seq c = (.ok l, s2) → neverFits s2 l = false → l.header.population = false →
       exec (.launch seq) s = .next { s2 with launches := tput s2.launches seq l }) ∧
     (∀ (l : Launch) (s2 sr s3 : State), readLaunch s1 seq c = (.ok l, s2) → neverFits s2 l = false → l.header.population = true →
       l.nblocks.toNat * l.threads ≤ 589824 →
       reserveStaging { s2 with launches := tput s2.launches seq l } seq = some sr →
       bindAll sr seq l.nblocks.toNat 0 = some s3 →
       let s4 := numberPopulation (s3.modLaunch seq (fun l => { l with nextBlock := l.nblocks.toNat })) seq
       exec (.launch seq) s = .next (startBlocks s4 seq ((s4.gangs.filter (fun g => g.2.launch == seq)).map (fun g => g.1)))) ∧
     (∀ (l : Launch) (s2 : State), readLaunch s1 seq c = (.ok l, s2) → l.header.population = true →
       (589824 < l.nblocks.toNat * l.threads ∨ neverFits s2 l = true ∨
         (reserveStaging { s2 with launches := tput s2.launches seq l } seq).bind
           (fun sr => bindAll sr seq l.nblocks.toNat 0) = none) →
       exec (.launch seq) s = .next (setCommand s2 seq 4 0x0F 0 0)) ∧
     (∀ (l : Launch) (s2 : State), readLaunch s1 seq c = (.ok l, s2) → l.header.population = false → neverFits s2 l = true →
       exec (.launch seq) s = .next (setCommand s2 seq 4 0x1D 0 0)) ∧
     (∀ (f : Nat) (a : W64) (s2 : State), readLaunch s1 seq c = (.fault f a, s2) →
       exec (.launch seq) s = .next (setCommand s2 seq 4 f 0 a))) ∧
  (∀ (s t : State) (seq : Nat), reserveStaging s seq = some t →
     ∃ base, t = s.modLaunch seq (fun l => { l with
         staging := some (base, (s.launch seq).popsize.toNat * (32 + 4 * (s.launch seq).header.vregs)) }) ∧
       base + (s.launch seq).popsize.toNat * (32 + 4 * (s.launch seq).header.vregs) ≤ 2 ^ 39 ∧
       ∀ q x a, (q, x) ∈ s.launches → x.staging = some a →
         a.1 + a.2 ≤ base ∨ base + (s.launch seq).popsize.toNat * (32 + 4 * (s.launch seq).header.vregs) ≤ a.1)

/-- WAIT completes when its word meets its condition and goes on waiting until then; past its limit it ends with 0x1D
after a last read. SIGNAL stores its word and completes; one to a peer whose replay buffer is full waits. A misaligned word is fault 0x15 (15 R349). MIGRATE-POLICY sets
the policy, the sampling rate and the sample ring, and every core's access count starts at 0 (15 R373, 12 R324).
The model's own choices here: log 59, 63. -/
def Obligations.WaitSignalPolicy : Prop :=
  ((∀ (s s1 s2 s3 : State) (seq key : Nat) (c : Command) (bs : List Byte), openCommand s seq 2 false = (some c, s1) →
     commandWord s1 c .read = (.ok key, s2) → fwReadKey s2 0 key 4 = (.ok bs, s3) →
     let v := c.field 0x18 4
     let x := leNat bs
     exec (.wait seq) s = .next (if (c.field 0x1C 1 = 0 ∧ x = v) ∨ (c.field 0x1C 1 = 1 ∧ x ≠ v) ∨ (c.field 0x1C 1 = 2 ∧ v ≤ x) ∨
       (3 ≤ c.field 0x1C 1 ∧ x < v) then setCommand s3 seq 3 0 0 0 else s3)) ∧
   (∀ (s : State) (seq : Nat) (c c' : Command), tfind s.commands seq = some c → c.type = 2 → c.state = 2 →
     c.field 0x20 8 ≠ 0 → c.startTime + c.field 0x20 8 ≤ s.time → tfind (pollWait s seq c).commands seq = some c' →
     c'.state = 2 → exec (.waitTimeout seq) s = .next (setCommand (pollWait s seq c) seq 4 0x1D 0 0)) ∧
   (∀ (s s1 s2 : State) (seq key : Nat) (c : Command), openCommand s seq 3 false = (some c, s1) →
     commandWord s1 c .write = (.ok key, s2) →
     (targetOf key ≠ .peer ∨ s2.peerFits [(State.peerOf key, 4)] = true →
       exec (.signal seq) s = .next (setCommand (fwStore s2 key (leBytes 4 (c.field 0x18 4))) seq 3 0 0 0)) ∧
     (targetOf key = .peer → s2.peerFits [(State.peerOf key, 4)] = false → exec (.signal seq) s = .next s2) ∧
     (isDevMem key = true ∨ targetOf key = .host → ∀ k < 4,
       (fwStore s2 key (leBytes 4 (c.field 0x18 4))).byteAt (key + k) = (leBytes 4 (c.field 0x18 4)).getD k 0)) ∧
   (∀ (s s1 : State) (seq : Nat) (c : Command), c.field 0x10 8 % 4 ≠ 0 →
     (openCommand s seq 2 false = (some c, s1) →
       exec (.wait seq) s = .next (setCommand s1 seq 4 0x15 0 (BitVec.ofNat 64 (c.field 0x10 8)))) ∧
     (openCommand s seq 3 false = (some c, s1) →
       exec (.signal seq) s = .next (setCommand s1 seq 4 0x15 0 (BitVec.ofNat 64 (c.field 0x10 8)))))) ∧
  (∀ (s s1 : State) (seq : Nat) (c : Command), openCommand s seq 8 false = (some c, s1) →
     ∃ t, exec (.migratePolicy seq) s = .next t ∧
       t.policy = some { enable := c.field 0x1E 1 == 1, cold := c.field 0x1A 2, hot := c.field 0x18 2, window := c.field 0x20 8,
                         most := c.field 0x28 4, reserve := c.field 0x2C 4, started := s1.time } ∧
       t.sampleK = c.field 0x1C 1 ∧ t.sampleBase = BitVec.ofNat 64 (c.field 0x10 8 + c.field 0x1D 1) ∧
       (∀ k, (t.core k).sampleCount = 0) ∧ ((tfind s1.commands seq).isSome = true →
         (tfind t.commands seq).map (fun x => x.state) = some 3))

/-- REGION commands: create lists the target with its block's fields and no use, its block's counters zero; modify changes its
fields and keeps its use, which moves with it to another parent's ancestors, and refuses a parent that is no region or lies
below the target; delete removes it with its descendants, refused while one of them holds a block (15 R355-R358).
The model's own choices here: log 62, 63, and, for what a modify keeps of the CSRs, the quantum and the fault domain of the
last dispatch, log 53 and 54. -/
def Obligations.RegionCommands : Prop :=
  (∀ (s s1 s2 : State) (seq : Nat) (c : Command) (bs : List Byte) (r : Region), openCommand s seq 4 true = (some c, s1) →
    c.field 0x18 1 = 0 →
    let a := c.field 0x10 8
    a % 64 = 0 → isDevMem a = true → fwReadPhys s1 a 128 = (.ok bs, s2) → parseRegion bs = some r → tfind s2.regions a = none →
    (if r.parent = 0 then s2.regions = [] else (tfind s2.regions r.parent).isSome = true) → (tfind s2.commands seq).isSome = true →
    ∃ t, exec (.regionCreate seq) s = .next t ∧ tfind t.regions a = some r ∧ r.usedGangs = 0 ∧ r.usedRows = 0 ∧ r.usedVregs = 0 ∧
      r.usedScratch = 0 ∧ (∀ b, b ≠ a → tfind t.regions b = tfind s2.regions b) ∧
      (s2.journalSize = 0 → ∀ k < 24, t.byteAt (a + 0x68 + k) = 0) ∧
      (tfind t.commands seq).map (fun x => x.state) = some 3) ∧
  (∀ (s s1 s2 : State) (seq : Nat) (c : Command) (bs : List Byte) (r old : Region), openCommand s seq 4 true = (some c, s1) →
    c.field 0x18 1 = 1 →
    let a := c.field 0x10 8
    a % 64 = 0 → isDevMem a = true → fwReadPhys s1 a 128 = (.ok bs, s2) → parseRegion bs = some r →
    tfind s2.regions a = some old → (tfind s2.commands seq).isSome = true →
    let r' : Region := { r with
      usedGangs := old.usedGangs, usedRows := old.usedRows, usedVregs := old.usedVregs, usedScratch := old.usedScratch
      csrTrapvec := old.csrTrapvec, csrWalkbase := old.csrWalkbase, csrAsid := old.csrAsid
      quantumNow := old.quantumNow, domainNow := old.domainNow }
    (r.parent = old.parent → ∃ t, exec (.regionModify seq) s = .next t ∧ tfind t.regions a = some r' ∧
      (∀ b, b ≠ a → tfind t.regions b = tfind s2.regions b) ∧ (tfind t.commands seq).map (fun x => x.state) = some 3) ∧
    (r.parent ≠ old.parent → (tfind s2.regions r.parent).isSome = true → (subtree s2 a).contains r.parent = false →
      let u := recharge s2 a old.parent r.parent
      ∃ t, exec (.regionModify seq) s = .next t ∧ tfind t.regions a = some r' ∧
        (∀ b, b ≠ a → tfind t.regions b = tfind u.regions b ∧ (tfind u.regions b).map (fun x => { x with
           usedGangs := 0, usedRows := 0, usedVregs := 0, usedScratch := 0 }) = (tfind s2.regions b).map (fun x => { x with
           usedGangs := 0, usedRows := 0, usedVregs := 0, usedScratch := 0 }) ∧
          (b ∉ s2.ancestry (s2.depth + 1) old.parent → b ∉ s2.ancestry (s2.depth + 1) r.parent →
            tfind u.regions b = tfind s2.regions b)) ∧
        (tfind t.commands seq).map (fun x => x.state) = some 3) ∧
    (r.parent ≠ old.parent → (tfind s2.regions r.parent = none ∨ (subtree s2 a).contains r.parent = true) →
      exec (.regionModify seq) s = .next (setCommand s2 seq 4 0x02 0 0))) ∧
  (∀ (s s1 : State) (seq : Nat) (c : Command), openCommand s seq 4 true = (some c, s1) → c.field 0x18 1 = 2 →
    let a := c.field 0x10 8
    (tfind s1.regions a).isSome = true → (tfind s1.commands seq).isSome = true →
    ((subtree s1 a).all (fun b => !regionBusy s1 b) = true →
      ∃ t, exec (.regionDelete seq) s = .next t ∧
        t.regions = s1.regions.filter (fun r => !(subtree s1 a).contains r.1) ∧
        (tfind t.commands seq).map (fun x => x.state) = some 3) ∧
    ((subtree s1 a).any (regionBusy s1) = true →
      exec (.regionDelete seq) s = .next (setCommand s1 seq 4 0x1D 0 0)))

/-- A plan gives every gang of the block a free slot of its partition and a register run inside the file (15 R365, R366).
A waiting block that has a plan and fits the budgets starts: its gangs are bound in their slots, with their lanes live at
the kernel's first entry, and blocks passed over still wait; while a block of a region of higher priority could start, it
waits; the region's CSRs, quantum and fault domain are taken then (01 R21, 15 R362, R363).
The model's own choices here: log 54, 65, 66. -/
def Obligations.BlocksStart : Prop :=
  (∀ (s : State) (room : Nat → Room) (l : Launch) (b : Nat) (p : Plan), l.place = none → planBlock s room l b = some p →
     (∀ c ∈ p, ∀ x ∈ c.gangs, x.1 < 96 ∧ (∀ y ∈ (room c.core).runs, y.1 ≠ x.1) ∧ x.2 + l.header.alloc ≤ 1024) ∧
     (l.header.pairFlag = false → (p.map (fun c => c.gangs.length)).sum = gangsPer l) ∧
     (oneCore l = true → p.length = 1)) ∧
  ((∀ (s : State) (seq b : Nat) (l : Launch) (p : Plan), tfind s.launches seq = some l → l.ending = none → s.power = .running →
     l.waiting.contains b = true ∨ (l.nextBlock ≤ b ∧ b < l.nblocks.toNat) → planBlock s (roomOf s) l b = some p →
     fitsBudgets s l.region true (planNeed l.header p) = true → outranked s l = false →
     let s1 := s.modLaunch seq (fun l =>
       if l.waiting.contains b then { l with waiting := l.waiting.erase b }
       else { l with waiting := l.waiting ++ List.range' l.nextBlock (b - l.nextBlock), nextBlock := b + 1 })
     exec (.blockDispatch seq b) s = .next (startBlocks (bindBlock s1 seq b p) seq ((planGangs p).map (fun x => x.2.1)))) ∧
   (∀ (s : State) (seq b : Nat) (l : Launch), tfind s.launches seq = some l → outranked s l = true →
     exec (.blockDispatch seq b) s = .next s) ∧
   (∀ (s : State) (q b : Nat) (p : Plan), ((planGangs p).map (fun x => x.2.1)).Nodup → risingFrom none s.regions = true →
     let t := bindBlock s q b p
     let l := s.launch q
     (tfind t.blocks (blockKey q b)).map (fun k => (k.launch, k.index, k.threads, k.gangs, k.saved)) =
       some (q, b, l.threads, (planGangs p).length, false) ∧
     (∀ k, k ≠ blockKey q b → tfind t.blocks k = tfind s.blocks k) ∧
     (∀ i x, (planGangs p)[i]? = some x → ∃ g, tfind t.gangs x.2.1 = some g ∧ g.launch = q ∧ g.block = b ∧
       g.index = BitVec.ofNat 11 i ∧ g.regBase = x.2.2 ∧ g.allocRegs = l.header.alloc ∧
       (∀ j < min 32 (l.threads - 32 * i), let u := t.lane (32 * x.2.1 + j)
         u.live = true ∧ u.popindex = BitVec.ofNat 32 (b * l.threads + 32 * i + j) ∧ u.epc = 0 ∧ u.v = [] ∧
           u.status = if s.effPrivilege s.depth l.region = true then 1 else 0))) ∧
   (∀ (s : State) (a : Nat), (tfind s.regions a).isSome = true →
     (tfind (loadRegion s a).regions a).map (fun r => (r.csrWalkbase, r.csrAsid, r.quantumNow, r.domainNow)) =
       some (some (s.ownerOf 7 s.depth a).walkbase, some (s.ownerOf 7 s.depth a).asid, some (s.effQuantum a), some (s.effDomain a))))

/-- A pre-emption request stops the gangs of the blocks and of those that are saved with them: none issues any more. Once
their work has drained, their core's dirty bytes go home, and when those have arrived a save moves the gangs into a frame; a
restore puts them back where they stood (09 R271, 10 R283, 15 R359, R371, 16 R386, R387).
The model's own choices here: log 45, 67, 68, 69, 86. -/
def Obligations.BlocksSaveAndRestore : Prop :=
  (∀ (s : State) (core : Nat) (blocks : List Nat),
    let ks := closure s (blocks.filter (fun k => (partsOn s core).any (fun p => p.1 == k)))
    ∃ t, exec (.preemptionRequest core blocks) s = .next t ∧ t.mem = s.mem ∧
      ∀ k ∈ ks, ∀ b, tfind s.blocks k = some b → ∀ p ∈ b.parts, partSaved s p.core k = false → ∀ n ∈ p.slots,
        n ∈ (t.core p.core).saving) ∧
  (∀ (s : State) (c gid : Nat) (g : Group), tfind s.groups gid = some g → (∀ u ∈ g.members, threadStopped s u = true) →
    issueGroup c gid s = .next s) ∧
  (∀ (s : State) (core : Nat), (s.core core).saving ≠ [] → (∀ n ∈ (s.core core).saving, draining s n = false) →
    (s.core core).saveFlush = none → (s.core core).pinned = [] → (s.core core).leases = [] →
    let r := s.writeBackFit core (s.dirtyLines core)
    r.1 = true → r.2.writeBacks core ≠ [] →
    exec (.saveComplete core) s = .next (r.2.modCore core (fun k => { k with saveFlush := some (r.2.writeBacks core) }))) ∧
  (∀ (s : State) (core : Nat), (s.core core).saving ≠ [] → (∀ n ∈ (s.core core).saving, draining s n = false) →
    ((∃ ids, (s.core core).saveFlush = some ids ∧ ∀ i ∈ ids, tfind s.net i = none) ∨
      ((s.core core).saveFlush = none ∧ (s.core core).pinned = [] ∧ s.dirtyLines core = [] ∧ s.writeBacks core = [])) →
    ∃ t f, exec (.saveComplete core) s = .next t ∧ f ∈ t.frames ∧ f.2.core = core ∧ f.2.time = s.time ∧
      (s.journalSize = 0 → t.natAt f.2.base 4 = 0x4B575346 ∧ t.natAt (f.2.base + 4) 4 = 1) ∧ (t.core core).saving = [] ∧
      (∀ n ∈ (s.core core).saving, tfind t.gangs n = none ∧ ∀ g, tfind s.gangs n = some g → ∃ g', (n, saveGang g') ∈ f.2.gangs ∧
        g' = { g with fairCount := g'.fairCount, fairDue := g'.fairDue } ∧ ((∀ u ∈ s.uses, u.core ≠ core) → g' = g)) ∧
      (∀ n ∉ (s.core core).saving, tfind t.gangs n = tfind s.gangs n) ∧
      (∀ u l, tfind s.lanes u = some l → if slotOf u ∈ (s.core core).saving then (u, l) ∈ f.2.lanes ∧ tfind t.lanes u = none
        else tfind t.lanes u = some l)) ∧
  (∀ (s : State) (k : Nat), frameSet s k ≠ [] → s.power = .running → restorable s (frameSet s k) = true →
    (∀ f ∈ s.frames, restoresFirst s (frameSet s f.1) (frameSet s k) = true → restorable s (frameSet s f.1) = false) →
    exec (.blockRestore k) s = .next (restoreOrLose s (frameSet s k))) ∧
  (∀ (s : State) (k : Nat) (f : Frame), (s.homeFault f.base f.size).isSome = false → s.natAt f.base 4 = 0x4B575346 →
    s.natAt (f.base + 4) 4 = 1 → risingFrom none f.gangs = true → risingFrom none f.lanes = true →
    let t := restoreOrLose s [(k, f)]
    (∀ n, tfind t.gangs n = (tfind f.gangs n).or (tfind s.gangs n)) ∧
    (∀ u, tfind t.lanes u = (tfind f.lanes u).or (tfind s.lanes u)) ∧
    (∀ b ∈ f.blocks, (t.block b).saved = false))

/-- Writes of the queue table set a queue's field; a size out of range disables the queue and is logged (15 R347). The
journal, log and emulation registers hold what is written; a log that is set up takes the reports of configuration records
that did not verify (21 R430). The halt control register resumes or releases a halted gang;
any other write changes no gang, and one of an action that finds nothing to act on is logged (15 R360).
The model's own choices here: log 79, 109. -/
def Obligations.RegistersAndHalt : Prop :=
  ((∀ (s : State) (q : Nat) (v : W64),
     exec (.queueTableWrite q 0 v) s = .next { s with queues := tput s.queues q { s.queue q with base := v } } ∧
     exec (.queueTableWrite q 1 v) s = .next { s with queues := tput s.queues q { s.queue q with tail := v } } ∧
     exec (.queueTableWrite q 2 v) s = .next { s with queues := tput s.queues q { s.queue q with head := v } } ∧
     ((v.extractLsb' 0 5 = 0 ∨ (4 ≤ (v.extractLsb' 0 5).toNat ∧ (v.extractLsb' 0 5).toNat ≤ 16)) →
       exec (.queueTableWrite q 3 v) s =
         .next { s with queues := tput s.queues q { s.queue q with ctl := v &&& 0x800000000000001F } }) ∧
     (v.extractLsb' 0 5 ≠ 0 → ((v.extractLsb' 0 5).toNat < 4 ∨ 16 < (v.extractLsb' 0 5).toNat) →
       ∃ t, exec (.queueTableWrite q 3 v) s = .next t ∧ (t.queue q).enabled = false ∧ t.logSeq = s.logSeq + 1)) ∧
   (∀ (s : State) (v : W64),
     exec (.registerWrite .journalBase v) s = .next { s with journalBase := v } ∧
     exec (.registerWrite .journalSize v) s = .next { s with journalSize := v.toNat } ∧
     (s.badRecords = [] → exec (.registerWrite .logBase v) s = .next { s with logBase := v } ∧
       exec (.registerWrite .logSize v) s = .next { s with logSize := v.toNat }) ∧
     (6 ≤ v.toNat → v.toNat ≤ 16 → s.logBase ≠ 0 → ∃ t, exec (.registerWrite .logSize v) s = .next t ∧ t.logSize = v.toNat ∧
       t.logBase = s.logBase ∧ t.badRecords = [] ∧ t.logSeq = s.logSeq + s.badRecords.length) ∧
     exec (.registerWrite .emulationTableBase v) s = .next { s with emulationTable := v } ∧
     exec (.registerWrite .emulationLeaseBase v) s = .next { s with emulationLease := v })) ∧
  ((∀ (s : State) (n : Nat), (s.gang n).halted = true → (tfind s.gangs n).isSome = true →
     ∃ t, exec (.haltResume n) s = .next t ∧ tfind t.gangs n = some { s.gang n with halted := false } ∧
       (∀ m, m ≠ n → tfind t.gangs m = tfind s.gangs m) ∧ t.haltControl = BitVec.ofNat 64 (n % 2 ^ 16 + 2 ^ 16) ∧
       t = { s with gangs := t.gangs, haltControl := t.haltControl }) ∧
   (∀ (s : State) (n : Nat), (s.gang n).halted = true → (tfind s.gangs n).isSome = true → (s.gang n).weirs = [] →
     ∃ t, exec (.haltRelease n) s = .next t ∧ (∀ u ∈ s.liveOf n, (t.lane u).live = false ∧ ∀ x ∈ t.groups, u ∉ x.2.members) ∧
       (∀ u, u ∉ s.liveOf n → (t.lane u).live = (s.lane u).live)) ∧
   (∀ (s : State) (v : W64),
     let action := (v.extractLsb' 16 2).toNat
     let n := (v.extractLsb' 0 16).toNat
     haltedGang s n = false ∨ action = 0 ∨ action = 3 →
     ∃ t, exec (.haltControlNoEffect v) s = .next t ∧ t.gangs = s.gangs ∧ t.groups = s.groups ∧
       t.haltControl = BitVec.ofNat 64 (n + action * 2 ^ 16) ∧ t.logSeq = if action = 0 then s.logSeq else s.logSeq + 1))

/-! ### The platform and its boundary. -/

/-- A channel goes to half width when software or an armed policy asks, and back when nothing does; a lane policy of limit 0
asks for a lane that fails alone. The end of its retraining reports the change, and the half without the failing lane stays
in use; no stored byte changes (12 R311, R312).
The model's own choices here: log 71. -/
def Obligations.ChannelWidths : Prop :=
  (∀ (s : State) (c : Nat) (v : W32), v.getLsbD 0 = true → (s.channel c).half = false → (s.channel c).retraining = none →
    exec (.halfWidthRequest c v) s = .next (setChannel s c
      { s.channel c with reg := v &&& 0x00FFFF07, retraining := some (true, 1) })) ∧
  (∀ (s : State) (c : Nat) (v : W32), v.getLsbD 0 = false → (s.channel c).half = true → (s.channel c).retraining = none →
    policyCause { s.channel c with reg := v &&& 0x00FFFF07 } = none →
    exec (.halfWidthLeave c v) s = .next (setChannel s c
      { s.channel c with reg := v &&& 0x00FFFF07, retraining := some (false, 0) })) ∧
  (∀ (s : State) (c n : Nat), (s.channel c).half = false → (s.channel c).retraining = none →
    (s.channel c).reg.getLsbD 0 = false →
    (∀ lane : Option Nat, (s.channel c).reg.getLsbD 1 = true →
      (lane ≠ none ∨ (((s.channel c).reg.extractLsb' 8 8).toNat ≠ 0 ∧ ((s.channel c).reg.extractLsb' 8 8).toNat ≤ n)) →
      exec (.laneErrorLimit c ⟨n, lane⟩) s = .next (setChannel s c
      { s.channel c with errors := n, failing := lane, retraining := some (true, 2) })) ∧
    ((s.channel c).reg.getLsbD 1 = true → (s.channel c).reg.extractLsb' 8 8 = 0 → (s.channel c).reg.getLsbD 2 = false →
      exec (.laneErrorLimit c ⟨n, none⟩) s = .next (setChannel s c { s.channel c with errors := n, failing := none })) ∧
    ((s.channel c).reg.getLsbD 1 = false → (s.channel c).reg.getLsbD 2 = true →
      ((s.channel c).reg.extractLsb' 16 8).toNat ≤ n →
      exec (.temperatureLimit c n) s = .next (setChannel s c
      { s.channel c with degrees := n, retraining := some (true, 3) }))) ∧
  (∀ (s : State) (c cause : Nat) (half : Bool), (s.channel c).retraining = some (half, cause) → s.power = .running →
    s.logSize = 0 →
    (∃ t, exec (.channelRetrainDone c true) s = .next t ∧ (t.channel c).half = half ∧
      (t.channel c).upper = (half && (s.channel c).failing.any (fun l => l < 16)) ∧
      (t.channel c).cause = (if half then cause else 0) ∧ t.irqs = s.irqs ++ [.memoryEvent c] ∧ t.logSeq = s.logSeq + 1 ∧
      (∀ a, t.byteAt a = s.byteAt a)) ∧
    (c < hbmChannels → ∃ t, exec (.channelRetrainDone c false) s = .next t ∧ (t.channel c).half = (s.channel c).half ∧
      (t.channel c).retraining = none ∧ t.irqs = s.irqs ++ [.memoryEvent c] ∧ (∀ a, t.byteAt a = s.byteAt a)))

/-- EMBER begins the entry and takes its steps to the ember state, where it completes; arming and disarming set the flag;
RESUME begins the exit and ends it with the device running (21 R424-R428). A supply warning that finds the device armed
and running begins the entry with a command of the device's own; unarmed it does nothing; one that comes while an image
loads or blocks are being restored is kept, and an earlier one ends the exit. The supply's return begins the exit (21 R424,
R426, R428). A device command waits for a journal slot as any other does (15 R352).
The model's own choices here: log 57, 60, 61, 70. -/
def Obligations.EmberState : Prop :=
  ((∀ (s s1 : State) (seq : Nat) (c0 c : Command), tfind s.commands seq = some c0 → openCommand s seq 5 false = (some c, s1) →
     (c0.field 0x10 1 = 0 → s.power = .running → exec (.emberEnter seq) s = .next { s1 with power := .entering 1 }) ∧
     (s.power = .ember → exec (.emberEnter seq) s = .next (setCommand s1 seq 3 0 0 0)) ∧
     (c0.field 0x10 1 = 1 → s.power ≠ .ember →
       exec (.emberArm seq) s = .next (setCommand { s1 with emberArmed := true } seq 3 0 0 0)) ∧
     (c0.field 0x10 1 = 2 → s.power ≠ .ember →
       exec (.emberDisarm seq) s = .next (setCommand { s1 with emberArmed := false } seq 3 0 0 0))) ∧
   (∀ (s : State) (seq : Nat) (c : Command), tfind s.commands seq = some c → c.type = 5 → c.state = 2 →
     (s.power = .entering 1 → (saveAll s).1 = true → exec (.emberEnter seq) s = .next { (saveAll s).2 with power := .entering 2 }) ∧
     (s.power = .entering 2 → risingFrom none s.commands = true → ∃ t, exec (.emberEnter seq) s = .next t ∧
       t.power = .entering 3 ∧ ∀ k x, tfind s.commands k = some x → k ≠ seq → (x.state = 1 ∨ x.state = 2 ∨ x.state = 5) →
         (tfind t.commands k).map (fun y => (y.state, y.before, y.bytes)) = some (6, x.state, x.bytes)) ∧
     (s.power = .entering 3 → (∀ k < 192, (s.core k).powered = false) → exec (.emberEnter seq) s = .next { s with power := .entering 4 }) ∧
     (s.power = .entering 4 → ∃ t, exec (.emberEnter seq) s = .next t ∧ t.power = .entering 5 ∧
       t.leaseQueue = [] ∧ t.gangs = s.gangs ∧
       ∀ k m, tfind s.migrations k = some m → (tfind t.migrations k).map (fun x => x.step) = some 0) ∧
     (s.power = .entering 5 → risingFrom none s.commands = true → ∃ t, exec (.emberEnter seq) s = .next t ∧ t.power = .ember ∧
       (tfind t.commands seq).map (fun y => y.state) = some 3 ∧
       ∀ k x, tfind s.commands k = some x → k ≠ seq → (s.launch k).ending = none → x.before ≠ 5 →
         (tfind t.commands k).map (fun y => (y.state, y.bytes)) =
           some (if x.state = 6 ∧ (x.type = 5 ∨ x.type = 6) then x.before else x.state, x.bytes))) ∧
   (∀ (s s1 : State) (seq : Nat) (c : Command), openCommand s seq 6 false = (some c, s1) →
     (s.power = .ember → exec (.resume seq) s =
       .next (if (tfind s.commands seq).any (fun x => x.state == 2) then s1 else { s1 with power := .exiting 1 })) ∧
     (s.power = .running → exec (.resume seq) s = .next (setCommand s1 seq 3 0 0 0))) ∧
   (∀ (s : State) (seq : Nat) (c : Command), tfind s.commands seq = some c → c.type = 6 →
     (s.power = .exiting 1 → ∃ t, exec (.resume seq) s = .next t ∧ t.power = .exiting 2 ∧
       ∀ k < memChannels, (t.channel k).retraining.isSome = true ∧ (t.channel k).half = (s.channel k).half) ∧
     (s.power = .exiting 2 → (∀ k ∈ s.channels, k.2.retraining = none) → exec (.resume seq) s = .next { s with power := .exiting 3 }) ∧
     (s.power = .exiting 3 → ∃ t, exec (.resume seq) s = .next t ∧ t.power = .exiting 4 ∧ ∀ k < 192, (t.core k).powered = true) ∧
     (s.power = .exiting 4 → (∀ f ∈ s.frames, restorable s (frameSet s f.1) = false) →
       exec (.resume seq) s = .next { s with power := .exiting 5 }) ∧
     (s.power = .exiting 4 → ∀ f ∈ s.frames, restorable s (frameSet s f.1) = true →
       ∃ k ∈ s.frames, restorable s (frameSet s k.1) = true ∧
         exec (.resume seq) s = .next (restoreOrLose s (frameSet s k.1)) ∧
         ∀ o ∈ s.frames, restorable s (frameSet s o.1) = true →
           restoresFirst s (frameSet s o.1) (frameSet s k.1) = false) ∧
     (s.power = .exiting 5 → risingFrom none s.commands = true → ∃ t, exec (.resume seq) s = .next t ∧ t.power = .exiting 6 ∧
       ∀ k x, tfind s.commands k = some x → x.state = 6 →
         (((s.launch k).ending = none → x.before ≠ 5 →
           (tfind t.commands k).map (fun y => (y.state, y.bytes)) = some (x.before, x.bytes)) ∧
         ((s.launch k).ending = some [] → x.before = 2 → (tfind t.commands k).map (fun y => y.state) = some 3) ∧
         ((s.launch k).ending = none → x.before = 5 → (s.gangs.any (fun g => g.2.launch == k)) = true →
           (tfind t.commands k).map (fun y => y.state) = some 2))) ∧
     (s.power = .exiting 6 → s.warned = false → risingFrom none s.commands = true → c.state = 2 →
       ∃ t, exec (.resume seq) s = .next t ∧ t.power = .running ∧ (tfind t.commands seq).map (fun x => x.state) = some 3))) ∧
  ((∀ s : State, s.emberArmed = false → s.warned = false → s.supplied = false →
     exec .supplyWarning s = .next s ∧ exec .supplyGood s = .next s) ∧
   (∀ s : State, s.emberArmed = true → s.power = .running → journalFree s = true →
     ∃ t c, exec .supplyWarning s = .next t ∧ t.power = .entering 1 ∧ t.warned = false ∧
     tfind t.commands s.nextSeq = some c ∧ c.type = 5 ∧ c.state = 2 ∧ t.nextSeq = s.nextSeq + 1) ∧
   (∀ s : State, s.emberArmed = true → (s.power = .loading ∨ (s.power = .running ∧ journalFree s = false) ∨
       ∃ n, 4 ≤ n ∧ s.power = .exiting n) →
     exec .supplyWarning s = .next { s with warned := true }) ∧
   (∀ (s : State) (n : Nat), s.emberArmed = true → s.power = .exiting n → n < 4 → ∃ t, exec .supplyWarning s = .next t ∧
     t.power = .ember ∧ (∀ c, (t.channel c).retraining = none) ∧ t = { s with power := .ember, channels := t.channels }) ∧
   (∀ s : State, s.emberArmed = true → s.power = .ember → journalFree s = true →
     ∃ t c, exec .supplyGood s = .next t ∧ t.power = .exiting 1 ∧
     tfind t.commands s.nextSeq = some c ∧ c.type = 6 ∧ c.state = 2 ∧ t.nextSeq = s.nextSeq + 1) ∧
   (∀ s : State, s.emberArmed = true → s.power = .ember → journalFree s = false →
     exec .supplyGood s = .next { s with supplied := true }))

/-- FIRMWARE stops the cores, and once every block is saved an image that verifies runs in place of the old one; one that
does not is fault 0x02 and the old one goes on. At power-up device memory is empty, and the device runs when its own image
verifies, with the emulation tables reserved and published, else waits in recovery for one that does (16 R379, R380, 21 R429,
R430).
The model's own choices here: log 72, 73, 74, 99. -/
def Obligations.FirmwareLoads : Prop :=
  (∀ (m v : Nat) (img : List Byte), imageVersion m img = some v →
    leNat (img.take 4) = 0x4B574657 ∧ v = leNat ((img.drop 4).take 4) ∧ m ≤ v ∧ 4096 ≤ leNat ((img.drop 8).take 8) ∧
    leNat ((img.drop 8).take 8) ≤ 2 ^ 26 ∧ (img.drop 0x40).take 64 = sha512 ((img.drop 0xC0).take (leNat ((img.drop 8).take 8))) ∧
    edVerify firmwareKeyBytes (img.take 0x80) ((img.drop 0x80).take 64) = true) ∧
  (∀ (s s1 : State) (seq : Nat) (c : Command), s.power = .running → openCommand s seq 7 false = (some c, s1) →
    exec (.firmware seq) s = .next { s1 with power := .loading }) ∧
  (∀ (s s1 s2 : State) (seq : Nat) (c : Command) (bs : List Byte), s.power = .loading → tfind s.commands seq = some c →
    c.type = 7 → c.state = 2 → saveAll s = (true, s1) → c.field 0x10 8 + c.field 0x18 8 ≤ 2 ^ 41 →
    fwReadPhys s1 (c.field 0x10 8) (c.field 0x18 8) = (.ok bs, s2) → s2.frames = [] → s2.warned = false →
    (∀ v, imageVersion s2.firmware.minVersion bs = some v → ∃ t, exec (.firmware seq) s = .next t ∧ t.power = .running ∧
      t.firmware.version = v ∧ t.firmware.digest = (bs.drop 0x40).take 64) ∧
    (imageVersion s2.firmware.minVersion bs = none → ∃ t, exec (.firmware seq) s = .next t ∧ t.power = .running ∧
      t.firmware = s2.firmware ∧ ((tfind s2.commands seq).isSome = true →
        (tfind t.commands seq).map (fun x => (x.state, x.fault)) = some (4, 0x02)))) ∧
  (∀ s : State, s.writes = [] → ∃ t, exec .powerUp s = .next t ∧ (∀ a, t.byteAt a = if a < hostBase then 0 else s.byteAt a) ∧
    t.gangs = [] ∧ t.groups = [] ∧ t.commands = [] ∧ t.regions = [] ∧ t.time = 0 ∧ t.firmware.image = s.firmware.image ∧
    (match imageVersion t.firmware.minVersion s.firmware.image with
     | some v => t.power = .running ∧ t.firmware.version = v ∧ t.emulationTable = lockTable ∧ t.emulationLease = leaseArea
     | none => t.power = .recovery)) ∧
  (∀ (s : State) (addr n : Nat), s.power = .recovery →
    let img := s.bytesAt (hostBase + addr) n
    (∀ v, imageVersion s.firmware.minVersion img = some v → ∃ t, exec (.recoveryImageLoad addr n) s = .next t ∧
      t.power = .running ∧ t.firmware.version = v) ∧
    (imageVersion s.firmware.minVersion img = none → ∃ t, exec (.recoveryImageLoad addr n) s = .next t ∧ t.power = .recovery))

/-- A host write back-invalidates its lines and is then applied at their homes; a lease in them holds it back. A host read
gives the home's bytes and leaves every core's copy; the host may hold its lines until the home takes bytes of them (21 R420). A peer's accesses are applied in sequence order: one that
comes early waits, one already applied is discarded; an acknowledgement frees the replay buffer (21 R422). A flit is sent
again up to fifteen times in a row, an acknowledgement ending the row; the sixteenth retry, or 10,000 ticks without an
acknowledgement, fails the hop, which is logged, and the peers that the port served take another port, a kept release going
end to end; a die bridge goes on at half its lanes. Peers without a port are tried again (21 R421, R423).
The model's own choices here: log 75, 76, 102. -/
def Obligations.HostAndPeerAccesses : Prop :=
  ((∀ (s s1 : State) (pa : Nat) (data : List Byte),
     let lines := (List.range ((pa % 128 + data.length + 127) / 128)).map (fun i => pa / 128 + i)
     (∀ l ∈ lines, (∀ c ∈ coreNumbers s, s.leasedLine c l = false ∧ s.pinnedLine c l = false) ∧ lineQuiet s l = true) →
     s.homeReadyAll lines = (true, s1) →
     ∃ t, exec (.hostMemWrite pa data) s = .next t ∧ (∀ k < data.length, t.byteAt (pa + k) = data.getD k 0) ∧
       (∀ c, ∀ l ∈ lines, t.l1Line c l = none) ∧
       (∀ c l, l ∉ lines → t.l1Line c l = s.l1Line c l) ∧
       ((∀ c, ∀ l ∈ lines, s.l1Line c l = none) →
         ∀ a, t.byteAt a = if pa ≤ a ∧ a < pa + data.length then data.getD (a - pa) 0 else s.byteAt a)) ∧
   (∀ (s : State) (pa : Nat) (data : List Byte) (c : Nat), c ∈ coreNumbers s → s.leasedLine c (pa / 128) = true → data ≠ [] →
     exec (.hostMemWrite pa data) s = .next s) ∧
   (∀ (s : State) (pa n : Nat), pa + n ≤ 2 ^ 41 → s.failed = [] → Memory.wf s.mem → (∀ c ∈ s.channels, c.2.retraining = none) →
     (∀ l, pa / 128 ≤ l → l ≤ (pa + n) / 128 → s.record l = none ∧ tfind s.drains l = none) →
     ∃ t bs, exec (.hostMemRead pa n) s = .next t ∧
       t = { s with replies := s.replies ++ [.memory bs], l2 := t.l2, hostLines := t.hostLines } ∧ bs.length = n ∧
       (∀ k < n, bs.getD k 0 = s.byteAt (pa + k)) ∧ (∀ k < n, (pa + k) / 128 ∈ t.hostLines)) ∧
   (∀ (s : State) (key : Nat) (bs : List Byte), ∀ k < bs.length, (key + k) / 128 ∉ (s.homeWrite key bs).hostLines)) ∧
  ((∀ (s : State) (a : PeerAccess), a.seq = (s.peer a.source).expect → (s.peer a.source).held = [] →
     (∀ op rel, a.op ≠ .red op rel) →
     ∃ t, exec (.peerAccessArrive a) s = .next t ∧
       (∀ x, t.byteAt x = a.parts.foldl (fun (b : Byte) p =>
         if p.1 ≤ x ∧ x < p.1 + p.2.length then p.2.getD (x - p.1) 0 else b) (s.byteAt x)) ∧
       (t.peer a.source).expect = ((s.peer a.source).expect + 1) % 2 ^ 48 ∧ (t.peer a.source).held = []) ∧
   (∀ (s s1 : State) (a : PeerAccess) (op : BitVec 4) (rel : Bool), a.seq = (s.peer a.source).expect →
     (s.peer a.source).held = [] → a.op = .red op rel →
     a.parts.Pairwise (fun p q => p.1 + p.2.length ≤ q.1 ∨ q.1 + q.2.length ≤ p.1) →
     (setPeer s a.source { s.peer a.source with held := [a] }).homeReadyAll (dedup (a.parts.map (fun p => p.1 / 128))) = (true, s1) →
     ∃ t, exec (.peerAccessArrive a) s = .next t ∧ (t.peer a.source).expect = ((s.peer a.source).expect + 1) % 2 ^ 48 ∧
       ∀ p ∈ a.parts, ∀ k < p.2.length, t.byteAt (p.1 + k) =
         (leBytes p.2.length (atomicOp op.toNat p.2.length (s1.natAt p.1 p.2.length) (leNat p.2))).getD k 0) ∧
   (∀ (s : State) (a : PeerAccess), a.seq < (s.peer a.source).expect → (s.peer a.source).expect ≤ a.seq + 2 ^ 47 →
     (s.peer a.source).held = [] → exec (.peerAccessArrive a) s = .next s) ∧
   (∀ (s : State) (a : PeerAccess), (s.peer a.source).expect < a.seq → a.seq < (s.peer a.source).expect + 2 ^ 47 →
     (s.peer a.source).held = [] →
     exec (.peerAccessArrive a) s = .next (setPeer s a.source { s.peer a.source with held := [a] })) ∧
   (∀ (s : State) (p n : Nat), exec (.endToEndAck p n) s =
     .next (reapAll (setPeer s p { s.peer p with replay := (s.peer p).replay.filter (fun a => a.access.seq != n) })
       (dedup (((s.peer p).replay.filter (fun a => a.access.seq == n)).map (fun a => a.slot)))))) ∧
  ((∀ (s : State) (p : Nat), (s.port p).up = true → (s.port p).retries < 15 →
     exec (.flitRetry p) s = .next { s with ports := tput s.ports p { s.port p with retries := (s.port p).retries + 1 } }) ∧
   (∀ (s : State) (p : Nat), (s.port p).up = true → p < 16 → hopSilent s p = false → exec (.hopFailure p) s = .next s) ∧
   (∀ (s : State) (p : Nat), (s.port p).up = true → 16 ≤ p → ∃ t, exec (.hopFailure p) s = .next t ∧ (t.port p).up = true ∧
     (t.port p).half = true ∧ t.logSeq = s.logSeq + 1 ∧ t.peers = s.peers) ∧
   (∀ (s : State) (p : Nat), (s.port p).up = true → let t := flitAck s p
     (t.port p).retries = 0 ∧ (t.port p).since = s.time ∧
     ∀ d x, tfind s.peers d = some x → x.path = some p →
       tfind t.peers d = some { x with replay := x.replay.map (fun a => { a with accepted := true }) }) ∧
   (∀ (s : State) (p : Nat), (s.port p).up = true → p < 16 → s.unaccepted p = true → (s.port p).since + 10000 ≤ s.time →
     ∃ t, exec (.hopFailure p) s = .next t ∧ (t.port p).up = false ∧
     (15 ≤ (s.port p).retries → exec (.flitRetry p) s = .next t) ∧ t.logSeq = s.logSeq + 1 ∧
     (∀ d x, d < 256 → tfind s.peers d = some x → x.path = some p → ∃ q,
       tfind t.peers d = some { x with path := q, replay := x.replay.map (fun a => { a with
         endToEnd := a.endToEnd || (match a.access.op with | .release => true | .red _ rel => rel | .store => false)
         accepted := false }) } ∧
       (match q with | some r => r ≠ p ∧ r < 16 ∧ (s.port r).up = true | none => ∀ r < 16, r ≠ p → (s.port r).up = false)) ∧
     (∀ d x, tfind s.peers d = some x → x.path ≠ some p → tfind t.peers d = some x)) ∧
   (∀ s : State, risingFrom none s.peers = true → ∃ t, exec .linkRetryTimer s = .next t ∧ ∀ d x, tfind s.peers d = some x →
     tfind t.peers d = some (if x.path = none then { x with path := some (portOf d) } else x)))

/-- Attestation replies: the signature algorithms and digests, the certificate, three measurements, and signatures of the
identity key, whose seed is the first 32 bytes of the SHA-512 of the secret. The messages that sign and the transcript's
form are of a standard outside the spec: they are free values (21 R431, R432). Out-of-band messages only read: an
error-log record, a journal record, a temperature, the supply, the ember state (21 R433).
The model's own choices here: log 9, 74; the numbers that name the ember states in a reply are the model's own, log 108. -/
def Obligations.AttestationAndReads : Prop :=
  ((∀ s : State,
     exec .getVersion s = .next { s with replies := s.replies ++ [.version] } ∧
     exec .getCapabilities s = .next { s with replies := s.replies ++ [.capabilities] } ∧
     exec .getDigests s = .next { s with replies := s.replies ++ [.digests [sha512 (certificate s)]] }) ∧
   (∀ (s : State) (sigs hashes : List Nat),
     exec (.negotiateAlgorithms sigs hashes) s = .next { s with
       replies := s.replies ++ [.algorithms (sigs.contains 10 && hashes.contains 2)] }) ∧
   (∀ (s : State) (o n : Nat), exec (.getCertificate o n) s = .next { s with
     replies := s.replies ++ [.certificate (((certificate s).drop o).take n)] }) ∧
   (∀ (s : State) (nonce : List Byte), exec (.challenge nonce) s = .next { s with replies := s.replies ++
     [.challengeAuth (edSign ((sha512 (leBytes 32 Config.pufSecret)).take 32) (Config.spdmTranscript 0 nonce))] }) ∧
   (∀ (s : State) (i : Nat) (nonce : List Byte), 1 ≤ i → i ≤ 3 → ∃ sig,
     exec (.getMeasurements i nonce) s = .next { s with replies := s.replies ++ [.measurements [(i,
       if i = 1 then sha512 Config.bootRom else if i = 2 then s.firmware.digest else sha512 s.firmware.records.flatten)] sig] } ∧
     sig = edSign ((sha512 (leBytes 32 Config.pufSecret)).take 32) (Config.spdmTranscript 1 nonce))) ∧
  ((∀ (s : State) (m : List Byte), exec (.mctpControl m) s = .next { s with replies := s.replies ++ [.mctp (Config.mctpReply m)] }) ∧
   (∀ (s : State) (v : VendorItem), ∃ t r, exec (.vendorRead v) s = .next t ∧
     t = { s with replies := s.replies ++ [r], fresh := t.fresh } ∧
     (v = .emberState → r = .vendor [match s.power with
       | .running | .loading => 0 | .entering _ => 1 | .ember => 2 | .exiting _ => 3 | .recovery => 4]) ∧
     (∀ i, v = .journal i → s.writes = [] → Memory.wf s.mem → ∀ ws, r = .vendor ws → ws.length = 8 ∧ ∀ k < 8, ws.getD k 0 =
       BitVec.ofNat 64 (leNat ((List.range 8).map (fun j =>
         s.byteAt (s.journalBase.toNat + 64 * (i % 2 ^ s.journalSize) + 8 * k + j)))))))

/-! ### The machine as a whole. -/

/-- What reset leaves, as far as the spec gives it: every core present, with LEASEMAX 256, CHECK 0, release epoch 0 and an
empty L1; sampling off; the region tree empty; sequence numbers of commands and log records at 1; memory-policy registers
0 (08 R244, 10 R282, R290, 12 R311, 15 R352, R358, 16 R383).
The model's own choices here: log 3. -/
def Obligations.ResetState : Prop :=
  let r := State.reset
  (∀ c, (r.core c).powered = true ∧ (r.core c).leasemax = 256 ∧ (r.core c).check = false ∧ (r.core c).epoch = 0 ∧
    (r.core c).l1 = [] ∧ ∀ i, r.present i c = true) ∧
  r.sampleK = 31 ∧ r.sampleBase = 0 ∧ r.sampleHead = 0 ∧ r.regions = [] ∧ r.nextSeq = 1 ∧ r.logSeq = 1 ∧
  (∀ c, (r.channel c).reg = 0) ∧ r.gangs = [] ∧ r.groups = [] ∧ (∀ u, (r.lane u).live = false) ∧ r.Between

/-- Every step, from every state between steps, leads to one: memory keeps its canonical form, every store of the step has
reached it, and no issue is under way. What a step stores reaches memory, and no other byte of memory changes. -/
def Obligations.StepKeepsBetween : Prop :=
  (∀ s t : State, s.Between → step s = .next t → t.Between) ∧
  (∀ s t : State, s.Between → step s = .next t → ∃ u, choice s = .next u ∧
     (∀ a, t.byteAt a = match u.writes.find? (fun w => w.1 == a) with | some w => w.2 | none => s.byteAt a) ∧
     t = { u with mem := t.mem, writes := [], cur := none })

/-- A step that the schedule gives to a group fetches the line of its PC, merges the groups that stand at a marked slot,
and is the execution of the instruction that the slot's 96 bits decode to, by each gang apart where it is gang-pure (01 R16);
a group before which another could issue waits its turn; an event of the schedule is that event's;
without a schedule time goes on by one cycle (03 R71, R77, 15 R368, R369).
The model's own choices here: log 5, 14. -/
def Obligations.StepRunsDecoded : Prop :=
  (∀ (s s2 s3 t : State) (c gid : Nat) (g : Group) (rest : List Choice) (l : Line) (i : Instr),
    s.agenda = .issue c gid :: rest →
    let s0 := fairNow { s with agenda := rest } c
    let p := g.members.head?.elim 0 (fun t => partOf (slotOf t))
    tfind s0.groups gid = some g → mayIssue s0 c g = true → issuePart s0 g = g.members → waitsTurn s0 c p gid = false →
    (useOf s0 c p).issuers.length < 2 →
    fetchGroup s0 g = (.ok l, s2) → i = decodeSlot (l.extractLsb' (96 * pcSlot g.pc) 96) →
    let sm := if lineTarget l (pcSlot g.pc) = true then s2.mergeHere gid g else s2
    s3 = (if laneLocal i = true then sm else sm.splitByGang gid ((tfind sm.groups gid).getD g)) →
    (tfind s3.groups gid).any (fun x => mayIssue s3 c x && freshIssue s3 c gid p x) = true → hasRoom s3 c p i = true →
    exec i { s3 with cur := some (c, gid) } = .next t →
    let x := (tfind s3.groups gid).getD g
    step s = .next (commit s.mem (if t.issued = s3.issued then recordTry c p gid t
      else recordUse s3 c gid p x.members (issuePort i) (pairs t c gid l i x.pc x.branched) t))) ∧
  (∀ (s s1 : State) (w : Who) (pc : W64) (key : Nat) (pte : W64), pcOk pc = true → tfind (s1.core w.core).icache (key / 64) = none →
    translate s w (pc - BitVec.ofNat 64 (pc.toNat % 64)) .fetch = (.ok key pte, s1) → s1.failed = [] →
    s1.record (key / 128) = none → tfind s1.drains (key / 128) = none →
    let l : Line := BitVec.ofNat 512 (s1.natAt key 64)
    lineParityOk l = true → lineFormatOk l = true → ∃ t, fetchLine s w pc = (.ok l, t)) ∧
  (∀ (s t : State) (e : Instr) (rest : List Choice), s.agenda = .event e :: rest → hdrOfInstr e = none → e.wellFormed = true →
    exec e { s with agenda := rest } = .next t → step s = .next (commit s.mem t)) ∧
  (∀ (s : State), s.agenda = [] → s.turn = [] →
    step s = .next (commit s.mem { advanceCycle s with turn := dues (advanceCycle s) }) ∧ (s.heldIssues = [] → (advanceCycle s).cycle = s.cycle + 1))

/-- Words written out from the tables of 03 R86-R92 and R94 decode to the instructions they stand for. -/
def Obligations.DecodedWords : Prop :=
  let h : Hdr := { stall := 1, y := false, guard := 7, neg := false }
  -- FADD.f32 v4, v4, v5 <5>, the worked example of 03 R86
  decodeSlot 0x3015C0402014000400000000 = .fadd { h with stall := 5 }
    ⟨4, 4, 5, 0, .vec, .vec, .vec, 0x10, 0, false, 0, 0⟩ ∧
  -- NOP, the filler of 03 R86
  decodeSlot 0x0001C0000000000000000000 = .nop { h with stall := 0 } ⟨0, 0, .vec, 0, false, 0, 0⟩ ∧
  -- (p2) BRA to 8 slots before <1>
  decodeSlot 0x0044800000000000FFFFFFF8 = .bra { h with guard := 2 } ⟨0, 0, .vec, 0, false, 0, 0xFFFFFFF8⟩ ∧
  -- LD.acq.gang v3, v8, 132 <1>: width 32, scope 1, order 1
  decodeSlot 0x7005C0304000000848000084 = .ld h ⟨3, 8, 0, 0, .vec, .vec, 2, 1, 1, 0, false, 0, 132⟩ ∧
  -- an unassigned function of class 0x0
  decodeSlot 0x0281C0000000000000000000 = .illegalInstruction 0x0281C0000000000000000000

/-- Decoding the word of a well-formed instruction gives it back, with every field at every value; every word is the word
of what it decodes to; and bytes decode to an instruction when they hold a whole slot, lowest byte first (03 R71, R78,
R86-R92, R94). -/
def Obligations.DecodeEncode : Prop :=
  (∀ (i : Instr) (w : Slot), i.wellFormed = true → encode i = some w → decodeSlot w = i) ∧
  (∀ w : Slot, encode (decodeSlot w) = some w) ∧
  (∀ (i : Instr) (h : Hdr), hdrOfInstr i = some h → ∃ w, encode i = some w ∧ hdrOf w = h) ∧
  (∀ bs : List Byte, 12 ≤ bs.length → ∃ i w, decode bs = .ok (i, bs.drop 12) ∧ encode i = some w ∧
    leBytes 12 w.toNat = bs.take 12) ∧
  (∀ bs : List Byte, bs.length < 12 → decode bs = .error .truncated)
end

