-- ==== Sys2Proof/Laws/Tab.lean ====
section
/-!
SUPPORT. Tables: what a key reads after each operation, and that every operation keeps the canonical form; with it, the
laws of memory and of the stores that a step commits.
-/

namespace Sys2Proof.Machine

variable {α : Type}

theorem tfind_tput (t : Tab α) (k j : Nat) (v : α) : tfind (tput t k v) j = if j = k then some v else tfind t j := by
  have key : tfind ((k, v) :: t) j = if j = k then some v else tfind t j := by
    by_cases h : k = j <;> simp [tfind, h]
    intro e; exact absurd e.symm h
  induction t with
  | nil => exact key
  | cons p t ih =>
    obtain ⟨i, w⟩ := p
    unfold tput
    split
    · exact key
    · split
      · rename_i hk
        have hk : k = i := by simpa using hk
        subst hk
        by_cases hj : k = j <;> simp [tfind, hj]
        intro e; exact absurd e.symm hj
      · rename_i hk
        have hk : k ≠ i := by simpa using hk
        have ih := ih (by by_cases h : k = j <;> simp [tfind, h]; intro e; exact absurd e.symm h)
        by_cases hj : i = j
        · subst hj
          have : ¬ i = k := fun e => hk e.symm
          simp [tfind, this]
        · simp [tfind, hj, ih]
@[simp] theorem tfind_tput_self (t : Tab α) (k : Nat) (v : α) : tfind (tput t k v) k = some v := by simp [tfind_tput]
theorem tfind_tput_of_ne (t : Tab α) {k j : Nat} (v : α) (h : j ≠ k) : tfind (tput t k v) j = tfind t j := by
  simp [tfind_tput, h]
theorem tfind_tdel (t : Tab α) (k j : Nat) : tfind (tdel t k) j = if j = k then none else tfind t j := by
  induction t with
  | nil => simp [tdel, tfind]
  | cons p t ih =>
    obtain ⟨i, w⟩ := p
    by_cases h : i = k
    · subst h
      by_cases hj : j = i
      · simp [tdel, hj, hj ▸ ih]
      · have : (i == j) = false := by simpa using fun e => hj e.symm
        simp [tdel, tfind, hj, ih, this]
    · by_cases hj : i = j
      · subst hj; simp [tdel, tfind, h]
      · simp [tdel, tfind, h, hj, ih]
theorem tfind_tset [DecidableEq α] (d : α) (t : Tab α) (k j : Nat) (v : α) :
    tfind (tset d t k v) j = if j = k then (if v = d then none else some v) else tfind t j := by
  unfold tset
  split <;> simp [tfind_tdel, tfind_tput]
theorem tget_tset [DecidableEq α] (d : α) (t : Tab α) (k j : Nat) (v : α) :
    tget d (tset d t k v) j = if j = k then v else tget d t j := by
  unfold tget
  rw [tfind_tset]
  by_cases h : j = k
  · by_cases hv : v = d <;> simp [h, hv]
  · simp [h]
theorem tget_tput (d : α) (t : Tab α) (k j : Nat) (v : α) : tget d (tput t k v) j = if j = k then v else tget d t j := by
  unfold tget
  rw [tfind_tput]
  split <;> rfl
theorem tfind_tmod (t : Tab α) (k j : Nat) (f : α → α) :
    tfind (tmod t k f) j = if j = k then (tfind t j).map f else tfind t j := by
  unfold tmod
  split
  · rename_i v h
    rw [tfind_tput]
    by_cases hj : j = k
    · subst hj; simp [h]
    · simp [hj]
  · rename_i h
    by_cases hj : j = k
    · subst hj; simp [h]
    · simp [hj]
theorem tfind_mem {t : Tab α} {k : Nat} {v : α} (h : tfind t k = some v) : (k, v) ∈ t := by
  induction t with
  | nil => simp [tfind] at h
  | cons p t ih =>
    obtain ⟨i, w⟩ := p
    unfold tfind at h
    split at h
    · rename_i he
      have he : i = k := by simpa using he
      injection h with h
      subst he; subst h
      exact List.mem_cons_self ..
    · exact List.mem_cons_of_mem _ (ih h)
/-- A table whose values are mapped, keys kept. -/
theorem tfind_map {β : Type} (t : Tab α) (j : Nat) (f : Nat → α → β) :
    tfind (t.map (fun p => (p.1, f p.1 p.2))) j = (tfind t j).map (f j) := by
  induction t with
  | nil => rfl
  | cons p t ih =>
    obtain ⟨i, w⟩ := p
    by_cases h : i = j
    · subst h; simp [tfind]
    · simp [tfind, h, ih]

/-! The canonical form. -/

theorem risingFrom_weaken {t : Tab α} {a b : Nat} (h : risingFrom (some b) t = true) (hab : a ≤ b) :
    risingFrom (some a) t = true := by
  cases t with
  | nil => rfl
  | cons p t => simp [risingFrom] at *; exact ⟨by omega, h.2⟩
theorem risingFrom_none {t : Tab α} {a : Nat} (h : risingFrom (some a) t = true) : risingFrom none t = true := by
  cases t with
  | nil => rfl
  | cons p t => simp [risingFrom] at *; exact h.2
theorem risingFrom_tput (t : Tab α) (lo : Option Nat) (k : Nat) (v : α) (h : risingFrom lo t = true)
    (hk : ∀ l, lo = some l → l < k) : risingFrom lo (tput t k v) = true := by
  induction t generalizing lo with
  | nil => cases lo <;> simp [tput, risingFrom] at *; exact hk
  | cons p t ih =>
    obtain ⟨i, w⟩ := p
    have hs : (∀ l, lo = some l → l < i) ∧ risingFrom (some i) t = true := by
      cases lo <;> simp [risingFrom] at * <;> exact h
    by_cases hki : k < i
    · cases lo <;> simp [tput, hki, risingFrom] at * <;> simp [*]
    · by_cases he : k = i
      · subst he
        cases lo <;> simp [tput, risingFrom] at * <;> simp [*]
      · have := ih (some i) hs.2 (by intro l hl; cases hl; omega)
        cases lo <;> simp [tput, hki, he, risingFrom] at * <;> simp [this, hs]
theorem risingFrom_tdel (t : Tab α) (lo : Option Nat) (k : Nat) (h : risingFrom lo t = true) :
    risingFrom lo (tdel t k) = true := by
  induction t generalizing lo with
  | nil => exact h
  | cons p t ih =>
    obtain ⟨i, w⟩ := p
    have hs : (∀ l, lo = some l → l < i) ∧ risingFrom (some i) t = true := by
      cases lo <;> simp [risingFrom] at * <;> exact h
    by_cases he : i = k
    · simp only [tdel, he, beq_self_eq_true, if_true]
      have h2 := ih (some i) hs.2
      cases lo with
      | none => exact risingFrom_none h2
      | some l => exact risingFrom_weaken h2 (Nat.le_of_lt (hs.1 l rfl))
    · have h2 := ih (some i) hs.2
      cases lo <;> simp [tdel, he, risingFrom] at * <;> simp [h2, hs]
theorem mem_tput {t : Tab α} {k : Nat} {v : α} {p : Nat × α} (h : p ∈ tput t k v) : p = (k, v) ∨ p ∈ t := by
  induction t with
  | nil => simp [tput] at h; exact Or.inl h
  | cons q t ih =>
    obtain ⟨i, w⟩ := q
    unfold tput at h
    split at h
    · simpa using h
    · split at h
      · simp only [List.mem_cons] at h ⊢
        rcases h with h | h
        · exact Or.inl h
        · exact Or.inr (Or.inr h)
      · simp only [List.mem_cons] at h ⊢
        rcases h with h | h
        · exact Or.inr (Or.inl h)
        · rcases ih h with h | h
          · exact Or.inl h
          · exact Or.inr (Or.inr h)
theorem key_ne_tdel {t : Tab α} {k : Nat} {p : Nat × α} (h : p ∈ tdel t k) : p.1 ≠ k := by
  induction t with
  | nil => cases h
  | cons a t ih =>
    obtain ⟨j, w⟩ := a
    simp only [tdel] at h
    split at h
    · exact ih h
    · rename_i hj
      rcases List.mem_cons.mp h with rfl | h
      · simpa using hj
      · exact ih h
theorem mem_tdel {t : Tab α} {k : Nat} {p : Nat × α} (h : p ∈ tdel t k) : p ∈ t := by
  induction t with
  | nil => exact h
  | cons q t ih =>
    obtain ⟨i, w⟩ := q
    unfold tdel at h
    split at h
    · exact List.mem_cons_of_mem _ (ih h)
    · simp only [List.mem_cons] at h ⊢
      rcases h with h | h
      · exact Or.inl h
      · exact Or.inr (ih h)
theorem canonical_tset [DecidableEq α] (d : α) (t : Tab α) (k : Nat) (v : α) (h : canonical d t = true) :
    canonical d (tset d t k v) = true := by
  simp only [canonical, Bool.and_eq_true, List.all_eq_true] at h ⊢
  unfold tset
  split
  · exact ⟨risingFrom_tdel _ _ _ h.1, fun p hp => h.2 p (mem_tdel hp)⟩
  · rename_i hv
    refine ⟨risingFrom_tput _ _ _ _ h.1 (by simp), fun p hp => ?_⟩
    rcases mem_tput hp with rfl | hp
    · simpa using hv
    · exact h.2 p hp
/-- A step's stores keep memory canonical. -/
theorem canonical_commitWrites (m : Tab Byte) (ws : List (Nat × Byte)) (h : canonical 0 m = true) :
    canonical 0 (commitWrites m ws) = true := by
  induction ws with
  | nil => exact h
  | cons w ws ih => exact canonical_tset _ _ _ _ ih
/-- A byte after a step's stores: the newest store to it, else what stood there. -/
theorem tget_commitWrites (m : Tab Byte) (ws : List (Nat × Byte)) (a : Nat) :
    tget 0 (commitWrites m ws) a = match ws.find? (fun w => w.1 == a) with | some w => w.2 | none => tget 0 m a := by
  induction ws with
  | nil => rfl
  | cons w ws ih =>
    show tget 0 (tset 0 (commitWrites m ws) w.1 w.2) a = _
    rw [tget_tset]
    by_cases h : a = w.1
    · simp [h]
    · have : (w.1 == a) = false := by simpa using fun e => h e.symm
      simp only [List.find?, this, if_neg h]
      exact ih

end Sys2Proof.Machine
end

