-- ==== Sys2Proof/Laws/Mmu.lean ====
section
/-!
SUPPORT. What translation, a fetch, a constant read and an operand read may change.
-/

namespace Sys2Proof.Machine

open State

theorem Looked.refl (s : State) : Looked s s := ⟨rfl, fun _ => rfl, fun _ => ⟨0, by decide, by simp⟩⟩
theorem byteAt_congr {s t : State} (hm : t.mem = s.mem) (hw : t.writes = s.writes) (a : Nat) : t.byteAt a = s.byteAt a := by
  unfold State.byteAt; rw [hm, hw]
theorem Looked.trans {s t u : State} (h : Looked s t) (k : Looked t u) : Looked s u := by
  refine ⟨?_, fun c => ?_, fun x => ?_⟩
  · rw [k.frame, h.frame]
  · have a := h.cores c
    have b := k.cores c
    rw [b, a]
  · obtain ⟨m, hm, h1⟩ := h.bytes x
    obtain ⟨n, hn, h2⟩ := k.bytes x
    refine ⟨m ||| n, ?_, by rw [h2, h1, BitVec.or_assoc]⟩
    rw [BitVec.and_or_distrib_right, hm, hn]; rfl
theorem core_modCore (s : State) (c d : Nat) (f : Core → Core) :
    (s.modCore c f).core d = if d = c then f (s.core c) else s.core d := by
  simp only [State.core, State.modCore, State.setCore, tfind_tput]
  split <;> rfl
/-- A change of a core's translations and read-only caches. -/
theorem Looked.modCore (s : State) (c : Nat) (f : Core → Core)
    (hf : ∀ k, f k = { k with tlb := (f k).tlb, walks := (f k).walks, icache := (f k).icache, ccache := (f k).ccache }) :
    Looked s (s.modCore c f) := by
  refine ⟨rfl, fun d => ?_, fun a => ⟨0, by decide, by simp [State.byteAt, State.modCore, State.setCore]⟩⟩
  rw [core_modCore]
  split
  · rename_i h; subst h; exact hf _
  · rfl
/-- A change of messages, drains, records, failed words, and the lines that L2 slices and the host hold. -/
theorem Looked.of_cores (s t : State) (hc : t.cores = s.cores) (hw : t.writes = s.writes)
    (h : t = { s with net := t.net, nextId := t.nextId, drains := t.drains, records := t.records, failed := t.failed
                      fresh := t.fresh, l2 := t.l2, hostLines := t.hostLines }) :
    Looked s t := by
  refine ⟨?_, fun c => ?_, fun a => ⟨0, by decide, by rw [byteAt_congr (by rw [h]) hw]; simp⟩⟩
  · rw [hc, hw]; exact h
  · have : t.core c = s.core c := by unfold State.core; rw [hc]
    rw [this]
theorem looked_send (s : State) (m : Msg) : Looked s (s.send' m) := .of_cores _ _ rfl rfl rfl
theorem looked_foldl {α : Type} (f : State → α → State) (h : ∀ s a, Looked s (f s a)) (l : List α) (s : State) :
    Looked s (l.foldl f s) := by
  induction l generalizing s with
  | nil => exact .refl s
  | cons a l ih => exact (h s a).trans (ih _)
theorem looked_startDrain (s : State) (line : Nat) : Looked s (s.startDrain line) := by
  unfold State.startDrain
  split
  · exact .refl s
  · exact .refl s
  · simp only []
    split
    · exact .of_cores _ _ rfl rfl rfl
    · rename_i r _ _ _
      exact (Looked.of_cores s { s with drains := tput s.drains line { await := (s.probesOf line r).map (·.1), reads := [], regs := [] } } rfl rfl rfl).trans
        (looked_foldl (fun (s : State) (p : Nat × Option Nat) => s.send' { core := p.1, toHome := false, line := line, body := .probe p.2 })
          (fun s a => looked_send s _) _ _)
theorem looked_touchL2 (s : State) (line : Nat) : Looked s (s.touchL2 line) := by
  unfold State.touchL2
  simp only []
  split
  · exact .refl s
  · exact .of_cores _ _ rfl rfl rfl
theorem looked_takeWrite (s : State) (line : Nat) : Looked s (s.takeWrite line) := by
  refine (looked_touchL2 s line).trans ?_
  show Looked _ ((s.touchL2 line).dropHost line)
  unfold State.dropHost
  split
  · exact .refl _
  · exact .of_cores _ _ rfl rfl rfl
theorem looked_homeReady (s : State) (line : Nat) : Looked s (s.homeReady line).2 := by
  have h := looked_startDrain s line
  unfold State.homeReady
  simp only []
  split
  · exact h
  · split
    · exact h.trans (.of_cores _ _ rfl rfl rfl)
    · exact h.trans (looked_touchL2 _ _)
theorem looked_repair (s : State) (key n : Nat) : Looked s (s.repair key n) := by
  unfold State.repair
  split
  · exact .refl _
  · exact .of_cores _ _ rfl rfl rfl
theorem byteAt_storeByte (s : State) (k : Nat) (b : Byte) (a : Nat) : (s.storeByte k b).byteAt a = if a = k then b else s.byteAt a := by
  unfold State.storeByte State.byteAt
  by_cases h : k = a
  · simp [h]
  · have : a ≠ k := fun e => h e.symm
    simp [h, this]
/-- Setting the accessed or dirty bit of an entry. -/
theorem looked_setPteBit (s : State) (a bit : Nat) (hb : bit = 6 ∨ bit = 7) : Looked s (setPteBit s a bit) := by
  refine Looked.trans (t := s.storeByte a (s.byteAt a ||| (1#8 <<< bit))) ⟨rfl, fun _ => rfl, fun x => ?_⟩
    ((looked_repair _ _ _).trans (looked_foldl (fun s i => s.takeWrite (a / 128 + i)) (fun _ _ => looked_takeWrite _ _) _ _))
  rw [byteAt_storeByte]
  split
  · rename_i h; subst h
    exact ⟨1#8 <<< bit, by rcases hb with h | h <;> subst h <;> decide, rfl⟩
  · exact ⟨0, by decide, by simp⟩
theorem looked_installTlb (s : State) (c : Nat) (e : TlbEntry) (va : Nat) : Looked s (installTlb s c e va) :=
  .modCore s c _ fun _ => rfl
theorem looked_installWalk (s : State) (c : Nat) (e : WalkEntry) : Looked s (installWalk s c e) := .modCore s c _ fun _ => rfl

theorem looked_walkFrom (s : State) (w : Who) (va n table : Nat) : Looked s (walkFrom s w va n table).2.2 := by
  induction n generalizing s table with
  | zero => exact .refl s
  | succ n ih =>
    unfold walkFrom
    simp only []
    have hr := looked_homeReady s ((table + 8 * vaIndex va n) / 128)
    split
    · exact .refl s
    · split
      · exact hr
      · split
        · exact hr
        · split
          · exact hr
          · split
            · split
              · exact hr
              · refine (hr.trans ?_).trans (looked_installTlb _ _ _ _)
                split
                · exact .refl _
                · exact looked_setPteBit _ _ _ (.inl rfl)
            · split
              · exact hr
              · exact (hr.trans (looked_installWalk _ _ _)).trans (ih _ _)
theorem looked_walk (s : State) (w : Who) (va : Nat) (cached : Bool) : Looked s (walk s w va cached).2.2 := by
  unfold walk
  split
  · exact .refl s
  · simp only []
    split
    · exact looked_walkFrom ..
    · split
      · exact looked_walkFrom ..
      · split <;> exact looked_walkFrom ..
theorem looked_useLeaf (s : State) (w : Who) (va : Nat) (a : Acc) (e : TlbEntry) : Looked s (useLeaf s w va a e).2 := by
  unfold useLeaf
  simp only []
  split
  · exact .refl s
  · split
    · exact .refl s
    · split
      · have hr := looked_homeReady s (e.pteAt / 128)
        split
        · exact hr
        · exact (hr.trans (looked_setPteBit _ _ _ (.inr rfl))).trans (looked_installTlb _ _ _ _)
      · exact .refl s
theorem looked_again (s : State) (w : Who) (va : Nat) (acc : Acc) : Looked s
    (match (walk s w va false).2.1 with
      | none => ((walk s w va false).1, (walk s w va false).2.2)
      | some e => if permits e.pte w.prv acc = true then useLeaf (walk s w va false).2.2 w va acc e
                  else (.fault 0x11, (walk s w va false).2.2)).2 := by
  have hw := looked_walk s w va false
  split
  · exact hw
  · split
    · exact hw.trans (looked_useLeaf ..)
    · exact hw
/-- Translation changes the TLB, the walk cache, accessed and dirty bits, drains, and nothing else. -/
theorem looked_translate (s : State) (w : Who) (a : W64) (acc : Acc) : Looked s (translate s w a acc).2 := by
  unfold translate
  split
  · exact .refl s
  · simp only []
    split
    · split
      · exact looked_again ..
      · exact looked_useLeaf ..
    · have hw := looked_walk s w (a.toNat % 2 ^ 57) true
      split
      · exact hw
      · split
        · exact hw.trans (looked_useLeaf ..)
        · exact hw.trans (looked_again ..)
/-- So do a fetch, with the instruction cache, and a constant read, with the constant cache. -/
theorem looked_fetchLine (s : State) (w : Who) (pc : W64) : Looked s (fetchLine s w pc).2 := by
  have ht := looked_translate s w (pc - BitVec.ofNat 64 (pc.toNat % 64)) .fetch
  unfold fetchLine
  simp only []
  split <;> (rename_i he; rw [he] at ht)
  · exact ht
  · exact ht
  · exact ht
  · have hk : ∀ base l s', Looked s s' → Looked s (checkedLine base l s').2 := by
      intro base l s' h
      unfold checkedLine
      split
      · exact h
      · split <;> exact h
    split
    · exact hk _ _ _ ht
    · rename_i key _ s' _ _
      have hr := ht.trans (looked_homeReady s' (key / 128))
      split
      · exact hr
      · split
        · exact hr
        · exact hk _ _ _ (hr.trans (Looked.modCore _ _ _ fun _ => rfl))
theorem looked_constWord (s : State) (w : Who) (base : W64) (n : Nat) : Looked s (constWord s w base n).2 := by
  have ht := looked_translate s w (base + BitVec.ofNat 64 (4 * n)) .read
  unfold constWord
  simp only []
  split
  · exact .refl s
  · split <;> (rename_i he; rw [he] at ht)
    · exact ht
    · exact ht
    · exact ht
    · rename_i key _ s'
      split
      · dsimp only
        exact ht.trans ((Looked.of_cores s' { s' with failed := s'.failed.filter (fun x => x != FailedWord.const w.core (key / 8)) } rfl rfl rfl).trans (Looked.modCore _ _ _ fun _ => rfl))
      · split
        · exact ht
        · have hr := ht.trans (looked_homeReady s' (key / 128))
          split
          · exact hr
          · split
            · exact hr
            · dsimp only
              exact hr.trans (Looked.modCore _ _ _ fun _ => rfl)
theorem looked_constWords (s : State) (w : Who) (base : W64) (i n : Nat) : Looked s (constWords s w base i n).2.2 := by
  induction n generalizing s i with
  | zero => exact .refl s
  | succ n ih =>
    have ht := looked_constWord s w base i
    unfold constWords
    split <;> (rename_i he; rw [he] at ht)
    · exact ht.trans (ih _ _)
    · exact ht

end Sys2Proof.Machine
end

