-- ==== Sys2Proof/Laws/Accepts.lean ====
section
/-!
SUPPORT. The checks of `Accepts` are enough: the body of an instruction that issues once for the gang then answers `.done`.
-/

namespace Sys2Proof.Machine

open State

/-! ### What reading scales leaves alone. -/

/-- No gang and no launch has changed. -/
structure Kept (s t : State) : Prop where
  gangs : t.gangs = s.gangs
  launches : t.launches = s.launches
theorem Kept.refl (s : State) : Kept s s := ⟨rfl, rfl⟩
theorem Kept.trans {s t u : State} (h : Kept s t) (k : Kept t u) : Kept s u :=
  ⟨k.gangs.trans h.gangs, k.launches.trans h.launches⟩
theorem Looked.kept {s t : State} (h : Looked s t) : Kept s t := ⟨by rw [h.frame], by rw [h.frame]⟩
theorem kept_modCore (s : State) (c : Nat) (f : Core → Core) : Kept s (s.modCore c f) := ⟨rfl, rfl⟩
theorem kept_foldl {α : Type} (l : List α) (f : State → α → State) (hf : ∀ s x, Kept s (f s x)) (s : State) : Kept s (l.foldl f s) := by
  induction l generalizing s with
  | nil => exact .refl s
  | cons x l ih => exact (hf s x).trans (ih (f s x))
theorem kept_pruneL1 (s : State) (c : Nat) : Kept s (s.pruneL1 c) := by
  unfold State.pruneL1; split <;> exact ⟨rfl, rfl⟩
theorem kept_replaceL1 (s : State) (c line : Nat) : Kept s (s.replaceL1 c line) := by
  unfold State.replaceL1; exact (kept_modCore _ _ _).trans (kept_pruneL1 _ _)
theorem kept_dropScales (s : State) (c : Nat) : Kept s (s.dropScales c) := by
  unfold State.dropScales; split <;> exact ⟨rfl, rfl⟩
theorem kept_dropL1 (s : State) (c line : Nat) : Kept s (s.dropL1 c line) := by
  exact (kept_dropScales s c).trans (kept_replaceL1 _ _ _)
theorem kept_loseBytes (s : State) (c line : Nat) (l : List Nat) : Kept s (s.loseBytes c line l) := by
  unfold State.loseBytes
  split
  · simp only []
    split
    · exact .refl s
    · refine Kept.trans ?_ (kept_pruneL1 _ _)
      exact ⟨rfl, rfl⟩
  · exact .refl s
theorem kept_writeBack (s : State) (c line : Nat) : Kept s (s.writeBack c line).2 := by
  unfold State.writeBack
  split
  · exact .refl s
  · split
    · exact .refl s
    · simp only []
      exact Kept.trans (Kept.trans (t := (s.send _).2) ⟨rfl, rfl⟩ (kept_modCore _ _ _)) (kept_loseBytes _ _ _ _)
theorem kept_evictOne (s : State) (c : Nat) (lines : List Nat) : Kept s (s.evictOne c lines) := by
  unfold State.evictOne
  simp only []
  split
  · refine Kept.trans ?_ (kept_replaceL1 _ _ _)
    refine Kept.trans ?_ (kept_writeBack _ _ _)
    exact ⟨rfl, rfl⟩
  · exact .refl s
theorem kept_allocL1 (s : State) (c line : Nat) : Kept s (s.allocL1 c line).2 := by
  unfold State.allocL1
  split
  · exact .refl s
  · simp only [State.setL1]
    refine Kept.trans ?_ (kept_modCore _ _ _)
    split
    · exact .refl s
    · unfold State.makeRoom
      simp only []
      split
      · exact .refl s
      · exact kept_evictOne _ _ _
theorem kept_l1Fill (s : State) (c line off : Nat) (bs : List Byte) (a b : Bool) : Kept s (s.l1Fill c line off bs a b) := by
  unfold State.l1Fill; exact (kept_allocL1 s c line).trans (kept_modCore _ _ _)
theorem kept_relaxedRead (s : State) (c key n : Nat) (pte : W64) : Kept s (s.relaxedRead c key n pte).2 := by
  unfold State.relaxedRead
  simp only []
  split
  · exact ⟨rfl, rfl⟩
  · split
    · exact .refl s
    · split
      · exact .refl s
      · split
        · exact .refl s
        · have hd : Kept s (s.homeReady (key / 128)).2 := (looked_homeReady s (key / 128)).kept
          split
          · exact hd
          · split
            · exact hd
            · split <;> (try split)
              all_goals first
                | exact hd
                | exact hd.trans (kept_l1Fill _ _ _ _ _ _ _)
theorem kept_dropBytes (s : State) (c key n : Nat) : Kept s (s.dropBytes c key n) := by
  have hs : Kept s (s.dropScales c) := kept_dropScales s c
  unfold State.dropBytes
  simp only []
  split
  · exact hs
  · exact hs.trans ((kept_modCore _ _ _).trans (kept_pruneL1 _ _))
theorem kept_dropFailed (s : State) (c key n : Nat) : Kept s (s.dropFailed c key n) := by
  unfold State.dropFailed
  simp only []
  split
  · refine Kept.trans ?_ (kept_dropScales _ _)
    exact ⟨rfl, rfl⟩
  · refine Kept.trans ?_ (kept_pruneL1 _ _)
    refine Kept.trans ?_ (kept_modCore _ _ _)
    refine Kept.trans ?_ (kept_dropScales _ _)
    exact ⟨rfl, rfl⟩
theorem kept_keepScale (s : State) (c line : Nat) (bs : List Byte) : Kept s (s.keepScale c line bs) := by
  unfold State.keepScale State.modEngine
  refine Kept.trans ?_ (kept_modCore _ _ _)
  exact ⟨rfl, rfl⟩
theorem kept_cachedScale (s : State) (o : Once) (va : W64) : Kept s (s.cachedScale o va).2 := by
  unfold State.cachedScale
  simp only []
  split
  · exact .refl s
  · have ht := (looked_translate s (s.who o.thread) va .read).kept
    split <;> (rename_i he; rw [he] at ht)
    · exact ht
    · exact ht
    · exact ht
    · split
      · exact ht
      · rename_i s' _
        split <;> (rename_i hr; have hk := congrArg Prod.snd hr; simp only [] at hk)
        · subst hk; exact ht.trans (kept_relaxedRead _ _ _ _ _)
        · subst hk; exact ht.trans (kept_relaxedRead _ _ _ _ _)
        · subst hk; exact (ht.trans (kept_relaxedRead _ _ _ _ _)).trans (kept_dropFailed _ _ _ _)
        · subst hk
          simp only []
          split
          · exact (ht.trans (kept_relaxedRead _ _ _ _ _)).trans (kept_keepScale _ _ _ _)
          · exact ht.trans (kept_relaxedRead _ _ _ _ _)
theorem kept_cachedScales (s : State) (o : Once) (vas : List W64) : Kept s (s.cachedScales o vas).2 := by
  induction vas generalizing s with
  | nil => exact .refl s
  | cons va vs ih =>
    have h1 := kept_cachedScale s o va
    unfold State.cachedScales
    split
    · next r s1 he => rw [he] at h1; exact h1
    · next b s1 he =>
      rw [he] at h1
      have h2 := ih s1
      split
      · next r s2 hf => rw [hf] at h2; exact h1.trans h2
      · next bs s2 hf => rw [hf] at h2; exact h1.trans h2
theorem kept_countUses (s : State) (c a k : Nat) (us : List LineUse) : Kept s (s.countUses c a k us) := by
  unfold State.countUses
  split
  · exact .refl s
  · refine kept_foldl us _ (fun s u => ?_) s
    unfold State.countLine
    simp only []
    repeat' split
    all_goals exact ⟨rfl, rfl⟩

/-! ### Class 0xA. -/

/-- A class 0xA instruction that its entry lets pass, by a gang that is not in a pair for it, issues. -/
theorem matrix_done {i : Instr} {f : FmtX} {s : State} {o : Once} (ha : o.act = true)
    (hp : pairedInstr (s.headerOf o.slot) i = true → (s.gang o.slot).pair ≠ .paired)
    (h1 : tfind (s.gang o.slot).engineFault f.eng.toNat = none)
    (h2 : matrixFault (s.headerOf o.slot) s o.slot i f o.scalars (s.engine o.core f.eng.toNat) = none)
    (hv : valuesLocked s o f = false) (hw : valueFailed s o f = none)
    (h3 : f.sc = true → ∃ bs s1, s.cachedScales o (scaleVas o.scalars (rowsOf o.scalars f.sfmt (rowCount f))) = (.inr bs, s1)) :
    (matrixBody i f o s).1 = .done := by
  have he : ∃ bs s1, matrixEntry i f o s = (.inr bs, s1) ∧ Kept s s1 := by
    simp only [matrixEntry, ha, h1, h2, hv, hw, Bool.not_true, Bool.false_eq_true, if_false]
    by_cases hs : f.sc = true
    · obtain ⟨bs, s1, e⟩ := h3 hs
      have hk := kept_cachedScales s o (scaleVas o.scalars (rowsOf o.scalars f.sfmt (rowCount f)))
      rw [e] at hk
      simp only [hs, Bool.not_true, Bool.false_eq_true, if_false, e]
      exact ⟨_, _, rfl, hk.trans (kept_countUses _ _ _ _ _)⟩
    · simp only [hs, Bool.not_false, if_true]
      exact ⟨_, _, rfl, .refl s⟩
  obtain ⟨bs, s1, e, hk⟩ := he
  have hg : s1.gang o.slot = s.gang o.slot := by unfold State.gang; rw [hk.gangs]
  have hh : s1.headerOf o.slot = s.headerOf o.slot := by unfold State.headerOf State.launch; rw [hg, hk.launches]
  simp only [matrixBody, e, hg, hh]
  split
  · next p hq =>
    split at hq
    · next hc =>
      simp only [Bool.and_eq_true, beq_iff_eq] at hc
      exact absurd hc.2 (hp hc.1)
    · cases hq
  · rfl

theorem firstStop_none {l : List (Option OnceRes)} (h : ∀ x ∈ l, x = none) : firstStop l = none := by
  induction l with
  | nil => rfl
  | cons a l ih =>
    have := h a (by simp); subst this
    simpa [firstStop] using ih (fun x hx => h x (by simp [hx]))
theorem alignStop_none {a : Nat} (h : a % 16 = 0) : alignStop a = none := by simp [alignStop, h]

theorem copyIssue_done {s : State} {o : Once} {f : FmtX} {r : CopyRows} (h : CopyOk s o f r) :
    (copyIssue o f r.n r.len r.sst r.dst r.ms r.md r.index none s).1 = .done := by
  obtain ⟨h1, h2, h3⟩ := h
  unfold copyTarget at *
  unfold copySource at *
  simp only [copyIssue, h1]
  rw [firstStop_none (by simp [h2])]
  simp only [h3]
  simp [addJob]

theorem once_is_done {r : OnceRes × State} (h : r.1 = .done) : ∃ s1, r = (.done, s1) := ⟨_, Prod.ext h rfl⟩

/-- A scratch operand that is in order stops nothing. -/
theorem mapScratch_ok {s : State} {slot base : Nat} {rows : List (Nat × Nat)} {source : Bool} {want : Option (BitVec 6)}
    (h : ScratchOk s slot base rows want) (hw : source = true → want.isSome = true) :
    (mapScratch s slot base rows source want).stop = none ∧
      (mapScratch s slot base rows source want).rows = rows.map (fun r => [⟨true, r.1, r.2⟩]) := by
  obtain ⟨h1, h2, h3⟩ := h
  refine ⟨?_, by simp [mapScratch, Function.comp_def]⟩
  have hout : rows.filter (fun r => decide ((s.headerOf slot).scratch < r.1 + r.2)) = [] := by
    rw [List.filter_eq_nil_iff]
    intro r hr; have := h2 r hr; simp; omega
  simp only [mapScratch, alignStop_none h1, hout, List.foldl_nil]
  cases source with
  | false => simp [lowerOf]
  | true =>
    cases want with
    | none => exact absurd (hw rfl) (by simp)
    | some f =>
      simp only [if_true, Option.getD_some]
      rw [List.find?_eq_none.2]
      · simp [lowerOf]
      · intro g hg
        rw [List.mem_filter] at hg
        have := h3 f rfl g hg.1
        simp [this]

theorem cast_done {s : State} {o : Once} {f : FmtX} (h : CastOk s o f) : (castBody f o s).1 = .done := by
  simp only [CastOk] at h
  obtain ⟨h1, h2, h3, h4, h5⟩ := h
  obtain ⟨a1, a2⟩ := mapScratch_ok (source := true) h3 (fun _ => rfl)
  obtain ⟨b1, b2⟩ := mapScratch_ok (source := false) h4 (fun h => by cases h)
  simp only [castBody]
  rw [if_neg (by simp; omega), firstStop_none]
  · simp only [a2, b2]
    rw [if_neg]
    · rfl
    · simp [overlaps, h5]
  · intro x hx
    simp only [List.mem_cons, List.not_mem_nil, or_false] at hx
    rcases hx with rfl | rfl
    · exact a1
    · exact b1

theorem flatten_singles (rows : List (Nat × Nat)) : (rows.map (fun r => [(⟨true, r.1, r.2⟩ : Span)])).flatten = rows.map (fun r => ⟨true, r.1, r.2⟩) := by
  induction rows with
  | nil => rfl
  | cons a l ih => simp [ih]

theorem quant_done {s : State} {o : Once} {f : FmtX} (h : QuantOk s o f) : (qdualBody f o s).1 = .done := by
  simp only [QuantOk] at h
  obtain ⟨h1, h2, h3, h4, h5, h7, h8⟩ := h
  simp only [List.mem_cons, List.not_mem_nil, or_false, forall_eq_or_imp, forall_eq] at h2 h4 h5
  obtain ⟨m1, m2⟩ := mapScratch_ok (source := true) h3 (fun _ => rfl)
  have out := fun {a n : Nat} (h : ScratchOk s o.slot a [(a, n)] none) => (mapScratch_ok (source := false) h (fun h => by cases h)).1
  simp only [qdualBody]
  simp only [beq_iff_eq]
  rw [if_neg (by simp only [Bool.or_eq_true, bne_iff_ne, ne_eq]; omega)]
  rw [firstStop_none]
  · simp only [m2]
    rw [flatten_singles]
    simp only [List.map_cons, List.map_nil, List.cons_append, List.nil_append] at h7 h8
    rw [if_neg]
    · rfl
    · simp only [h8, Bool.or_false, List.any_eq_true]
      rintro ⟨i, hi, j, hj, hc⟩
      simp only [List.pairwise_cons, List.mem_cons, List.not_mem_nil, or_false, forall_eq_or_imp, forall_eq] at h7
      obtain ⟨⟨a1, a2, a3⟩, ⟨a4, a5⟩, a6, -⟩ := h7
      simp only [List.mem_range] at hi
      simp only [List.mem_range] at hj
      simp only [Bool.and_eq_true, decide_eq_true_eq] at hc
      have : (i = 0 ∧ j = 1) ∨ (i = 0 ∧ j = 2) ∨ (i = 0 ∧ j = 3) ∨ (i = 1 ∧ j = 2) ∨ (i = 1 ∧ j = 3) ∨ (i = 2 ∧ j = 3) := by omega
      rcases this with ⟨rfl, rfl⟩ | ⟨rfl, rfl⟩ | ⟨rfl, rfl⟩ | ⟨rfl, rfl⟩ | ⟨rfl, rfl⟩ | ⟨rfl, rfl⟩ <;> simp_all [overlaps]
  · intro x hx
    simp only [List.mem_cons, List.not_mem_nil, or_false] at hx
    rcases hx with rfl | rfl | rfl | rfl | rfl
    · exact m1
    · exact out h4.1
    · exact out h4.2
    · exact out h5.1
    · exact out h5.2

theorem alignFault_none {va : W64} {a : Nat} (h : va.toNat % a = 0) : alignFault va a = none := by simp [alignFault, h]
theorem mred_done {s : State} {o : Once} {f : FmtX} (h : MredOk s o f) : (mredBody f o s).1 = .done := by
  unfold MredOk at h
  unfold mredBody
  generalize mredArgs f o = m at h ⊢
  obtain ⟨h1, h2, h3, h4, h5, h6, a0, s0, a, d, flags, s1, e0, e, g1, g2, g3, g4, g5, g6, gp, g7⟩ := h
  have hsrc : mredSource m o s = (none, s0) := by simp only [mredSource, alignFault_none h3, e0]
  have hal : mredAligned m = none := by
    apply firstStop_none
    intro x hx
    simp only [List.mem_cons, List.not_mem_nil, or_false] at hx
    rcases hx with rfl | rfl | rfl
    · exact alignFault_none h4
    · split
      · next hp => exact alignFault_none (h5 hp)
      · rfl
    · split
      · next hp => exact alignFault_none (h6 hp)
      · rfl
  simp only [hsrc, hal, e]
  generalize hx : ({ a := a, d := d, p := if m.pub then flags.head? else none, w := if m.wt then flags.getLast? else none } : MredTo) = x at *
  have hd : x.d = d := by rw [← hx]
  have hsc : mredScopes m x s1 = none := by
    apply firstStop_none
    intro r hr
    simp only [List.mem_cons, List.not_mem_nil, or_false] at hr
    rcases hr with rfl | rfl | rfl | rfl | rfl
    · rw [hd, g1]; rfl
    · cases hp : x.p with
      | none => rfl
      | some y => simp [(g2 y hp).1]
    · cases ht : x.tier
      · rfl
      · have := g4 ht
        cases hpub : m.pub <;> cases hwt : m.wt <;> simp_all
    · cases hp : x.p with
      | none => rfl
      | some y => simp [(g2 y hp).2]
    · cases hw : x.w with
      | none => rfl
      | some y => simp [g3 y hw]
  have hheld : (spanLines (x.spans m)).any (mredHeld s1 o.core (spanLines [x.source m])) = false := by
    rw [List.any_eq_false]
    intro l hl; simp [g7 l hl]
  have hn : (decide (m.n < 1) || decide (65536 < m.n)) = false := by simp; omega
  simp only [hn, hsc, g5, hheld, g6, firstStop, Bool.or_self, Bool.false_eq_true, if_false, Bool.not_true]
  cases hpub : m.pub
  · rfl
  · have := gp hpub
    generalize mredFlush o _ = r at this ⊢
    obtain ⟨a, b⟩ := r
    simp only [] at this
    subst this
    rfl

/-- An instruction whose operands pass the checks of its entry issues, when its gang is not in a pair for it (06 R197,
07 R209-R214, 08 R224-R234). -/
theorem accepts_done {i : Instr} {f : FmtX} {b : OnceBody} (hb : roundBody i = some (f, b)) {s : State} {o : Once}
    (hi : o.instr = i) (ha : o.act = true) (hp : pairedInstr (s.headerOf o.slot) i = true → (s.gang o.slot).pair ≠ .paired)
    (h : Accepts s o f) : ∃ s1, b o s = (.done, s1) := by
  apply once_is_done
  subst hi
  unfold Accepts at h
  generalize hi : o.instr = i at *
  cases i <;> simp only [roundBody, Option.some.injEq, Prod.mk.injEq, reduceCtorEq] at hb <;> obtain ⟨rfl, rfl⟩ := hb
  case cpy =>
    obtain ⟨r, e, h⟩ := h
    simp only [copyRows, hi] at e
    split at e
    · next q =>
      cases e
      have := copyIssue_done h
      simp only [cpyBody]; rw [if_neg (by simp; omega)]; exact this
    · cases e
  case cpy2d =>
    obtain ⟨r, e, h⟩ := h
    simp only [copyRows, hi] at e
    split at e
    · next q =>
      cases e
      have := copyIssue_done h
      simp only [cpy2dBody]; rw [if_neg (by simp_all)]; exact this
    · cases e
  case gath =>
    obtain ⟨r, e, h⟩ := h
    simp only [copyRows, hi] at e
    split at e
    · next q =>
      cases e
      have := copyIssue_done h
      obtain ⟨q1, q2, q3, q4, q5⟩ := q
      simp only [indexQuiet, Bool.not_eq_true'] at q4
      simp only [indexBody]; rw [if_neg (by simp_all), q4]
      simpa [q5] using this
    · cases e
  case scat =>
    obtain ⟨r, e, h⟩ := h
    simp only [copyRows, hi] at e
    split at e
    · next q =>
      cases e
      have := copyIssue_done h
      obtain ⟨q1, q2, q3, q4, q5⟩ := q
      simp only [indexQuiet, Bool.not_eq_true'] at q4
      simp only [indexBody]; rw [if_neg (by simp_all), q4]
      simpa [q5] using this
    · cases e
  case qdual => exact quant_done h
  case cast => exact cast_done h
  case mred => exact mred_done h
  all_goals exact matrix_done ha hp h.1 h.2.1 h.2.2.1 h.2.2.2.1 h.2.2.2.2
end Sys2Proof.Machine
end

