-- ==== Sys2Proof/Laws/Encoding.lean ====
section
/-!
SUPPORT. The fields of a slot that the encoder makes, and the slot that a word's fields make (03 R78, R86-R92).
-/

namespace Sys2Proof.Laws

theorem kindOf_kindBits (k : Kind) : kindOf (kindBits k) = k := by cases k <;> decide
theorem kindBits_kindOf (b : BitVec 2) : kindBits (kindOf b) = b := by revert b; decide
theorem getLsbD_extract {n : Nat} (x : BitVec n) (i : Nat) : x.getLsbD i = (x.extractLsb' i 1).getLsbD 0 := by simp
theorem ofBool_getLsbD {n : Nat} (x : BitVec n) (i : Nat) : BitVec.ofBool (x.getLsbD i) = x.extractLsb' i 1 := by
  ext j hj
  have : j = 0 := by omega
  subst this
  simp
/-- Neighbouring fields of a word are one field. -/
theorem join_fields {n : Nat} (x : BitVec n) (i a j b : Nat) (h : i = j + b) :
    x.extractLsb' i a ++ x.extractLsb' j b = x.extractLsb' j (a + b) := by
  subst h
  ext k hk
  simp only [BitVec.getElem_append, BitVec.getElem_extractLsb']
  split
  · rfl
  · congr 1; omega

/-! The slot around a body. -/

theorem slot_extract (op : BitVec 10) (h : Hdr) (b : BitVec 77) (i n : Nat) : (slot op h b).extractLsb' i n =
    BitVec.extractLsb' (n := 10 + 4 + 1 + 3 + 1 + 77) i n
      (op ++ h.stall ++ BitVec.ofBool h.y ++ h.guard ++ BitVec.ofBool h.neg ++ b) := rfl
theorem slot_body (op : BitVec 10) (h : Hdr) (b : BitVec 77) (i n : Nat) (hi : i + n ≤ 77) :
    (slot op h b).extractLsb' i n = b.extractLsb' i n := by
  rw [slot_extract, BitVec.extractLsb'_append_eq_of_add_le hi]
theorem opcodeOf_slot (op : BitVec 10) (h : Hdr) (b : BitVec 77) : opcodeOf (slot op h b) = op.toNat := by
  unfold opcodeOf
  rw [slot_extract]
  simp (disch := omega) only [BitVec.extractLsb'_append_eq_of_le]
  simp
theorem hdrOf_slot (op : BitVec 10) (h : Hdr) (b : BitVec 77) : hdrOf (slot op h b) = h := by
  unfold hdrOf
  simp only [getLsbD_extract (slot op h b), slot_extract]
  simp (disch := omega) only [BitVec.extractLsb'_append_eq_of_le, BitVec.extractLsb'_append_eq_of_add_le]
  simp
theorem slot_fields (w : Slot) : slot (w.extractLsb' 86 10) (hdrOf w) (w.extractLsb' 0 77) = w := by
  unfold slot hdrOf
  simp (disch := rfl) only [ofBool_getLsbD, join_fields]
  exact BitVec.extractLsb'_eq_self

/-! The five bodies. -/

theorem bitsA_extract (f : FmtA) (i n : Nat) : (bitsA f).extractLsb' i n =
    BitVec.extractLsb' (n := 9 + 9 + 9 + 9 + 2 + 2 + 2 + 5 + 3 + 1 + 6 + 20) i n
      (f.d ++ f.a ++ f.b ++ f.c ++ kindBits f.kA ++ kindBits f.kB ++ kindBits f.kC ++ f.ty ++
        f.rnd ++ BitVec.ofBool f.sat ++ f.mods ++ f.opnd) := rfl
theorem fmtAOf_slot (op : BitVec 10) (h : Hdr) (f : FmtA) : fmtAOf (slot op h (bitsA f)) = f := by
  unfold fmtAOf
  simp only [getLsbD_extract (slot op h _)]
  repeat rw [slot_body _ _ _ _ _ (by omega)]
  simp only [bitsA_extract]
  simp (disch := omega) only [BitVec.extractLsb'_append_eq_of_le, BitVec.extractLsb'_append_eq_of_add_le]
  simp [kindOf_kindBits]
theorem bitsA_fields (w : Slot) : bitsA (fmtAOf w) = w.extractLsb' 0 77 := by
  unfold bitsA fmtAOf
  simp (disch := rfl) only [kindBits_kindOf, ofBool_getLsbD, join_fields]

theorem bitsI_extract (f : FmtI) (i n : Nat) : (bitsI f).extractLsb' i n =
    BitVec.extractLsb' (n := 9 + 9 + 2 + 5 + 3 + 1 + 16 + 32) i n
      (f.d ++ f.a ++ kindBits f.kA ++ f.ty ++ f.rnd ++ BitVec.ofBool f.sat ++ f.mods ++ f.imm) := rfl
theorem fmtIOf_slot (op : BitVec 10) (h : Hdr) (f : FmtI) : fmtIOf (slot op h (bitsI f)) = f := by
  unfold fmtIOf
  simp only [getLsbD_extract (slot op h _)]
  repeat rw [slot_body _ _ _ _ _ (by omega)]
  simp only [bitsI_extract]
  simp (disch := omega) only [BitVec.extractLsb'_append_eq_of_le, BitVec.extractLsb'_append_eq_of_add_le]
  simp [kindOf_kindBits]
theorem bitsI_fields (w : Slot) : bitsI (fmtIOf w) = w.extractLsb' 0 77 := by
  unfold bitsI fmtIOf
  simp (disch := rfl) only [kindBits_kindOf, ofBool_getLsbD, join_fields]

theorem bitsM_extract (f : FmtM) (i n : Nat) : (bitsM f).extractLsb' i n =
    BitVec.extractLsb' (n := 9 + 9 + 9 + 9 + 2 + 2 + 3 + 4 + 3 + 4 + 1 + 2 + 20) i n
      (f.d ++ f.a ++ f.b ++ f.c ++ kindBits f.kA ++ kindBits f.kB ++ f.width ++ f.scope ++
        f.order ++ f.op ++ BitVec.ofBool f.mark ++ f.space ++ f.off) := rfl
theorem fmtMOf_slot (op : BitVec 10) (h : Hdr) (f : FmtM) : fmtMOf (slot op h (bitsM f)) = f := by
  unfold fmtMOf
  simp only [getLsbD_extract (slot op h _)]
  repeat rw [slot_body _ _ _ _ _ (by omega)]
  simp only [bitsM_extract]
  simp (disch := omega) only [BitVec.extractLsb'_append_eq_of_le, BitVec.extractLsb'_append_eq_of_add_le]
  simp [kindOf_kindBits]
theorem bitsM_fields (w : Slot) : bitsM (fmtMOf w) = w.extractLsb' 0 77 := by
  unfold bitsM fmtMOf
  simp (disch := rfl) only [kindBits_kindOf, ofBool_getLsbD, join_fields]

theorem bitsC_extract (f : FmtC) (i n : Nat) : (bitsC f).extractLsb' i n =
    BitVec.extractLsb' (n := 9 + 9 + 2 + 5 + 1 + 19 + 32) i n
      (f.d ++ f.a ++ kindBits f.kA ++ f.weir ++ BitVec.ofBool f.wv ++ f.mods ++ f.off) := rfl
theorem fmtCOf_slot (op : BitVec 10) (h : Hdr) (f : FmtC) : fmtCOf (slot op h (bitsC f)) = f := by
  unfold fmtCOf
  simp only [getLsbD_extract (slot op h _)]
  repeat rw [slot_body _ _ _ _ _ (by omega)]
  simp only [bitsC_extract]
  simp (disch := omega) only [BitVec.extractLsb'_append_eq_of_le, BitVec.extractLsb'_append_eq_of_add_le]
  simp [kindOf_kindBits]
theorem bitsC_fields (w : Slot) : bitsC (fmtCOf w) = w.extractLsb' 0 77 := by
  unfold bitsC fmtCOf
  simp (disch := rfl) only [kindBits_kindOf, ofBool_getLsbD, join_fields]

theorem bitsX_extract (f : FmtX) (i n : Nat) : (bitsX f).extractLsb' i n =
    BitVec.extractLsb' (n := 2 + 4 + 1 + 10 + 8 + 8 + 8 + 6 + 6 + 8 + 8 + 8) i n
      (f.eng ++ f.weir ++ BitVec.ofBool f.wv ++ f.rowBase ++ f.kP ++ f.kQ ++ f.kS ++ f.sfmt ++
        f.tfmt ++ f.rows ++ f.tok ++ f.mods) := rfl
theorem fmtXOf_slot (op : BitVec 10) (h : Hdr) (f : FmtX) : fmtXOf (slot op h (bitsX f)) = f := by
  unfold fmtXOf
  simp only [getLsbD_extract (slot op h _)]
  repeat rw [slot_body _ _ _ _ _ (by omega)]
  simp only [bitsX_extract]
  simp (disch := omega) only [BitVec.extractLsb'_append_eq_of_le, BitVec.extractLsb'_append_eq_of_add_le]
  simp
theorem bitsX_fields (w : Slot) : bitsX (fmtXOf w) = w.extractLsb' 0 77 := by
  unfold bitsX fmtXOf
  simp (disch := rfl) only [ofBool_getLsbD, join_fields]

/-- A word is the slot of its opcode, its common fields and its low 77 bits. -/
theorem slot_of_opcode (w : Slot) (n : Nat) (b : BitVec 77) (h : opcodeOf w = n) (hb : b = w.extractLsb' 0 77) :
    slot (BitVec.ofNat 10 n) (hdrOf w) b = w := by
  subst hb
  have : BitVec.ofNat 10 n = w.extractLsb' 86 10 := by
    apply BitVec.eq_of_toNat_eq
    rw [← h]
    unfold opcodeOf
    simp
  rw [this]
  exact slot_fields w

end Sys2Proof.Laws
end

