-- ==== Sys2Proof/Laws/Lane.lean ====
section
/-!
SUPPORT. A thread's registers across writes and distances (03 R81): settling changes no reading, and a write of latency
`n` is read from distance `n` on.
-/

namespace Sys2Proof.Machine

/-- Registers that a thread holds: vector registers, and predicates 0 to 6. -/
def RegRef.held : RegRef → Bool
  | .v _ => true
  | .p n => n < 7
  | .k _ => false
/-- What a reading tells of a value: a predicate, whether it is 0. -/
def RegRef.norm : RegRef → W32 → W32
  | .p _, x => if x = 0 then 0 else 1
  | _, x => x

/-- A bit of a predicate set or cleared. -/
theorem getLsbD_setBit (p : BitVec 7) (n m : Nat) (x : W32) (h : n < 7) :
    (if x == 0 then p &&& ~~~(1#7 <<< n) else p ||| (1#7 <<< n)).getLsbD m =
      if m = n then !(x == 0) else p.getLsbD m := by
  have one : (1#7 <<< n).getLsbD m = decide (m = n) := by
    rw [BitVec.getLsbD_shiftLeft, BitVec.getLsbD_one]
    rcases Nat.lt_trichotomy m n with hm | hm | hm
    · simp [hm, Nat.ne_of_lt hm]
    · simp [hm, h]
    · have a : ¬ m = n := by omega
      have b : ¬ m - n = 0 := by omega
      simp [a, b]
  by_cases hx : (x == 0) = true
  · simp only [hx, if_true, BitVec.getLsbD_and, BitVec.getLsbD_not, one]
    by_cases hm : m = n
    · simp [hm]
    · by_cases h7 : m < 7
      · simp [hm, h7]
      · simp [hm, BitVec.getLsbD_of_ge p m (Nat.le_of_not_lt h7)]
  · have hx : (x == 0) = false := by simpa using hx
    simp only [hx, Bool.false_eq_true, if_false, BitVec.getLsbD_or, one]
    by_cases hm : m = n <;> simp [hm]
theorem RegRef.norm_bit (b : Bool) (n : Nat) : (RegRef.p n).norm (if b = true then 1 else 0) = if b then 1 else 0 := by
  cases b <;> rfl
theorem Lane.base_setBase (l : Lane) (r q : RegRef) (x : W32) (h : q.held = true) :
    q.norm ((l.setBase r x).base q) = if q = r then q.norm x else q.norm (l.base q) := by
  cases r with
  | k n => cases q <;> simp [RegRef.held] at h <;> simp [Lane.setBase]
  | v n =>
    cases q with
    | v m => simp [Lane.setBase, Lane.base, RegRef.norm, tget_tset]
    | p m => rfl
    | k m => rfl
  | p n =>
    cases q with
    | v m => by_cases hn : n < 7 <;> simp only [Lane.setBase, hn, if_true, if_false] <;> rfl
    | k m => simp [RegRef.held] at h
    | p m =>
      simp only [RegRef.held, decide_eq_true_eq] at h
      by_cases hn : n < 7
      · simp only [Lane.setBase, hn, if_true, Lane.base, RegRef.norm_bit, getLsbD_setBit _ _ _ _ hn, RegRef.p.injEq]
        by_cases hm : m = n
        · by_cases hx : x = 0 <;> simp [hm, hx, RegRef.norm]
        · simp [hm]
      · have hm : ¬ m = n := by omega
        simp [Lane.setBase, hn, hm]

/-- One step of settling. -/
def Lane.settleStep (nd : Nat) (e : Pend) (acc : Lane × List Pend) : Lane × List Pend :=
  if e.due ≤ nd then (acc.1.setBase e.reg e.value, acc.2.filter (fun o => o.reg != e.reg)) else (acc.1, e :: acc.2)
/-- What a thread reads at distance `nd` of pending results over its registers. -/
def Lane.look (l : Lane) (ps : List Pend) (nd : Nat) (r : RegRef) : W32 :=
  match ps.find? (fun e => e.reg == r && e.due ≤ nd) with
  | some e => e.value
  | none => l.base r
theorem Lane.read_eq_look (l : Lane) (r : RegRef) : l.read r = l.look l.pend l.nd r := rfl
theorem Lane.settle_eq (l : Lane) :
    l.settle = { (l.pend.foldr (Lane.settleStep l.nd) (l, [])).1 with pend := (l.pend.foldr (Lane.settleStep l.nd) (l, [])).2 } := rfl

theorem find_filter_reg (ps : List Pend) (q r : RegRef) (nd : Nat) (h : r ≠ q) :
    (ps.filter (fun o => o.reg != q)).find? (fun e => e.reg == r && e.due ≤ nd) =
      ps.find? (fun e => e.reg == r && e.due ≤ nd) := by
  induction ps with
  | nil => rfl
  | cons e es ih =>
    by_cases he : e.reg = q
    · have hr : (e.reg == r && decide (e.due ≤ nd)) = false := by
        simp only [Bool.and_eq_false_iff, beq_eq_false_iff_ne]; exact Or.inl fun hr => h (hr ▸ he)
      simp only [List.filter_cons, he, bne_self_eq_false, Bool.false_eq_true, if_false, ih]
      simp only [List.find?, hr]
    · simp only [List.filter_cons, bne_iff_ne, ne_eq, he, not_false_eq_true, if_true, List.find?, ih]
theorem find_filter_self (ps : List Pend) (r : RegRef) (nd : Nat) :
    (ps.filter (fun o => o.reg != r)).find? (fun e => e.reg == r && e.due ≤ nd) = none := by
  rw [List.find?_eq_none]
  intro e he
  simp at he ⊢
  intro h; exact absurd h he.2

theorem Lane.look_hit (l : Lane) (e : Pend) (es : List Pend) (nd : Nat) (h : e.due ≤ nd) :
    l.look (e :: es) nd e.reg = e.value := by simp [Lane.look, List.find?, h]
theorem Lane.look_miss (l : Lane) (e : Pend) (es : List Pend) (nd : Nat) (r : RegRef) (h : e.reg = r → nd < e.due) :
    l.look (e :: es) nd r = l.look es nd r := by
  have hf : (e.reg == r && decide (e.due ≤ nd)) = false := by
    by_cases hr : e.reg = r
    · have := h hr; simp; intro _; omega
    · simp [hr]
  simp only [Lane.look, List.find?, hf]
theorem Lane.look_setBase (l : Lane) (es : List Pend) (nd : Nat) (r q : RegRef) (x : W32) (h : q.held = true) (hq : q ≠ r) :
    q.norm ((l.setBase r x).look (es.filter (fun o => o.reg != r)) nd q) = q.norm (l.look es nd q) := by
  unfold Lane.look
  rw [find_filter_reg _ _ _ _ hq]
  cases es.find? (fun x => x.reg == q && x.due ≤ nd) with
  | some x => rfl
  | none => simp [Lane.base_setBase _ _ _ _ h, hq]
theorem Lane.look_setBase_self (l : Lane) (es : List Pend) (nd : Nat) (r : RegRef) (x : W32) (h : r.held = true) :
    r.norm ((l.setBase r x).look (es.filter (fun o => o.reg != r)) nd r) = r.norm x := by
  unfold Lane.look
  rw [find_filter_self]
  simp [Lane.base_setBase _ _ _ _ h]
theorem Lane.look_settleStep (l : Lane) (es : List Pend) (nd nd' : Nat) (r : RegRef) (hn : nd ≤ nd')
    (h : r.held = true) :
    r.norm ((es.foldr (Lane.settleStep nd) (l, [])).1.look (es.foldr (Lane.settleStep nd) (l, [])).2 nd' r) =
      r.norm (l.look es nd' r) := by
  induction es with
  | nil => rfl
  | cons e es ih =>
    simp only [List.foldr_cons]
    generalize es.foldr (Lane.settleStep nd) (l, []) = acc at ih ⊢
    unfold Lane.settleStep
    by_cases hd : e.due ≤ nd
    · simp only [hd, if_true]
      by_cases hr : r = e.reg
      · subst hr
        rw [Lane.look_setBase_self _ _ _ _ _ h, Lane.look_hit _ _ _ _ (by omega)]
      · rw [Lane.look_setBase _ _ _ _ _ _ h hr, ih, Lane.look_miss _ _ _ _ _ (fun x => absurd x.symm hr)]
    · simp only [hd, if_false]
      by_cases hr : e.reg = r ∧ e.due ≤ nd'
      · obtain ⟨rfl, hd'⟩ := hr
        rw [Lane.look_hit _ _ _ _ hd', Lane.look_hit _ _ _ _ hd']
      · have : e.reg = r → nd' < e.due := fun x => Nat.lt_of_not_le fun y => hr ⟨x, y⟩
        rw [Lane.look_miss _ _ _ _ _ this, Lane.look_miss _ _ _ _ _ this, ih]

theorem Lane.setBase_nd (l : Lane) (r : RegRef) (x : W32) : (l.setBase r x).nd = l.nd := by
  cases r <;> simp [Lane.setBase]; split <;> rfl
theorem Lane.foldr_settle_nd (l : Lane) (es : List Pend) (nd : Nat) : (es.foldr (Lane.settleStep nd) (l, [])).1.nd = l.nd := by
  induction es with
  | nil => rfl
  | cons e es ih =>
    simp only [List.foldr_cons]
    generalize es.foldr (Lane.settleStep nd) (l, []) = acc at ih ⊢
    unfold Lane.settleStep
    split
    · rw [Lane.setBase_nd, ih]
    · exact ih


theorem Lane.setBase_rest (l : Lane) (r : RegRef) (x : W32) : (l.setBase r x).rest = l.rest := by
  cases r <;> simp only [Lane.setBase] <;> first | rfl | (split <;> rfl)
theorem Lane.foldr_settle_rest (l : Lane) (es : List Pend) (nd : Nat) :
    (es.foldr (Lane.settleStep nd) (l, [])).1.rest = l.rest := by
  induction es with
  | nil => rfl
  | cons e es ih =>
    simp only [List.foldr_cons]
    generalize es.foldr (Lane.settleStep nd) (l, []) = acc at ih ⊢
    unfold Lane.settleStep
    split
    · rw [Lane.setBase_rest, ih]
    · exact ih
theorem Lane.advance_rest (l : Lane) (n : Nat) : (l.advance n).rest = l.rest := by
  rw [Lane.advance, Lane.settle_eq]
  exact Lane.foldr_settle_rest _ _ _
theorem Lane.advance_live (l : Lane) (n : Nat) : (l.advance n).live = l.live :=
  show (l.advance n).rest.live = l.rest.live from congrArg Lane.live (Lane.advance_rest l n)
theorem Lane.advance_nd (l : Lane) (n : Nat) : (l.advance n).nd = l.nd + n := by
  rw [Lane.advance, Lane.settle_eq]
  exact Lane.foldr_settle_nd _ _ _
theorem Lane.write_rest (l : Lane) (r : RegRef) (x : W32) (lat : Option Nat) : (l.write r x lat).rest = l.rest := by
  unfold Lane.write
  split
  · rfl
  · cases lat with
    | some n => rfl
    | none => exact Lane.setBase_rest l r x

theorem Lane.read_settle (l : Lane) (d : Nat) (r : RegRef) (h : r.held = true) :
    r.norm ((l.settle.later d).read r) = r.norm ((l.later d).read r) := by
  have := Lane.look_settleStep l l.pend l.nd (l.nd + d) r (by omega) h
  rw [Lane.settle_eq]
  simp only [Lane.later, Lane.read_eq_look, Lane.foldr_settle_nd]
  exact this
/-- Counting a stall count changes what a thread reads only by the distance (03 R81). -/
theorem Lane.read_advance (l : Lane) (n d : Nat) (r : RegRef) (h : r.held = true) :
    r.norm (((l.advance n).later d).read r) = r.norm ((l.later (n + d)).read r) := by
  rw [Lane.advance, Lane.read_settle _ _ _ h]
  simp [Lane.later, Nat.add_assoc, Lane.read_eq_look, Lane.look, Lane.base]
/-- A write: read from its latency on; before it, and in every other register, what stood there (03 R81). -/
theorem Lane.read_write (l : Lane) (r q : RegRef) (x : W32) (lat : Option Nat) (d : Nat) (h : q.held = true) :
    q.norm (((l.write r x lat).later d).read q) =
      if q = r ∧ lat.getD 0 ≤ d then q.norm x else q.norm ((l.later d).read q) := by
  unfold Lane.write
  by_cases h7 : r == .p 7
  · have h7 : r = .p 7 := by simpa using h7
    have hq : ¬ q = .p 7 := by rintro rfl; simp [RegRef.held] at h
    simp [h7, hq]
  · simp only [h7, Bool.false_eq_true, if_false]
    cases lat with
    | some n =>
      simp only [Lane.later, Lane.read_eq_look, Option.getD_some]
      by_cases hq : q = r
      · subst hq
        by_cases hd : n ≤ d
        · rw [Lane.look_hit _ ⟨q, x, l.nd + n⟩ _ _ (by simpa using hd)]; simp [hd]
        · rw [Lane.look_miss _ _ _ _ _ (fun _ => by simpa using Nat.lt_of_not_le hd)]; simp [hd]; rfl
      · rw [Lane.look_miss _ _ _ _ _ (fun e => absurd e.symm hq)]; simp [hq]; rfl
    | none =>
      simp only [Lane.later, Lane.read_eq_look, Option.getD_none, Nat.zero_le, and_true]
      have hb : ∀ n, ((l.setBase r x).look (l.pend.filter (fun e => e.reg != r)) n q) =
          ({ (l.setBase r x) with pend := l.pend.filter (fun e => e.reg != r), nd := (l.setBase r x).nd + d } : Lane).look
            (l.pend.filter (fun e => e.reg != r)) n q := fun n => by cases q <;> rfl
      rw [← hb, Lane.setBase_nd]
      by_cases hq : q = r
      · subst hq; simp [Lane.look_setBase_self _ _ _ _ _ h]
      · rw [Lane.look_setBase _ _ _ _ _ _ h hq]; simp [hq]; rfl

theorem RegRef.ne_zero_norm (n : Nat) (x y : W32) (h : (RegRef.p n).norm x = (RegRef.p n).norm y) : (x != 0) = (y != 0) := by
  simp only [RegRef.norm] at h
  by_cases hx : x = 0
  · by_cases hy : y = 0
    · rw [hx, hy]
    · rw [if_pos hx, if_neg hy] at h; exact absurd h (by decide)
  · by_cases hy : y = 0
    · rw [if_neg hx, if_pos hy] at h; exact absurd h (by decide)
    · rw [bne_iff_ne.mpr hx, bne_iff_ne.mpr hy]
theorem Lane.vreg_advance (l : Lane) (n d k : Nat) : ((l.advance n).later d).vreg k = (l.later (n + d)).vreg k :=
  Lane.read_advance l n d (.v k) rfl
theorem Lane.pred_advance (l : Lane) (n d k : Nat) (h : k < 8) : ((l.advance n).later d).pred k = (l.later (n + d)).pred k := by
  unfold Lane.pred
  by_cases h7 : k = 7
  · simp [h7]
  · rw [RegRef.ne_zero_norm k _ _ (Lane.read_advance l n d (.p k) (by simp [RegRef.held]; omega))]
theorem Lane.vreg_write (l : Lane) (r : RegRef) (x : W32) (lat : Option Nat) (d k : Nat) :
    ((l.write r x lat).later d).vreg k = if .v k = r ∧ lat.getD 0 ≤ d then x else (l.later d).vreg k :=
  Lane.read_write l r (.v k) x lat d rfl
theorem Lane.pred_write (l : Lane) (r : RegRef) (x : W32) (lat : Option Nat) (d k : Nat) (h : k < 7) :
    ((l.write r x lat).later d).pred k = if .p k = r ∧ lat.getD 0 ≤ d then x != 0 else (l.later d).pred k := by
  unfold Lane.pred
  have h7 : (k == 7) = false := by simp; omega
  have := Lane.read_write l r (.p k) x lat d (by simp [RegRef.held, h])
  rw [h7, Bool.false_or, Bool.false_or]
  split <;> rename_i hc
  · rw [if_pos hc] at this; exact RegRef.ne_zero_norm k _ _ this
  · rw [if_neg hc] at this; exact RegRef.ne_zero_norm k _ _ this

end Sys2Proof.Machine
end

