-- ==== Sys2Proof/Laws/Gang.lean ====
section
/-!
SUPPORT. A gang's scalar registers across writes and distances (04 R118), and lists without repeats.
-/

namespace Sys2Proof.Machine

/-! Lists without repeats. -/

theorem mem_foldl_dedup {α : Type} [DecidableEq α] (l acc : List α) (x : α) :
    x ∈ l.foldl (fun acc x => if acc.contains x then acc else acc ++ [x]) acc ↔ x ∈ acc ∨ x ∈ l := by
  induction l generalizing acc with
  | nil => simp
  | cons a l ih =>
    simp only [List.foldl_cons, ih]
    by_cases h : acc.contains a = true
    · have : a ∈ acc := by simpa using h
      simp only [h, if_true, List.mem_cons]
      constructor
      · rintro (h | h) <;> simp [h]
      · rintro (h | rfl | h) <;> simp [*]
    · simp only [h, Bool.false_eq_true, if_false, List.mem_append, List.mem_cons, List.not_mem_nil, or_false, or_assoc]
@[simp] theorem mem_dedup {α : Type} [DecidableEq α] (l : List α) (x : α) : x ∈ dedup l ↔ x ∈ l := by
  unfold dedup
  rw [mem_foldl_dedup]
  simp
theorem nodup_foldl_dedup {α : Type} [DecidableEq α] (l acc : List α) (h : acc.Nodup) :
    (l.foldl (fun acc x => if acc.contains x then acc else acc ++ [x]) acc).Nodup := by
  induction l generalizing acc with
  | nil => exact h
  | cons a l ih =>
    simp only [List.foldl_cons]
    apply ih
    by_cases hc : acc.contains a = true
    · rw [if_pos hc]; exact h
    · rw [if_neg hc, List.nodup_append]
      have : a ∉ acc := by simpa using hc
      refine ⟨h, by simp, ?_⟩
      intro x hx y hy he
      simp at hy
      exact this (by rw [← hy, ← he]; exact hx)
theorem nodup_dedup {α : Type} [DecidableEq α] (l : List α) : (dedup l).Nodup := nodup_foldl_dedup l [] (by simp)
theorem foldl_dedup_const {α : Type} [DecidableEq α] (l : List α) (a : α) (h : ∀ x ∈ l, x = a) :
    l.foldl (fun acc x => if acc.contains x then acc else acc ++ [x]) [a] = [a] := by
  induction l with
  | nil => rfl
  | cons x l ih =>
    have hx := h x (List.mem_cons_self ..)
    subst hx
    simp only [List.foldl_cons]
    rw [if_pos (by simp)]
    exact ih fun y hy => h y (List.mem_cons_of_mem _ hy)
theorem dedup_const {α : Type} [DecidableEq α] (l : List α) (a : α) (h : ∀ x ∈ l, x = a) (hne : l ≠ []) : dedup l = [a] := by
  cases l with
  | nil => exact absurd rfl hne
  | cons x l =>
    have hx := h x (List.mem_cons_self ..)
    subst hx
    have := foldl_dedup_const l x fun y hy => h y (List.mem_cons_of_mem _ hy)
    simpa [dedup] using this

/-! Scalar registers. -/

def KPend.seenAt (e : KPend) (us : List Nat) (nd : Nat → Nat) (r : Nat) : Bool := e.reg == r && e.visible us nd
/-- What a group reads of pending results over registers. -/
def klook (k : Tab W32) (ps : List KPend) (us : List Nat) (nd : Nat → Nat) (r : Nat) : W32 :=
  match ps.find? (fun e => e.reg == r && e.visible us nd) with
  | some e => e.value
  | none => tget 0 k r
theorem Gang.kread_eq (g : Gang) (us : List Nat) (nd : Nat → Nat) (r : Nat) : g.kread us nd r = klook g.k g.kpend us nd r := rfl
theorem klook_hit (k : Tab W32) (e : KPend) (es : List KPend) (us : List Nat) (nd : Nat → Nat) (h : e.visible us nd = true) :
    klook k (e :: es) us nd e.reg = e.value := by simp [klook, List.find?, h]
theorem klook_miss (k : Tab W32) (e : KPend) (es : List KPend) (us : List Nat) (nd : Nat → Nat) (r : Nat)
    (h : e.reg = r → e.visible us nd = false) : klook k (e :: es) us nd r = klook k es us nd r := by
  have hf : (e.reg == r && e.visible us nd) = false := by
    by_cases hr : e.reg = r
    · simp [h hr]
    · simp [hr]
  simp only [klook, List.find?, hf]
theorem klook_tset (k : Tab W32) (es : List KPend) (us : List Nat) (nd : Nat → Nat) (q r : Nat) (x : W32) :
    klook (tset 0 k q x) (es.filter (fun o => o.reg != q)) us nd r = if r = q then x else klook k es us nd r := by
  unfold klook
  by_cases h : r = q
  · subst h
    have : (es.filter (fun o => o.reg != r)).find? (fun e => e.reg == r && e.visible us nd) = none := by
      rw [List.find?_eq_none]
      intro e he
      simp at he ⊢
      intro hr; exact absurd hr he.2
    simp [this, tget_tset]
  · have : (es.filter (fun o => o.reg != q)).find? (fun e => e.reg == r && e.visible us nd) =
        es.find? (fun e => e.reg == r && e.visible us nd) := by
      induction es with
      | nil => rfl
      | cons e es ih =>
        by_cases he : e.reg = q
        · have hr : (e.reg == r && e.visible us nd) = false := by
            have : ¬ q = r := fun hr => h hr.symm
            simp [he, this]
          simp only [List.filter_cons, he, bne_self_eq_false, Bool.false_eq_true, if_false, ih]
          rw [he] at hr
          simp only [List.find?, he, hr]
        · simp only [List.filter_cons, bne_iff_ne, ne_eq, he, not_false_eq_true, if_true, List.find?, ih]
    rw [this, if_neg h, tget_tset, if_neg h]
theorem KPend.visible_congr (e : KPend) (us : List Nat) (nd nd' : Nat → Nat) (h : ∀ u ∈ us, nd u = nd' u) :
    e.visible us nd = e.visible us nd' := by
  unfold KPend.visible
  split
  · split
    · rename_i w hw
      have := List.find?_some hw
      cases us with
      | nil => simp at this
      | cons u us =>
        simp at this
        rw [this, h u (List.mem_cons_self ..)]
    · rfl
  · rfl
theorem Gang.kread_congr (g : Gang) (us : List Nat) (nd nd' : Nat → Nat) (r : Nat) (h : ∀ u ∈ us, nd u = nd' u) :
    g.kread us nd r = g.kread us nd' r := by
  unfold Gang.kread
  have : ∀ e : KPend, e.visible us nd = e.visible us nd' := fun e => KPend.visible_congr e us nd nd' h
  simp only [this]
/-- A result that every writer reads is read by every live group. -/
theorem KPend.visible_of_all (e : KPend) (us : List Nat) (nd nd' : Nat → Nat) (live : Nat → Bool)
    (hc : e.writers.all (fun w => w.2 ≤ nd w.1 || !live w.1) = true) (hl : ∀ u ∈ us, live u = true)
    (hn : ∀ u ∈ us, nd u ≤ nd' u) : e.visible us nd' = true := by
  unfold KPend.visible
  split
  · split
    · rename_i w hw
      have hm := List.mem_of_find?_eq_some hw
      have hs := List.find?_some hw
      cases us with
      | nil => simp at hs
      | cons u us =>
        simp at hs
        have := List.all_eq_true.mp hc w hm
        simp [hs, hl u (List.mem_cons_self ..)] at this
        have := hn u (List.mem_cons_self ..)
        simp [hs]; omega
    · rfl
  · rfl
/-- Settling changes no reading of a live group. -/
theorem Gang.kread_settle (g : Gang) (us : List Nat) (nd nd' : Nat → Nat) (live : Nat → Bool) (r : Nat)
    (hl : ∀ u ∈ us, live u = true) (hn : ∀ u ∈ us, nd u ≤ nd' u) :
    (g.settle nd live).kread us nd' r = g.kread us nd' r := by
  unfold Gang.settle
  simp only [Gang.kread_eq]
  generalize g.kpend = es
  induction es with
  | nil => rfl
  | cons e es ih =>
    simp only [List.foldr_cons]
    generalize List.foldr _ (g.k, ([] : List KPend)) es = acc at ih ⊢
    split
    · rename_i hc
      have hv := KPend.visible_of_all e us nd nd' live hc hl hn
      rw [klook_tset]
      by_cases hr : r = e.reg
      · subst hr; rw [if_pos rfl, klook_hit _ _ _ _ _ hv]
      · rw [if_neg hr, ih, klook_miss _ _ _ _ _ _ (fun x => absurd x.symm hr)]
    · by_cases hr : e.reg = r ∧ e.visible us nd' = true
      · obtain ⟨rfl, hv⟩ := hr
        rw [klook_hit _ _ _ _ _ hv, klook_hit _ _ _ _ _ hv]
      · have : e.reg = r → e.visible us nd' = false := fun x => by simpa using fun y => hr ⟨x, y⟩
        rw [klook_miss _ _ _ _ _ _ this, klook_miss _ _ _ _ _ _ this, ih]
theorem Gang.settle_rest (g : Gang) (nd : Nat → Nat) (live : Nat → Bool) : (g.settle nd live).rest = g.rest := rfl
theorem Gang.kwrite_rest (g : Gang) (ts : List Nat) (nd : Nat → Nat) (r : Nat) (x : W32) (lat : Option Nat) :
    (g.kwrite ts nd r x lat).rest = g.rest := by cases lat <;> rfl
theorem find_writer (ts : List Nat) (f : Nat → Nat) (u : Nat) (h : u ∈ ts) :
    (ts.map (fun t => (t, f t))).find? (fun w => some w.1 == some u) = some (u, f u) := by
  induction ts with
  | nil => simp at h
  | cons t ts ih =>
    by_cases ht : t = u
    · subst ht; simp
    · have h' : u ∈ ts := by
        rcases List.mem_cons.mp h with h | h
        · exact absurd h.symm ht
        · exact h
      have hb : (some t == some u) = false := by simpa using ht
      simp only [List.map_cons, List.find?, hb]
      exact ih h'
/-- A scalar write, read by a group of the writers: from its latency on. -/
theorem Gang.kread_kwrite_inside (g : Gang) (ts us : List Nat) (nd : Nat → Nat) (n q : Nat) (x : W32) (lat : Option Nat)
    (d : Nat) (hne : us ≠ []) (hs : ∀ u ∈ us, u ∈ ts) :
    (g.kwrite ts nd n x lat).kread us (fun t => nd t + d) q =
      if q = n ∧ lat.getD 0 ≤ d then x else g.kread us (fun t => nd t + d) q := by
  cases lat with
  | none =>
    simp only [Gang.kwrite, Gang.kread_eq, klook_tset, Option.getD_none, Nat.zero_le, and_true]
  | some l =>
    simp only [Gang.kwrite, Gang.kread_eq, Option.getD_some]
    have hv : (KPend.mk n x (ts.map (fun t => (t, nd t + l)))).visible us (fun t => nd t + d) = decide (l ≤ d) := by
      cases us with
      | nil => exact absurd rfl hne
      | cons u us =>
        have hall : (u :: us).all (fun t => (ts.map (fun t => (t, nd t + l))).any (fun w => w.1 == t)) = true := by
          rw [List.all_eq_true]
          intro v hv
          simp only [List.any_map, List.any_eq_true]
          exact ⟨v, hs v hv, by simp⟩
        simp only [KPend.visible, hall, if_true, List.head?_cons, find_writer ts (fun t => nd t + l) u (hs u (List.mem_cons_self ..))]
        simp
    by_cases hq : q = n
    · subst hq
      by_cases hd : l ≤ d
      · have := klook_hit g.k ⟨q, x, ts.map (fun t => (t, nd t + l))⟩ g.kpend us _ (by simpa [hd] using hv)
        simp [hd, this]
      · rw [klook_miss _ _ _ _ _ _ (fun _ => by simpa [hd] using hv)]; simp [hd]
    · rw [klook_miss _ _ _ _ _ _ (fun e => absurd e.symm hq)]; simp [hq]
/-- A scalar write, read by another group of the gang: at once (04 R118). -/
theorem Gang.kread_kwrite_outside (g : Gang) (ts us : List Nat) (nd nd' : Nat → Nat) (n q : Nat) (x : W32) (lat : Option Nat)
    (hne : us ≠ []) (hs : ∀ u ∈ us, u ∉ ts) :
    (g.kwrite ts nd n x lat).kread us nd' q = if q = n then x else g.kread us nd' q := by
  cases lat with
  | none => simp only [Gang.kwrite, Gang.kread_eq, klook_tset]
  | some l =>
    simp only [Gang.kwrite, Gang.kread_eq]
    have hv : (KPend.mk n x (ts.map (fun t => (t, nd t + l)))).visible us nd' = true := by
      cases us with
      | nil => exact absurd rfl hne
      | cons u us =>
        have hall : (u :: us).all (fun t => (ts.map (fun t => (t, nd t + l))).any (fun w => w.1 == t)) = false := by
          rw [List.all_eq_false]
          refine ⟨u, List.mem_cons_self .., ?_⟩
          simp only [List.any_map, List.any_eq_true]
          rintro ⟨v, hv, he⟩
          simp at he
          exact hs u (List.mem_cons_self ..) (he ▸ hv)
        simp only [KPend.visible, hall, Bool.false_eq_true, if_false]
    by_cases hq : q = n
    · subst hq
      have := klook_hit g.k ⟨q, x, ts.map (fun t => (t, nd t + l))⟩ g.kpend us _ hv
      simp [this]
    · rw [klook_miss _ _ _ _ _ _ (fun e => absurd e.symm hq)]; simp [hq]

end Sys2Proof.Machine
end

