-- ==== Sys2Proof/Laws/Issue.lean ====
section
/-!
SUPPORT. What an issue does when no check stops it: the instruction's own effect, then its threads go on.
-/

namespace Sys2Proof.Machine

open State

/-! Updates of many threads and gangs. -/

theorem lane_setLane (s : State) (t u : Nat) (v : Lane) : (s.setLane t v).lane u = if u = t then v else s.lane u := by
  simp only [State.lane, State.setLane, tfind_tput]
  split <;> rfl
theorem lane_modLane (s : State) (t u : Nat) (f : Lane → Lane) :
    (s.modLane t f).lane u = if u = t then f (s.lane t) else s.lane u := lane_setLane ..
theorem gang_modGang (s : State) (n m : Nat) (f : Gang → Gang) (h : (tfind s.gangs n).isSome = true) :
    (s.modGang n f).gang m = if m = n then f (s.gang n) else s.gang m := by
  obtain ⟨g, hg⟩ := Option.isSome_iff_exists.mp h
  simp only [State.modGang, hg, State.gang, State.setGang, tfind_tput, Option.getD_some]
  split <;> rfl
theorem isSome_modGang (s : State) (n m : Nat) (f : Gang → Gang) :
    (tfind (s.modGang n f).gangs m).isSome = (tfind s.gangs m).isSome := by
  simp only [State.modGang]
  split
  · rename_i g hg
    simp only [State.setGang, tfind_tput]
    by_cases h : m = n <;> simp [h, hg]
  · rfl
theorem modGang_frame (s : State) (n : Nat) (f : Gang → Gang) : s.modGang n f = { s with gangs := (s.modGang n f).gangs } := by
  unfold State.modGang; split <;> rfl

theorem foldl_modLane_frame (ts : List Nat) (f : Nat → Lane → Lane) (s : State) :
    ts.foldl (fun s t => s.modLane t (f t)) s = { s with lanes := (ts.foldl (fun s t => s.modLane t (f t)) s).lanes } := by
  induction ts generalizing s with
  | nil => rfl
  | cons t ts ih => simp only [List.foldl_cons]; rw [ih]; rfl
theorem foldl_modLane_lane (ts : List Nat) (f : Nat → Lane → Lane) (s : State) (u : Nat) (h : ts.Nodup) :
    (ts.foldl (fun s t => s.modLane t (f t)) s).lane u = if u ∈ ts then f u (s.lane u) else s.lane u := by
  induction ts generalizing s with
  | nil => simp
  | cons t ts ih =>
    rw [List.nodup_cons] at h
    simp only [List.foldl_cons, ih _ h.2, lane_modLane]
    by_cases hu : u = t
    · subst hu; simp [h.1]
    · simp [hu]
theorem foldl_modGang_frame (ns : List Nat) (f : State → Nat → Gang → Gang) (s : State) :
    ns.foldl (fun s n => s.modGang n (f s n)) s = { s with gangs := (ns.foldl (fun s n => s.modGang n (f s n)) s).gangs } := by
  induction ns generalizing s with
  | nil => rfl
  | cons n ns ih =>
    simp only [List.foldl_cons]
    rw [ih, modGang_frame]

/-! One place for a whole group. -/

/-- Where a disposition that goes on leads from `pc`. -/
def placeFrom (pc : W64) : Disp → Option (W64 × Status × Bool)
  | .seq => some (nextPc pc, .ready, false)
  | .goto p => some (p, .ready, true)
  | .move st => some (nextPc pc, st, false)
  | _ => none
theorem dispose_place (s : State) (gid : Nat) (pc : W64) (ds : List (Nat × Disp))
    (h : ∀ d ∈ ds, (placeFrom pc d.2).isSome = true) :
    s.dispose gid pc ds = s.regroup gid (ds.map (fun d => (d.1, placeFrom pc d.2))) := by
  suffices H : ∀ (b : Bool) (ds : List (Nat × Disp)) (a : Sent), (∀ d ∈ ds, (placeFrom pc d.2).isSome = true) →
      ds.foldl (send1 pc b) a = { a with places := a.places ++ ds.map (fun d => (d.1, placeFrom pc d.2)) } by
    unfold State.dispose
    simp only []
    rw [H _ ds _ h]
    simp [State.endGangs, dedup]
  intro b ds
  induction ds with
  | nil => intro a _; simp
  | cons d ds ih =>
    intro a h
    have hd := h d (List.mem_cons_self ..)
    rw [List.foldl_cons, ih _ fun x hx => h x (List.mem_cons_of_mem _ hx)]
    obtain ⟨t, d⟩ := d
    cases d <;> simp [placeFrom, send1] at hd ⊢

/-- A group whose threads all go to one place, as the split of its issue leaves it. -/
def Group.put (g : Group) (pl : W64 × Status × Bool) : Group :=
  { g with
    pc := pl.1, status := pl.2.1, branched := pl.2.2, prio := if pl.2.1.endsPrio then none else g.prio
    answers := if pl.1 == g.pc then g.answers else [], flushed := pl.1 == g.pc && g.flushed
    toEnter := if pl.1 == g.pc then g.toEnter else none }
/-- A group whose threads all go to one place. -/
theorem regroup_one (s : State) (gid : Nat) (g : Group) (pl : W64 × Status × Bool) (hg : tfind s.groups gid = some g)
    (hne : g.members ≠ []) :
    s.regroup gid (g.members.map (fun t => (t, some pl))) =
      { s with groups := tput (tdel s.groups gid) gid (g.put pl) } := by
  unfold State.regroup
  have hp : dedup (List.filterMap (fun p : Nat × Option (W64 × Status × Bool) => p.2) (g.members.map (fun t => (t, some pl)))) = [pl] := by
    apply dedup_const
    · intro x hx
      simp at hx
      first | exact hx.2.symm | exact hx.2
    · cases hm : g.members with
      | nil => exact absurd hm hne
      | cons a l => simp
  have hm : List.map (fun x : Nat × Option (W64 × Status × Bool) => x.1)
      ((g.members.map (fun t => (t, some pl))).filter (fun p => p.2 == some pl)) = g.members := by
    rw [List.filter_eq_self.mpr (by simp)]
    simp [Function.comp_def]
  simp only [hg, hp, hm, List.foldl_nil, Group.put]
  congr 2
  cases pl.2.1.endsPrio <;> simp

theorem placesOf_all (g : Group) (out : List (Nat × Disp)) (d : Disp) (h : ∀ t ∈ g.members, dispOf out t = d) :
    placesOf g out = g.members.map (fun t => (t, d)) := by
  unfold placesOf
  apply List.map_congr_left
  intro t ht
  rw [h t ht]

/-! Counting an issue. -/

theorem settleGangs_spec (ns : List Nat) (s : State) (h : ns.Nodup) (hs : ∀ n ∈ ns, (tfind s.gangs n).isSome = true) :
    let t := ns.foldl (fun s n => s.modGang n (fun g => g.settle s.ndOf (fun t => (s.lane t).live))) s
    t = { s with gangs := t.gangs } ∧
    ∀ n, t.gang n = if n ∈ ns then (s.gang n).settle s.ndOf (fun t => (s.lane t).live) else s.gang n := by
  induction ns generalizing s with
  | nil => simp
  | cons n ns ih =>
    rw [List.nodup_cons] at h
    simp only [List.foldl_cons]
    have hn := hs n (List.mem_cons_self ..)
    generalize hs' : s.modGang n (fun g => g.settle s.ndOf (fun t => (s.lane t).live)) = s'
    have hf : s' = { s with gangs := s'.gangs } := by rw [← hs']; exact modGang_frame ..
    have hg : ∀ m, s'.gang m = if m = n then (s.gang n).settle s.ndOf (fun t => (s.lane t).live) else s.gang m := by
      intro m; rw [← hs', gang_modGang _ _ _ _ hn]
    have hsome : ∀ m ∈ ns, (tfind s'.gangs m).isSome = true := by
      intro m hm; rw [← hs', isSome_modGang]; exact hs m (List.mem_cons_of_mem _ hm)
    obtain ⟨h1, h2⟩ := ih s' h.2 hsome
    have hl : s'.ndOf = s.ndOf := by rw [hf]; rfl
    have hl2 : (fun t => (s'.lane t).live) = (fun t => (s.lane t).live) := by rw [hf]; rfl
    refine ⟨?_, fun m => ?_⟩
    · rw [h1, hf]
    · rw [h2 m, hl, hl2, hg]
      by_cases hm : m = n
      · subst hm; simp [h.1]
      · simp [hm]

/-- The threads of a group count the stall count, their gangs settle, the group takes what an issue leaves it. -/
theorem countIssue_spec (s : State) (gid : Nat) (g : Group) (h : Hdr) (y : Bool) (st : Stands s gid g) :
    let t := s.countIssue (s.holding g.members) (dedup (g.members.map slotOf)) g.members h y
    t = { s with lanes := t.lanes, gangs := t.gangs, groups := t.groups } ∧
    LaneReads s t g.members h.stall.toNat (fun _ => noWrites) (fun _ => noWrites) ∧
    ScalarReads s t g.members h.stall.toNat 0 noWrites ∧
    tfind t.groups gid = some { g with
      hold := h.stall.toNat, waitCount := 0, yielded := g.yielded || y
      prio := match g.prio with | some n => if n ≤ 1 || g.status.endsPrio then none else some (n - 1) | none => none } ∧
    ∀ k, k ≠ gid → (tfind t.groups k).map Group.unyield = (tfind s.groups k).map Group.unyield := by
  intro t
  generalize hA : g.members.foldl (fun s t => s.modLane t (fun l => l.advance h.stall.toNat)) s = sA
  have hAf : sA = { s with lanes := sA.lanes } := by
    rw [← hA]; exact foldl_modLane_frame g.members (fun _ l => l.advance h.stall.toNat) s
  have hAl : ∀ u, sA.lane u = if u ∈ g.members then (s.lane u).advance h.stall.toNat else s.lane u := by
    intro u; rw [← hA]; exact foldl_modLane_lane g.members (fun _ l => l.advance h.stall.toNat) s u st.nodup
  have hAg : sA.gangs = s.gangs := by rw [hAf]
  have hB := settleGangs_spec (dedup (g.members.map slotOf)) sA (nodup_dedup _) (by
    intro n hn
    rw [hAg]
    simp at hn
    obtain ⟨u, hu, rfl⟩ := hn
    exact st.gangs u hu)
  simp only [] at hB
  generalize hBe : (dedup (g.members.map slotOf)).foldl (fun s n => s.modGang n (fun g => g.settle s.ndOf (fun t => (s.lane t).live))) sA = sB at hB
  have hT : t = { sB with groups := sB.groups.map (fun x => (x.1, countGroup ((s.holding g.members).contains x.1)
      (x.2.members.any (fun t => (dedup (g.members.map slotOf)).contains (slotOf t))) h y x.2)) } := by
    show State.countIssue _ _ _ _ _ _ = _
    unfold State.countIssue
    simp only [hA, hBe]
  obtain ⟨hB1, hB2⟩ := hB
  have hlane : ∀ u, t.lane u = sA.lane u := by
    intro u; rw [hT]; show sB.lane u = _; rw [hB1]; rfl
  have hgang : ∀ n, t.gang n = sB.gang n := by intro n; rw [hT]; rfl
  have hlive : ∀ u, (sA.lane u).live = (s.lane u).live := by
    intro u; rw [hAl]; split
    · rw [Lane.advance_live]
    · rfl
  have hsg : ∀ n, sA.gang n = s.gang n := by intro n; unfold State.gang; rw [hAg]
  have hndA : ∀ u, sA.ndOf u = if u ∈ g.members then s.ndOf u + h.stall.toNat else s.ndOf u := by
    intro u; unfold State.ndOf; rw [hAl]; split
    · rw [Lane.advance_nd]
    · rfl
  have hndT : ∀ u, t.ndOf u = sA.ndOf u := by intro u; unfold State.ndOf; rw [hlane]
  have hread : ∀ us n r (nd' : Nat → Nat), (∀ u ∈ us, (s.lane u).live = true) → (∀ u ∈ us, sA.ndOf u ≤ nd' u) →
      (t.gang n).kread us nd' r = (s.gang n).kread us nd' r := by
    intro us n r nd' hl hn
    rw [hgang, hB2]
    split
    · rw [Gang.kread_settle _ _ _ _ _ _ (fun u hu => by rw [hlive]; exact hl u hu) hn, hsg]
    · rw [hsg]
  refine ⟨?_, ?_, ?_, ?_, ?_⟩
  · rw [hT, hB1, hAf]
  · refine ⟨?_, ?_, ?_, ?_⟩
    · intro u hu n d
      have := Lane.read_advance (s.lane u) h.stall.toNat d (.v n) rfl
      simpa [State.vLater, Lane.vreg, hlane, hAl, hu, RegRef.norm, noWrites, Write.seen] using this
    · intro u hu n hn d
      simp only [State.pLater, hlane, hAl, hu, if_true, noWrites, Write.seen, Lane.pred_advance _ _ _ _ (Nat.lt_succ_of_lt hn)]
    · intro u hu
      rw [hlane, hAl, if_pos hu, Lane.advance_rest]
    · intro u hu
      rw [hlane, hAl, if_neg hu]
  · refine ⟨?_, ?_, ?_⟩
    · intro us _ hus n r d
      have : (if n = 0 then noWrites r else none : Write W32) = none := by simp [noWrites]
      rw [this]
      simp only [Write.seen, State.kLater]
      rw [hread us n r _ (fun u hu => st.live u (hus u hu)) (fun u hu => by rw [hndT]; omega)]
      apply Gang.kread_congr
      intro u hu
      rw [hndT, hndA, if_pos (hus u hu)]; omega
    · intro us _ hus n r d
      have : (if n = 0 then noWrites r else none : Write W32) = none := by simp [noWrites]
      rw [this]
      simp only [State.kLater]
      rw [hread us n r _ (fun u hu => (hus u hu).1) (fun u hu => by rw [hndT]; omega)]
      apply Gang.kread_congr
      intro u hu
      rw [hndT, hndA, if_neg (hus u hu).2]
    · intro n
      rw [hgang, hB2, hsg]
      split
      · rfl
      · rfl
  all_goals
    have hgr : sB.groups = s.groups := by rw [hB1, hAf]
    have hmap : ∀ k, tfind t.groups k = (tfind s.groups k).map (fun x => countGroup ((s.holding g.members).contains k)
        (x.members.any (fun t => (dedup (g.members.map slotOf)).contains (slotOf t))) h y x) := by
      intro k
      rw [hT]
      show tfind (List.map _ sB.groups) k = _
      rw [hgr]
      exact tfind_map s.groups k (fun k x => countGroup ((s.holding g.members).contains k)
        (x.members.any (fun t => (dedup (g.members.map slotOf)).contains (slotOf t))) h y x)
  · rw [hmap, st.group]
    have : (s.holding g.members).contains gid = true := by
      simp only [State.holding, List.contains_iff_mem, List.mem_filterMap]
      refine ⟨(gid, g), tfind_mem st.group, ?_⟩
      have : g.members.any (fun t => g.members.contains t) = true := by
        obtain ⟨u, hu⟩ := List.exists_mem_of_ne_nil _ st.some
        exact List.any_eq_true.mpr ⟨u, hu, by simpa using hu⟩
      simp only [this, if_true]
    simp only [this, Option.map_some, countGroup, if_true]
    all_goals rfl
  · intro k hk
    rw [hmap]
    cases hx : tfind s.groups k with
    | none => rfl
    | some x =>
      have hnot : (s.holding g.members).contains k = false := by
        rw [Bool.eq_false_iff]
        intro hc
        simp only [State.holding, List.contains_iff_mem, List.mem_filterMap] at hc
        obtain ⟨z, hz, he⟩ := hc
        split at he
        · rename_i hany
          have hzk : z.1 = k := by simpa using he
          simp only [List.any_eq_true] at hany
          obtain ⟨u, hu, huc⟩ := hany
          exact st.alone z hz (by rw [hzk]; exact hk) u (by simpa using huc) hu
        · cases he
      simp only [hnot, countGroup, Bool.false_eq_true, if_false, Option.map_some]
      split <;> rfl

/-! The end of an issue. -/

/-- A disposition after which the thread is done with the instruction. -/
def goesOn : Disp → Bool
  | .seq | .goto _ | .move _ => true
  | _ => false
theorem Stands.of_eq {s t : State} {gid : Nat} {g : Group} (h : Stands s gid g) (hg : t.groups = s.groups)
    (hk : ∀ n, (tfind t.gangs n).isSome = (tfind s.gangs n).isSome) (hl : ∀ u, (t.lane u).live = (s.lane u).live) :
    Stands t gid g :=
  { group := by rw [hg]; exact h.group
    once := by rw [hg]; exact h.once
    some := h.some
    nodup := h.nodup
    alone := by rw [hg]; exact h.alone
    gangs := fun u hu => by rw [hk]; exact h.gangs u hu
    live := fun u hu => by rw [hl]; exact h.live u hu }

/-- A group that its issue put in one place, once the issue is counted. -/
theorem Group.put_gone (g : Group) (i : Instr) (h : Hdr) (pl : W64 × Status × Bool) :
    ({ g.put pl with
        hold := h.stall.toNat, waitCount := 0, yielded := (g.put pl).yielded || (h.y || opcodeOfInstr i == 0x007)
        prio := match (g.put pl).prio with
          | some n => if n ≤ 1 || (g.put pl).status.endsPrio then none else some (n - 1)
          | none => none } : Group) = g.gone i h pl.1 pl.2.1 pl.2.2 := by
  obtain ⟨core, pc, members, status, branched, loose, waitCount, yielded, hold, prio, answers, flushed, toEnter⟩ := g
  obtain ⟨p, st, b⟩ := pl
  unfold Group.put Group.gone
  cases prio <;> by_cases he : st.endsPrio = true <;> simp [he]
/-- An issue that all threads of the group are done with raises no exception, so it logs no error. -/
theorem reportErrors_done (s : State) (i : Instr) (g : Group) (out : List (Nat × Disp))
    (hdone : doneOf (placesOf g out) = g.members) : s.reportErrors i (placesOf g out) = s := by
  have key : ∀ ds : List (Nat × Disp), (doneOf ds).length = ds.length → ∀ d ∈ ds, ∀ c ea, d.2 ≠ .trap c ea := by
    intro ds
    induction ds with
    | nil => simp
    | cons d ds ih =>
      intro hl x hx c ea he
      have hle : (doneOf ds).length ≤ ds.length := List.length_filterMap_le _ _
      unfold doneOf at hl hle ih
      rw [List.filterMap_cons] at hl
      rcases List.mem_cons.mp hx with rfl | hx
      · rw [he] at hl; simp only [List.length_cons] at hl; omega
      · refine ih ?_ x hx c ea he
        split at hl <;> simp only [List.length_cons] at hl <;> omega
  have hnone := key (placesOf g out) (by rw [hdone]; simp [placesOf])
  have herr : ∀ ds : List (Nat × Disp), (∀ d ∈ ds, ∀ c ea, d.2 ≠ .trap c ea) → errorsOf i ds = [] := by
    intro ds
    unfold errorsOf
    induction ds with
    | nil => intro _; rfl
    | cons d ds ih =>
      intro h
      have h1 := h d (List.mem_cons_self ..)
      obtain ⟨t, d⟩ := d
      rw [List.foldl_cons]
      cases d with
      | trap c ea => exact absurd rfl (h1 c ea)
      | _ => exact ih (fun x hx => h x (List.mem_cons_of_mem _ hx))
  unfold State.reportErrors
  rw [herr _ hnone]; rfl
/-- The end of an issue after which all threads of the group, done with the instruction, stand at one place. -/
theorem finish_at (s s1 : State) (i : Instr) (h : Hdr) (gid : Nat) (g : Group) (out : List (Nat × Disp))
    (pl : W64 × Status × Bool) (st : Stands s1 gid g) (hdone : doneOf (placesOf g out) = g.members)
    (hall : (placesOf g out).all (fun d => d.2 == .stay .ready) = false)
    (hdisp : s.dispose gid g.pc (placesOf g out) = { s1 with groups := tput (tdel s1.groups gid) gid (g.put pl) }) :
    GoesTo s1 (s.finish i h gid g out) i h gid g pl.1 pl.2.1 pl.2.2 := by
  have hfin : s.finish i h gid g out = ({ s1 with groups := tput (tdel s1.groups gid) gid (g.put pl) } : State).bump.countIssue
        (({ s1 with groups := tput (tdel s1.groups gid) gid (g.put pl) } : State).bump.holding g.members)
        (dedup (g.members.map slotOf)) g.members h (h.y || opcodeOfInstr i == 0x007) := by
    have hne : g.members.isEmpty = false := by simpa using st.some
    have hlv : g.members.filter (fun t => (s1.lane t).live) = g.members := List.filter_eq_self.mpr st.live
    unfold State.finish
    simp only [hall, Bool.false_eq_true, if_false, reportErrors_done s i g out hdone, hdisp, hdone, hne]
    congr 1
  generalize hB : ({ s1 with groups := tput (tdel s1.groups gid) gid (g.put pl) } : State).bump = sB at hfin
  have hBg : ∀ k, tfind sB.groups k = if k = gid then some (g.put pl) else tfind s1.groups k := by
    intro k
    rw [← hB]
    show tfind (tput (tdel s1.groups gid) gid _) k = _
    rw [tfind_tput, tfind_tdel]
    split <;> rfl
  have hst : Stands sB gid (g.put pl) := by
    refine ⟨by rw [hBg, if_pos rfl], ?_, st.some, st.nodup, ?_, ?_, ?_⟩
    · intro x hx he
      rw [← hB] at hx
      rcases mem_tput hx with rfl | hx
      · rfl
      · exact absurd he (key_ne_tdel hx)
    · intro x hx hne
      rw [← hB] at hx
      rcases mem_tput hx with rfl | hx
      · exact absurd rfl hne
      · exact st.alone x (mem_tdel hx) hne
    · rw [← hB]; exact st.gangs
    · rw [← hB]; exact st.live
  obtain ⟨c1, c2, c3, c4, c5⟩ := countIssue_spec sB gid _ h (h.y || opcodeOfInstr i == 0x007) hst
  have hm : (g.put pl).members = g.members := rfl
  rw [hm, ← hfin] at c1 c2 c3 c4 c5
  refine ⟨?_, ?_, ?_, ?_, ?_⟩
  · rw [c1, ← hB]; rfl
  · exact ⟨fun u hu n d => by rw [c2.vregs u hu]; rw [← hB]; rfl, fun u hu n hn d => by rw [c2.preds u hu n hn]; rw [← hB]; rfl,
      fun u hu => by rw [c2.rest u hu]; rw [← hB]; rfl, fun u hu => by rw [c2.others u hu]; rw [← hB]; rfl⟩
  · exact ⟨fun us hne hus n r d => by rw [c3.inside us hne hus]; rw [← hB]; rfl,
      fun us hne hus n r d => by rw [c3.outside us hne (fun u hu => by rw [← hB]; exact hus u hu)]; rw [← hB]; rfl,
      fun n => by rw [c3.rest n]; rw [← hB]; rfl⟩
  · rw [c4]
    show some _ = some _
    congr 1
    exact Group.put_gone g i h pl
  · intro k hk
    rw [c5 k hk, hBg, if_neg hk]

/-- When every thread of the group goes to one place, the issue ends with the group there. -/
theorem finish_spec (s : State) (i : Instr) (h : Hdr) (gid : Nat) (g : Group) (out : List (Nat × Disp)) (d : Disp)
    (pl : W64 × Status × Bool) (st : Stands s gid g) (hd : ∀ t ∈ g.members, dispOf out t = d) (hp : placeFrom g.pc d = some pl)
    (hg : goesOn d = true) : GoesTo s (s.finish i h gid g out) i h gid g pl.1 pl.2.1 pl.2.2 := by
  have hdone : doneOf (placesOf g out) = g.members := by
    rw [placesOf_all g out d hd]
    unfold doneOf
    rw [List.filterMap_map]
    have h2 := List.filterMap_some (l := g.members)
    cases d <;> simp [goesOn] at hg <;> exact h2
  have hall : ((placesOf g out).all (fun d => d.2 == .stay .ready)) = false := by
    rw [placesOf_all g out d hd]
    obtain ⟨u, hu⟩ := List.exists_mem_of_ne_nil _ st.some
    rw [List.all_eq_false]
    refine ⟨(u, d), List.mem_map.mpr ⟨u, hu, rfl⟩, ?_⟩
    cases d <;> simp [goesOn] at hg ⊢
  have hdisp : s.dispose gid g.pc (placesOf g out) = { s with groups := tput (tdel s.groups gid) gid (g.put pl) } := by
    rw [placesOf_all g out d hd, dispose_place, List.map_map]
    · have : ((fun d : Nat × Disp => (d.1, placeFrom g.pc d.2)) ∘ fun t => (t, d)) = fun t => (t, some pl) := by
        funext t; simp [hp]
      rw [this, regroup_one s gid g pl st.group st.some]
    · intro x hx
      obtain ⟨u, _, rfl⟩ := List.mem_map.mp hx
      simp [hp]
  exact finish_at s s i h gid g out pl st hdone hall hdisp

/-! The checks before the effect (03 R97). -/

theorem splitByGang_one (s : State) (gid : Nat) (g : Group) (h : ∀ t ∈ g.members, slotOf t = g.slot) : s.splitByGang gid g = s := by
  unfold State.splitByGang
  cases hm : g.members with
  | nil => rfl
  | cons a l =>
    have : dedup ((a :: l).map slotOf) = [g.slot] := by
      apply dedup_const
      · intro x hx
        obtain ⟨u, hu, rfl⟩ := List.mem_map.mp hx
        exact h u (by rw [hm]; exact hu)
      · simp
    simp only [this]
    rfl
theorem arrivals_none (s : State) (gid : Nat) (g : Group) (hg : tfind s.groups gid = some g)
    (h : ∀ x ∈ s.groups, arrivedIn gid g.slot g.pc x = false) : s.arrivals gid = [] := by
  unfold State.arrivals
  have : s.groups.filter (arrivedIn gid (g.members.head?.elim 0 slotOf) g.pc) = [] := by
    rw [List.filter_eq_nil_iff]
    intro x hx hc
    have := h x hx
    unfold Group.slot at this
    simp [hc] at this
  simp [hg, this]
theorem mem_done (g : Group) (out : List (Nat × Disp)) (u : Nat) (h : u ∈ doneOf (placesOf g out)) : u ∈ g.members := by
  unfold doneOf placesOf at h
  simp only [List.mem_filterMap, List.mem_map] at h
  obtain ⟨_, ⟨v, hv, rfl⟩, he⟩ := h
  split at he <;> first | (cases he; done) | (cases he; exact hv)
/-- Threads whose registers are sound raise no 0x16, and their issue repairs nothing. -/
theorem wornReg_none (s : State) (i : Instr) (t : Nat) (h : ∀ n, FailedWord.vreg t n ∉ s.failed) : s.wornReg i t = none := by
  unfold State.wornReg
  split
  · rfl
  · rw [List.findSome?_eq_none_iff]
    intro r _
    cases r <;> simp [h]
theorem wornTraps_none (s : State) (i : Instr) (h : Hdr) (ts : List Nat) (hs : ∀ t ∈ ts, ∀ n, FailedWord.vreg t n ∉ s.failed) :
    s.wornTraps i h ts = [] := by
  unfold State.wornTraps
  rw [List.filterMap_eq_nil_iff]
  intro t ht
  rw [wornReg_none s i t (hs t (List.mem_filter.mp ht).1)]; rfl
theorem mend_none (s t : State) (i : Instr) (h : Hdr) (ts : List Nat) (hs : ∀ u ∈ ts, ∀ n, FailedWord.vreg u n ∉ s.failed) :
    s.mend t i h ts = t := by
  unfold State.mend
  simp only []
  split
  · rename_i hany
    obtain ⟨w, hw, ho⟩ := List.any_eq_true.mp hany
    cases w <;> simp at ho
    exact absurd hw (hs _ ho.1.1 _)
  · rfl
/-- An issue that no check stops: the effect in the issue's context, then the end of the issue. -/
theorem issue_clear (s : State) (i : Instr) (h : Hdr) (c gid : Nat) (g : Group)
    (body : Ctx → State → State × List (Nat × Disp)) (hc : Clear s i h c gid g) :
    s.issue i body = (body (s.issueCtx i h c gid g) s).1.finish i h gid g (body (s.issueCtx i h c gid g) s).2 := by
  unfold State.issue
  have hready : (g.status != .ready) = false := by simp [hc.ready]
  have hsplit : (if laneLocal i = true then s else s.splitByGang gid g) = s := by
    split
    · rfl
    · rename_i hl
      rcases hc.oneGang with h | h
      · exact absurd h hl
      · exact splitByGang_one s gid g h
  have hgather : (if gathers i = true then s.arrivals gid else []) = [] := by
    split
    · rename_i hl; exact arrivals_none s gid g hc.stands.group (hc.gathered hl)
    · rfl
  simp only [hc.cur, hc.header, hc.stands.group, hready, Bool.false_eq_true, if_false, hsplit, hgather, Option.getD_some, List.isEmpty_nil, if_true]
  unfold State.issueFor State.separate
  have hden : (if privileged i = true then g.members.filter (fun t => !s.prvOf t) else []) = [] := by
    split
    · rename_i hp
      rw [List.filter_eq_nil_iff]
      intro t ht; simp [hc.privilege hp t ht]
    · rfl
  have hmem : g.members.filter (fun t => !([] : List Nat).contains t) = g.members := by
    rw [List.filter_eq_self]; intro t _; rfl
  have hne : g.members.isEmpty = false := by simpa using hc.stands.some
  have hlegal : illegal (s.headerOf (g.members.head?.elim 0 slotOf)) i = false := hc.legal
  have hfields : fieldFault (s.headerOf (g.members.head?.elim 0 slotOf)) (partOf (g.members.head?.elim 0 slotOf)) i = none := hc.fields
  have hfree : s.waitsFor g.members (g.members.head?.elim 0 slotOf) i h = false := hc.free
  have hhold : (g.hold != 0) = false := by simp [hc.hold]
  have hearly : (if ((s.headerOf (g.members.head?.elim 0 slotOf)).check || (s.core c).check) = true then
      g.members.filterMap (fun t => (s.scoreboard t (regsOf i h ++ s.namedRegs g.members (g.members.head?.elim 0 slotOf) i)).map (fun r => (t, Disp.trap 0x08 (BitVec.ofNat 64 (regNumber r)))))
      else []) = [] := by
    split
    · rename_i hk
      rw [List.filterMap_eq_nil_iff]
      intro t ht
      have hr := hc.reached hk t ht
      unfold State.operandsOf Group.slot at hr
      rw [hr]; rfl
    · rfl
  have hrun : g.members.filter (fun t => !([] : List (Nat × Disp)).any (fun e => e.1 == t)) = g.members := by
    rw [List.filter_eq_self]; intro t _; rfl
  simp only [hhold, hlegal, Bool.false_eq_true, if_false, hden, hmem, hne, hfields, hfree, hearly, hrun, List.map_nil, List.nil_append,
    List.foldl_nil, wornTraps_none s i h g.members hc.sound]
  rw [mend_none s _ i h _ fun u hu => hc.sound u (mem_done g _ u hu)]
  rfl
/-- An instruction whose effect leaves the groups alone and sends every thread of the group to one place. -/
theorem issue_goes (s s1 : State) (i : Instr) (h : Hdr) (c gid : Nat) (g : Group)
    (body : Ctx → State → State × List (Nat × Disp)) (out : List (Nat × Disp)) (d : Disp) (pl : W64 × Status × Bool)
    (hc : Clear s i h c gid g) (hb : body (s.issueCtx i h c gid g) s = (s1, out)) (st : Stands s1 gid g)
    (hd : ∀ t ∈ g.members, dispOf out t = d) (hp : placeFrom g.pc d = some pl) (hg : goesOn d = true) :
    ∃ t, runInstr i s body = .next t ∧ GoesTo s1 t i h gid g pl.1 pl.2.1 pl.2.2 := by
  refine ⟨_, rfl, ?_⟩
  rw [issue_clear s i h c gid g body hc, hb]
  exact finish_spec s1 i h gid g out d pl st hd hp hg

end Sys2Proof.Machine
end

