-- ==== Sys2Proof/Laws/Operands.lean ====
section
/-!
SUPPORT. Reading operands, and the two shapes of a register instruction: one result per lane, one result for the gang.
-/

namespace Sys2Proof.Machine

open State

/-! ### Words. -/

@[simp] theorem wordsOf_length (n x : Nat) : (wordsOf n x).length = n := by
  induction n generalizing x with
  | zero => rfl
  | succ n ih => simp [wordsOf, ih]
theorem wordsOf_getD (n x k : Nat) (h : k < n) : (wordsOf n x).getD k 0 = BitVec.ofNat 32 (x / 2 ^ (32 * k)) := by
  induction n generalizing x k with
  | zero => omega
  | succ n ih =>
    cases k with
    | zero => simp [wordsOf]
    | succ k =>
      have : wordsOf (n + 1) x = BitVec.ofNat 32 x :: wordsOf n (x / 2 ^ 32) := rfl
      rw [this, List.getD_cons_succ, ih _ _ (by omega), Nat.div_div_eq_div_mul, ← Nat.pow_add]
      congr 3; omega

/-! ### Writes in one thread. -/

/-- What a thread reads after writes in place. -/
structure LaneWrites (l l' : Lane) (v : Nat → Write W32) (p : Nat → Write Bool) : Prop where
  vregs : ∀ n d, (l'.later d).vreg n = (v n).seen d ((l.later d).vreg n)
  preds : ∀ n < 7, ∀ d, (l'.later d).pred n = (p n).seen d ((l.later d).pred n)
  rest : l'.rest = l.rest
  nd : l'.nd = l.nd
theorem Lane.write_nd (l : Lane) (r : RegRef) (x : W32) (lat : Option Nat) : (l.write r x lat).nd = l.nd := by
  unfold Lane.write
  split
  · rfl
  · cases lat with
    | some n => rfl
    | none => exact Lane.setBase_nd l r x
theorem LaneWrites.refl (l : Lane) : LaneWrites l l noWrites noWrites := ⟨fun _ _ => rfl, fun _ _ _ => rfl, rfl, rfl⟩
/-- Words written to consecutive vector registers. -/
theorem writeWords_spec (l : Lane) (lat : Option Nat) (d : Nat) (ws : List W32) :
    LaneWrites l (l.writeWords lat d ws)
      (fun n => if d ≤ n ∧ n < d + ws.length then some (ws.getD (n - d) 0, lat.getD 0) else none) noWrites := by
  induction ws generalizing l d with
  | nil =>
    refine ⟨fun n k => ?_, fun _ _ _ => rfl, rfl, rfl⟩
    have : ¬ (d ≤ n ∧ n < d + 0) := by omega
    simp only [List.length_nil, this, if_false]
    rfl
  | cons x xs ih =>
    have h := ih (l.write (.v d) x lat) (d + 1)
    refine ⟨fun n k => ?_, fun n hn k => ?_, ?_, ?_⟩
    · rw [show l.writeWords lat d (x :: xs) = (l.write (.v d) x lat).writeWords lat (d + 1) xs from rfl, h.vregs,
        Lane.vreg_write]
      by_cases hn : n = d
      · subst hn
        have h1 : ¬ (n + 1 ≤ n ∧ n < n + 1 + xs.length) := by omega
        have h2 : n ≤ n ∧ n < n + (x :: xs).length := by simp
        rw [if_neg h1, if_pos h2]
        simp [Write.seen]
      · have h0 : ¬ (RegRef.v n = RegRef.v d ∧ lat.getD 0 ≤ k) := by simp [hn]
        rw [if_neg h0]
        by_cases h1 : d + 1 ≤ n ∧ n < d + 1 + xs.length
        · have h2 : d ≤ n ∧ n < d + (x :: xs).length := by simp; omega
          rw [if_pos h1, if_pos h2]
          have : n - d = (n - (d + 1)) + 1 := by omega
          rw [this, List.getD_cons_succ]
        · have h2 : ¬ (d ≤ n ∧ n < d + (x :: xs).length) := by simp; omega
          rw [if_neg h1, if_neg h2]
    · rw [show l.writeWords lat d (x :: xs) = (l.write (.v d) x lat).writeWords lat (d + 1) xs from rfl, h.preds n hn,
        Lane.pred_write _ _ _ _ _ _ hn]
      simp [noWrites, Write.seen]
    · exact h.rest.trans (Lane.write_rest ..)
    · exact h.nd.trans (Lane.write_nd ..)
theorem writeVs_spec (l : Lane) (lat : Option Nat) (d n x : Nat) :
    LaneWrites l (l.writeVs d n x lat) (wordWrites d n x (lat.getD 0)) noWrites := by
  have h := writeWords_spec l lat d (wordsOf n x)
  refine ⟨fun r k => ?_, h.preds, h.rest, h.nd⟩
  rw [show l.writeVs d n x lat = l.writeWords lat d (wordsOf n x) from rfl, h.vregs, wordsOf_length]
  unfold wordWrites
  by_cases hr : d ≤ r ∧ r < d + n
  · rw [if_pos hr, if_pos hr, wordsOf_getD _ _ _ (by omega)]
  · rw [if_neg hr, if_neg hr]
theorem writePred_spec (l : Lane) (lat : Option Nat) (d : Nat) (x : Bool) :
    LaneWrites l (l.write (.p d) (if x then 1 else 0) lat) noWrites (predWrites d x (lat.getD 0)) := by
  refine ⟨fun n k => ?_, fun n hn k => ?_, Lane.write_rest .., Lane.write_nd ..⟩
  · rw [Lane.vreg_write]; simp [noWrites, Write.seen]
  · rw [Lane.pred_write _ _ _ _ _ _ hn]
    by_cases h : n = d
    · subst h; cases x <;> simp [predWrites, Write.seen]
    · simp [predWrites, Write.seen, h]

/-- Writes after writes that touch other registers. -/
theorem LaneWrites.both {l l' l'' : Lane} {v : Nat → Write W32} {p : Nat → Write Bool} (h : LaneWrites l l' v noWrites)
    (k : LaneWrites l' l'' noWrites p) : LaneWrites l l'' v p :=
  ⟨fun n d => (k.vregs n d).trans (h.vregs n d), fun n hn d => (k.preds n hn d).trans (by rw [h.preds n hn d]; rfl),
   k.rest.trans h.rest, k.nd.trans h.nd⟩

/-! ### One result per lane. -/

/-- The threads of a list changed by functions, seen from a state `b` that differs from the one before in them only. -/
theorem laneReads_fold (s b t : State) (ts act : List Nat) (stall : Nat) (f : Nat → Lane → Lane) (v : Nat → Nat → Write W32)
    (p : Nat → Nat → Write Bool) (hn : act.Nodup) (hs : ∀ u ∈ act, u ∈ ts) (hb : ∀ u, u ∉ act → b.lane u = s.lane u)
    (hf : ∀ u ∈ act, LaneWrites (b.lane u) (f u (s.lane u)) (v u) (p u))
    (h : LaneReads (act.foldl (fun s u => s.modLane u (f u)) s) t ts stall (fun _ => noWrites) (fun _ => noWrites)) :
    LaneReads b t ts stall (fun u n => if u ∈ act then v u n else none) (fun u n => if u ∈ act then p u n else none) := by
  have hl := fun u => foldl_modLane_lane act f s u hn
  refine ⟨fun u hu n d => ?_, fun u hu n h7 d => ?_, fun u hu => ?_, fun u hu => ?_⟩
  · rw [h.vregs u hu]
    simp only [State.vLater, hl]
    by_cases hc : u ∈ act
    · simp only [hc, if_true]; exact (hf u hc).vregs n _
    · simp only [hc, if_false, hb u hc]; rfl
  · rw [h.preds u hu n h7]
    simp only [State.pLater, hl]
    by_cases hc : u ∈ act
    · simp only [hc, if_true]; exact (hf u hc).preds n h7 _
    · simp only [hc, if_false, hb u hc]; rfl
  · rw [h.rest u hu, hl]
    by_cases hc : u ∈ act
    · simp only [hc, if_true]; exact (hf u hc).rest
    · simp only [hc, if_false, hb u hc]
  · rw [h.others u hu, hl, if_neg fun hc => hu (hs u hc), hb u fun hc => hu (hs u hc)]

theorem mem_act {s : State} {i : Instr} {h : Hdr} {c gid : Nat} {g : Group} (hc : Clear s i h c gid g) (u : Nat) (hu : u ∈ g.members) :
    u ∈ (s.issueCtx i h c gid g).act ↔ s.acts h u = true := by
  simp [State.issueCtx, State.ctxOf, hu, wornReg_none s i u (hc.sound u hu)]
theorem act_nodup (s : State) (i : Instr) (h : Hdr) (c gid : Nat) (g : Group) (hn : g.members.Nodup) :
    (s.issueCtx i h c gid g).act.Nodup := hn.filter _
theorem act_sub (s : State) (i : Instr) (h : Hdr) (c gid : Nat) (g : Group) :
    ∀ u ∈ (s.issueCtx i h c gid g).act, u ∈ g.members := fun _ hu => (List.mem_filter.mp hu).1
theorem Looked.stands {s t : State} {gid : Nat} {g : Group} (h : Looked s t) (k : Stands s gid g) : Stands t gid g := by
  have := h.frame
  exact k.of_eq (by rw [this]) (fun n => by rw [this]) (fun u => by rw [this]; rfl)

/-- An instruction that changes the threads whose guard holds, after `s1`: registers, and what `b` says beside them. -/
theorem lanes_spec_from (s s1 b : State) (i : Instr) (h : Hdr) (c gid : Nat) (g : Group)
    (body : Ctx → State → State × List (Nat × Disp)) (f : Nat → Lane → Lane) (v : Nat → Nat → Write W32)
    (p : Nat → Nat → Write Bool) (slot : Nat) (hc : Clear s i h c gid g) (hst1 : Stands s1 gid g)
    (hb : body (s.issueCtx i h c gid g) s = ((s.issueCtx i h c gid g).act.foldl (fun s u => s.modLane u (f u)) s1, []))
    (hbf : b = { s1 with lanes := b.lanes }) (hbl : ∀ u, u ∉ (s.issueCtx i h c gid g).act → b.lane u = s1.lane u)
    (hbd : ∀ u, (b.lane u).live = (s1.lane u).live ∧ (b.lane u).nd = (s1.lane u).nd)
    (hf : ∀ u ∈ (s.issueCtx i h c gid g).act, LaneWrites (b.lane u) (f u (s1.lane u)) (v u) (p u)) :
    ∃ t, runInstr i s body = .next t ∧ Result b t i h gid g (s.byGuard h v) (s.byGuard h p) slot noWrites := by
  have hfr := foldl_modLane_frame (s.issueCtx i h c gid g).act f s1
  have hln := fun u => foldl_modLane_lane (s.issueCtx i h c gid g).act f s1 u (act_nodup s i h c gid g hc.stands.nodup)
  have hlive : ∀ u, (((s.issueCtx i h c gid g).act.foldl (fun s u => s.modLane u (f u)) s1).lane u).live = (s1.lane u).live := by
    intro u
    rw [hln]
    split
    · rename_i hu
      exact (show (f u (s1.lane u)).rest.live = (b.lane u).rest.live from congrArg Lane.live (hf u hu).rest).trans (hbd u).1
    · rfl
  have hnd : ∀ u, ((s.issueCtx i h c gid g).act.foldl (fun s u => s.modLane u (f u)) s1).ndOf u = b.ndOf u := by
    intro u
    unfold State.ndOf
    rw [hln]
    split
    · rename_i hu; exact (hf u hu).nd
    · exact (hbd u).2.symm
  have hst := hst1.of_eq (t := (s.issueCtx i h c gid g).act.foldl (fun s u => s.modLane u (f u)) s1)
    (by rw [hfr]) (fun n => by rw [hfr]) hlive
  obtain ⟨t, ht, hg⟩ := issue_goes s _ i h c gid g body [] .seq (nextPc g.pc, .ready, false) hc hb hst (fun _ _ => rfl) rfl rfl
  have hgn : ∀ n, ((s.issueCtx i h c gid g).act.foldl (fun s u => s.modLane u (f u)) s1).gang n = b.gang n := by
    intro n; rw [hfr, hbf]; rfl
  refine ⟨t, ht, ?_, ?_, ?_, ?_⟩
  · rw [hg.frame, hfr, hbf]
  · have := laneReads_fold s1 b t g.members _ h.stall.toNat f v p (act_nodup s i h c gid g hc.stands.nodup)
      (act_sub s i h c gid g) hbl hf hg.lanes
    refine ⟨fun u hu n d => ?_, fun u hu n h7 d => ?_, this.rest, this.others⟩
    · rw [this.vregs u hu n d]; simp only [State.byGuard, mem_act hc u hu]
    · rw [this.preds u hu n h7 d]; simp only [State.byGuard, mem_act hc u hu]
  · have hsc := hg.scalars
    refine ⟨fun us hne hus n r d => ?_, fun us hne hus n r d => ?_, fun n => ?_⟩
    · rw [hsc.inside us hne hus n r d]
      simp only [State.kLater, hgn, hnd, noWrites, ite_self]
    · rw [hsc.outside us hne (fun u hu => ⟨by rw [hlive, ← (hbd u).1]; exact (hus u hu).1, (hus u hu).2⟩) n r d]
      simp only [State.kLater, hgn, hnd, noWrites, ite_self]
    · rw [hsc.rest, hgn]
  · refine ⟨hg.group.here, fun k hk => ?_⟩
    rw [hg.group.there k hk, hfr, hbf]
/-- An instruction that changes registers of the threads whose guard holds, after reads that change caches only. -/
theorem lanes_spec (s s1 : State) (i : Instr) (h : Hdr) (c gid : Nat) (g : Group)
    (body : Ctx → State → State × List (Nat × Disp)) (f : Nat → Lane → Lane) (v : Nat → Nat → Write W32)
    (p : Nat → Nat → Write Bool) (slot : Nat) (hc : Clear s i h c gid g) (hl : Looked s s1)
    (hb : body (s.issueCtx i h c gid g) s = ((s.issueCtx i h c gid g).act.foldl (fun s u => s.modLane u (f u)) s1, []))
    (hf : ∀ u ∈ (s.issueCtx i h c gid g).act, LaneWrites (s1.lane u) (f u (s1.lane u)) (v u) (p u)) :
    ∃ t, runInstr i s body = .next t ∧ Result s1 t i h gid g (s.byGuard h v) (s.byGuard h p) slot noWrites :=
  lanes_spec_from s s1 s1 i h c gid g body f v p slot hc (hl.stands hc.stands) hb rfl (fun _ _ => rfl) (fun _ => ⟨rfl, rfl⟩) hf

/-! ### Reading operands. -/

theorem readSrc_vec (s : State) (cx : Ctx) (ts : List Nat) (src : Src) (opnd : BitVec 20) (h : src.k = .vec) :
    s.readSrc cx ts src opnd =
      (none, fun t => ofWords ((List.range src.n).map (fun i => (s.lane t).vreg (src.r.toNat + i))), s) := by
  simp [State.readSrc, h]
theorem readSrc_scl (s : State) (cx : Ctx) (ts : List Nat) (src : Src) (opnd : BitVec 20) (h : src.k = .scl) :
    s.readSrc cx ts src opnd =
      (none, fun _ => ofWords ((List.range src.n).map (fun i => s.kreg cx.ts cx.slot (src.r.toNat + i))), s) := by
  simp [State.readSrc, h]
theorem readSrc_imm (s : State) (cx : Ctx) (ts : List Nat) (src : Src) (opnd : BitVec 20) (h : src.k = .imm) :
    s.readSrc cx ts src opnd = (none, fun _ => immValue src.imm opnd, s) := by simp [State.readSrc, h]
/-- An operand that can be read changes caches at most. -/
theorem looked_readSrc (s s1 : State) (cx : Ctx) (ts : List Nat) (src : Src) (opnd : BitVec 20) (v : Nat → Nat)
    (h : s.readSrc cx ts src opnd = (none, v, s1)) : Looked s s1 := by
  cases hk : src.k with
  | vec => rw [readSrc_vec _ _ _ _ _ hk] at h; cases h; exact .refl _
  | scl => rw [readSrc_scl _ _ _ _ _ hk] at h; cases h; exact .refl _
  | imm => rw [readSrc_imm _ _ _ _ _ hk] at h; cases h; exact .refl _
  | win =>
    have hw := looked_constWords s (s.who (ts.head?.getD 0)) (cx.head.windows.getD (opnd.toNat / 2 ^ 17) 0)
      (opnd.toNat % 2 ^ 17) src.n
    simp only [State.readSrc, hk] at h
    split at h
    · rename_i he; cases h; rw [he] at hw; exact hw
    · cases h
theorem looked_readSrcs (s s1 : State) (cx : Ctx) (ts : List Nat) (srcs : List Src) (opnd : BitVec 20) (v : Nat → List Nat)
    (h : s.readSrcs cx ts opnd srcs = (none, v, s1)) : Looked s s1 := by
  induction srcs generalizing s v with
  | nil => cases h; exact .refl _
  | cons x xs ih =>
    unfold State.readSrcs at h
    split at h
    · cases h
    · rename_i v' s' he
      have h1 := looked_readSrc s s' cx ts x opnd v' he
      cases hr : s'.readSrcs cx ts opnd xs with
      | mk d r =>
        obtain ⟨w, s2⟩ := r
        rw [hr] at h
        simp only [Prod.mk.injEq] at h
        obtain ⟨rfl, _, rfl⟩ := h
        exact h1.trans (ih s' w hr)
theorem State.Operands.looked {s s1 : State} {cx : Ctx} {ts : List Nat} {srcs : List Src} {opnd : BitVec 20} {v : Nat → List Nat}
    (h : s.Operands cx ts srcs opnd v s1) : Looked s s1 := by
  unfold State.Operands at h
  split at h
  · rw [h]; exact .refl s
  · exact looked_readSrcs _ _ _ _ _ _ _ h.2

/-- One result per lane: each thread whose guard holds changes by its operands. -/
theorem perLane_spec (s s1 : State) (cx : Ctx) (srcs : List Src) (opnd : BitVec 20) (eff : Nat → Lane → List Nat → Lane)
    (v : Nat → List Nat) (h : s.Operands cx cx.act srcs opnd v s1) :
    s.perLane cx srcs opnd eff = (cx.act.foldl (fun s t => s.modLane t (fun l => eff t l (v t))) s1, []) := by
  unfold State.Operands at h
  unfold State.perLane
  by_cases hn : cx.act = []
  · rw [if_pos hn] at h
    have hr : s.readers cx srcs = [] ∨ s.readers cx srcs = [[]] := by
      unfold State.readers
      split
      · left; simp [hn, dedup]
      · right; rw [hn]
    rcases hr with hr | hr <;> simp [hr, hn, h, perLaneOf]
  · rw [if_neg hn] at h
    simp only [h.1, List.foldl_cons, List.foldl_nil, List.nil_append]
    show s.perLaneOf cx srcs opnd eff = _
    unfold perLaneOf
    have he : cx.act.isEmpty = false := by simpa using hn
    simp only [he, Bool.false_eq_true, if_false, h.2]
/-- LANE RESULTS: an instruction whose result per lane is a number in the registers of D. -/
theorem laneResult_spec (i : Instr) (f : FmtA) (srcs : List Src) (n : Nat) (val : List Nat → Nat) (s s1 : State) (h : Hdr)
    (c gid : Nat) (g : Group) (v : Nat → List Nat) (slot : Nat) (hc : Clear s i h c gid g)
    (ho : s.Operands (s.issueCtx i h c gid g) (s.issueCtx i h c gid g).act srcs f.opnd v s1) :
    ∃ t, laneResult i f srcs n val s = .next t ∧ Result s1 t i h gid g
      (s.byGuard h (fun u => wordWrites f.d.toNat n (val (v u)) ((latencyOf i).getD 0))) (s.byGuard h (fun _ => noWrites)) slot noWrites :=
  lanes_spec s s1 i h c gid g _ (fun u l => l.writeVs f.d.toNat n (val (v u)) (latencyOf i)) _ _ slot hc ho.looked
    (perLane_spec _ _ _ _ _ (fun _ l vs => l.writeVs f.d.toNat n (val vs) (latencyOf i)) _ ho) (fun _ _ => writeVs_spec ..)
theorem lanePred_spec (i : Instr) (f : FmtA) (srcs : List Src) (val : List Nat → Bool) (s s1 : State) (h : Hdr)
    (c gid : Nat) (g : Group) (v : Nat → List Nat) (slot : Nat) (hc : Clear s i h c gid g)
    (ho : s.Operands (s.issueCtx i h c gid g) (s.issueCtx i h c gid g).act srcs f.opnd v s1) :
    ∃ t, lanePred i f srcs val s = .next t ∧ Result s1 t i h gid g
      (s.byGuard h (fun _ => noWrites)) (s.byGuard h (fun u => predWrites f.d.toNat (val (v u)) ((latencyOf i).getD 0))) slot noWrites :=
  lanes_spec s s1 i h c gid g _ (fun u l => l.write (.p f.d.toNat) (if val (v u) then 1 else 0) (latencyOf i)) _ _ slot hc ho.looked
    (perLane_spec _ _ _ _ _ (fun _ l vs => l.write (.p f.d.toNat) (if val vs then 1 else 0) (latencyOf i)) _ ho)
    (fun _ _ => writePred_spec ..)

/-- A row of the table of lane results that an instruction's meaning follows. -/
theorem laneRow_spec (i : Instr) (r : LaneRow) (s s1 : State) (c gid : Nat) (g : Group) (v : Nat → List Nat) (slot : Nat)
    (hx : exec i s = laneResult i r.f r.srcs r.regs r.val s) (hl : (latencyOf i).getD 0 = r.lat)
    (hc : Clear s i r.h c gid g)
    (ho : s.Operands (s.issueCtx i r.h c gid g) (s.issueCtx i r.h c gid g).act r.srcs r.f.opnd v s1) :
    ∃ t, exec i s = .next t ∧ Looked s s1 ∧ Result s1 t i r.h gid g
      (s.byGuard r.h (fun u => wordWrites r.f.d.toNat r.regs (r.val (v u)) r.lat)) (s.byGuard r.h (fun _ => noWrites)) slot noWrites := by
  obtain ⟨t, ht, hr⟩ := laneResult_spec i r.f r.srcs r.regs r.val s s1 r.h c gid g v slot hc ho
  rw [hl] at hr
  exact ⟨t, hx.trans ht, ho.looked, hr⟩
theorem predRow_spec (i : Instr) (r : PredRow) (s s1 : State) (c gid : Nat) (g : Group) (v : Nat → List Nat) (slot : Nat)
    (hx : exec i s = lanePred i r.f r.srcs r.val s) (hl : (latencyOf i).getD 0 = r.lat) (hc : Clear s i r.h c gid g)
    (ho : s.Operands (s.issueCtx i r.h c gid g) (s.issueCtx i r.h c gid g).act r.srcs r.f.opnd v s1) :
    ∃ t, exec i s = .next t ∧ Looked s s1 ∧ Result s1 t i r.h gid g
      (s.byGuard r.h (fun _ => noWrites)) (s.byGuard r.h (fun u => predWrites r.f.d.toNat (r.val (v u)) r.lat)) slot noWrites := by
  obtain ⟨t, ht, hr⟩ := lanePred_spec i r.f r.srcs r.val s s1 r.h c gid g v slot hc ho
  rw [hl] at hr
  exact ⟨t, hx.trans ht, ho.looked, hr⟩

/-! Values of operands by type. -/

@[simp] theorem tyVal_zero (t : BitVec 5) : tyVal t 0 = 0 := by
  unfold tyVal signed
  split
  · simp
  · simp
theorem at0_map (t : BitVec 5) (v : List Nat) : at0 (v.map (tyVal t)) = tyVal t (v.getD 0 0) := by
  cases v <;> simp [at0]
theorem at1_map (t : BitVec 5) (v : List Nat) : at1 (v.map (tyVal t)) = tyVal t (v.getD 1 0) := by
  rcases v with _ | ⟨a, _ | ⟨b, v⟩⟩ <;> simp [at1]
theorem at2_map (t : BitVec 5) (v : List Nat) : at2 (v.map (tyVal t)) = tyVal t (v.getD 2 0) := by
  rcases v with _ | ⟨a, _ | ⟨b, _ | ⟨c, v⟩⟩⟩ <;> simp [at2]

/-! ### One result for the gang. -/

theorem writeKs_frame (s : State) (ts : List Nat) (slot : Nat) (lat : Option Nat) (d : Nat) (ws : List W32) :
    s.writeKs ts slot lat d ws = { s with gangs := (s.writeKs ts slot lat d ws).gangs } := by
  induction ws generalizing s d with
  | nil => rfl
  | cons x xs ih =>
    rw [show s.writeKs ts slot lat d (x :: xs) = (s.writeK ts slot d x lat).writeKs ts slot lat (d + 1) xs from rfl, ih]
    rw [show s.writeK ts slot d x lat = { s with gangs := (s.writeK ts slot d x lat).gangs } from modGang_frame ..]
theorem isSome_writeKs (s : State) (ts : List Nat) (slot : Nat) (lat : Option Nat) (d : Nat) (ws : List W32) (n : Nat) :
    (tfind (s.writeKs ts slot lat d ws).gangs n).isSome = (tfind s.gangs n).isSome := by
  induction ws generalizing s d with
  | nil => rfl
  | cons x xs ih =>
    rw [show s.writeKs ts slot lat d (x :: xs) = (s.writeK ts slot d x lat).writeKs ts slot lat (d + 1) xs from rfl, ih]
    exact isSome_modGang ..
/-- Consecutive scalar registers written, as groups of the gang and other groups read them (04 R118). -/
theorem writeKs_spec (s : State) (ts : List Nat) (slot : Nat) (lat : Option Nat) (d : Nat) (ws : List W32)
    (hs : (tfind s.gangs slot).isSome = true) :
    (∀ us, us ≠ [] → (∀ u ∈ us, u ∈ ts) → ∀ n r k, (s.writeKs ts slot lat d ws).kLater us n r k =
      (if n = slot ∧ d ≤ r ∧ r < d + ws.length then some (ws.getD (r - d) 0, lat.getD 0) else none : Write W32).seen k (s.kLater us n r k)) ∧
    (∀ us, us ≠ [] → (∀ u ∈ us, u ∉ ts) → ∀ n r k, (s.writeKs ts slot lat d ws).kLater us n r k =
      if n = slot ∧ d ≤ r ∧ r < d + ws.length then ws.getD (r - d) 0 else s.kLater us n r k) ∧
    ∀ n, ((s.writeKs ts slot lat d ws).gang n).rest = (s.gang n).rest := by
  induction ws generalizing s d with
  | nil =>
    have h0 : ∀ n r : Nat, ¬ (n = slot ∧ d ≤ r ∧ r < d + ([] : List W32).length) := by intro n r; rintro ⟨_, h1, h2⟩; simp at h2; omega
    exact ⟨fun us _ _ n r k => by rw [if_neg (h0 n r)]; rfl, fun us _ _ n r k => (if_neg (h0 n r)).symm, fun _ => rfl⟩
  | cons x xs ih =>
    have hnd : (s.writeK ts slot d x lat).ndOf = s.ndOf := by unfold State.writeK; rw [modGang_frame]; rfl
    have hg : ∀ m, (s.writeK ts slot d x lat).gang m = if m = slot then (s.gang slot).kwrite ts s.ndOf d x lat else s.gang m :=
      fun m => gang_modGang s slot m _ hs
    obtain ⟨h1, h2, h3⟩ := ih (s.writeK ts slot d x lat) (d + 1) (by unfold State.writeK; rw [isSome_modGang]; exact hs)
    have hcase : ∀ n r : Nat, (n = slot ∧ d ≤ r ∧ r < d + (x :: xs).length) ↔
        (n = slot ∧ r = d) ∨ (n = slot ∧ d + 1 ≤ r ∧ r < d + 1 + xs.length) := by
      intro n r; simp; omega
    rw [show s.writeKs ts slot lat d (x :: xs) = (s.writeK ts slot d x lat).writeKs ts slot lat (d + 1) xs from rfl]
    refine ⟨fun us hne hus n r k => ?_, fun us hne hus n r k => ?_, fun n => ?_⟩
    · rw [h1 us hne hus]
      simp only [State.kLater, hg, hnd]
      by_cases hin : n = slot ∧ d + 1 ≤ r ∧ r < d + 1 + xs.length
      · rw [if_pos hin, if_pos ((hcase n r).mpr (Or.inr hin))]
        have h0 : ¬ (r = d ∧ lat.getD 0 ≤ k) := by omega
        rw [if_pos hin.1, Gang.kread_kwrite_inside _ _ _ _ _ _ _ _ _ hne hus, if_neg h0]
        have : r - d = (r - (d + 1)) + 1 := by omega
        rw [this, List.getD_cons_succ, hin.1]
      · rw [if_neg hin]
        by_cases hd : n = slot ∧ r = d
        · rw [if_pos ((hcase n r).mpr (Or.inl hd)), if_pos hd.1, Gang.kread_kwrite_inside _ _ _ _ _ _ _ _ _ hne hus]
          simp [Write.seen, hd.1, hd.2]
        · rw [if_neg (fun hh => ((hcase n r).mp hh).elim hd hin)]
          by_cases hn : n = slot
          · have h0 : ¬ (r = d ∧ lat.getD 0 ≤ k) := fun hh => hd ⟨hn, hh.1⟩
            rw [if_pos hn, Gang.kread_kwrite_inside _ _ _ _ _ _ _ _ _ hne hus, if_neg h0, hn]
          · rw [if_neg hn]
    · rw [h2 us hne hus]
      simp only [State.kLater, hg, hnd]
      by_cases hin : n = slot ∧ d + 1 ≤ r ∧ r < d + 1 + xs.length
      · rw [if_pos hin, if_pos ((hcase n r).mpr (Or.inr hin))]
        have : r - d = (r - (d + 1)) + 1 := by omega
        rw [this, List.getD_cons_succ]
      · rw [if_neg hin]
        by_cases hd : n = slot ∧ r = d
        · rw [if_pos ((hcase n r).mpr (Or.inl hd)), if_pos hd.1, Gang.kread_kwrite_outside _ _ _ _ _ _ _ _ _ hne hus]
          simp [hd.2]
        · rw [if_neg (fun hh => ((hcase n r).mp hh).elim hd hin)]
          by_cases hn : n = slot
          · have h0 : ¬ r = d := fun hh => hd ⟨hn, hh⟩
            rw [if_pos hn, Gang.kread_kwrite_outside _ _ _ _ _ _ _ _ _ hne hus, if_neg h0, hn]
          · rw [if_neg hn]
    · rw [h3 n, hg]
      split
      · rename_i hn; rw [hn, Gang.kwrite_rest]
      · rfl

/-- An instruction that writes scalar registers of its gang. -/
theorem gang_spec (s s1 : State) (i : Instr) (h : Hdr) (c gid : Nat) (g : Group)
    (body : Ctx → State → State × List (Nat × Disp)) (d n x : Nat) (hc : Clear s i h c gid g) (hl : Looked s s1)
    (hb : body (s.issueCtx i h c gid g) s = (s1.writeKs g.members g.slot (latencyOf i) d (wordsOf n x), [])) :
    ∃ t, runInstr i s body = .next t ∧ Result s1 t i h gid g (s.byGuard h (fun _ => noWrites)) (s.byGuard h (fun _ => noWrites))
      g.slot (wordWrites d n x ((latencyOf i).getD 0)) := by
  have hfr := writeKs_frame s1 g.members g.slot (latencyOf i) d (wordsOf n x)
  have hst1 := hl.stands hc.stands
  have hslot : (tfind s1.gangs g.slot).isSome = true := by
    obtain ⟨a, l, hm⟩ : ∃ a l, g.members = a :: l := by
      cases hm : g.members with
      | nil => exact absurd hm hc.stands.some
      | cons a l => exact ⟨a, l, rfl⟩
    have : g.slot = slotOf a := by simp [Group.slot, hm]
    rw [this]
    exact hst1.gangs a (by rw [hm]; exact List.mem_cons_self ..)
  obtain ⟨w1, w2, w3⟩ := writeKs_spec s1 g.members g.slot (latencyOf i) d (wordsOf n x) hslot
  generalize hE : s1.writeKs g.members g.slot (latencyOf i) d (wordsOf n x) = sE at hb hfr w1 w2 w3
  have hln : sE.lanes = s1.lanes := by rw [hfr]
  have hlane : ∀ u, sE.lane u = s1.lane u := fun u => by unfold State.lane; rw [hln]
  have hst : Stands sE gid g := hst1.of_eq (by rw [hfr]) (fun n => by rw [← hE, isSome_writeKs]) (fun u => by rw [hlane])
  obtain ⟨t, ht, hg⟩ := issue_goes s sE i h c gid g body [] .seq (nextPc g.pc, .ready, false) hc hb hst (fun _ _ => rfl) rfl rfl
  have hw : ∀ m r, (if m = g.slot ∧ d ≤ r ∧ r < d + (wordsOf n x).length then some ((wordsOf n x).getD (r - d) 0, (latencyOf i).getD 0) else none : Write W32) =
      if m = g.slot then wordWrites d n x ((latencyOf i).getD 0) r else none := by
    intro m r
    unfold wordWrites
    by_cases hm : m = g.slot
    · by_cases hr : d ≤ r ∧ r < d + n
      · rw [if_pos ⟨hm, by simpa using hr⟩, if_pos hm, if_pos hr, wordsOf_getD _ _ _ (by omega)]
      · rw [if_neg (fun hh => hr (by simpa using hh.2)), if_pos hm, if_neg hr]
    · rw [if_neg (fun hh => hm hh.1), if_neg hm]
  refine ⟨t, ht, ?_, ?_, ?_, ?_⟩
  · rw [hg.frame, hfr]
  · have hll := hg.lanes
    refine ⟨fun u hu n d => ?_, fun u hu n h7 d => ?_, fun u hu => ?_, fun u hu => ?_⟩
    · rw [hll.vregs u hu]; simp only [State.vLater, hlane, State.byGuard, noWrites, ite_self]
    · rw [hll.preds u hu n h7]; simp only [State.pLater, hlane, State.byGuard, noWrites, ite_self]
    · rw [hll.rest u hu, hlane]
    · rw [hll.others u hu, hlane]
  · have hsc := hg.scalars
    refine ⟨fun us hne hus m r k => ?_, fun us hne hus m r k => ?_, fun m => ?_⟩
    · rw [hsc.inside us hne hus, w1 us hne hus, hw]
      simp only [noWrites, ite_self]
      rfl
    · rw [hsc.outside us hne (fun u hu => ⟨by rw [hlane]; exact (hus u hu).1, (hus u hu).2⟩), w2 us hne (fun u hu => (hus u hu).2)]
      simp only [noWrites, ite_self]
      rw [← hw]
      split <;> rfl
    · rw [hsc.rest, w3]
  · refine ⟨hg.group.here, fun k hk => ?_⟩
    rw [hg.group.there k hk, hfr]

end Sys2Proof.Machine
end

