-- ==== Sys2Proof/Laws/Lanes.lean ====
section
/-!
SUPPORT. Results for a gang, values moved between lanes, and random draws: what each shared operation does.
-/

namespace Sys2Proof.Machine

open State

theorem Looked.lane {s t : State} (h : Looked s t) (u : Nat) : t.lane u = s.lane u := by rw [h.frame]; rfl
theorem operands_nil (s : State) (cx : Ctx) (ts : List Nat) (opnd : BitVec 20) : s.Operands cx ts [] opnd (fun _ => []) s := by
  unfold State.Operands
  split
  · rfl
  · exact ⟨rfl, rfl⟩
theorem gangOperands_nil (s : State) (cx : Ctx) (opnd : BitVec 20) : s.GangOperands cx [] opnd (fun _ => []) s := by
  unfold State.GangOperands
  split <;> rfl
/-- LANE EFFECTS: an instruction that changes each acting thread by its operands. -/
theorem perLane_run (s s1 : State) (i : Instr) (h : Hdr) (c gid : Nat) (g : Group) (srcs : List Src) (opnd : BitVec 20)
    (eff : Ctx → Nat → Lane → List Nat → Lane) (v : Nat → List Nat) (w : Nat → Nat → Write W32) (p : Nat → Nat → Write Bool)
    (slot : Nat) (hc : Clear s i h c gid g)
    (ho : s.Operands (s.issueCtx i h c gid g) (s.issueCtx i h c gid g).act srcs opnd v s1)
    (hf : ∀ u ∈ (s.issueCtx i h c gid g).act, LaneWrites (s1.lane u) (eff (s.issueCtx i h c gid g) u (s1.lane u) (v u)) (w u) (p u)) :
    ∃ t, runInstr i s (fun cx s => s.perLane cx srcs opnd (eff cx)) = .next t ∧
      Result s1 t i h gid g (s.byGuard h w) (s.byGuard h p) slot noWrites :=
  lanes_spec s s1 i h c gid g _ (fun u l => eff (s.issueCtx i h c gid g) u l (v u)) w p slot hc ho.looked
    (perLane_spec s s1 _ srcs opnd _ v ho) hf

/-- SCALAR RESULTS: an instruction whose result for the gang is a number in scalar registers. -/
theorem perGang_spec (s s1 : State) (i : Instr) (h : Hdr) (c gid : Nat) (g : Group)
    (body : Ctx → State → State × List (Nat × Disp)) (srcs : List Src) (opnd : BitVec 20) (d n : Nat) (eff : List Nat → Nat)
    (v : Nat → List Nat) (hc : Clear s i h c gid g)
    (hb : body (s.issueCtx i h c gid g) s = s.perGang (s.issueCtx i h c gid g) srcs opnd d n eff)
    (ho : s.GangOperands (s.issueCtx i h c gid g) srcs opnd v s1) :
    ∃ t, runInstr i s body = .next t ∧ Looked s s1 ∧ Result s1 t i h gid g (s.byGuard h (fun _ => noWrites))
      (s.byGuard h (fun _ => noWrites)) g.slot (gangWrites (s.issueCtx i h c gid g)
        (wordWrites d n (eff (v ((s.issueCtx i h c gid g).act.headD 0))) ((latencyOf i).getD 0))) := by
  unfold State.GangOperands at ho
  by_cases hn : (s.issueCtx i h c gid g).act = []
  · rw [if_pos hn] at ho
    subst ho
    have hb0 : body (s1.issueCtx i h c gid g) s1 = (s1.writeKs g.members g.slot (latencyOf i) d (wordsOf 0 0), []) := by
      rw [hb, State.perGang, hn]; rfl
    obtain ⟨t, ht, hr⟩ := gang_spec s1 s1 i h c gid g body d 0 0 hc (.refl _) hb0
    have : (wordWrites d 0 0 ((latencyOf i).getD 0) : Nat → Write W32) =
        gangWrites (s1.issueCtx i h c gid g)
          (wordWrites d n (eff (v ((s1.issueCtx i h c gid g).act.headD 0))) ((latencyOf i).getD 0)) := by
      funext r
      simp [gangWrites, hn, wordWrites]
    rw [this] at hr
    exact ⟨t, ht, .refl _, hr⟩
  · rw [if_neg hn] at ho
    have hl := looked_readSrcs _ _ _ _ _ _ _ ho
    have he : (s.issueCtx i h c gid g).act.isEmpty = false := by simpa using hn
    obtain ⟨t, ht, hr⟩ := gang_spec s s1 i h c gid g body d n (eff (v ((s.issueCtx i h c gid g).act.headD 0))) hc hl (by
      rw [hb, State.perGang, he, ho]
      simp only [Bool.false_eq_true, if_false, List.headD_eq_head?_getD]; rfl)
    refine ⟨t, ht, hl, ?_⟩
    have : (gangWrites (s.issueCtx i h c gid g) (wordWrites d n (eff (v ((s.issueCtx i h c gid g).act.headD 0))) ((latencyOf i).getD 0))) =
        wordWrites d n (eff (v ((s.issueCtx i h c gid g).act.headD 0))) ((latencyOf i).getD 0) := by
      funext r; simp [gangWrites, hn]
    rw [this]
    exact hr
theorem scalarRow_spec (i : Instr) (r : ScalarRow) (s s1 : State) (c gid : Nat) (g : Group) (v : Nat → List Nat)
    (hx : exec i s = gangResult i r.f r.srcs r.regs r.val s) (hl : latencyOf i = some 4) (hc : Clear s i r.h c gid g)
    (ho : s.GangOperands (s.issueCtx i r.h c gid g) r.srcs r.f.opnd v s1) :
    ∃ t, exec i s = .next t ∧ Looked s s1 ∧ Result s1 t i r.h gid g (s.byGuard r.h (fun _ => noWrites))
      (s.byGuard r.h (fun _ => noWrites)) g.slot (gangWrites (s.issueCtx i r.h c gid g)
        (wordWrites r.f.d.toNat r.regs (r.val (v ((s.issueCtx i r.h c gid g).act.headD 0))) 4)) := by
  obtain ⟨t, ht, h2, h3⟩ := perGang_spec s s1 i r.h c gid g
    (fun cx s => s.perGang cx r.srcs r.f.opnd r.f.d.toNat r.regs r.val) r.srcs r.f.opnd r.f.d.toNat r.regs r.val v hc rfl ho
  rw [hl] at h3
  exact ⟨t, hx.trans ht, h2, h3⟩

/-- VALUES FROM OTHER LANES: one result per lane of the values that stood before. -/
theorem crossLane_spec (i : Instr) (f : FmtA) (srcs : List Src) (n : Nat) (src : Ctx → Nat → Nat → List Nat)
    (val : Ctx → State → Nat → Nat → Nat) (s s1 : State) (h : Hdr) (c gid : Nat) (g : Group) (v : Nat → List Nat) (slot : Nat)
    (hc : Clear s i h c gid g)
    (ho : s.Operands (s.issueCtx i h c gid g) (s.issueCtx i h c gid g).act srcs f.opnd v s1)
    (hf : ∀ t ∈ (s.issueCtx i h c gid g).act, ∀ u ∈ src (s.issueCtx i h c gid g) ((v t).headD 0) t, s1.failedVreg u [tyA f] = none) :
    ∃ t, crossLane i f srcs n src val s = .next t ∧ Result s1 t i h gid g
      (s.byGuard h (fun u => wordWrites f.d.toNat n (val (s.issueCtx i h c gid g) s1 ((v u).headD 0) u) ((latencyOf i).getD 0)))
      (s.byGuard h (fun _ => noWrites)) slot noWrites := by
  refine lanes_spec s s1 i h c gid g _
    (fun u l => l.writeVs f.d.toNat n (val (s.issueCtx i h c gid g) s1 ((v u).headD 0) u) (latencyOf i)) _ _ slot hc ho.looked ?_
    (fun _ _ => writeVs_spec ..)
  unfold crossBody
  unfold State.Operands at ho
  by_cases hn : (s.issueCtx i h c gid g).act = []
  · rw [if_pos hn] at ho
    simp [hn, ho]
  · rw [if_neg hn] at ho
    have he : (s.issueCtx i h c gid g).act.isEmpty = false := by simpa using hn
    generalize hbad : (s.issueCtx i h c gid g).act.filterMap (fun t =>
          ((src (s.issueCtx i h c gid g) ((v t).headD 0) t).find? (fun u => s1.failedVreg u [tyA f] != none)).map (fun u =>
            (t, Disp.trap 0x16 (BitVec.ofNat 64 ((s1.failedVreg u [tyA f]).getD 0))))) = bad
    have hnil : bad = [] := by
      rw [← hbad, List.filterMap_eq_nil_iff]
      intro t ht
      rw [Option.map_eq_none_iff, List.find?_eq_none]
      intro u hu
      simp [hf t ht u hu]
    have hgood : (s.issueCtx i h c gid g).act.filter (fun t => !([] : List (Nat × Disp)).any (fun d => d.1 == t)) =
        (s.issueCtx i h c gid g).act := by
      rw [List.filter_eq_self]; intro t _; rfl
    simp only [he, Bool.false_eq_true, if_false, ho.2, hbad, hnil, hgood]
    rfl

/-! ### Draws (02 R52). -/

theorem drawn_lane (s : State) (ts : List Nat) (n u : Nat) (hn : ts.Nodup) :
    (s.drawn ts n).lane u = if u ∈ ts then { s.lane u with rng := (s.lane u).rng + BitVec.ofNat 24 n } else s.lane u :=
  foldl_modLane_lane ts (fun _ l => { l with rng := l.rng + BitVec.ofNat 24 n }) s u hn
theorem drawn_frame (s : State) (ts : List Nat) (n : Nat) : s.drawn ts n = { s with lanes := (s.drawn ts n).lanes } := by
  have := foldl_modLane_frame ts (fun _ l => { l with rng := l.rng + BitVec.ofNat 24 n }) s
  exact this
/-- An instruction that draws `n` numbers in each thread whose guard holds and writes its registers. -/
theorem draws_spec (s s1 : State) (i : Instr) (h : Hdr) (c gid : Nat) (g : Group)
    (body : Ctx → State → State × List (Nat × Disp)) (f : Nat → Lane → Lane) (v : Nat → Nat → Write W32) (n slot : Nat)
    (hc : Clear s i h c gid g) (hl : Looked s s1)
    (hb : body (s.issueCtx i h c gid g) s = ((s.issueCtx i h c gid g).act.foldl (fun s u => s.modLane u (f u)) s1, []))
    (hf : ∀ u ∈ (s.issueCtx i h c gid g).act,
      LaneWrites { s1.lane u with rng := (s1.lane u).rng + BitVec.ofNat 24 n } (f u (s1.lane u)) (v u) noWrites) :
    ∃ t, runInstr i s body = .next t ∧ Result (s1.drawn (s.issueCtx i h c gid g).act n) t i h gid g (s.byGuard h v)
      (s.byGuard h (fun _ => noWrites)) slot noWrites := by
  have hd := fun u => drawn_lane s1 (s.issueCtx i h c gid g).act n u (act_nodup s i h c gid g hc.stands.nodup)
  refine lanes_spec_from s s1 _ i h c gid g body f v (fun _ => noWrites) slot hc (hl.stands hc.stands) hb (drawn_frame ..)
    (fun u hu => by rw [hd, if_neg hu]) (fun u => by rw [hd]; split <;> exact ⟨rfl, rfl⟩) (fun u hu => ?_)
  rw [hd, if_pos hu]
  exact hf u hu

end Sys2Proof.Machine
end

