-- ==== Sys2Proof/Laws/Memory.lean ====
section
/-!
SUPPORT. Memory: every operation on it leaves the committed cells alone, what each stores is what the next read of the
step sees, and committing keeps the canonical form.
-/

namespace Sys2Proof.Machine

open State

theorem wf_reset : Memory.wf State.reset.mem := by decide

/-! ### The operations store through the list of the step's writes; the committed cells stay. -/

@[simp] theorem mem_storeByte (s : State) (a : Nat) (b : Byte) : (s.storeByte a b).mem = s.mem := rfl
@[simp] theorem mem_storeBytes (s : State) (a : Nat) (bs : List Byte) : (s.storeBytes a bs).mem = s.mem := by
  induction bs generalizing s a with
  | nil => rfl
  | cons b bs ih => simp [State.storeBytes, ih]
@[simp] theorem mem_storeCells (s : State) (a : Nat) (cs : List (Nat × Byte)) : (s.storeCells a cs).mem = s.mem := by
  unfold State.storeCells
  induction cs generalizing s with
  | nil => rfl
  | cons c cs ih => simp [ih]
@[simp] theorem mem_repair (s : State) (key n : Nat) : (s.repair key n).mem = s.mem := by
  unfold State.repair; split <;> rfl
@[simp] theorem mem_takeWrite (s : State) (line : Nat) : (s.takeWrite line).mem = s.mem := by
  have h := (looked_takeWrite s line).frame
  rw [h]
@[simp] theorem mem_takeWrites (s : State) (key n : Nat) : (s.takeWrites key n).mem = s.mem := by
  have h := (looked_foldl (fun s i => s.takeWrite (key / 128 + i)) (fun _ _ => looked_takeWrite _ _)
    (List.range ((key % 128 + n + 127) / 128)) s).frame
  unfold State.takeWrites
  rw [h]
@[simp] theorem mem_homeWrite (s : State) (key : Nat) (bs : List Byte) : (s.homeWrite key bs).mem = s.mem := by
  simp [State.homeWrite]
@[simp] theorem mem_homeCells (s : State) (line : Nat) (cs : List (Nat × Byte)) : (s.homeCells line cs).mem = s.mem := by
  unfold State.homeCells; dsimp only; split <;> simp
theorem wf_storeByte {s : State} (a : Nat) (b : Byte) (h : Memory.wf s.mem) : Memory.wf (s.storeByte a b).mem := h
theorem wf_storeBytes {s : State} (a : Nat) (bs : List Byte) (h : Memory.wf s.mem) : Memory.wf (s.storeBytes a bs).mem := by simpa
theorem wf_storeCells {s : State} (a : Nat) (cs : List (Nat × Byte)) (h : Memory.wf s.mem) : Memory.wf (s.storeCells a cs).mem := by simpa
theorem wf_homeWrite {s : State} (a : Nat) (bs : List Byte) (h : Memory.wf s.mem) : Memory.wf (s.homeWrite a bs).mem := by simpa
theorem wf_commit {m : Tab Byte} (t : State) (h : Memory.wf m) : Memory.wf (commit m t).mem := canonical_commitWrites m t.writes h

/-! ### What a read sees. -/

theorem byteAt_storeBytes (s : State) (a : Nat) (bs : List Byte) (x : Nat) :
    (s.storeBytes a bs).byteAt x = if a ≤ x ∧ x < a + bs.length then bs.getD (x - a) 0 else s.byteAt x := by
  induction bs generalizing s a with
  | nil =>
    have h : ¬ (a ≤ x ∧ x < a + ([] : List Byte).length) := by simp only [List.length_nil]; omega
    rw [if_neg h]; rfl
  | cons b bs ih =>
    rw [State.storeBytes, ih, byteAt_storeByte]
    simp only [List.length_cons]
    by_cases h : x = a
    · subst h
      rw [if_neg (by omega), if_pos rfl, if_pos (by omega), Nat.sub_self]; rfl
    · by_cases k : a + 1 ≤ x ∧ x < a + 1 + bs.length
      · rw [if_pos k, if_pos (by omega), show x - a = x - (a + 1) + 1 by omega]; rfl
      · rw [if_neg k, if_neg h, if_neg (by omega)]
theorem byteAt_repair (s : State) (key n x : Nat) : (s.repair key n).byteAt x = s.byteAt x := by
  unfold State.repair; split <;> rfl
theorem byteAt_touchL2 (s : State) (line x : Nat) : (s.touchL2 line).byteAt x = s.byteAt x := by
  unfold State.touchL2
  simp only []
  split <;> rfl
theorem byteAt_takeWrite (s : State) (line x : Nat) : (s.takeWrite line).byteAt x = s.byteAt x := by
  rw [← byteAt_touchL2 s line x]
  show ((s.touchL2 line).dropHost line).byteAt x = _
  unfold State.dropHost
  split <;> rfl
theorem byteAt_takeWrites (s : State) (key n x : Nat) : (s.takeWrites key n).byteAt x = s.byteAt x := by
  unfold State.takeWrites
  generalize List.range ((key % 128 + n + 127) / 128) = l
  induction l generalizing s with
  | nil => rfl
  | cons i l ih => rw [List.foldl_cons, ih, byteAt_takeWrite]
theorem byteAt_homeWrite (s : State) (a : Nat) (bs : List Byte) (x : Nat) :
    (s.homeWrite a bs).byteAt x = if a ≤ x ∧ x < a + bs.length then bs.getD (x - a) 0 else s.byteAt x := by
  rw [State.homeWrite, byteAt_takeWrites, byteAt_repair, byteAt_storeBytes]
/-- A store outside the read byte leaves it. -/
theorem byteAt_homeWrite_of_out (s : State) (a : Nat) (bs : List Byte) {x : Nat} (h : x < a ∨ a + bs.length ≤ x) :
    (s.homeWrite a bs).byteAt x = s.byteAt x := by
  rw [byteAt_homeWrite, if_neg (by omega)]
theorem byteAt_storeCells_of_out (s : State) (a : Nat) (cs : List (Nat × Byte)) {x : Nat} (h : ∀ c ∈ cs, a + c.1 ≠ x) :
    (s.storeCells a cs).byteAt x = s.byteAt x := by
  unfold State.storeCells
  induction cs generalizing s with
  | nil => rfl
  | cons c cs ih =>
    rw [List.foldl_cons, ih _ (fun d hd => h d (List.mem_cons_of_mem _ hd)), byteAt_storeByte,
      if_neg (fun e => h c List.mem_cons_self e.symm)]
/-- After a step, memory reads as the step's own reads saw it. -/
theorem byteAt_commit (s : State) : (commit s.mem s).byteAt = s.byteAt := by
  funext x
  simp only [State.byteAt, commit, List.find?_nil]
  exact tget_commitWrites s.mem s.writes x

end Sys2Proof.Machine
end

