-- ==== Sys2Proof/Laws/PerInstr.lean ====
section
/-!
SUPPORT. Per instruction: decoding the word that the encoder makes gives the instruction back. An event has no word.
-/

namespace Sys2Proof.Laws.RoundTrip

def Statement (i : Instr) : Prop :=
  ∀ w, encode i = some w → ((∃ u, i = .illegalInstruction u) → i.wellFormed = true) → decodeSlot w = i

/-- A word of no assigned opcode decodes to no instruction (03 R94). -/
theorem decode_unassigned (w : Slot) (h : w.toNat / 2 ^ 86 ∉ Instr.wellFormed.assigned) : decodeSlot w = .illegalInstruction w := by
  have ho : opcodeOf w = w.toNat / 2 ^ 86 := by
    have := w.isLt
    simp [opcodeOf, BitVec.extractLsb'_toNat, Nat.shiftRight_eq_div_pow]
    omega
  rw [← ho] at h
  unfold decodeSlot
  simp only []
  split <;> try rfl
  all_goals
    rename_i hc
    simp only [decodeControl, decodeInteger, decodeLogic, decodeFloat, decodeSpecial, decodeLanes, decodeScalar,
      decodeMemory, decodeAtomics, decodeSync, decodeMatrix, decodeEngines, decodePopulation, decodeSystem]
    split <;> first
      | rfl
      | (rename_i hf
         exfalso
         apply h
         have hd := Nat.div_add_mod (opcodeOf w) 64
         rw [hc, hf] at hd
         rw [← hd]
         decide)

theorem nop (h : Hdr) (f : FmtC) : Statement (.nop h f) := fun w hw _ => by
  injection hw with hw; subst hw; simp [decodeSlot, opcodeOf_slot, decodeControl, hdrOf_slot, fmtCOf_slot]
theorem bra (h : Hdr) (f : FmtC) : Statement (.bra h f) := fun w hw _ => by
  injection hw with hw; subst hw; simp [decodeSlot, opcodeOf_slot, decodeControl, hdrOf_slot, fmtCOf_slot]
theorem brx (h : Hdr) (f : FmtC) : Statement (.brx h f) := fun w hw _ => by
  injection hw with hw; subst hw; simp [decodeSlot, opcodeOf_slot, decodeControl, hdrOf_slot, fmtCOf_slot]
theorem brs (h : Hdr) (f : FmtC) : Statement (.brs h f) := fun w hw _ => by
  injection hw with hw; subst hw; simp [decodeSlot, opcodeOf_slot, decodeControl, hdrOf_slot, fmtCOf_slot]
theorem call (h : Hdr) (f : FmtC) : Statement (.call h f) := fun w hw _ => by
  injection hw with hw; subst hw; simp [decodeSlot, opcodeOf_slot, decodeControl, hdrOf_slot, fmtCOf_slot]
theorem ret (h : Hdr) (f : FmtC) : Statement (.ret h f) := fun w hw _ => by
  injection hw with hw; subst hw; simp [decodeSlot, opcodeOf_slot, decodeControl, hdrOf_slot, fmtCOf_slot]
theorem exit (h : Hdr) (f : FmtC) : Statement (.exit h f) := fun w hw _ => by
  injection hw with hw; subst hw; simp [decodeSlot, opcodeOf_slot, decodeControl, hdrOf_slot, fmtCOf_slot]
theorem yield (h : Hdr) (f : FmtC) : Statement (.yield h f) := fun w hw _ => by
  injection hw with hw; subst hw; simp [decodeSlot, opcodeOf_slot, decodeControl, hdrOf_slot, fmtCOf_slot]
theorem sleep (h : Hdr) (f : FmtC) : Statement (.sleep h f) := fun w hw _ => by
  injection hw with hw; subst hw; simp [decodeSlot, opcodeOf_slot, decodeControl, hdrOf_slot, fmtCOf_slot]
theorem trap (h : Hdr) (f : FmtC) : Statement (.trap h f) := fun w hw _ => by
  injection hw with hw; subst hw; simp [decodeSlot, opcodeOf_slot, decodeControl, hdrOf_slot, fmtCOf_slot]
theorem iadd (h : Hdr) (f : FmtA) : Statement (.iadd h f) := fun w hw _ => by
  injection hw with hw; subst hw; simp [decodeSlot, opcodeOf_slot, decodeInteger, hdrOf_slot, fmtAOf_slot]
theorem isub (h : Hdr) (f : FmtA) : Statement (.isub h f) := fun w hw _ => by
  injection hw with hw; subst hw; simp [decodeSlot, opcodeOf_slot, decodeInteger, hdrOf_slot, fmtAOf_slot]
theorem iaddx (h : Hdr) (f : FmtA) : Statement (.iaddx h f) := fun w hw _ => by
  injection hw with hw; subst hw; simp [decodeSlot, opcodeOf_slot, decodeInteger, hdrOf_slot, fmtAOf_slot]
theorem isubx (h : Hdr) (f : FmtA) : Statement (.isubx h f) := fun w hw _ => by
  injection hw with hw; subst hw; simp [decodeSlot, opcodeOf_slot, decodeInteger, hdrOf_slot, fmtAOf_slot]
theorem imul (h : Hdr) (f : FmtA) : Statement (.imul h f) := fun w hw _ => by
  injection hw with hw; subst hw; simp [decodeSlot, opcodeOf_slot, decodeInteger, hdrOf_slot, fmtAOf_slot]
theorem imulh (h : Hdr) (f : FmtA) : Statement (.imulh h f) := fun w hw _ => by
  injection hw with hw; subst hw; simp [decodeSlot, opcodeOf_slot, decodeInteger, hdrOf_slot, fmtAOf_slot]
theorem imad (h : Hdr) (f : FmtA) : Statement (.imad h f) := fun w hw _ => by
  injection hw with hw; subst hw; simp [decodeSlot, opcodeOf_slot, decodeInteger, hdrOf_slot, fmtAOf_slot]
theorem imadw (h : Hdr) (f : FmtA) : Statement (.imadw h f) := fun w hw _ => by
  injection hw with hw; subst hw; simp [decodeSlot, opcodeOf_slot, decodeInteger, hdrOf_slot, fmtAOf_slot]
theorem imin (h : Hdr) (f : FmtA) : Statement (.imin h f) := fun w hw _ => by
  injection hw with hw; subst hw; simp [decodeSlot, opcodeOf_slot, decodeInteger, hdrOf_slot, fmtAOf_slot]
theorem imax (h : Hdr) (f : FmtA) : Statement (.imax h f) := fun w hw _ => by
  injection hw with hw; subst hw; simp [decodeSlot, opcodeOf_slot, decodeInteger, hdrOf_slot, fmtAOf_slot]
theorem iabs (h : Hdr) (f : FmtA) : Statement (.iabs h f) := fun w hw _ => by
  injection hw with hw; subst hw; simp [decodeSlot, opcodeOf_slot, decodeInteger, hdrOf_slot, fmtAOf_slot]
theorem ineg (h : Hdr) (f : FmtA) : Statement (.ineg h f) := fun w hw _ => by
  injection hw with hw; subst hw; simp [decodeSlot, opcodeOf_slot, decodeInteger, hdrOf_slot, fmtAOf_slot]
theorem idot4 (h : Hdr) (f : FmtA) : Statement (.idot4 h f) := fun w hw _ => by
  injection hw with hw; subst hw; simp [decodeSlot, opcodeOf_slot, decodeInteger, hdrOf_slot, fmtAOf_slot]
theorem isad (h : Hdr) (f : FmtA) : Statement (.isad h f) := fun w hw _ => by
  injection hw with hw; subst hw; simp [decodeSlot, opcodeOf_slot, decodeInteger, hdrOf_slot, fmtAOf_slot]
theorem and (h : Hdr) (f : FmtA) : Statement (.and h f) := fun w hw _ => by
  injection hw with hw; subst hw; simp [decodeSlot, opcodeOf_slot, decodeLogic, hdrOf_slot, fmtAOf_slot]
theorem or (h : Hdr) (f : FmtA) : Statement (.or h f) := fun w hw _ => by
  injection hw with hw; subst hw; simp [decodeSlot, opcodeOf_slot, decodeLogic, hdrOf_slot, fmtAOf_slot]
theorem xor (h : Hdr) (f : FmtA) : Statement (.xor h f) := fun w hw _ => by
  injection hw with hw; subst hw; simp [decodeSlot, opcodeOf_slot, decodeLogic, hdrOf_slot, fmtAOf_slot]
theorem andn (h : Hdr) (f : FmtA) : Statement (.andn h f) := fun w hw _ => by
  injection hw with hw; subst hw; simp [decodeSlot, opcodeOf_slot, decodeLogic, hdrOf_slot, fmtAOf_slot]
theorem not (h : Hdr) (f : FmtA) : Statement (.not h f) := fun w hw _ => by
  injection hw with hw; subst hw; simp [decodeSlot, opcodeOf_slot, decodeLogic, hdrOf_slot, fmtAOf_slot]
theorem blog (h : Hdr) (f : FmtA) : Statement (.blog h f) := fun w hw _ => by
  injection hw with hw; subst hw; simp [decodeSlot, opcodeOf_slot, decodeLogic, hdrOf_slot, fmtAOf_slot]
theorem shl (h : Hdr) (f : FmtA) : Statement (.shl h f) := fun w hw _ => by
  injection hw with hw; subst hw; simp [decodeSlot, opcodeOf_slot, decodeLogic, hdrOf_slot, fmtAOf_slot]
theorem shr (h : Hdr) (f : FmtA) : Statement (.shr h f) := fun w hw _ => by
  injection hw with hw; subst hw; simp [decodeSlot, opcodeOf_slot, decodeLogic, hdrOf_slot, fmtAOf_slot]
theorem sar (h : Hdr) (f : FmtA) : Statement (.sar h f) := fun w hw _ => by
  injection hw with hw; subst hw; simp [decodeSlot, opcodeOf_slot, decodeLogic, hdrOf_slot, fmtAOf_slot]
theorem rot (h : Hdr) (f : FmtA) : Statement (.rot h f) := fun w hw _ => by
  injection hw with hw; subst hw; simp [decodeSlot, opcodeOf_slot, decodeLogic, hdrOf_slot, fmtAOf_slot]
theorem fshf (h : Hdr) (f : FmtA) : Statement (.fshf h f) := fun w hw _ => by
  injection hw with hw; subst hw; simp [decodeSlot, opcodeOf_slot, decodeLogic, hdrOf_slot, fmtAOf_slot]
theorem bfe (h : Hdr) (f : FmtA) : Statement (.bfe h f) := fun w hw _ => by
  injection hw with hw; subst hw; simp [decodeSlot, opcodeOf_slot, decodeLogic, hdrOf_slot, fmtAOf_slot]
theorem bfi (h : Hdr) (f : FmtA) : Statement (.bfi h f) := fun w hw _ => by
  injection hw with hw; subst hw; simp [decodeSlot, opcodeOf_slot, decodeLogic, hdrOf_slot, fmtAOf_slot]
theorem popc (h : Hdr) (f : FmtA) : Statement (.popc h f) := fun w hw _ => by
  injection hw with hw; subst hw; simp [decodeSlot, opcodeOf_slot, decodeLogic, hdrOf_slot, fmtAOf_slot]
theorem clz (h : Hdr) (f : FmtA) : Statement (.clz h f) := fun w hw _ => by
  injection hw with hw; subst hw; simp [decodeSlot, opcodeOf_slot, decodeLogic, hdrOf_slot, fmtAOf_slot]
theorem brev (h : Hdr) (f : FmtA) : Statement (.brev h f) := fun w hw _ => by
  injection hw with hw; subst hw; simp [decodeSlot, opcodeOf_slot, decodeLogic, hdrOf_slot, fmtAOf_slot]
theorem icmp (h : Hdr) (f : FmtA) : Statement (.icmp h f) := fun w hw _ => by
  injection hw with hw; subst hw; simp [decodeSlot, opcodeOf_slot, decodeLogic, hdrOf_slot, fmtAOf_slot]
theorem isel (h : Hdr) (f : FmtA) : Statement (.isel h f) := fun w hw _ => by
  injection hw with hw; subst hw; simp [decodeSlot, opcodeOf_slot, decodeLogic, hdrOf_slot, fmtAOf_slot]
theorem plop (h : Hdr) (f : FmtA) : Statement (.plop h f) := fun w hw _ => by
  injection hw with hw; subst hw; simp [decodeSlot, opcodeOf_slot, decodeLogic, hdrOf_slot, fmtAOf_slot]
theorem lea (h : Hdr) (f : FmtA) : Statement (.lea h f) := fun w hw _ => by
  injection hw with hw; subst hw; simp [decodeSlot, opcodeOf_slot, decodeLogic, hdrOf_slot, fmtAOf_slot]
theorem mov (h : Hdr) (f : FmtA) : Statement (.mov h f) := fun w hw _ => by
  injection hw with hw; subst hw; simp [decodeSlot, opcodeOf_slot, decodeLogic, hdrOf_slot, fmtAOf_slot]
theorem movi (h : Hdr) (f : FmtI) : Statement (.movi h f) := fun w hw _ => by
  injection hw with hw; subst hw; simp [decodeSlot, opcodeOf_slot, decodeLogic, hdrOf_slot, fmtIOf_slot]
theorem bswz (h : Hdr) (f : FmtA) : Statement (.bswz h f) := fun w hw _ => by
  injection hw with hw; subst hw; simp [decodeSlot, opcodeOf_slot, decodeLogic, hdrOf_slot, fmtAOf_slot]
theorem fadd (h : Hdr) (f : FmtA) : Statement (.fadd h f) := fun w hw _ => by
  injection hw with hw; subst hw; simp [decodeSlot, opcodeOf_slot, decodeFloat, hdrOf_slot, fmtAOf_slot]
theorem fmul (h : Hdr) (f : FmtA) : Statement (.fmul h f) := fun w hw _ => by
  injection hw with hw; subst hw; simp [decodeSlot, opcodeOf_slot, decodeFloat, hdrOf_slot, fmtAOf_slot]
theorem ffma (h : Hdr) (f : FmtA) : Statement (.ffma h f) := fun w hw _ => by
  injection hw with hw; subst hw; simp [decodeSlot, opcodeOf_slot, decodeFloat, hdrOf_slot, fmtAOf_slot]
theorem fmin (h : Hdr) (f : FmtA) : Statement (.fmin h f) := fun w hw _ => by
  injection hw with hw; subst hw; simp [decodeSlot, opcodeOf_slot, decodeFloat, hdrOf_slot, fmtAOf_slot]
theorem fmax (h : Hdr) (f : FmtA) : Statement (.fmax h f) := fun w hw _ => by
  injection hw with hw; subst hw; simp [decodeSlot, opcodeOf_slot, decodeFloat, hdrOf_slot, fmtAOf_slot]
theorem fcmp (h : Hdr) (f : FmtA) : Statement (.fcmp h f) := fun w hw _ => by
  injection hw with hw; subst hw; simp [decodeSlot, opcodeOf_slot, decodeFloat, hdrOf_slot, fmtAOf_slot]
theorem fclass (h : Hdr) (f : FmtA) : Statement (.fclass h f) := fun w hw _ => by
  injection hw with hw; subst hw; simp [decodeSlot, opcodeOf_slot, decodeFloat, hdrOf_slot, fmtAOf_slot]
theorem fdot2 (h : Hdr) (f : FmtA) : Statement (.fdot2 h f) := fun w hw _ => by
  injection hw with hw; subst hw; simp [decodeSlot, opcodeOf_slot, decodeFloat, hdrOf_slot, fmtAOf_slot]
theorem fscale (h : Hdr) (f : FmtA) : Statement (.fscale h f) := fun w hw _ => by
  injection hw with hw; subst hw; simp [decodeSlot, opcodeOf_slot, decodeFloat, hdrOf_slot, fmtAOf_slot]
theorem frcp (h : Hdr) (f : FmtA) : Statement (.frcp h f) := fun w hw _ => by
  injection hw with hw; subst hw; simp [decodeSlot, opcodeOf_slot, decodeSpecial, hdrOf_slot, fmtAOf_slot]
theorem frsq (h : Hdr) (f : FmtA) : Statement (.frsq h f) := fun w hw _ => by
  injection hw with hw; subst hw; simp [decodeSlot, opcodeOf_slot, decodeSpecial, hdrOf_slot, fmtAOf_slot]
theorem fsqrt (h : Hdr) (f : FmtA) : Statement (.fsqrt h f) := fun w hw _ => by
  injection hw with hw; subst hw; simp [decodeSlot, opcodeOf_slot, decodeSpecial, hdrOf_slot, fmtAOf_slot]
theorem fdiv (h : Hdr) (f : FmtA) : Statement (.fdiv h f) := fun w hw _ => by
  injection hw with hw; subst hw; simp [decodeSlot, opcodeOf_slot, decodeSpecial, hdrOf_slot, fmtAOf_slot]
theorem fex2 (h : Hdr) (f : FmtA) : Statement (.fex2 h f) := fun w hw _ => by
  injection hw with hw; subst hw; simp [decodeSlot, opcodeOf_slot, decodeSpecial, hdrOf_slot, fmtAOf_slot]
theorem flg2 (h : Hdr) (f : FmtA) : Statement (.flg2 h f) := fun w hw _ => by
  injection hw with hw; subst hw; simp [decodeSlot, opcodeOf_slot, decodeSpecial, hdrOf_slot, fmtAOf_slot]
theorem fsin (h : Hdr) (f : FmtA) : Statement (.fsin h f) := fun w hw _ => by
  injection hw with hw; subst hw; simp [decodeSlot, opcodeOf_slot, decodeSpecial, hdrOf_slot, fmtAOf_slot]
theorem fcos (h : Hdr) (f : FmtA) : Statement (.fcos h f) := fun w hw _ => by
  injection hw with hw; subst hw; simp [decodeSlot, opcodeOf_slot, decodeSpecial, hdrOf_slot, fmtAOf_slot]
theorem ftanh (h : Hdr) (f : FmtA) : Statement (.ftanh h f) := fun w hw _ => by
  injection hw with hw; subst hw; simp [decodeSlot, opcodeOf_slot, decodeSpecial, hdrOf_slot, fmtAOf_slot]
theorem frnd (h : Hdr) (f : FmtA) : Statement (.frnd h f) := fun w hw _ => by
  injection hw with hw; subst hw; simp [decodeSlot, opcodeOf_slot, decodeSpecial, hdrOf_slot, fmtAOf_slot]
theorem cvt (h : Hdr) (f : FmtA) : Statement (.cvt h f) := fun w hw _ => by
  injection hw with hw; subst hw; simp [decodeSlot, opcodeOf_slot, decodeSpecial, hdrOf_slot, fmtAOf_slot]
theorem cvtn (h : Hdr) (f : FmtA) : Statement (.cvtn h f) := fun w hw _ => by
  injection hw with hw; subst hw; simp [decodeSlot, opcodeOf_slot, decodeSpecial, hdrOf_slot, fmtAOf_slot]
theorem pack (h : Hdr) (f : FmtA) : Statement (.pack h f) := fun w hw _ => by
  injection hw with hw; subst hw; simp [decodeSlot, opcodeOf_slot, decodeSpecial, hdrOf_slot, fmtAOf_slot]
theorem unpk (h : Hdr) (f : FmtA) : Statement (.unpk h f) := fun w hw _ => by
  injection hw with hw; subst hw; simp [decodeSlot, opcodeOf_slot, decodeSpecial, hdrOf_slot, fmtAOf_slot]
theorem lxch (h : Hdr) (f : FmtA) : Statement (.lxch h f) := fun w hw _ => by
  injection hw with hw; subst hw; simp [decodeSlot, opcodeOf_slot, decodeLanes, hdrOf_slot, fmtAOf_slot]
theorem cons (h : Hdr) (f : FmtA) : Statement (.cons h f) := fun w hw _ => by
  injection hw with hw; subst hw; simp [decodeSlot, opcodeOf_slot, decodeLanes, hdrOf_slot, fmtAOf_slot]
theorem pmask (h : Hdr) (f : FmtA) : Statement (.pmask h f) := fun w hw _ => by
  injection hw with hw; subst hw; simp [decodeSlot, opcodeOf_slot, decodeLanes, hdrOf_slot, fmtAOf_slot]
theorem redux (h : Hdr) (f : FmtA) : Statement (.redux h f) := fun w hw _ => by
  injection hw with hw; subst hw; simp [decodeSlot, opcodeOf_slot, decodeLanes, hdrOf_slot, fmtAOf_slot]
theorem scan (h : Hdr) (f : FmtA) : Statement (.scan h f) := fun w hw _ => by
  injection hw with hw; subst hw; simp [decodeSlot, opcodeOf_slot, decodeLanes, hdrOf_slot, fmtAOf_slot]
theorem eqmask (h : Hdr) (f : FmtA) : Statement (.eqmask h f) := fun w hw _ => by
  injection hw with hw; subst hw; simp [decodeSlot, opcodeOf_slot, decodeLanes, hdrOf_slot, fmtAOf_slot]
theorem bcast (h : Hdr) (f : FmtA) : Statement (.bcast h f) := fun w hw _ => by
  injection hw with hw; subst hw; simp [decodeSlot, opcodeOf_slot, decodeLanes, hdrOf_slot, fmtAOf_slot]
theorem smov (h : Hdr) (f : FmtA) : Statement (.smov h f) := fun w hw _ => by
  injection hw with hw; subst hw; simp [decodeSlot, opcodeOf_slot, decodeScalar, hdrOf_slot, fmtAOf_slot]
theorem smovi (h : Hdr) (f : FmtI) : Statement (.smovi h f) := fun w hw _ => by
  injection hw with hw; subst hw; simp [decodeSlot, opcodeOf_slot, decodeScalar, hdrOf_slot, fmtIOf_slot]
theorem sadd (h : Hdr) (f : FmtA) : Statement (.sadd h f) := fun w hw _ => by
  injection hw with hw; subst hw; simp [decodeSlot, opcodeOf_slot, decodeScalar, hdrOf_slot, fmtAOf_slot]
theorem ssub (h : Hdr) (f : FmtA) : Statement (.ssub h f) := fun w hw _ => by
  injection hw with hw; subst hw; simp [decodeSlot, opcodeOf_slot, decodeScalar, hdrOf_slot, fmtAOf_slot]
theorem smul (h : Hdr) (f : FmtA) : Statement (.smul h f) := fun w hw _ => by
  injection hw with hw; subst hw; simp [decodeSlot, opcodeOf_slot, decodeScalar, hdrOf_slot, fmtAOf_slot]
theorem smad (h : Hdr) (f : FmtA) : Statement (.smad h f) := fun w hw _ => by
  injection hw with hw; subst hw; simp [decodeSlot, opcodeOf_slot, decodeScalar, hdrOf_slot, fmtAOf_slot]
theorem sand (h : Hdr) (f : FmtA) : Statement (.sand h f) := fun w hw _ => by
  injection hw with hw; subst hw; simp [decodeSlot, opcodeOf_slot, decodeScalar, hdrOf_slot, fmtAOf_slot]
theorem sor (h : Hdr) (f : FmtA) : Statement (.sor h f) := fun w hw _ => by
  injection hw with hw; subst hw; simp [decodeSlot, opcodeOf_slot, decodeScalar, hdrOf_slot, fmtAOf_slot]
theorem sxor (h : Hdr) (f : FmtA) : Statement (.sxor h f) := fun w hw _ => by
  injection hw with hw; subst hw; simp [decodeSlot, opcodeOf_slot, decodeScalar, hdrOf_slot, fmtAOf_slot]
theorem sshl (h : Hdr) (f : FmtA) : Statement (.sshl h f) := fun w hw _ => by
  injection hw with hw; subst hw; simp [decodeSlot, opcodeOf_slot, decodeScalar, hdrOf_slot, fmtAOf_slot]
theorem sshr (h : Hdr) (f : FmtA) : Statement (.sshr h f) := fun w hw _ => by
  injection hw with hw; subst hw; simp [decodeSlot, opcodeOf_slot, decodeScalar, hdrOf_slot, fmtAOf_slot]
theorem scmp (h : Hdr) (f : FmtA) : Statement (.scmp h f) := fun w hw _ => by
  injection hw with hw; subst hw; simp [decodeSlot, opcodeOf_slot, decodeScalar, hdrOf_slot, fmtAOf_slot]
theorem ssel (h : Hdr) (f : FmtA) : Statement (.ssel h f) := fun w hw _ => by
  injection hw with hw; subst hw; simp [decodeSlot, opcodeOf_slot, decodeScalar, hdrOf_slot, fmtAOf_slot]
theorem sld (h : Hdr) (f : FmtM) : Statement (.sld h f) := fun w hw _ => by
  injection hw with hw; subst hw; simp [decodeSlot, opcodeOf_slot, decodeScalar, hdrOf_slot, fmtMOf_slot]
theorem sst (h : Hdr) (f : FmtM) : Statement (.sst h f) := fun w hw _ => by
  injection hw with hw; subst hw; simp [decodeSlot, opcodeOf_slot, decodeScalar, hdrOf_slot, fmtMOf_slot]
theorem rdlane (h : Hdr) (f : FmtA) : Statement (.rdlane h f) := fun w hw _ => by
  injection hw with hw; subst hw; simp [decodeSlot, opcodeOf_slot, decodeScalar, hdrOf_slot, fmtAOf_slot]
theorem srd (h : Hdr) (f : FmtA) : Statement (.srd h f) := fun w hw _ => by
  injection hw with hw; subst hw; simp [decodeSlot, opcodeOf_slot, decodeScalar, hdrOf_slot, fmtAOf_slot]
theorem ld (h : Hdr) (f : FmtM) : Statement (.ld h f) := fun w hw _ => by
  injection hw with hw; subst hw; simp [decodeSlot, opcodeOf_slot, decodeMemory, hdrOf_slot, fmtMOf_slot]
theorem st (h : Hdr) (f : FmtM) : Statement (.st h f) := fun w hw _ => by
  injection hw with hw; subst hw; simp [decodeSlot, opcodeOf_slot, decodeMemory, hdrOf_slot, fmtMOf_slot]
theorem ldf (h : Hdr) (f : FmtM) : Statement (.ldf h f) := fun w hw _ => by
  injection hw with hw; subst hw; simp [decodeSlot, opcodeOf_slot, decodeMemory, hdrOf_slot, fmtMOf_slot]
theorem stf (h : Hdr) (f : FmtM) : Statement (.stf h f) := fun w hw _ => by
  injection hw with hw; subst hw; simp [decodeSlot, opcodeOf_slot, decodeMemory, hdrOf_slot, fmtMOf_slot]
theorem lds (h : Hdr) (f : FmtM) : Statement (.lds h f) := fun w hw _ => by
  injection hw with hw; subst hw; simp [decodeSlot, opcodeOf_slot, decodeMemory, hdrOf_slot, fmtMOf_slot]
theorem sts (h : Hdr) (f : FmtM) : Statement (.sts h f) := fun w hw _ => by
  injection hw with hw; subst hw; simp [decodeSlot, opcodeOf_slot, decodeMemory, hdrOf_slot, fmtMOf_slot]
theorem ldc (h : Hdr) (f : FmtM) : Statement (.ldc h f) := fun w hw _ => by
  injection hw with hw; subst hw; simp [decodeSlot, opcodeOf_slot, decodeMemory, hdrOf_slot, fmtMOf_slot]
theorem pref (h : Hdr) (f : FmtM) : Statement (.pref h f) := fun w hw _ => by
  injection hw with hw; subst hw; simp [decodeSlot, opcodeOf_slot, decodeMemory, hdrOf_slot, fmtMOf_slot]
theorem cctl (h : Hdr) (f : FmtM) : Statement (.cctl h f) := fun w hw _ => by
  injection hw with hw; subst hw; simp [decodeSlot, opcodeOf_slot, decodeMemory, hdrOf_slot, fmtMOf_slot]
theorem atom (h : Hdr) (f : FmtM) : Statement (.atom h f) := fun w hw _ => by
  injection hw with hw; subst hw; simp [decodeSlot, opcodeOf_slot, decodeAtomics, hdrOf_slot, fmtMOf_slot]
theorem cas (h : Hdr) (f : FmtM) : Statement (.cas h f) := fun w hw _ => by
  injection hw with hw; subst hw; simp [decodeSlot, opcodeOf_slot, decodeAtomics, hdrOf_slot, fmtMOf_slot]
theorem red (h : Hdr) (f : FmtM) : Statement (.red h f) := fun w hw _ => by
  injection hw with hw; subst hw; simp [decodeSlot, opcodeOf_slot, decodeAtomics, hdrOf_slot, fmtMOf_slot]
theorem atoms (h : Hdr) (f : FmtM) : Statement (.atoms h f) := fun w hw _ => by
  injection hw with hw; subst hw; simp [decodeSlot, opcodeOf_slot, decodeAtomics, hdrOf_slot, fmtMOf_slot]
theorem cass (h : Hdr) (f : FmtM) : Statement (.cass h f) := fun w hw _ => by
  injection hw with hw; subst hw; simp [decodeSlot, opcodeOf_slot, decodeAtomics, hdrOf_slot, fmtMOf_slot]
theorem lse (h : Hdr) (f : FmtM) : Statement (.lse h f) := fun w hw _ => by
  injection hw with hw; subst hw; simp [decodeSlot, opcodeOf_slot, decodeAtomics, hdrOf_slot, fmtMOf_slot]
theorem stl (h : Hdr) (f : FmtM) : Statement (.stl h f) := fun w hw _ => by
  injection hw with hw; subst hw; simp [decodeSlot, opcodeOf_slot, decodeAtomics, hdrOf_slot, fmtMOf_slot]
theorem lsend (h : Hdr) (f : FmtM) : Statement (.lsend h f) := fun w hw _ => by
  injection hw with hw; subst hw; simp [decodeSlot, opcodeOf_slot, decodeAtomics, hdrOf_slot, fmtMOf_slot]
theorem mred (h : Hdr) (f : FmtX) : Statement (.mred h f) := fun w hw _ => by
  injection hw with hw; subst hw; simp [decodeSlot, opcodeOf_slot, decodeAtomics, hdrOf_slot, fmtXOf_slot]
theorem fence (h : Hdr) (f : FmtM) : Statement (.fence h f) := fun w hw _ => by
  injection hw with hw; subst hw; simp [decodeSlot, opcodeOf_slot, decodeSync, hdrOf_slot, fmtMOf_slot]
theorem bar (h : Hdr) (f : FmtC) : Statement (.bar h f) := fun w hw _ => by
  injection hw with hw; subst hw; simp [decodeSlot, opcodeOf_slot, decodeSync, hdrOf_slot, fmtCOf_slot]
theorem bara (h : Hdr) (f : FmtC) : Statement (.bara h f) := fun w hw _ => by
  injection hw with hw; subst hw; simp [decodeSlot, opcodeOf_slot, decodeSync, hdrOf_slot, fmtCOf_slot]
theorem wdecl (h : Hdr) (f : FmtC) : Statement (.wdecl h f) := fun w hw _ => by
  injection hw with hw; subst hw; simp [decodeSlot, opcodeOf_slot, decodeSync, hdrOf_slot, fmtCOf_slot]
theorem wsign (h : Hdr) (f : FmtC) : Statement (.wsign h f) := fun w hw _ => by
  injection hw with hw; subst hw; simp [decodeSlot, opcodeOf_slot, decodeSync, hdrOf_slot, fmtCOf_slot]
theorem wjoin (h : Hdr) (f : FmtC) : Statement (.wjoin h f) := fun w hw _ => by
  injection hw with hw; subst hw; simp [decodeSlot, opcodeOf_slot, decodeSync, hdrOf_slot, fmtCOf_slot]
theorem tkwait (h : Hdr) (f : FmtC) : Statement (.tkwait h f) := fun w hw _ => by
  injection hw with hw; subst hw; simp [decodeSlot, opcodeOf_slot, decodeSync, hdrOf_slot, fmtCOf_slot]
theorem rgn (h : Hdr) (f : FmtM) : Statement (.rgn h f) := fun w hw _ => by
  injection hw with hw; subst hw; simp [decodeSlot, opcodeOf_slot, decodeSync, hdrOf_slot, fmtMOf_slot]
theorem mld (h : Hdr) (f : FmtX) : Statement (.mld h f) := fun w hw _ => by
  injection hw with hw; subst hw; simp [decodeSlot, opcodeOf_slot, decodeMatrix, hdrOf_slot, fmtXOf_slot]
theorem mswp (h : Hdr) (f : FmtX) : Statement (.mswp h f) := fun w hw _ => by
  injection hw with hw; subst hw; simp [decodeSlot, opcodeOf_slot, decodeMatrix, hdrOf_slot, fmtXOf_slot]
theorem mma (h : Hdr) (f : FmtX) : Statement (.mma h f) := fun w hw _ => by
  injection hw with hw; subst hw; simp [decodeSlot, opcodeOf_slot, decodeMatrix, hdrOf_slot, fmtXOf_slot]
theorem mmap (h : Hdr) (f : FmtX) : Statement (.mmap h f) := fun w hw _ => by
  injection hw with hw; subst hw; simp [decodeSlot, opcodeOf_slot, decodeMatrix, hdrOf_slot, fmtXOf_slot]
theorem mguide (h : Hdr) (f : FmtX) : Statement (.mguide h f) := fun w hw _ => by
  injection hw with hw; subst hw; simp [decodeSlot, opcodeOf_slot, decodeMatrix, hdrOf_slot, fmtXOf_slot]
theorem accz (h : Hdr) (f : FmtX) : Statement (.accz h f) := fun w hw _ => by
  injection hw with hw; subst hw; simp [decodeSlot, opcodeOf_slot, decodeMatrix, hdrOf_slot, fmtXOf_slot]
theorem accrd (h : Hdr) (f : FmtX) : Statement (.accrd h f) := fun w hw _ => by
  injection hw with hw; subst hw; simp [decodeSlot, opcodeOf_slot, decodeMatrix, hdrOf_slot, fmtXOf_slot]
theorem accwr (h : Hdr) (f : FmtX) : Statement (.accwr h f) := fun w hw _ => by
  injection hw with hw; subst hw; simp [decodeSlot, opcodeOf_slot, decodeMatrix, hdrOf_slot, fmtXOf_slot]
theorem acc2s (h : Hdr) (f : FmtX) : Statement (.acc2s h f) := fun w hw _ => by
  injection hw with hw; subst hw; simp [decodeSlot, opcodeOf_slot, decodeMatrix, hdrOf_slot, fmtXOf_slot]
theorem scld (h : Hdr) (f : FmtX) : Statement (.scld h f) := fun w hw _ => by
  injection hw with hw; subst hw; simp [decodeSlot, opcodeOf_slot, decodeMatrix, hdrOf_slot, fmtXOf_slot]
theorem cpy (h : Hdr) (f : FmtX) : Statement (.cpy h f) := fun w hw _ => by
  injection hw with hw; subst hw; simp [decodeSlot, opcodeOf_slot, decodeEngines, hdrOf_slot, fmtXOf_slot]
theorem cpy2d (h : Hdr) (f : FmtX) : Statement (.cpy2d h f) := fun w hw _ => by
  injection hw with hw; subst hw; simp [decodeSlot, opcodeOf_slot, decodeEngines, hdrOf_slot, fmtXOf_slot]
theorem gath (h : Hdr) (f : FmtX) : Statement (.gath h f) := fun w hw _ => by
  injection hw with hw; subst hw; simp [decodeSlot, opcodeOf_slot, decodeEngines, hdrOf_slot, fmtXOf_slot]
theorem scat (h : Hdr) (f : FmtX) : Statement (.scat h f) := fun w hw _ => by
  injection hw with hw; subst hw; simp [decodeSlot, opcodeOf_slot, decodeEngines, hdrOf_slot, fmtXOf_slot]
theorem qdual (h : Hdr) (f : FmtX) : Statement (.qdual h f) := fun w hw _ => by
  injection hw with hw; subst hw; simp [decodeSlot, opcodeOf_slot, decodeEngines, hdrOf_slot, fmtXOf_slot]
theorem cast (h : Hdr) (f : FmtX) : Statement (.cast h f) := fun w hw _ => by
  injection hw with hw; subst hw; simp [decodeSlot, opcodeOf_slot, decodeEngines, hdrOf_slot, fmtXOf_slot]
theorem rsmp (h : Hdr) (f : FmtX) : Statement (.rsmp h f) := fun w hw _ => by
  injection hw with hw; subst hw; simp [decodeSlot, opcodeOf_slot, decodePopulation, hdrOf_slot, fmtXOf_slot]
theorem pdiss (h : Hdr) (f : FmtC) : Statement (.pdiss h f) := fun w hw _ => by
  injection hw with hw; subst hw; simp [decodeSlot, opcodeOf_slot, decodePopulation, hdrOf_slot, fmtCOf_slot]
theorem spawn (h : Hdr) (f : FmtC) : Statement (.spawn h f) := fun w hw _ => by
  injection hw with hw; subst hw; simp [decodeSlot, opcodeOf_slot, decodePopulation, hdrOf_slot, fmtCOf_slot]
theorem rng (h : Hdr) (f : FmtA) : Statement (.rng h f) := fun w hw _ => by
  injection hw with hw; subst hw; simp [decodeSlot, opcodeOf_slot, decodePopulation, hdrOf_slot, fmtAOf_slot]
theorem halt (h : Hdr) (f : FmtC) : Statement (.halt h f) := fun w hw _ => by
  injection hw with hw; subst hw; simp [decodeSlot, opcodeOf_slot, decodeSystem, hdrOf_slot, fmtCOf_slot]
theorem rtt (h : Hdr) (f : FmtC) : Statement (.rtt h f) := fun w hw _ => by
  injection hw with hw; subst hw; simp [decodeSlot, opcodeOf_slot, decodeSystem, hdrOf_slot, fmtCOf_slot]
theorem csrr (h : Hdr) (f : FmtM) : Statement (.csrr h f) := fun w hw _ => by
  injection hw with hw; subst hw; simp [decodeSlot, opcodeOf_slot, decodeSystem, hdrOf_slot, fmtMOf_slot]
theorem csrw (h : Hdr) (f : FmtM) : Statement (.csrw h f) := fun w hw _ => by
  injection hw with hw; subst hw; simp [decodeSlot, opcodeOf_slot, decodeSystem, hdrOf_slot, fmtMOf_slot]
theorem tinv (h : Hdr) (f : FmtM) : Statement (.tinv h f) := fun w hw _ => by
  injection hw with hw; subst hw; simp [decodeSlot, opcodeOf_slot, decodeSystem, hdrOf_slot, fmtMOf_slot]
theorem pmig (h : Hdr) (f : FmtM) : Statement (.pmig h f) := fun w hw _ => by
  injection hw with hw; subst hw; simp [decodeSlot, opcodeOf_slot, decodeSystem, hdrOf_slot, fmtMOf_slot]
theorem dbrk (h : Hdr) (f : FmtC) : Statement (.dbrk h f) := fun w hw _ => by
  injection hw with hw; subst hw; simp [decodeSlot, opcodeOf_slot, decodeSystem, hdrOf_slot, fmtCOf_slot]
theorem releaseRecordRegister (msg : Nat) : Statement (.releaseRecordRegister msg) := fun _ hw _ => nomatch hw
theorem drainProbe (msg : Nat) : Statement (.drainProbe msg) := fun _ hw _ => nomatch hw
theorem drainAck (msg : Nat) : Statement (.drainAck msg) := fun _ hw _ => nomatch hw
theorem writeBackAck (msg : Nat) : Statement (.writeBackAck msg) := fun _ hw _ => nomatch hw
theorem coreLeave (core : Nat) : Statement (.coreLeave core) := fun _ hw _ => nomatch hw
theorem coreJoin (core : Nat) : Statement (.coreJoin core) := fun _ hw _ => nomatch hw
theorem leaseGrant (line : Nat) : Statement (.leaseGrant line) := fun _ hw _ => nomatch hw
theorem leaseExpiry (core line : Nat) : Statement (.leaseExpiry core line) := fun _ hw _ => nomatch hw
theorem leaseWriteThrough (msg : Nat) : Statement (.leaseWriteThrough msg) := fun _ hw _ => nomatch hw
theorem leaseRevocation (line : Nat) : Statement (.leaseRevocation line) := fun _ hw _ => nomatch hw
theorem revocationNotice (msg : Nat) : Statement (.revocationNotice msg) := fun _ hw _ => nomatch hw
theorem implicitLeaseEnd (core line : Nat) : Statement (.implicitLeaseEnd core line) := fun _ hw _ => nomatch hw
theorem timeSyncCheck (core : Nat) : Statement (.timeSyncCheck core) := fun _ hw _ => nomatch hw
theorem timeSyncReload (core : Nat) : Statement (.timeSyncReload core) := fun _ hw _ => nomatch hw
theorem redRouterHoldExpiry (msg : Nat) : Statement (.redRouterHoldExpiry msg) := fun _ hw _ => nomatch hw
theorem redHomeApply (msg : Nat) : Statement (.redHomeApply msg) := fun _ hw _ => nomatch hw
theorem regionDrain (msg : Nat) : Statement (.regionDrain msg) := fun _ hw _ => nomatch hw
theorem regionTransitionApply (region : Nat) : Statement (.regionTransitionApply region) := fun _ hw _ => nomatch hw
theorem pageFaultRecord (core : Nat) : Statement (.pageFaultRecord core) := fun _ hw _ => nomatch hw
theorem unpark (record : Nat) : Statement (.unpark record) := fun _ hw _ => nomatch hw
theorem deliverPageFault (record : Nat) : Statement (.deliverPageFault record) := fun _ hw _ => nomatch hw
theorem migrationStart (mig : Nat) : Statement (.migrationStart mig) := fun _ hw _ => nomatch hw
theorem migrationCopy (mig : Nat) : Statement (.migrationCopy mig) := fun _ hw _ => nomatch hw
theorem migrationWindowEnd : Statement (.migrationWindowEnd) := fun _ hw _ => nomatch hw
theorem sampleRecord : Statement (.sampleRecord) := fun _ hw _ => nomatch hw
theorem mredDispatch (op : Nat) : Statement (.mredDispatch op) := fun _ hw _ => nomatch hw
theorem mredWaitPoll (op : Nat) : Statement (.mredWaitPoll op) := fun _ hw _ => nomatch hw
theorem mredWaitLimit (op : Nat) : Statement (.mredWaitLimit op) := fun _ hw _ => nomatch hw
theorem mredComplete (op : Nat) : Statement (.mredComplete op) := fun _ hw _ => nomatch hw
theorem jobComplete (core channel : Nat) : Statement (.jobComplete core channel) := fun _ hw _ => nomatch hw
theorem matrixComplete (core engine : Nat) : Statement (.matrixComplete core engine) := fun _ hw _ => nomatch hw
theorem rsmpStageOutComplete (launch : Nat) : Statement (.rsmpStageOutComplete launch) := fun _ hw _ => nomatch hw
theorem rsmpResume (launch : Nat) : Statement (.rsmpResume launch) := fun _ hw _ => nomatch hw
theorem sleepEnd (core group : Nat) : Statement (.sleepEnd core group) := fun _ hw _ => nomatch hw
theorem weirTimeout (core slot weir : Nat) : Statement (.weirTimeout core slot weir) := fun _ hw _ => nomatch hw
theorem fairnessTimerExpiry (core slot : Nat) : Statement (.fairnessTimerExpiry core slot) := fun _ hw _ => nomatch hw
theorem quantumExpiry (core slot : Nat) : Statement (.quantumExpiry core slot) := fun _ hw _ => nomatch hw
theorem queueWake (queue : Nat) : Statement (.queueWake queue) := fun _ hw _ => nomatch hw
theorem queuePoll : Statement (.queuePoll) := fun _ hw _ => nomatch hw
theorem commandStart (seq : Nat) : Statement (.commandStart seq) := fun _ hw _ => nomatch hw
theorem launch (seq : Nat) : Statement (.launch seq) := fun _ hw _ => nomatch hw
theorem wait (seq : Nat) : Statement (.wait seq) := fun _ hw _ => nomatch hw
theorem waitTimeout (seq : Nat) : Statement (.waitTimeout seq) := fun _ hw _ => nomatch hw
theorem signal (seq : Nat) : Statement (.signal seq) := fun _ hw _ => nomatch hw
theorem regionCreate (seq : Nat) : Statement (.regionCreate seq) := fun _ hw _ => nomatch hw
theorem regionModify (seq : Nat) : Statement (.regionModify seq) := fun _ hw _ => nomatch hw
theorem regionDelete (seq : Nat) : Statement (.regionDelete seq) := fun _ hw _ => nomatch hw
theorem emberEnter (seq : Nat) : Statement (.emberEnter seq) := fun _ hw _ => nomatch hw
theorem emberArm (seq : Nat) : Statement (.emberArm seq) := fun _ hw _ => nomatch hw
theorem emberDisarm (seq : Nat) : Statement (.emberDisarm seq) := fun _ hw _ => nomatch hw
theorem resume (seq : Nat) : Statement (.resume seq) := fun _ hw _ => nomatch hw
theorem firmware (seq : Nat) : Statement (.firmware seq) := fun _ hw _ => nomatch hw
theorem migratePolicy (seq : Nat) : Statement (.migratePolicy seq) := fun _ hw _ => nomatch hw
theorem blockDispatch (seq block : Nat) : Statement (.blockDispatch seq block) := fun _ hw _ => nomatch hw
theorem preemptionRequest (core : Nat) (blocks : List Nat) : Statement (.preemptionRequest core blocks) := fun _ hw _ => nomatch hw
theorem saveComplete (core : Nat) : Statement (.saveComplete core) := fun _ hw _ => nomatch hw
theorem blockRestore (frame : Nat) : Statement (.blockRestore frame) := fun _ hw _ => nomatch hw
theorem haltResume (slot : Nat) : Statement (.haltResume slot) := fun _ hw _ => nomatch hw
theorem haltRelease (slot : Nat) : Statement (.haltRelease slot) := fun _ hw _ => nomatch hw
theorem haltControlNoEffect (value : BitVec 64) : Statement (.haltControlNoEffect value) := fun _ hw _ => nomatch hw
theorem queueTableWrite (queue field : Nat) (value : BitVec 64) : Statement (.queueTableWrite queue field value) := fun _ hw _ => nomatch hw
theorem halfWidthRequest (channel : Nat) (value : BitVec 32) : Statement (.halfWidthRequest channel value) := fun _ hw _ => nomatch hw
theorem halfWidthLeave (channel : Nat) (value : BitVec 32) : Statement (.halfWidthLeave channel value) := fun _ hw _ => nomatch hw
theorem laneErrorLimit (channel : Nat) (errors : LaneReport) : Statement (.laneErrorLimit channel errors) := fun _ hw _ => nomatch hw
theorem temperatureLimit (channel degrees : Nat) : Statement (.temperatureLimit channel degrees) := fun _ hw _ => nomatch hw
theorem channelRetrainDone (channel : Nat) (good : Bool) : Statement (.channelRetrainDone channel good) := fun _ hw _ => nomatch hw
theorem registerWrite (reg : HostReg) (value : BitVec 64) : Statement (.registerWrite reg value) := fun _ hw _ => nomatch hw
theorem recoveryImageLoad (addr length : Nat) : Statement (.recoveryImageLoad addr length) := fun _ hw _ => nomatch hw
theorem powerUp : Statement (.powerUp) := fun _ hw _ => nomatch hw
theorem hostMemWrite (pa : Nat) (data : List Byte) : Statement (.hostMemWrite pa data) := fun _ hw _ => nomatch hw
theorem hostMemRead (pa count : Nat) : Statement (.hostMemRead pa count) := fun _ hw _ => nomatch hw
theorem peerAccessArrive (acc : PeerAccess) : Statement (.peerAccessArrive acc) := fun _ hw _ => nomatch hw
theorem endToEndAck (peer seq : Nat) : Statement (.endToEndAck peer seq) := fun _ hw _ => nomatch hw
theorem flitRetry (port : Nat) : Statement (.flitRetry port) := fun _ hw _ => nomatch hw
theorem hopFailure (port : Nat) : Statement (.hopFailure port) := fun _ hw _ => nomatch hw
theorem linkRetryTimer : Statement (.linkRetryTimer) := fun _ hw _ => nomatch hw
theorem supplyWarning : Statement (.supplyWarning) := fun _ hw _ => nomatch hw
theorem supplyGood : Statement (.supplyGood) := fun _ hw _ => nomatch hw
theorem getVersion : Statement (.getVersion) := fun _ hw _ => nomatch hw
theorem getCapabilities : Statement (.getCapabilities) := fun _ hw _ => nomatch hw
theorem negotiateAlgorithms (sigs hashes : List Nat) : Statement (.negotiateAlgorithms sigs hashes) := fun _ hw _ => nomatch hw
theorem getDigests : Statement (.getDigests) := fun _ hw _ => nomatch hw
theorem getCertificate (offset length : Nat) : Statement (.getCertificate offset length) := fun _ hw _ => nomatch hw
theorem challenge (nonce : List Byte) : Statement (.challenge nonce) := fun _ hw _ => nomatch hw
theorem getMeasurements (index : Nat) (nonce : List Byte) : Statement (.getMeasurements index nonce) := fun _ hw _ => nomatch hw
theorem mctpControl (message : List Byte) : Statement (.mctpControl message) := fun _ hw _ => nomatch hw
theorem vendorRead (item : VendorItem) : Statement (.vendorRead item) := fun _ hw _ => nomatch hw
theorem illegalInstruction (word : BitVec 96) : Statement (.illegalInstruction word) := fun w hw hf => by
  injection hw with hw; subst hw
  exact decode_unassigned _ (by simpa [Instr.wellFormed] using hf ⟨_, rfl⟩)
theorem homeRead (msg : Nat) : Statement (.homeRead msg) := fun _ hw _ => nomatch hw
theorem fill (msg : Nat) : Statement (.fill msg) := fun _ hw _ => nomatch hw

end Sys2Proof.Laws.RoundTrip
end

