-- ==== Sys2Proof/Laws/State.lean ====
section
/-!
SUPPORT. The state after each of its plain updates: one lemma per field, so that no proof unfolds a record update; and what
each accessor reads after one.
-/

namespace Sys2Proof.Machine.State

variable (s : State)

/-! `setCore` -/

@[simp] theorem setCore_time (c : Nat) (v : Core) : (s.setCore c v).time = s.time := rfl
@[simp] theorem setCore_cycle (c : Nat) (v : Core) : (s.setCore c v).cycle = s.cycle := rfl
@[simp] theorem setCore_mem (c : Nat) (v : Core) : (s.setCore c v).mem = s.mem := rfl
@[simp] theorem setCore_writes (c : Nat) (v : Core) : (s.setCore c v).writes = s.writes := rfl
@[simp] theorem setCore_cores (c : Nat) (v : Core) : (s.setCore c v).cores = tput s.cores c v := rfl
@[simp] theorem setCore_lanes (c : Nat) (v : Core) : (s.setCore c v).lanes = s.lanes := rfl
@[simp] theorem setCore_gangs (c : Nat) (v : Core) : (s.setCore c v).gangs = s.gangs := rfl
@[simp] theorem setCore_groups (c : Nat) (v : Core) : (s.setCore c v).groups = s.groups := rfl
@[simp] theorem setCore_blocks (c : Nat) (v : Core) : (s.setCore c v).blocks = s.blocks := rfl
@[simp] theorem setCore_launches (c : Nat) (v : Core) : (s.setCore c v).launches = s.launches := rfl
@[simp] theorem setCore_net (c : Nat) (v : Core) : (s.setCore c v).net = s.net := rfl
@[simp] theorem setCore_requests (c : Nat) (v : Core) : (s.setCore c v).requests = s.requests := rfl
@[simp] theorem setCore_records (c : Nat) (v : Core) : (s.setCore c v).records = s.records := rfl
@[simp] theorem setCore_drains (c : Nat) (v : Core) : (s.setCore c v).drains = s.drains := rfl
@[simp] theorem setCore_l2 (c : Nat) (v : Core) : (s.setCore c v).l2 = s.l2 := rfl
@[simp] theorem setCore_hostLines (c : Nat) (v : Core) : (s.setCore c v).hostLines = s.hostLines := rfl
@[simp] theorem setCore_leaseTab (c : Nat) (v : Core) : (s.setCore c v).leaseTab = s.leaseTab := rfl
@[simp] theorem setCore_leaseQueue (c : Nat) (v : Core) : (s.setCore c v).leaseQueue = s.leaseQueue := rfl
@[simp] theorem setCore_regionDir (c : Nat) (v : Core) : (s.setCore c v).regionDir = s.regionDir := rfl
@[simp] theorem setCore_absent (c : Nat) (v : Core) : (s.setCore c v).absent = s.absent := rfl
@[simp] theorem setCore_failed (c : Nat) (v : Core) : (s.setCore c v).failed = s.failed := rfl
@[simp] theorem setCore_pfRecords (c : Nat) (v : Core) : (s.setCore c v).pfRecords = s.pfRecords := rfl
@[simp] theorem setCore_mreds (c : Nat) (v : Core) : (s.setCore c v).mreds = s.mreds := rfl
@[simp] theorem setCore_migrations (c : Nat) (v : Core) : (s.setCore c v).migrations = s.migrations := rfl
@[simp] theorem setCore_policy (c : Nat) (v : Core) : (s.setCore c v).policy = s.policy := rfl
@[simp] theorem setCore_freeFrames (c : Nat) (v : Core) : (s.setCore c v).freeFrames = s.freeFrames := rfl
@[simp] theorem setCore_spareUsed (c : Nat) (v : Core) : (s.setCore c v).spareUsed = s.spareUsed := rfl
@[simp] theorem setCore_sampleK (c : Nat) (v : Core) : (s.setCore c v).sampleK = s.sampleK := rfl
@[simp] theorem setCore_sampleBase (c : Nat) (v : Core) : (s.setCore c v).sampleBase = s.sampleBase := rfl
@[simp] theorem setCore_sampleHead (c : Nat) (v : Core) : (s.setCore c v).sampleHead = s.sampleHead := rfl
@[simp] theorem setCore_samples (c : Nat) (v : Core) : (s.setCore c v).samples = s.samples := rfl
@[simp] theorem setCore_sampleLost (c : Nat) (v : Core) : (s.setCore c v).sampleLost = s.sampleLost := rfl
@[simp] theorem setCore_regions (c : Nat) (v : Core) : (s.setCore c v).regions = s.regions := rfl
@[simp] theorem setCore_queues (c : Nat) (v : Core) : (s.setCore c v).queues = s.queues := rfl
@[simp] theorem setCore_commands (c : Nat) (v : Core) : (s.setCore c v).commands = s.commands := rfl
@[simp] theorem setCore_nextSeq (c : Nat) (v : Core) : (s.setCore c v).nextSeq = s.nextSeq := rfl
@[simp] theorem setCore_journalBase (c : Nat) (v : Core) : (s.setCore c v).journalBase = s.journalBase := rfl
@[simp] theorem setCore_journalSize (c : Nat) (v : Core) : (s.setCore c v).journalSize = s.journalSize := rfl
@[simp] theorem setCore_logBase (c : Nat) (v : Core) : (s.setCore c v).logBase = s.logBase := rfl
@[simp] theorem setCore_logSize (c : Nat) (v : Core) : (s.setCore c v).logSize = s.logSize := rfl
@[simp] theorem setCore_logSeq (c : Nat) (v : Core) : (s.setCore c v).logSeq = s.logSeq := rfl
@[simp] theorem setCore_corrected (c : Nat) (v : Core) : (s.setCore c v).corrected = s.corrected := rfl
@[simp] theorem setCore_notes (c : Nat) (v : Core) : (s.setCore c v).notes = s.notes := rfl
@[simp] theorem setCore_haltControl (c : Nat) (v : Core) : (s.setCore c v).haltControl = s.haltControl := rfl
@[simp] theorem setCore_channels (c : Nat) (v : Core) : (s.setCore c v).channels = s.channels := rfl
@[simp] theorem setCore_emulationTable (c : Nat) (v : Core) : (s.setCore c v).emulationTable = s.emulationTable := rfl
@[simp] theorem setCore_emulationLease (c : Nat) (v : Core) : (s.setCore c v).emulationLease = s.emulationLease := rfl
@[simp] theorem setCore_recoveryAddr (c : Nat) (v : Core) : (s.setCore c v).recoveryAddr = s.recoveryAddr := rfl
@[simp] theorem setCore_recoveryLength (c : Nat) (v : Core) : (s.setCore c v).recoveryLength = s.recoveryLength := rfl
@[simp] theorem setCore_power (c : Nat) (v : Core) : (s.setCore c v).power = s.power := rfl
@[simp] theorem setCore_emberArmed (c : Nat) (v : Core) : (s.setCore c v).emberArmed = s.emberArmed := rfl
@[simp] theorem setCore_warned (c : Nat) (v : Core) : (s.setCore c v).warned = s.warned := rfl
@[simp] theorem setCore_supplied (c : Nat) (v : Core) : (s.setCore c v).supplied = s.supplied := rfl
@[simp] theorem setCore_badRecords (c : Nat) (v : Core) : (s.setCore c v).badRecords = s.badRecords := rfl
@[simp] theorem setCore_frames (c : Nat) (v : Core) : (s.setCore c v).frames = s.frames := rfl
@[simp] theorem setCore_peers (c : Nat) (v : Core) : (s.setCore c v).peers = s.peers := rfl
@[simp] theorem setCore_ports (c : Nat) (v : Core) : (s.setCore c v).ports = s.ports := rfl
@[simp] theorem setCore_firmware (c : Nat) (v : Core) : (s.setCore c v).firmware = s.firmware := rfl
@[simp] theorem setCore_replies (c : Nat) (v : Core) : (s.setCore c v).replies = s.replies := rfl
@[simp] theorem setCore_irqs (c : Nat) (v : Core) : (s.setCore c v).irqs = s.irqs := rfl
@[simp] theorem setCore_uses (c : Nat) (v : Core) : (s.setCore c v).uses = s.uses := rfl
@[simp] theorem setCore_nextId (c : Nat) (v : Core) : (s.setCore c v).nextId = s.nextId := rfl
@[simp] theorem setCore_fresh (c : Nat) (v : Core) : (s.setCore c v).fresh = s.fresh := rfl
@[simp] theorem setCore_issued (c : Nat) (v : Core) : (s.setCore c v).issued = s.issued := rfl
@[simp] theorem setCore_agenda (c : Nat) (v : Core) : (s.setCore c v).agenda = s.agenda := rfl
@[simp] theorem setCore_turn (c : Nat) (v : Core) : (s.setCore c v).turn = s.turn := rfl
@[simp] theorem setCore_cur (c : Nat) (v : Core) : (s.setCore c v).cur = s.cur := rfl
@[simp] theorem setCore_heldIssues (c : Nat) (v : Core) : (s.setCore c v).heldIssues = s.heldIssues := rfl

/-! `modCore` -/

@[simp] theorem modCore_time (c : Nat) (f : Core → Core) : (s.modCore c f).time = s.time := rfl
@[simp] theorem modCore_cycle (c : Nat) (f : Core → Core) : (s.modCore c f).cycle = s.cycle := rfl
@[simp] theorem modCore_mem (c : Nat) (f : Core → Core) : (s.modCore c f).mem = s.mem := rfl
@[simp] theorem modCore_writes (c : Nat) (f : Core → Core) : (s.modCore c f).writes = s.writes := rfl
@[simp] theorem modCore_cores (c : Nat) (f : Core → Core) : (s.modCore c f).cores = tput s.cores c (f (s.core c)) := rfl
@[simp] theorem modCore_lanes (c : Nat) (f : Core → Core) : (s.modCore c f).lanes = s.lanes := rfl
@[simp] theorem modCore_gangs (c : Nat) (f : Core → Core) : (s.modCore c f).gangs = s.gangs := rfl
@[simp] theorem modCore_groups (c : Nat) (f : Core → Core) : (s.modCore c f).groups = s.groups := rfl
@[simp] theorem modCore_blocks (c : Nat) (f : Core → Core) : (s.modCore c f).blocks = s.blocks := rfl
@[simp] theorem modCore_launches (c : Nat) (f : Core → Core) : (s.modCore c f).launches = s.launches := rfl
@[simp] theorem modCore_net (c : Nat) (f : Core → Core) : (s.modCore c f).net = s.net := rfl
@[simp] theorem modCore_requests (c : Nat) (f : Core → Core) : (s.modCore c f).requests = s.requests := rfl
@[simp] theorem modCore_records (c : Nat) (f : Core → Core) : (s.modCore c f).records = s.records := rfl
@[simp] theorem modCore_drains (c : Nat) (f : Core → Core) : (s.modCore c f).drains = s.drains := rfl
@[simp] theorem modCore_l2 (c : Nat) (f : Core → Core) : (s.modCore c f).l2 = s.l2 := rfl
@[simp] theorem modCore_hostLines (c : Nat) (f : Core → Core) : (s.modCore c f).hostLines = s.hostLines := rfl
@[simp] theorem modCore_leaseTab (c : Nat) (f : Core → Core) : (s.modCore c f).leaseTab = s.leaseTab := rfl
@[simp] theorem modCore_leaseQueue (c : Nat) (f : Core → Core) : (s.modCore c f).leaseQueue = s.leaseQueue := rfl
@[simp] theorem modCore_regionDir (c : Nat) (f : Core → Core) : (s.modCore c f).regionDir = s.regionDir := rfl
@[simp] theorem modCore_absent (c : Nat) (f : Core → Core) : (s.modCore c f).absent = s.absent := rfl
@[simp] theorem modCore_failed (c : Nat) (f : Core → Core) : (s.modCore c f).failed = s.failed := rfl
@[simp] theorem modCore_pfRecords (c : Nat) (f : Core → Core) : (s.modCore c f).pfRecords = s.pfRecords := rfl
@[simp] theorem modCore_mreds (c : Nat) (f : Core → Core) : (s.modCore c f).mreds = s.mreds := rfl
@[simp] theorem modCore_migrations (c : Nat) (f : Core → Core) : (s.modCore c f).migrations = s.migrations := rfl
@[simp] theorem modCore_policy (c : Nat) (f : Core → Core) : (s.modCore c f).policy = s.policy := rfl
@[simp] theorem modCore_freeFrames (c : Nat) (f : Core → Core) : (s.modCore c f).freeFrames = s.freeFrames := rfl
@[simp] theorem modCore_spareUsed (c : Nat) (f : Core → Core) : (s.modCore c f).spareUsed = s.spareUsed := rfl
@[simp] theorem modCore_sampleK (c : Nat) (f : Core → Core) : (s.modCore c f).sampleK = s.sampleK := rfl
@[simp] theorem modCore_sampleBase (c : Nat) (f : Core → Core) : (s.modCore c f).sampleBase = s.sampleBase := rfl
@[simp] theorem modCore_sampleHead (c : Nat) (f : Core → Core) : (s.modCore c f).sampleHead = s.sampleHead := rfl
@[simp] theorem modCore_samples (c : Nat) (f : Core → Core) : (s.modCore c f).samples = s.samples := rfl
@[simp] theorem modCore_sampleLost (c : Nat) (f : Core → Core) : (s.modCore c f).sampleLost = s.sampleLost := rfl
@[simp] theorem modCore_regions (c : Nat) (f : Core → Core) : (s.modCore c f).regions = s.regions := rfl
@[simp] theorem modCore_queues (c : Nat) (f : Core → Core) : (s.modCore c f).queues = s.queues := rfl
@[simp] theorem modCore_commands (c : Nat) (f : Core → Core) : (s.modCore c f).commands = s.commands := rfl
@[simp] theorem modCore_nextSeq (c : Nat) (f : Core → Core) : (s.modCore c f).nextSeq = s.nextSeq := rfl
@[simp] theorem modCore_journalBase (c : Nat) (f : Core → Core) : (s.modCore c f).journalBase = s.journalBase := rfl
@[simp] theorem modCore_journalSize (c : Nat) (f : Core → Core) : (s.modCore c f).journalSize = s.journalSize := rfl
@[simp] theorem modCore_logBase (c : Nat) (f : Core → Core) : (s.modCore c f).logBase = s.logBase := rfl
@[simp] theorem modCore_logSize (c : Nat) (f : Core → Core) : (s.modCore c f).logSize = s.logSize := rfl
@[simp] theorem modCore_logSeq (c : Nat) (f : Core → Core) : (s.modCore c f).logSeq = s.logSeq := rfl
@[simp] theorem modCore_corrected (c : Nat) (f : Core → Core) : (s.modCore c f).corrected = s.corrected := rfl
@[simp] theorem modCore_notes (c : Nat) (f : Core → Core) : (s.modCore c f).notes = s.notes := rfl
@[simp] theorem modCore_haltControl (c : Nat) (f : Core → Core) : (s.modCore c f).haltControl = s.haltControl := rfl
@[simp] theorem modCore_channels (c : Nat) (f : Core → Core) : (s.modCore c f).channels = s.channels := rfl
@[simp] theorem modCore_emulationTable (c : Nat) (f : Core → Core) : (s.modCore c f).emulationTable = s.emulationTable := rfl
@[simp] theorem modCore_emulationLease (c : Nat) (f : Core → Core) : (s.modCore c f).emulationLease = s.emulationLease := rfl
@[simp] theorem modCore_recoveryAddr (c : Nat) (f : Core → Core) : (s.modCore c f).recoveryAddr = s.recoveryAddr := rfl
@[simp] theorem modCore_recoveryLength (c : Nat) (f : Core → Core) : (s.modCore c f).recoveryLength = s.recoveryLength := rfl
@[simp] theorem modCore_power (c : Nat) (f : Core → Core) : (s.modCore c f).power = s.power := rfl
@[simp] theorem modCore_emberArmed (c : Nat) (f : Core → Core) : (s.modCore c f).emberArmed = s.emberArmed := rfl
@[simp] theorem modCore_warned (c : Nat) (f : Core → Core) : (s.modCore c f).warned = s.warned := rfl
@[simp] theorem modCore_supplied (c : Nat) (f : Core → Core) : (s.modCore c f).supplied = s.supplied := rfl
@[simp] theorem modCore_badRecords (c : Nat) (f : Core → Core) : (s.modCore c f).badRecords = s.badRecords := rfl
@[simp] theorem modCore_frames (c : Nat) (f : Core → Core) : (s.modCore c f).frames = s.frames := rfl
@[simp] theorem modCore_peers (c : Nat) (f : Core → Core) : (s.modCore c f).peers = s.peers := rfl
@[simp] theorem modCore_ports (c : Nat) (f : Core → Core) : (s.modCore c f).ports = s.ports := rfl
@[simp] theorem modCore_firmware (c : Nat) (f : Core → Core) : (s.modCore c f).firmware = s.firmware := rfl
@[simp] theorem modCore_replies (c : Nat) (f : Core → Core) : (s.modCore c f).replies = s.replies := rfl
@[simp] theorem modCore_irqs (c : Nat) (f : Core → Core) : (s.modCore c f).irqs = s.irqs := rfl
@[simp] theorem modCore_uses (c : Nat) (f : Core → Core) : (s.modCore c f).uses = s.uses := rfl
@[simp] theorem modCore_nextId (c : Nat) (f : Core → Core) : (s.modCore c f).nextId = s.nextId := rfl
@[simp] theorem modCore_fresh (c : Nat) (f : Core → Core) : (s.modCore c f).fresh = s.fresh := rfl
@[simp] theorem modCore_issued (c : Nat) (f : Core → Core) : (s.modCore c f).issued = s.issued := rfl
@[simp] theorem modCore_agenda (c : Nat) (f : Core → Core) : (s.modCore c f).agenda = s.agenda := rfl
@[simp] theorem modCore_turn (c : Nat) (f : Core → Core) : (s.modCore c f).turn = s.turn := rfl
@[simp] theorem modCore_cur (c : Nat) (f : Core → Core) : (s.modCore c f).cur = s.cur := rfl
@[simp] theorem modCore_heldIssues (c : Nat) (f : Core → Core) : (s.modCore c f).heldIssues = s.heldIssues := rfl

/-! `setLane` -/

@[simp] theorem setLane_time (u : Nat) (v : Lane) : (s.setLane u v).time = s.time := rfl
@[simp] theorem setLane_cycle (u : Nat) (v : Lane) : (s.setLane u v).cycle = s.cycle := rfl
@[simp] theorem setLane_mem (u : Nat) (v : Lane) : (s.setLane u v).mem = s.mem := rfl
@[simp] theorem setLane_writes (u : Nat) (v : Lane) : (s.setLane u v).writes = s.writes := rfl
@[simp] theorem setLane_cores (u : Nat) (v : Lane) : (s.setLane u v).cores = s.cores := rfl
@[simp] theorem setLane_lanes (u : Nat) (v : Lane) : (s.setLane u v).lanes = tput s.lanes u v := rfl
@[simp] theorem setLane_gangs (u : Nat) (v : Lane) : (s.setLane u v).gangs = s.gangs := rfl
@[simp] theorem setLane_groups (u : Nat) (v : Lane) : (s.setLane u v).groups = s.groups := rfl
@[simp] theorem setLane_blocks (u : Nat) (v : Lane) : (s.setLane u v).blocks = s.blocks := rfl
@[simp] theorem setLane_launches (u : Nat) (v : Lane) : (s.setLane u v).launches = s.launches := rfl
@[simp] theorem setLane_net (u : Nat) (v : Lane) : (s.setLane u v).net = s.net := rfl
@[simp] theorem setLane_requests (u : Nat) (v : Lane) : (s.setLane u v).requests = s.requests := rfl
@[simp] theorem setLane_records (u : Nat) (v : Lane) : (s.setLane u v).records = s.records := rfl
@[simp] theorem setLane_drains (u : Nat) (v : Lane) : (s.setLane u v).drains = s.drains := rfl
@[simp] theorem setLane_l2 (u : Nat) (v : Lane) : (s.setLane u v).l2 = s.l2 := rfl
@[simp] theorem setLane_hostLines (u : Nat) (v : Lane) : (s.setLane u v).hostLines = s.hostLines := rfl
@[simp] theorem setLane_leaseTab (u : Nat) (v : Lane) : (s.setLane u v).leaseTab = s.leaseTab := rfl
@[simp] theorem setLane_leaseQueue (u : Nat) (v : Lane) : (s.setLane u v).leaseQueue = s.leaseQueue := rfl
@[simp] theorem setLane_regionDir (u : Nat) (v : Lane) : (s.setLane u v).regionDir = s.regionDir := rfl
@[simp] theorem setLane_absent (u : Nat) (v : Lane) : (s.setLane u v).absent = s.absent := rfl
@[simp] theorem setLane_failed (u : Nat) (v : Lane) : (s.setLane u v).failed = s.failed := rfl
@[simp] theorem setLane_pfRecords (u : Nat) (v : Lane) : (s.setLane u v).pfRecords = s.pfRecords := rfl
@[simp] theorem setLane_mreds (u : Nat) (v : Lane) : (s.setLane u v).mreds = s.mreds := rfl
@[simp] theorem setLane_migrations (u : Nat) (v : Lane) : (s.setLane u v).migrations = s.migrations := rfl
@[simp] theorem setLane_policy (u : Nat) (v : Lane) : (s.setLane u v).policy = s.policy := rfl
@[simp] theorem setLane_freeFrames (u : Nat) (v : Lane) : (s.setLane u v).freeFrames = s.freeFrames := rfl
@[simp] theorem setLane_spareUsed (u : Nat) (v : Lane) : (s.setLane u v).spareUsed = s.spareUsed := rfl
@[simp] theorem setLane_sampleK (u : Nat) (v : Lane) : (s.setLane u v).sampleK = s.sampleK := rfl
@[simp] theorem setLane_sampleBase (u : Nat) (v : Lane) : (s.setLane u v).sampleBase = s.sampleBase := rfl
@[simp] theorem setLane_sampleHead (u : Nat) (v : Lane) : (s.setLane u v).sampleHead = s.sampleHead := rfl
@[simp] theorem setLane_samples (u : Nat) (v : Lane) : (s.setLane u v).samples = s.samples := rfl
@[simp] theorem setLane_sampleLost (u : Nat) (v : Lane) : (s.setLane u v).sampleLost = s.sampleLost := rfl
@[simp] theorem setLane_regions (u : Nat) (v : Lane) : (s.setLane u v).regions = s.regions := rfl
@[simp] theorem setLane_queues (u : Nat) (v : Lane) : (s.setLane u v).queues = s.queues := rfl
@[simp] theorem setLane_commands (u : Nat) (v : Lane) : (s.setLane u v).commands = s.commands := rfl
@[simp] theorem setLane_nextSeq (u : Nat) (v : Lane) : (s.setLane u v).nextSeq = s.nextSeq := rfl
@[simp] theorem setLane_journalBase (u : Nat) (v : Lane) : (s.setLane u v).journalBase = s.journalBase := rfl
@[simp] theorem setLane_journalSize (u : Nat) (v : Lane) : (s.setLane u v).journalSize = s.journalSize := rfl
@[simp] theorem setLane_logBase (u : Nat) (v : Lane) : (s.setLane u v).logBase = s.logBase := rfl
@[simp] theorem setLane_logSize (u : Nat) (v : Lane) : (s.setLane u v).logSize = s.logSize := rfl
@[simp] theorem setLane_logSeq (u : Nat) (v : Lane) : (s.setLane u v).logSeq = s.logSeq := rfl
@[simp] theorem setLane_corrected (u : Nat) (v : Lane) : (s.setLane u v).corrected = s.corrected := rfl
@[simp] theorem setLane_notes (u : Nat) (v : Lane) : (s.setLane u v).notes = s.notes := rfl
@[simp] theorem setLane_haltControl (u : Nat) (v : Lane) : (s.setLane u v).haltControl = s.haltControl := rfl
@[simp] theorem setLane_channels (u : Nat) (v : Lane) : (s.setLane u v).channels = s.channels := rfl
@[simp] theorem setLane_emulationTable (u : Nat) (v : Lane) : (s.setLane u v).emulationTable = s.emulationTable := rfl
@[simp] theorem setLane_emulationLease (u : Nat) (v : Lane) : (s.setLane u v).emulationLease = s.emulationLease := rfl
@[simp] theorem setLane_recoveryAddr (u : Nat) (v : Lane) : (s.setLane u v).recoveryAddr = s.recoveryAddr := rfl
@[simp] theorem setLane_recoveryLength (u : Nat) (v : Lane) : (s.setLane u v).recoveryLength = s.recoveryLength := rfl
@[simp] theorem setLane_power (u : Nat) (v : Lane) : (s.setLane u v).power = s.power := rfl
@[simp] theorem setLane_emberArmed (u : Nat) (v : Lane) : (s.setLane u v).emberArmed = s.emberArmed := rfl
@[simp] theorem setLane_warned (u : Nat) (v : Lane) : (s.setLane u v).warned = s.warned := rfl
@[simp] theorem setLane_supplied (u : Nat) (v : Lane) : (s.setLane u v).supplied = s.supplied := rfl
@[simp] theorem setLane_badRecords (u : Nat) (v : Lane) : (s.setLane u v).badRecords = s.badRecords := rfl
@[simp] theorem setLane_frames (u : Nat) (v : Lane) : (s.setLane u v).frames = s.frames := rfl
@[simp] theorem setLane_peers (u : Nat) (v : Lane) : (s.setLane u v).peers = s.peers := rfl
@[simp] theorem setLane_ports (u : Nat) (v : Lane) : (s.setLane u v).ports = s.ports := rfl
@[simp] theorem setLane_firmware (u : Nat) (v : Lane) : (s.setLane u v).firmware = s.firmware := rfl
@[simp] theorem setLane_replies (u : Nat) (v : Lane) : (s.setLane u v).replies = s.replies := rfl
@[simp] theorem setLane_irqs (u : Nat) (v : Lane) : (s.setLane u v).irqs = s.irqs := rfl
@[simp] theorem setLane_uses (u : Nat) (v : Lane) : (s.setLane u v).uses = s.uses := rfl
@[simp] theorem setLane_nextId (u : Nat) (v : Lane) : (s.setLane u v).nextId = s.nextId := rfl
@[simp] theorem setLane_fresh (u : Nat) (v : Lane) : (s.setLane u v).fresh = s.fresh := rfl
@[simp] theorem setLane_issued (u : Nat) (v : Lane) : (s.setLane u v).issued = s.issued := rfl
@[simp] theorem setLane_agenda (u : Nat) (v : Lane) : (s.setLane u v).agenda = s.agenda := rfl
@[simp] theorem setLane_turn (u : Nat) (v : Lane) : (s.setLane u v).turn = s.turn := rfl
@[simp] theorem setLane_cur (u : Nat) (v : Lane) : (s.setLane u v).cur = s.cur := rfl
@[simp] theorem setLane_heldIssues (u : Nat) (v : Lane) : (s.setLane u v).heldIssues = s.heldIssues := rfl

/-! `modLane` -/

@[simp] theorem modLane_time (u : Nat) (f : Lane → Lane) : (s.modLane u f).time = s.time := rfl
@[simp] theorem modLane_cycle (u : Nat) (f : Lane → Lane) : (s.modLane u f).cycle = s.cycle := rfl
@[simp] theorem modLane_mem (u : Nat) (f : Lane → Lane) : (s.modLane u f).mem = s.mem := rfl
@[simp] theorem modLane_writes (u : Nat) (f : Lane → Lane) : (s.modLane u f).writes = s.writes := rfl
@[simp] theorem modLane_cores (u : Nat) (f : Lane → Lane) : (s.modLane u f).cores = s.cores := rfl
@[simp] theorem modLane_lanes (u : Nat) (f : Lane → Lane) : (s.modLane u f).lanes = tput s.lanes u (f (s.lane u)) := rfl
@[simp] theorem modLane_gangs (u : Nat) (f : Lane → Lane) : (s.modLane u f).gangs = s.gangs := rfl
@[simp] theorem modLane_groups (u : Nat) (f : Lane → Lane) : (s.modLane u f).groups = s.groups := rfl
@[simp] theorem modLane_blocks (u : Nat) (f : Lane → Lane) : (s.modLane u f).blocks = s.blocks := rfl
@[simp] theorem modLane_launches (u : Nat) (f : Lane → Lane) : (s.modLane u f).launches = s.launches := rfl
@[simp] theorem modLane_net (u : Nat) (f : Lane → Lane) : (s.modLane u f).net = s.net := rfl
@[simp] theorem modLane_requests (u : Nat) (f : Lane → Lane) : (s.modLane u f).requests = s.requests := rfl
@[simp] theorem modLane_records (u : Nat) (f : Lane → Lane) : (s.modLane u f).records = s.records := rfl
@[simp] theorem modLane_drains (u : Nat) (f : Lane → Lane) : (s.modLane u f).drains = s.drains := rfl
@[simp] theorem modLane_l2 (u : Nat) (f : Lane → Lane) : (s.modLane u f).l2 = s.l2 := rfl
@[simp] theorem modLane_hostLines (u : Nat) (f : Lane → Lane) : (s.modLane u f).hostLines = s.hostLines := rfl
@[simp] theorem modLane_leaseTab (u : Nat) (f : Lane → Lane) : (s.modLane u f).leaseTab = s.leaseTab := rfl
@[simp] theorem modLane_leaseQueue (u : Nat) (f : Lane → Lane) : (s.modLane u f).leaseQueue = s.leaseQueue := rfl
@[simp] theorem modLane_regionDir (u : Nat) (f : Lane → Lane) : (s.modLane u f).regionDir = s.regionDir := rfl
@[simp] theorem modLane_absent (u : Nat) (f : Lane → Lane) : (s.modLane u f).absent = s.absent := rfl
@[simp] theorem modLane_failed (u : Nat) (f : Lane → Lane) : (s.modLane u f).failed = s.failed := rfl
@[simp] theorem modLane_pfRecords (u : Nat) (f : Lane → Lane) : (s.modLane u f).pfRecords = s.pfRecords := rfl
@[simp] theorem modLane_mreds (u : Nat) (f : Lane → Lane) : (s.modLane u f).mreds = s.mreds := rfl
@[simp] theorem modLane_migrations (u : Nat) (f : Lane → Lane) : (s.modLane u f).migrations = s.migrations := rfl
@[simp] theorem modLane_policy (u : Nat) (f : Lane → Lane) : (s.modLane u f).policy = s.policy := rfl
@[simp] theorem modLane_freeFrames (u : Nat) (f : Lane → Lane) : (s.modLane u f).freeFrames = s.freeFrames := rfl
@[simp] theorem modLane_spareUsed (u : Nat) (f : Lane → Lane) : (s.modLane u f).spareUsed = s.spareUsed := rfl
@[simp] theorem modLane_sampleK (u : Nat) (f : Lane → Lane) : (s.modLane u f).sampleK = s.sampleK := rfl
@[simp] theorem modLane_sampleBase (u : Nat) (f : Lane → Lane) : (s.modLane u f).sampleBase = s.sampleBase := rfl
@[simp] theorem modLane_sampleHead (u : Nat) (f : Lane → Lane) : (s.modLane u f).sampleHead = s.sampleHead := rfl
@[simp] theorem modLane_samples (u : Nat) (f : Lane → Lane) : (s.modLane u f).samples = s.samples := rfl
@[simp] theorem modLane_sampleLost (u : Nat) (f : Lane → Lane) : (s.modLane u f).sampleLost = s.sampleLost := rfl
@[simp] theorem modLane_regions (u : Nat) (f : Lane → Lane) : (s.modLane u f).regions = s.regions := rfl
@[simp] theorem modLane_queues (u : Nat) (f : Lane → Lane) : (s.modLane u f).queues = s.queues := rfl
@[simp] theorem modLane_commands (u : Nat) (f : Lane → Lane) : (s.modLane u f).commands = s.commands := rfl
@[simp] theorem modLane_nextSeq (u : Nat) (f : Lane → Lane) : (s.modLane u f).nextSeq = s.nextSeq := rfl
@[simp] theorem modLane_journalBase (u : Nat) (f : Lane → Lane) : (s.modLane u f).journalBase = s.journalBase := rfl
@[simp] theorem modLane_journalSize (u : Nat) (f : Lane → Lane) : (s.modLane u f).journalSize = s.journalSize := rfl
@[simp] theorem modLane_logBase (u : Nat) (f : Lane → Lane) : (s.modLane u f).logBase = s.logBase := rfl
@[simp] theorem modLane_logSize (u : Nat) (f : Lane → Lane) : (s.modLane u f).logSize = s.logSize := rfl
@[simp] theorem modLane_logSeq (u : Nat) (f : Lane → Lane) : (s.modLane u f).logSeq = s.logSeq := rfl
@[simp] theorem modLane_corrected (u : Nat) (f : Lane → Lane) : (s.modLane u f).corrected = s.corrected := rfl
@[simp] theorem modLane_notes (u : Nat) (f : Lane → Lane) : (s.modLane u f).notes = s.notes := rfl
@[simp] theorem modLane_haltControl (u : Nat) (f : Lane → Lane) : (s.modLane u f).haltControl = s.haltControl := rfl
@[simp] theorem modLane_channels (u : Nat) (f : Lane → Lane) : (s.modLane u f).channels = s.channels := rfl
@[simp] theorem modLane_emulationTable (u : Nat) (f : Lane → Lane) : (s.modLane u f).emulationTable = s.emulationTable := rfl
@[simp] theorem modLane_emulationLease (u : Nat) (f : Lane → Lane) : (s.modLane u f).emulationLease = s.emulationLease := rfl
@[simp] theorem modLane_recoveryAddr (u : Nat) (f : Lane → Lane) : (s.modLane u f).recoveryAddr = s.recoveryAddr := rfl
@[simp] theorem modLane_recoveryLength (u : Nat) (f : Lane → Lane) : (s.modLane u f).recoveryLength = s.recoveryLength := rfl
@[simp] theorem modLane_power (u : Nat) (f : Lane → Lane) : (s.modLane u f).power = s.power := rfl
@[simp] theorem modLane_emberArmed (u : Nat) (f : Lane → Lane) : (s.modLane u f).emberArmed = s.emberArmed := rfl
@[simp] theorem modLane_warned (u : Nat) (f : Lane → Lane) : (s.modLane u f).warned = s.warned := rfl
@[simp] theorem modLane_supplied (u : Nat) (f : Lane → Lane) : (s.modLane u f).supplied = s.supplied := rfl
@[simp] theorem modLane_badRecords (u : Nat) (f : Lane → Lane) : (s.modLane u f).badRecords = s.badRecords := rfl
@[simp] theorem modLane_frames (u : Nat) (f : Lane → Lane) : (s.modLane u f).frames = s.frames := rfl
@[simp] theorem modLane_peers (u : Nat) (f : Lane → Lane) : (s.modLane u f).peers = s.peers := rfl
@[simp] theorem modLane_ports (u : Nat) (f : Lane → Lane) : (s.modLane u f).ports = s.ports := rfl
@[simp] theorem modLane_firmware (u : Nat) (f : Lane → Lane) : (s.modLane u f).firmware = s.firmware := rfl
@[simp] theorem modLane_replies (u : Nat) (f : Lane → Lane) : (s.modLane u f).replies = s.replies := rfl
@[simp] theorem modLane_irqs (u : Nat) (f : Lane → Lane) : (s.modLane u f).irqs = s.irqs := rfl
@[simp] theorem modLane_uses (u : Nat) (f : Lane → Lane) : (s.modLane u f).uses = s.uses := rfl
@[simp] theorem modLane_nextId (u : Nat) (f : Lane → Lane) : (s.modLane u f).nextId = s.nextId := rfl
@[simp] theorem modLane_fresh (u : Nat) (f : Lane → Lane) : (s.modLane u f).fresh = s.fresh := rfl
@[simp] theorem modLane_issued (u : Nat) (f : Lane → Lane) : (s.modLane u f).issued = s.issued := rfl
@[simp] theorem modLane_agenda (u : Nat) (f : Lane → Lane) : (s.modLane u f).agenda = s.agenda := rfl
@[simp] theorem modLane_turn (u : Nat) (f : Lane → Lane) : (s.modLane u f).turn = s.turn := rfl
@[simp] theorem modLane_cur (u : Nat) (f : Lane → Lane) : (s.modLane u f).cur = s.cur := rfl
@[simp] theorem modLane_heldIssues (u : Nat) (f : Lane → Lane) : (s.modLane u f).heldIssues = s.heldIssues := rfl

/-! `setGang` -/

@[simp] theorem setGang_time (n : Nat) (v : Gang) : (s.setGang n v).time = s.time := rfl
@[simp] theorem setGang_cycle (n : Nat) (v : Gang) : (s.setGang n v).cycle = s.cycle := rfl
@[simp] theorem setGang_mem (n : Nat) (v : Gang) : (s.setGang n v).mem = s.mem := rfl
@[simp] theorem setGang_writes (n : Nat) (v : Gang) : (s.setGang n v).writes = s.writes := rfl
@[simp] theorem setGang_cores (n : Nat) (v : Gang) : (s.setGang n v).cores = s.cores := rfl
@[simp] theorem setGang_lanes (n : Nat) (v : Gang) : (s.setGang n v).lanes = s.lanes := rfl
@[simp] theorem setGang_gangs (n : Nat) (v : Gang) : (s.setGang n v).gangs = tput s.gangs n v := rfl
@[simp] theorem setGang_groups (n : Nat) (v : Gang) : (s.setGang n v).groups = s.groups := rfl
@[simp] theorem setGang_blocks (n : Nat) (v : Gang) : (s.setGang n v).blocks = s.blocks := rfl
@[simp] theorem setGang_launches (n : Nat) (v : Gang) : (s.setGang n v).launches = s.launches := rfl
@[simp] theorem setGang_net (n : Nat) (v : Gang) : (s.setGang n v).net = s.net := rfl
@[simp] theorem setGang_requests (n : Nat) (v : Gang) : (s.setGang n v).requests = s.requests := rfl
@[simp] theorem setGang_records (n : Nat) (v : Gang) : (s.setGang n v).records = s.records := rfl
@[simp] theorem setGang_drains (n : Nat) (v : Gang) : (s.setGang n v).drains = s.drains := rfl
@[simp] theorem setGang_l2 (n : Nat) (v : Gang) : (s.setGang n v).l2 = s.l2 := rfl
@[simp] theorem setGang_hostLines (n : Nat) (v : Gang) : (s.setGang n v).hostLines = s.hostLines := rfl
@[simp] theorem setGang_leaseTab (n : Nat) (v : Gang) : (s.setGang n v).leaseTab = s.leaseTab := rfl
@[simp] theorem setGang_leaseQueue (n : Nat) (v : Gang) : (s.setGang n v).leaseQueue = s.leaseQueue := rfl
@[simp] theorem setGang_regionDir (n : Nat) (v : Gang) : (s.setGang n v).regionDir = s.regionDir := rfl
@[simp] theorem setGang_absent (n : Nat) (v : Gang) : (s.setGang n v).absent = s.absent := rfl
@[simp] theorem setGang_failed (n : Nat) (v : Gang) : (s.setGang n v).failed = s.failed := rfl
@[simp] theorem setGang_pfRecords (n : Nat) (v : Gang) : (s.setGang n v).pfRecords = s.pfRecords := rfl
@[simp] theorem setGang_mreds (n : Nat) (v : Gang) : (s.setGang n v).mreds = s.mreds := rfl
@[simp] theorem setGang_migrations (n : Nat) (v : Gang) : (s.setGang n v).migrations = s.migrations := rfl
@[simp] theorem setGang_policy (n : Nat) (v : Gang) : (s.setGang n v).policy = s.policy := rfl
@[simp] theorem setGang_freeFrames (n : Nat) (v : Gang) : (s.setGang n v).freeFrames = s.freeFrames := rfl
@[simp] theorem setGang_spareUsed (n : Nat) (v : Gang) : (s.setGang n v).spareUsed = s.spareUsed := rfl
@[simp] theorem setGang_sampleK (n : Nat) (v : Gang) : (s.setGang n v).sampleK = s.sampleK := rfl
@[simp] theorem setGang_sampleBase (n : Nat) (v : Gang) : (s.setGang n v).sampleBase = s.sampleBase := rfl
@[simp] theorem setGang_sampleHead (n : Nat) (v : Gang) : (s.setGang n v).sampleHead = s.sampleHead := rfl
@[simp] theorem setGang_samples (n : Nat) (v : Gang) : (s.setGang n v).samples = s.samples := rfl
@[simp] theorem setGang_sampleLost (n : Nat) (v : Gang) : (s.setGang n v).sampleLost = s.sampleLost := rfl
@[simp] theorem setGang_regions (n : Nat) (v : Gang) : (s.setGang n v).regions = s.regions := rfl
@[simp] theorem setGang_queues (n : Nat) (v : Gang) : (s.setGang n v).queues = s.queues := rfl
@[simp] theorem setGang_commands (n : Nat) (v : Gang) : (s.setGang n v).commands = s.commands := rfl
@[simp] theorem setGang_nextSeq (n : Nat) (v : Gang) : (s.setGang n v).nextSeq = s.nextSeq := rfl
@[simp] theorem setGang_journalBase (n : Nat) (v : Gang) : (s.setGang n v).journalBase = s.journalBase := rfl
@[simp] theorem setGang_journalSize (n : Nat) (v : Gang) : (s.setGang n v).journalSize = s.journalSize := rfl
@[simp] theorem setGang_logBase (n : Nat) (v : Gang) : (s.setGang n v).logBase = s.logBase := rfl
@[simp] theorem setGang_logSize (n : Nat) (v : Gang) : (s.setGang n v).logSize = s.logSize := rfl
@[simp] theorem setGang_logSeq (n : Nat) (v : Gang) : (s.setGang n v).logSeq = s.logSeq := rfl
@[simp] theorem setGang_corrected (n : Nat) (v : Gang) : (s.setGang n v).corrected = s.corrected := rfl
@[simp] theorem setGang_notes (n : Nat) (v : Gang) : (s.setGang n v).notes = s.notes := rfl
@[simp] theorem setGang_haltControl (n : Nat) (v : Gang) : (s.setGang n v).haltControl = s.haltControl := rfl
@[simp] theorem setGang_channels (n : Nat) (v : Gang) : (s.setGang n v).channels = s.channels := rfl
@[simp] theorem setGang_emulationTable (n : Nat) (v : Gang) : (s.setGang n v).emulationTable = s.emulationTable := rfl
@[simp] theorem setGang_emulationLease (n : Nat) (v : Gang) : (s.setGang n v).emulationLease = s.emulationLease := rfl
@[simp] theorem setGang_recoveryAddr (n : Nat) (v : Gang) : (s.setGang n v).recoveryAddr = s.recoveryAddr := rfl
@[simp] theorem setGang_recoveryLength (n : Nat) (v : Gang) : (s.setGang n v).recoveryLength = s.recoveryLength := rfl
@[simp] theorem setGang_power (n : Nat) (v : Gang) : (s.setGang n v).power = s.power := rfl
@[simp] theorem setGang_emberArmed (n : Nat) (v : Gang) : (s.setGang n v).emberArmed = s.emberArmed := rfl
@[simp] theorem setGang_warned (n : Nat) (v : Gang) : (s.setGang n v).warned = s.warned := rfl
@[simp] theorem setGang_supplied (n : Nat) (v : Gang) : (s.setGang n v).supplied = s.supplied := rfl
@[simp] theorem setGang_badRecords (n : Nat) (v : Gang) : (s.setGang n v).badRecords = s.badRecords := rfl
@[simp] theorem setGang_frames (n : Nat) (v : Gang) : (s.setGang n v).frames = s.frames := rfl
@[simp] theorem setGang_peers (n : Nat) (v : Gang) : (s.setGang n v).peers = s.peers := rfl
@[simp] theorem setGang_ports (n : Nat) (v : Gang) : (s.setGang n v).ports = s.ports := rfl
@[simp] theorem setGang_firmware (n : Nat) (v : Gang) : (s.setGang n v).firmware = s.firmware := rfl
@[simp] theorem setGang_replies (n : Nat) (v : Gang) : (s.setGang n v).replies = s.replies := rfl
@[simp] theorem setGang_irqs (n : Nat) (v : Gang) : (s.setGang n v).irqs = s.irqs := rfl
@[simp] theorem setGang_uses (n : Nat) (v : Gang) : (s.setGang n v).uses = s.uses := rfl
@[simp] theorem setGang_nextId (n : Nat) (v : Gang) : (s.setGang n v).nextId = s.nextId := rfl
@[simp] theorem setGang_fresh (n : Nat) (v : Gang) : (s.setGang n v).fresh = s.fresh := rfl
@[simp] theorem setGang_issued (n : Nat) (v : Gang) : (s.setGang n v).issued = s.issued := rfl
@[simp] theorem setGang_agenda (n : Nat) (v : Gang) : (s.setGang n v).agenda = s.agenda := rfl
@[simp] theorem setGang_turn (n : Nat) (v : Gang) : (s.setGang n v).turn = s.turn := rfl
@[simp] theorem setGang_cur (n : Nat) (v : Gang) : (s.setGang n v).cur = s.cur := rfl
@[simp] theorem setGang_heldIssues (n : Nat) (v : Gang) : (s.setGang n v).heldIssues = s.heldIssues := rfl

/-! `modGroup` -/

@[simp] theorem modGroup_time (k : Nat) (f : Group → Group) : (s.modGroup k f).time = s.time := rfl
@[simp] theorem modGroup_cycle (k : Nat) (f : Group → Group) : (s.modGroup k f).cycle = s.cycle := rfl
@[simp] theorem modGroup_mem (k : Nat) (f : Group → Group) : (s.modGroup k f).mem = s.mem := rfl
@[simp] theorem modGroup_writes (k : Nat) (f : Group → Group) : (s.modGroup k f).writes = s.writes := rfl
@[simp] theorem modGroup_cores (k : Nat) (f : Group → Group) : (s.modGroup k f).cores = s.cores := rfl
@[simp] theorem modGroup_lanes (k : Nat) (f : Group → Group) : (s.modGroup k f).lanes = s.lanes := rfl
@[simp] theorem modGroup_gangs (k : Nat) (f : Group → Group) : (s.modGroup k f).gangs = s.gangs := rfl
@[simp] theorem modGroup_groups (k : Nat) (f : Group → Group) : (s.modGroup k f).groups = tmod s.groups k f := rfl
@[simp] theorem modGroup_blocks (k : Nat) (f : Group → Group) : (s.modGroup k f).blocks = s.blocks := rfl
@[simp] theorem modGroup_launches (k : Nat) (f : Group → Group) : (s.modGroup k f).launches = s.launches := rfl
@[simp] theorem modGroup_net (k : Nat) (f : Group → Group) : (s.modGroup k f).net = s.net := rfl
@[simp] theorem modGroup_requests (k : Nat) (f : Group → Group) : (s.modGroup k f).requests = s.requests := rfl
@[simp] theorem modGroup_records (k : Nat) (f : Group → Group) : (s.modGroup k f).records = s.records := rfl
@[simp] theorem modGroup_drains (k : Nat) (f : Group → Group) : (s.modGroup k f).drains = s.drains := rfl
@[simp] theorem modGroup_l2 (k : Nat) (f : Group → Group) : (s.modGroup k f).l2 = s.l2 := rfl
@[simp] theorem modGroup_hostLines (k : Nat) (f : Group → Group) : (s.modGroup k f).hostLines = s.hostLines := rfl
@[simp] theorem modGroup_leaseTab (k : Nat) (f : Group → Group) : (s.modGroup k f).leaseTab = s.leaseTab := rfl
@[simp] theorem modGroup_leaseQueue (k : Nat) (f : Group → Group) : (s.modGroup k f).leaseQueue = s.leaseQueue := rfl
@[simp] theorem modGroup_regionDir (k : Nat) (f : Group → Group) : (s.modGroup k f).regionDir = s.regionDir := rfl
@[simp] theorem modGroup_absent (k : Nat) (f : Group → Group) : (s.modGroup k f).absent = s.absent := rfl
@[simp] theorem modGroup_failed (k : Nat) (f : Group → Group) : (s.modGroup k f).failed = s.failed := rfl
@[simp] theorem modGroup_pfRecords (k : Nat) (f : Group → Group) : (s.modGroup k f).pfRecords = s.pfRecords := rfl
@[simp] theorem modGroup_mreds (k : Nat) (f : Group → Group) : (s.modGroup k f).mreds = s.mreds := rfl
@[simp] theorem modGroup_migrations (k : Nat) (f : Group → Group) : (s.modGroup k f).migrations = s.migrations := rfl
@[simp] theorem modGroup_policy (k : Nat) (f : Group → Group) : (s.modGroup k f).policy = s.policy := rfl
@[simp] theorem modGroup_freeFrames (k : Nat) (f : Group → Group) : (s.modGroup k f).freeFrames = s.freeFrames := rfl
@[simp] theorem modGroup_spareUsed (k : Nat) (f : Group → Group) : (s.modGroup k f).spareUsed = s.spareUsed := rfl
@[simp] theorem modGroup_sampleK (k : Nat) (f : Group → Group) : (s.modGroup k f).sampleK = s.sampleK := rfl
@[simp] theorem modGroup_sampleBase (k : Nat) (f : Group → Group) : (s.modGroup k f).sampleBase = s.sampleBase := rfl
@[simp] theorem modGroup_sampleHead (k : Nat) (f : Group → Group) : (s.modGroup k f).sampleHead = s.sampleHead := rfl
@[simp] theorem modGroup_samples (k : Nat) (f : Group → Group) : (s.modGroup k f).samples = s.samples := rfl
@[simp] theorem modGroup_sampleLost (k : Nat) (f : Group → Group) : (s.modGroup k f).sampleLost = s.sampleLost := rfl
@[simp] theorem modGroup_regions (k : Nat) (f : Group → Group) : (s.modGroup k f).regions = s.regions := rfl
@[simp] theorem modGroup_queues (k : Nat) (f : Group → Group) : (s.modGroup k f).queues = s.queues := rfl
@[simp] theorem modGroup_commands (k : Nat) (f : Group → Group) : (s.modGroup k f).commands = s.commands := rfl
@[simp] theorem modGroup_nextSeq (k : Nat) (f : Group → Group) : (s.modGroup k f).nextSeq = s.nextSeq := rfl
@[simp] theorem modGroup_journalBase (k : Nat) (f : Group → Group) : (s.modGroup k f).journalBase = s.journalBase := rfl
@[simp] theorem modGroup_journalSize (k : Nat) (f : Group → Group) : (s.modGroup k f).journalSize = s.journalSize := rfl
@[simp] theorem modGroup_logBase (k : Nat) (f : Group → Group) : (s.modGroup k f).logBase = s.logBase := rfl
@[simp] theorem modGroup_logSize (k : Nat) (f : Group → Group) : (s.modGroup k f).logSize = s.logSize := rfl
@[simp] theorem modGroup_logSeq (k : Nat) (f : Group → Group) : (s.modGroup k f).logSeq = s.logSeq := rfl
@[simp] theorem modGroup_corrected (k : Nat) (f : Group → Group) : (s.modGroup k f).corrected = s.corrected := rfl
@[simp] theorem modGroup_notes (k : Nat) (f : Group → Group) : (s.modGroup k f).notes = s.notes := rfl
@[simp] theorem modGroup_haltControl (k : Nat) (f : Group → Group) : (s.modGroup k f).haltControl = s.haltControl := rfl
@[simp] theorem modGroup_channels (k : Nat) (f : Group → Group) : (s.modGroup k f).channels = s.channels := rfl
@[simp] theorem modGroup_emulationTable (k : Nat) (f : Group → Group) : (s.modGroup k f).emulationTable = s.emulationTable := rfl
@[simp] theorem modGroup_emulationLease (k : Nat) (f : Group → Group) : (s.modGroup k f).emulationLease = s.emulationLease := rfl
@[simp] theorem modGroup_recoveryAddr (k : Nat) (f : Group → Group) : (s.modGroup k f).recoveryAddr = s.recoveryAddr := rfl
@[simp] theorem modGroup_recoveryLength (k : Nat) (f : Group → Group) : (s.modGroup k f).recoveryLength = s.recoveryLength := rfl
@[simp] theorem modGroup_power (k : Nat) (f : Group → Group) : (s.modGroup k f).power = s.power := rfl
@[simp] theorem modGroup_emberArmed (k : Nat) (f : Group → Group) : (s.modGroup k f).emberArmed = s.emberArmed := rfl
@[simp] theorem modGroup_warned (k : Nat) (f : Group → Group) : (s.modGroup k f).warned = s.warned := rfl
@[simp] theorem modGroup_supplied (k : Nat) (f : Group → Group) : (s.modGroup k f).supplied = s.supplied := rfl
@[simp] theorem modGroup_badRecords (k : Nat) (f : Group → Group) : (s.modGroup k f).badRecords = s.badRecords := rfl
@[simp] theorem modGroup_frames (k : Nat) (f : Group → Group) : (s.modGroup k f).frames = s.frames := rfl
@[simp] theorem modGroup_peers (k : Nat) (f : Group → Group) : (s.modGroup k f).peers = s.peers := rfl
@[simp] theorem modGroup_ports (k : Nat) (f : Group → Group) : (s.modGroup k f).ports = s.ports := rfl
@[simp] theorem modGroup_firmware (k : Nat) (f : Group → Group) : (s.modGroup k f).firmware = s.firmware := rfl
@[simp] theorem modGroup_replies (k : Nat) (f : Group → Group) : (s.modGroup k f).replies = s.replies := rfl
@[simp] theorem modGroup_irqs (k : Nat) (f : Group → Group) : (s.modGroup k f).irqs = s.irqs := rfl
@[simp] theorem modGroup_uses (k : Nat) (f : Group → Group) : (s.modGroup k f).uses = s.uses := rfl
@[simp] theorem modGroup_nextId (k : Nat) (f : Group → Group) : (s.modGroup k f).nextId = s.nextId := rfl
@[simp] theorem modGroup_fresh (k : Nat) (f : Group → Group) : (s.modGroup k f).fresh = s.fresh := rfl
@[simp] theorem modGroup_issued (k : Nat) (f : Group → Group) : (s.modGroup k f).issued = s.issued := rfl
@[simp] theorem modGroup_agenda (k : Nat) (f : Group → Group) : (s.modGroup k f).agenda = s.agenda := rfl
@[simp] theorem modGroup_turn (k : Nat) (f : Group → Group) : (s.modGroup k f).turn = s.turn := rfl
@[simp] theorem modGroup_cur (k : Nat) (f : Group → Group) : (s.modGroup k f).cur = s.cur := rfl
@[simp] theorem modGroup_heldIssues (k : Nat) (f : Group → Group) : (s.modGroup k f).heldIssues = s.heldIssues := rfl

/-! `modBlock` -/

@[simp] theorem modBlock_time (k : Nat) (f : Block → Block) : (s.modBlock k f).time = s.time := rfl
@[simp] theorem modBlock_cycle (k : Nat) (f : Block → Block) : (s.modBlock k f).cycle = s.cycle := rfl
@[simp] theorem modBlock_mem (k : Nat) (f : Block → Block) : (s.modBlock k f).mem = s.mem := rfl
@[simp] theorem modBlock_writes (k : Nat) (f : Block → Block) : (s.modBlock k f).writes = s.writes := rfl
@[simp] theorem modBlock_cores (k : Nat) (f : Block → Block) : (s.modBlock k f).cores = s.cores := rfl
@[simp] theorem modBlock_lanes (k : Nat) (f : Block → Block) : (s.modBlock k f).lanes = s.lanes := rfl
@[simp] theorem modBlock_gangs (k : Nat) (f : Block → Block) : (s.modBlock k f).gangs = s.gangs := rfl
@[simp] theorem modBlock_groups (k : Nat) (f : Block → Block) : (s.modBlock k f).groups = s.groups := rfl
@[simp] theorem modBlock_blocks (k : Nat) (f : Block → Block) : (s.modBlock k f).blocks = tmod s.blocks k f := rfl
@[simp] theorem modBlock_launches (k : Nat) (f : Block → Block) : (s.modBlock k f).launches = s.launches := rfl
@[simp] theorem modBlock_net (k : Nat) (f : Block → Block) : (s.modBlock k f).net = s.net := rfl
@[simp] theorem modBlock_requests (k : Nat) (f : Block → Block) : (s.modBlock k f).requests = s.requests := rfl
@[simp] theorem modBlock_records (k : Nat) (f : Block → Block) : (s.modBlock k f).records = s.records := rfl
@[simp] theorem modBlock_drains (k : Nat) (f : Block → Block) : (s.modBlock k f).drains = s.drains := rfl
@[simp] theorem modBlock_l2 (k : Nat) (f : Block → Block) : (s.modBlock k f).l2 = s.l2 := rfl
@[simp] theorem modBlock_hostLines (k : Nat) (f : Block → Block) : (s.modBlock k f).hostLines = s.hostLines := rfl
@[simp] theorem modBlock_leaseTab (k : Nat) (f : Block → Block) : (s.modBlock k f).leaseTab = s.leaseTab := rfl
@[simp] theorem modBlock_leaseQueue (k : Nat) (f : Block → Block) : (s.modBlock k f).leaseQueue = s.leaseQueue := rfl
@[simp] theorem modBlock_regionDir (k : Nat) (f : Block → Block) : (s.modBlock k f).regionDir = s.regionDir := rfl
@[simp] theorem modBlock_absent (k : Nat) (f : Block → Block) : (s.modBlock k f).absent = s.absent := rfl
@[simp] theorem modBlock_failed (k : Nat) (f : Block → Block) : (s.modBlock k f).failed = s.failed := rfl
@[simp] theorem modBlock_pfRecords (k : Nat) (f : Block → Block) : (s.modBlock k f).pfRecords = s.pfRecords := rfl
@[simp] theorem modBlock_mreds (k : Nat) (f : Block → Block) : (s.modBlock k f).mreds = s.mreds := rfl
@[simp] theorem modBlock_migrations (k : Nat) (f : Block → Block) : (s.modBlock k f).migrations = s.migrations := rfl
@[simp] theorem modBlock_policy (k : Nat) (f : Block → Block) : (s.modBlock k f).policy = s.policy := rfl
@[simp] theorem modBlock_freeFrames (k : Nat) (f : Block → Block) : (s.modBlock k f).freeFrames = s.freeFrames := rfl
@[simp] theorem modBlock_spareUsed (k : Nat) (f : Block → Block) : (s.modBlock k f).spareUsed = s.spareUsed := rfl
@[simp] theorem modBlock_sampleK (k : Nat) (f : Block → Block) : (s.modBlock k f).sampleK = s.sampleK := rfl
@[simp] theorem modBlock_sampleBase (k : Nat) (f : Block → Block) : (s.modBlock k f).sampleBase = s.sampleBase := rfl
@[simp] theorem modBlock_sampleHead (k : Nat) (f : Block → Block) : (s.modBlock k f).sampleHead = s.sampleHead := rfl
@[simp] theorem modBlock_samples (k : Nat) (f : Block → Block) : (s.modBlock k f).samples = s.samples := rfl
@[simp] theorem modBlock_sampleLost (k : Nat) (f : Block → Block) : (s.modBlock k f).sampleLost = s.sampleLost := rfl
@[simp] theorem modBlock_regions (k : Nat) (f : Block → Block) : (s.modBlock k f).regions = s.regions := rfl
@[simp] theorem modBlock_queues (k : Nat) (f : Block → Block) : (s.modBlock k f).queues = s.queues := rfl
@[simp] theorem modBlock_commands (k : Nat) (f : Block → Block) : (s.modBlock k f).commands = s.commands := rfl
@[simp] theorem modBlock_nextSeq (k : Nat) (f : Block → Block) : (s.modBlock k f).nextSeq = s.nextSeq := rfl
@[simp] theorem modBlock_journalBase (k : Nat) (f : Block → Block) : (s.modBlock k f).journalBase = s.journalBase := rfl
@[simp] theorem modBlock_journalSize (k : Nat) (f : Block → Block) : (s.modBlock k f).journalSize = s.journalSize := rfl
@[simp] theorem modBlock_logBase (k : Nat) (f : Block → Block) : (s.modBlock k f).logBase = s.logBase := rfl
@[simp] theorem modBlock_logSize (k : Nat) (f : Block → Block) : (s.modBlock k f).logSize = s.logSize := rfl
@[simp] theorem modBlock_logSeq (k : Nat) (f : Block → Block) : (s.modBlock k f).logSeq = s.logSeq := rfl
@[simp] theorem modBlock_corrected (k : Nat) (f : Block → Block) : (s.modBlock k f).corrected = s.corrected := rfl
@[simp] theorem modBlock_notes (k : Nat) (f : Block → Block) : (s.modBlock k f).notes = s.notes := rfl
@[simp] theorem modBlock_haltControl (k : Nat) (f : Block → Block) : (s.modBlock k f).haltControl = s.haltControl := rfl
@[simp] theorem modBlock_channels (k : Nat) (f : Block → Block) : (s.modBlock k f).channels = s.channels := rfl
@[simp] theorem modBlock_emulationTable (k : Nat) (f : Block → Block) : (s.modBlock k f).emulationTable = s.emulationTable := rfl
@[simp] theorem modBlock_emulationLease (k : Nat) (f : Block → Block) : (s.modBlock k f).emulationLease = s.emulationLease := rfl
@[simp] theorem modBlock_recoveryAddr (k : Nat) (f : Block → Block) : (s.modBlock k f).recoveryAddr = s.recoveryAddr := rfl
@[simp] theorem modBlock_recoveryLength (k : Nat) (f : Block → Block) : (s.modBlock k f).recoveryLength = s.recoveryLength := rfl
@[simp] theorem modBlock_power (k : Nat) (f : Block → Block) : (s.modBlock k f).power = s.power := rfl
@[simp] theorem modBlock_emberArmed (k : Nat) (f : Block → Block) : (s.modBlock k f).emberArmed = s.emberArmed := rfl
@[simp] theorem modBlock_warned (k : Nat) (f : Block → Block) : (s.modBlock k f).warned = s.warned := rfl
@[simp] theorem modBlock_supplied (k : Nat) (f : Block → Block) : (s.modBlock k f).supplied = s.supplied := rfl
@[simp] theorem modBlock_badRecords (k : Nat) (f : Block → Block) : (s.modBlock k f).badRecords = s.badRecords := rfl
@[simp] theorem modBlock_frames (k : Nat) (f : Block → Block) : (s.modBlock k f).frames = s.frames := rfl
@[simp] theorem modBlock_peers (k : Nat) (f : Block → Block) : (s.modBlock k f).peers = s.peers := rfl
@[simp] theorem modBlock_ports (k : Nat) (f : Block → Block) : (s.modBlock k f).ports = s.ports := rfl
@[simp] theorem modBlock_firmware (k : Nat) (f : Block → Block) : (s.modBlock k f).firmware = s.firmware := rfl
@[simp] theorem modBlock_replies (k : Nat) (f : Block → Block) : (s.modBlock k f).replies = s.replies := rfl
@[simp] theorem modBlock_irqs (k : Nat) (f : Block → Block) : (s.modBlock k f).irqs = s.irqs := rfl
@[simp] theorem modBlock_uses (k : Nat) (f : Block → Block) : (s.modBlock k f).uses = s.uses := rfl
@[simp] theorem modBlock_nextId (k : Nat) (f : Block → Block) : (s.modBlock k f).nextId = s.nextId := rfl
@[simp] theorem modBlock_fresh (k : Nat) (f : Block → Block) : (s.modBlock k f).fresh = s.fresh := rfl
@[simp] theorem modBlock_issued (k : Nat) (f : Block → Block) : (s.modBlock k f).issued = s.issued := rfl
@[simp] theorem modBlock_agenda (k : Nat) (f : Block → Block) : (s.modBlock k f).agenda = s.agenda := rfl
@[simp] theorem modBlock_turn (k : Nat) (f : Block → Block) : (s.modBlock k f).turn = s.turn := rfl
@[simp] theorem modBlock_cur (k : Nat) (f : Block → Block) : (s.modBlock k f).cur = s.cur := rfl
@[simp] theorem modBlock_heldIssues (k : Nat) (f : Block → Block) : (s.modBlock k f).heldIssues = s.heldIssues := rfl

/-! `modLaunch` -/

@[simp] theorem modLaunch_time (q : Nat) (f : Launch → Launch) : (s.modLaunch q f).time = s.time := rfl
@[simp] theorem modLaunch_cycle (q : Nat) (f : Launch → Launch) : (s.modLaunch q f).cycle = s.cycle := rfl
@[simp] theorem modLaunch_mem (q : Nat) (f : Launch → Launch) : (s.modLaunch q f).mem = s.mem := rfl
@[simp] theorem modLaunch_writes (q : Nat) (f : Launch → Launch) : (s.modLaunch q f).writes = s.writes := rfl
@[simp] theorem modLaunch_cores (q : Nat) (f : Launch → Launch) : (s.modLaunch q f).cores = s.cores := rfl
@[simp] theorem modLaunch_lanes (q : Nat) (f : Launch → Launch) : (s.modLaunch q f).lanes = s.lanes := rfl
@[simp] theorem modLaunch_gangs (q : Nat) (f : Launch → Launch) : (s.modLaunch q f).gangs = s.gangs := rfl
@[simp] theorem modLaunch_groups (q : Nat) (f : Launch → Launch) : (s.modLaunch q f).groups = s.groups := rfl
@[simp] theorem modLaunch_blocks (q : Nat) (f : Launch → Launch) : (s.modLaunch q f).blocks = s.blocks := rfl
@[simp] theorem modLaunch_launches (q : Nat) (f : Launch → Launch) : (s.modLaunch q f).launches = tmod s.launches q f := rfl
@[simp] theorem modLaunch_net (q : Nat) (f : Launch → Launch) : (s.modLaunch q f).net = s.net := rfl
@[simp] theorem modLaunch_requests (q : Nat) (f : Launch → Launch) : (s.modLaunch q f).requests = s.requests := rfl
@[simp] theorem modLaunch_records (q : Nat) (f : Launch → Launch) : (s.modLaunch q f).records = s.records := rfl
@[simp] theorem modLaunch_drains (q : Nat) (f : Launch → Launch) : (s.modLaunch q f).drains = s.drains := rfl
@[simp] theorem modLaunch_l2 (q : Nat) (f : Launch → Launch) : (s.modLaunch q f).l2 = s.l2 := rfl
@[simp] theorem modLaunch_hostLines (q : Nat) (f : Launch → Launch) : (s.modLaunch q f).hostLines = s.hostLines := rfl
@[simp] theorem modLaunch_leaseTab (q : Nat) (f : Launch → Launch) : (s.modLaunch q f).leaseTab = s.leaseTab := rfl
@[simp] theorem modLaunch_leaseQueue (q : Nat) (f : Launch → Launch) : (s.modLaunch q f).leaseQueue = s.leaseQueue := rfl
@[simp] theorem modLaunch_regionDir (q : Nat) (f : Launch → Launch) : (s.modLaunch q f).regionDir = s.regionDir := rfl
@[simp] theorem modLaunch_absent (q : Nat) (f : Launch → Launch) : (s.modLaunch q f).absent = s.absent := rfl
@[simp] theorem modLaunch_failed (q : Nat) (f : Launch → Launch) : (s.modLaunch q f).failed = s.failed := rfl
@[simp] theorem modLaunch_pfRecords (q : Nat) (f : Launch → Launch) : (s.modLaunch q f).pfRecords = s.pfRecords := rfl
@[simp] theorem modLaunch_mreds (q : Nat) (f : Launch → Launch) : (s.modLaunch q f).mreds = s.mreds := rfl
@[simp] theorem modLaunch_migrations (q : Nat) (f : Launch → Launch) : (s.modLaunch q f).migrations = s.migrations := rfl
@[simp] theorem modLaunch_policy (q : Nat) (f : Launch → Launch) : (s.modLaunch q f).policy = s.policy := rfl
@[simp] theorem modLaunch_freeFrames (q : Nat) (f : Launch → Launch) : (s.modLaunch q f).freeFrames = s.freeFrames := rfl
@[simp] theorem modLaunch_spareUsed (q : Nat) (f : Launch → Launch) : (s.modLaunch q f).spareUsed = s.spareUsed := rfl
@[simp] theorem modLaunch_sampleK (q : Nat) (f : Launch → Launch) : (s.modLaunch q f).sampleK = s.sampleK := rfl
@[simp] theorem modLaunch_sampleBase (q : Nat) (f : Launch → Launch) : (s.modLaunch q f).sampleBase = s.sampleBase := rfl
@[simp] theorem modLaunch_sampleHead (q : Nat) (f : Launch → Launch) : (s.modLaunch q f).sampleHead = s.sampleHead := rfl
@[simp] theorem modLaunch_samples (q : Nat) (f : Launch → Launch) : (s.modLaunch q f).samples = s.samples := rfl
@[simp] theorem modLaunch_sampleLost (q : Nat) (f : Launch → Launch) : (s.modLaunch q f).sampleLost = s.sampleLost := rfl
@[simp] theorem modLaunch_regions (q : Nat) (f : Launch → Launch) : (s.modLaunch q f).regions = s.regions := rfl
@[simp] theorem modLaunch_queues (q : Nat) (f : Launch → Launch) : (s.modLaunch q f).queues = s.queues := rfl
@[simp] theorem modLaunch_commands (q : Nat) (f : Launch → Launch) : (s.modLaunch q f).commands = s.commands := rfl
@[simp] theorem modLaunch_nextSeq (q : Nat) (f : Launch → Launch) : (s.modLaunch q f).nextSeq = s.nextSeq := rfl
@[simp] theorem modLaunch_journalBase (q : Nat) (f : Launch → Launch) : (s.modLaunch q f).journalBase = s.journalBase := rfl
@[simp] theorem modLaunch_journalSize (q : Nat) (f : Launch → Launch) : (s.modLaunch q f).journalSize = s.journalSize := rfl
@[simp] theorem modLaunch_logBase (q : Nat) (f : Launch → Launch) : (s.modLaunch q f).logBase = s.logBase := rfl
@[simp] theorem modLaunch_logSize (q : Nat) (f : Launch → Launch) : (s.modLaunch q f).logSize = s.logSize := rfl
@[simp] theorem modLaunch_logSeq (q : Nat) (f : Launch → Launch) : (s.modLaunch q f).logSeq = s.logSeq := rfl
@[simp] theorem modLaunch_corrected (q : Nat) (f : Launch → Launch) : (s.modLaunch q f).corrected = s.corrected := rfl
@[simp] theorem modLaunch_notes (q : Nat) (f : Launch → Launch) : (s.modLaunch q f).notes = s.notes := rfl
@[simp] theorem modLaunch_haltControl (q : Nat) (f : Launch → Launch) : (s.modLaunch q f).haltControl = s.haltControl := rfl
@[simp] theorem modLaunch_channels (q : Nat) (f : Launch → Launch) : (s.modLaunch q f).channels = s.channels := rfl
@[simp] theorem modLaunch_emulationTable (q : Nat) (f : Launch → Launch) : (s.modLaunch q f).emulationTable = s.emulationTable := rfl
@[simp] theorem modLaunch_emulationLease (q : Nat) (f : Launch → Launch) : (s.modLaunch q f).emulationLease = s.emulationLease := rfl
@[simp] theorem modLaunch_recoveryAddr (q : Nat) (f : Launch → Launch) : (s.modLaunch q f).recoveryAddr = s.recoveryAddr := rfl
@[simp] theorem modLaunch_recoveryLength (q : Nat) (f : Launch → Launch) : (s.modLaunch q f).recoveryLength = s.recoveryLength := rfl
@[simp] theorem modLaunch_power (q : Nat) (f : Launch → Launch) : (s.modLaunch q f).power = s.power := rfl
@[simp] theorem modLaunch_emberArmed (q : Nat) (f : Launch → Launch) : (s.modLaunch q f).emberArmed = s.emberArmed := rfl
@[simp] theorem modLaunch_warned (q : Nat) (f : Launch → Launch) : (s.modLaunch q f).warned = s.warned := rfl
@[simp] theorem modLaunch_supplied (q : Nat) (f : Launch → Launch) : (s.modLaunch q f).supplied = s.supplied := rfl
@[simp] theorem modLaunch_badRecords (q : Nat) (f : Launch → Launch) : (s.modLaunch q f).badRecords = s.badRecords := rfl
@[simp] theorem modLaunch_frames (q : Nat) (f : Launch → Launch) : (s.modLaunch q f).frames = s.frames := rfl
@[simp] theorem modLaunch_peers (q : Nat) (f : Launch → Launch) : (s.modLaunch q f).peers = s.peers := rfl
@[simp] theorem modLaunch_ports (q : Nat) (f : Launch → Launch) : (s.modLaunch q f).ports = s.ports := rfl
@[simp] theorem modLaunch_firmware (q : Nat) (f : Launch → Launch) : (s.modLaunch q f).firmware = s.firmware := rfl
@[simp] theorem modLaunch_replies (q : Nat) (f : Launch → Launch) : (s.modLaunch q f).replies = s.replies := rfl
@[simp] theorem modLaunch_irqs (q : Nat) (f : Launch → Launch) : (s.modLaunch q f).irqs = s.irqs := rfl
@[simp] theorem modLaunch_uses (q : Nat) (f : Launch → Launch) : (s.modLaunch q f).uses = s.uses := rfl
@[simp] theorem modLaunch_nextId (q : Nat) (f : Launch → Launch) : (s.modLaunch q f).nextId = s.nextId := rfl
@[simp] theorem modLaunch_fresh (q : Nat) (f : Launch → Launch) : (s.modLaunch q f).fresh = s.fresh := rfl
@[simp] theorem modLaunch_issued (q : Nat) (f : Launch → Launch) : (s.modLaunch q f).issued = s.issued := rfl
@[simp] theorem modLaunch_agenda (q : Nat) (f : Launch → Launch) : (s.modLaunch q f).agenda = s.agenda := rfl
@[simp] theorem modLaunch_turn (q : Nat) (f : Launch → Launch) : (s.modLaunch q f).turn = s.turn := rfl
@[simp] theorem modLaunch_cur (q : Nat) (f : Launch → Launch) : (s.modLaunch q f).cur = s.cur := rfl
@[simp] theorem modLaunch_heldIssues (q : Nat) (f : Launch → Launch) : (s.modLaunch q f).heldIssues = s.heldIssues := rfl

/-! `storeByte` -/

@[simp] theorem storeByte_time (a : Nat) (b : Byte) : (s.storeByte a b).time = s.time := rfl
@[simp] theorem storeByte_cycle (a : Nat) (b : Byte) : (s.storeByte a b).cycle = s.cycle := rfl
@[simp] theorem storeByte_mem (a : Nat) (b : Byte) : (s.storeByte a b).mem = s.mem := rfl
@[simp] theorem storeByte_writes (a : Nat) (b : Byte) : (s.storeByte a b).writes = (a, b) :: s.writes := rfl
@[simp] theorem storeByte_cores (a : Nat) (b : Byte) : (s.storeByte a b).cores = s.cores := rfl
@[simp] theorem storeByte_lanes (a : Nat) (b : Byte) : (s.storeByte a b).lanes = s.lanes := rfl
@[simp] theorem storeByte_gangs (a : Nat) (b : Byte) : (s.storeByte a b).gangs = s.gangs := rfl
@[simp] theorem storeByte_groups (a : Nat) (b : Byte) : (s.storeByte a b).groups = s.groups := rfl
@[simp] theorem storeByte_blocks (a : Nat) (b : Byte) : (s.storeByte a b).blocks = s.blocks := rfl
@[simp] theorem storeByte_launches (a : Nat) (b : Byte) : (s.storeByte a b).launches = s.launches := rfl
@[simp] theorem storeByte_net (a : Nat) (b : Byte) : (s.storeByte a b).net = s.net := rfl
@[simp] theorem storeByte_requests (a : Nat) (b : Byte) : (s.storeByte a b).requests = s.requests := rfl
@[simp] theorem storeByte_records (a : Nat) (b : Byte) : (s.storeByte a b).records = s.records := rfl
@[simp] theorem storeByte_drains (a : Nat) (b : Byte) : (s.storeByte a b).drains = s.drains := rfl
@[simp] theorem storeByte_l2 (a : Nat) (b : Byte) : (s.storeByte a b).l2 = s.l2 := rfl
@[simp] theorem storeByte_hostLines (a : Nat) (b : Byte) : (s.storeByte a b).hostLines = s.hostLines := rfl
@[simp] theorem storeByte_leaseTab (a : Nat) (b : Byte) : (s.storeByte a b).leaseTab = s.leaseTab := rfl
@[simp] theorem storeByte_leaseQueue (a : Nat) (b : Byte) : (s.storeByte a b).leaseQueue = s.leaseQueue := rfl
@[simp] theorem storeByte_regionDir (a : Nat) (b : Byte) : (s.storeByte a b).regionDir = s.regionDir := rfl
@[simp] theorem storeByte_absent (a : Nat) (b : Byte) : (s.storeByte a b).absent = s.absent := rfl
@[simp] theorem storeByte_failed (a : Nat) (b : Byte) : (s.storeByte a b).failed = s.failed := rfl
@[simp] theorem storeByte_pfRecords (a : Nat) (b : Byte) : (s.storeByte a b).pfRecords = s.pfRecords := rfl
@[simp] theorem storeByte_mreds (a : Nat) (b : Byte) : (s.storeByte a b).mreds = s.mreds := rfl
@[simp] theorem storeByte_migrations (a : Nat) (b : Byte) : (s.storeByte a b).migrations = s.migrations := rfl
@[simp] theorem storeByte_policy (a : Nat) (b : Byte) : (s.storeByte a b).policy = s.policy := rfl
@[simp] theorem storeByte_freeFrames (a : Nat) (b : Byte) : (s.storeByte a b).freeFrames = s.freeFrames := rfl
@[simp] theorem storeByte_spareUsed (a : Nat) (b : Byte) : (s.storeByte a b).spareUsed = s.spareUsed := rfl
@[simp] theorem storeByte_sampleK (a : Nat) (b : Byte) : (s.storeByte a b).sampleK = s.sampleK := rfl
@[simp] theorem storeByte_sampleBase (a : Nat) (b : Byte) : (s.storeByte a b).sampleBase = s.sampleBase := rfl
@[simp] theorem storeByte_sampleHead (a : Nat) (b : Byte) : (s.storeByte a b).sampleHead = s.sampleHead := rfl
@[simp] theorem storeByte_samples (a : Nat) (b : Byte) : (s.storeByte a b).samples = s.samples := rfl
@[simp] theorem storeByte_sampleLost (a : Nat) (b : Byte) : (s.storeByte a b).sampleLost = s.sampleLost := rfl
@[simp] theorem storeByte_regions (a : Nat) (b : Byte) : (s.storeByte a b).regions = s.regions := rfl
@[simp] theorem storeByte_queues (a : Nat) (b : Byte) : (s.storeByte a b).queues = s.queues := rfl
@[simp] theorem storeByte_commands (a : Nat) (b : Byte) : (s.storeByte a b).commands = s.commands := rfl
@[simp] theorem storeByte_nextSeq (a : Nat) (b : Byte) : (s.storeByte a b).nextSeq = s.nextSeq := rfl
@[simp] theorem storeByte_journalBase (a : Nat) (b : Byte) : (s.storeByte a b).journalBase = s.journalBase := rfl
@[simp] theorem storeByte_journalSize (a : Nat) (b : Byte) : (s.storeByte a b).journalSize = s.journalSize := rfl
@[simp] theorem storeByte_logBase (a : Nat) (b : Byte) : (s.storeByte a b).logBase = s.logBase := rfl
@[simp] theorem storeByte_logSize (a : Nat) (b : Byte) : (s.storeByte a b).logSize = s.logSize := rfl
@[simp] theorem storeByte_logSeq (a : Nat) (b : Byte) : (s.storeByte a b).logSeq = s.logSeq := rfl
@[simp] theorem storeByte_corrected (a : Nat) (b : Byte) : (s.storeByte a b).corrected = s.corrected := rfl
@[simp] theorem storeByte_notes (a : Nat) (b : Byte) : (s.storeByte a b).notes = s.notes := rfl
@[simp] theorem storeByte_haltControl (a : Nat) (b : Byte) : (s.storeByte a b).haltControl = s.haltControl := rfl
@[simp] theorem storeByte_channels (a : Nat) (b : Byte) : (s.storeByte a b).channels = s.channels := rfl
@[simp] theorem storeByte_emulationTable (a : Nat) (b : Byte) : (s.storeByte a b).emulationTable = s.emulationTable := rfl
@[simp] theorem storeByte_emulationLease (a : Nat) (b : Byte) : (s.storeByte a b).emulationLease = s.emulationLease := rfl
@[simp] theorem storeByte_recoveryAddr (a : Nat) (b : Byte) : (s.storeByte a b).recoveryAddr = s.recoveryAddr := rfl
@[simp] theorem storeByte_recoveryLength (a : Nat) (b : Byte) : (s.storeByte a b).recoveryLength = s.recoveryLength := rfl
@[simp] theorem storeByte_power (a : Nat) (b : Byte) : (s.storeByte a b).power = s.power := rfl
@[simp] theorem storeByte_emberArmed (a : Nat) (b : Byte) : (s.storeByte a b).emberArmed = s.emberArmed := rfl
@[simp] theorem storeByte_warned (a : Nat) (b : Byte) : (s.storeByte a b).warned = s.warned := rfl
@[simp] theorem storeByte_supplied (a : Nat) (b : Byte) : (s.storeByte a b).supplied = s.supplied := rfl
@[simp] theorem storeByte_badRecords (a : Nat) (b : Byte) : (s.storeByte a b).badRecords = s.badRecords := rfl
@[simp] theorem storeByte_frames (a : Nat) (b : Byte) : (s.storeByte a b).frames = s.frames := rfl
@[simp] theorem storeByte_peers (a : Nat) (b : Byte) : (s.storeByte a b).peers = s.peers := rfl
@[simp] theorem storeByte_ports (a : Nat) (b : Byte) : (s.storeByte a b).ports = s.ports := rfl
@[simp] theorem storeByte_firmware (a : Nat) (b : Byte) : (s.storeByte a b).firmware = s.firmware := rfl
@[simp] theorem storeByte_replies (a : Nat) (b : Byte) : (s.storeByte a b).replies = s.replies := rfl
@[simp] theorem storeByte_irqs (a : Nat) (b : Byte) : (s.storeByte a b).irqs = s.irqs := rfl
@[simp] theorem storeByte_uses (a : Nat) (b : Byte) : (s.storeByte a b).uses = s.uses := rfl
@[simp] theorem storeByte_nextId (a : Nat) (b : Byte) : (s.storeByte a b).nextId = s.nextId := rfl
@[simp] theorem storeByte_fresh (a : Nat) (b : Byte) : (s.storeByte a b).fresh = s.fresh := rfl
@[simp] theorem storeByte_issued (a : Nat) (b : Byte) : (s.storeByte a b).issued = s.issued := rfl
@[simp] theorem storeByte_agenda (a : Nat) (b : Byte) : (s.storeByte a b).agenda = s.agenda := rfl
@[simp] theorem storeByte_turn (a : Nat) (b : Byte) : (s.storeByte a b).turn = s.turn := rfl
@[simp] theorem storeByte_cur (a : Nat) (b : Byte) : (s.storeByte a b).cur = s.cur := rfl
@[simp] theorem storeByte_heldIssues (a : Nat) (b : Byte) : (s.storeByte a b).heldIssues = s.heldIssues := rfl

/-! `send'` -/

@[simp] theorem send'_time (m : Msg) : (s.send' m).time = s.time := rfl
@[simp] theorem send'_cycle (m : Msg) : (s.send' m).cycle = s.cycle := rfl
@[simp] theorem send'_mem (m : Msg) : (s.send' m).mem = s.mem := rfl
@[simp] theorem send'_writes (m : Msg) : (s.send' m).writes = s.writes := rfl
@[simp] theorem send'_cores (m : Msg) : (s.send' m).cores = s.cores := rfl
@[simp] theorem send'_lanes (m : Msg) : (s.send' m).lanes = s.lanes := rfl
@[simp] theorem send'_gangs (m : Msg) : (s.send' m).gangs = s.gangs := rfl
@[simp] theorem send'_groups (m : Msg) : (s.send' m).groups = s.groups := rfl
@[simp] theorem send'_blocks (m : Msg) : (s.send' m).blocks = s.blocks := rfl
@[simp] theorem send'_launches (m : Msg) : (s.send' m).launches = s.launches := rfl
@[simp] theorem send'_net (m : Msg) : (s.send' m).net = tput s.net s.nextId m := rfl
@[simp] theorem send'_requests (m : Msg) : (s.send' m).requests = s.requests := rfl
@[simp] theorem send'_records (m : Msg) : (s.send' m).records = s.records := rfl
@[simp] theorem send'_drains (m : Msg) : (s.send' m).drains = s.drains := rfl
@[simp] theorem send'_l2 (m : Msg) : (s.send' m).l2 = s.l2 := rfl
@[simp] theorem send'_hostLines (m : Msg) : (s.send' m).hostLines = s.hostLines := rfl
@[simp] theorem send'_leaseTab (m : Msg) : (s.send' m).leaseTab = s.leaseTab := rfl
@[simp] theorem send'_leaseQueue (m : Msg) : (s.send' m).leaseQueue = s.leaseQueue := rfl
@[simp] theorem send'_regionDir (m : Msg) : (s.send' m).regionDir = s.regionDir := rfl
@[simp] theorem send'_absent (m : Msg) : (s.send' m).absent = s.absent := rfl
@[simp] theorem send'_failed (m : Msg) : (s.send' m).failed = s.failed := rfl
@[simp] theorem send'_pfRecords (m : Msg) : (s.send' m).pfRecords = s.pfRecords := rfl
@[simp] theorem send'_mreds (m : Msg) : (s.send' m).mreds = s.mreds := rfl
@[simp] theorem send'_migrations (m : Msg) : (s.send' m).migrations = s.migrations := rfl
@[simp] theorem send'_policy (m : Msg) : (s.send' m).policy = s.policy := rfl
@[simp] theorem send'_freeFrames (m : Msg) : (s.send' m).freeFrames = s.freeFrames := rfl
@[simp] theorem send'_spareUsed (m : Msg) : (s.send' m).spareUsed = s.spareUsed := rfl
@[simp] theorem send'_sampleK (m : Msg) : (s.send' m).sampleK = s.sampleK := rfl
@[simp] theorem send'_sampleBase (m : Msg) : (s.send' m).sampleBase = s.sampleBase := rfl
@[simp] theorem send'_sampleHead (m : Msg) : (s.send' m).sampleHead = s.sampleHead := rfl
@[simp] theorem send'_samples (m : Msg) : (s.send' m).samples = s.samples := rfl
@[simp] theorem send'_sampleLost (m : Msg) : (s.send' m).sampleLost = s.sampleLost := rfl
@[simp] theorem send'_regions (m : Msg) : (s.send' m).regions = s.regions := rfl
@[simp] theorem send'_queues (m : Msg) : (s.send' m).queues = s.queues := rfl
@[simp] theorem send'_commands (m : Msg) : (s.send' m).commands = s.commands := rfl
@[simp] theorem send'_nextSeq (m : Msg) : (s.send' m).nextSeq = s.nextSeq := rfl
@[simp] theorem send'_journalBase (m : Msg) : (s.send' m).journalBase = s.journalBase := rfl
@[simp] theorem send'_journalSize (m : Msg) : (s.send' m).journalSize = s.journalSize := rfl
@[simp] theorem send'_logBase (m : Msg) : (s.send' m).logBase = s.logBase := rfl
@[simp] theorem send'_logSize (m : Msg) : (s.send' m).logSize = s.logSize := rfl
@[simp] theorem send'_logSeq (m : Msg) : (s.send' m).logSeq = s.logSeq := rfl
@[simp] theorem send'_corrected (m : Msg) : (s.send' m).corrected = s.corrected := rfl
@[simp] theorem send'_notes (m : Msg) : (s.send' m).notes = s.notes := rfl
@[simp] theorem send'_haltControl (m : Msg) : (s.send' m).haltControl = s.haltControl := rfl
@[simp] theorem send'_channels (m : Msg) : (s.send' m).channels = s.channels := rfl
@[simp] theorem send'_emulationTable (m : Msg) : (s.send' m).emulationTable = s.emulationTable := rfl
@[simp] theorem send'_emulationLease (m : Msg) : (s.send' m).emulationLease = s.emulationLease := rfl
@[simp] theorem send'_recoveryAddr (m : Msg) : (s.send' m).recoveryAddr = s.recoveryAddr := rfl
@[simp] theorem send'_recoveryLength (m : Msg) : (s.send' m).recoveryLength = s.recoveryLength := rfl
@[simp] theorem send'_power (m : Msg) : (s.send' m).power = s.power := rfl
@[simp] theorem send'_emberArmed (m : Msg) : (s.send' m).emberArmed = s.emberArmed := rfl
@[simp] theorem send'_warned (m : Msg) : (s.send' m).warned = s.warned := rfl
@[simp] theorem send'_supplied (m : Msg) : (s.send' m).supplied = s.supplied := rfl
@[simp] theorem send'_badRecords (m : Msg) : (s.send' m).badRecords = s.badRecords := rfl
@[simp] theorem send'_frames (m : Msg) : (s.send' m).frames = s.frames := rfl
@[simp] theorem send'_peers (m : Msg) : (s.send' m).peers = s.peers := rfl
@[simp] theorem send'_ports (m : Msg) : (s.send' m).ports = s.ports := rfl
@[simp] theorem send'_firmware (m : Msg) : (s.send' m).firmware = s.firmware := rfl
@[simp] theorem send'_replies (m : Msg) : (s.send' m).replies = s.replies := rfl
@[simp] theorem send'_irqs (m : Msg) : (s.send' m).irqs = s.irqs := rfl
@[simp] theorem send'_uses (m : Msg) : (s.send' m).uses = s.uses := rfl
@[simp] theorem send'_nextId (m : Msg) : (s.send' m).nextId = s.nextId + 1 := rfl
@[simp] theorem send'_fresh (m : Msg) : (s.send' m).fresh = s.fresh := rfl
@[simp] theorem send'_issued (m : Msg) : (s.send' m).issued = s.issued := rfl
@[simp] theorem send'_agenda (m : Msg) : (s.send' m).agenda = s.agenda := rfl
@[simp] theorem send'_turn (m : Msg) : (s.send' m).turn = s.turn := rfl
@[simp] theorem send'_cur (m : Msg) : (s.send' m).cur = s.cur := rfl
@[simp] theorem send'_heldIssues (m : Msg) : (s.send' m).heldIssues = s.heldIssues := rfl

/-! `dropMsg` -/

@[simp] theorem dropMsg_time (k : Nat) : (s.dropMsg k).time = s.time := rfl
@[simp] theorem dropMsg_cycle (k : Nat) : (s.dropMsg k).cycle = s.cycle := rfl
@[simp] theorem dropMsg_mem (k : Nat) : (s.dropMsg k).mem = s.mem := rfl
@[simp] theorem dropMsg_writes (k : Nat) : (s.dropMsg k).writes = s.writes := rfl
@[simp] theorem dropMsg_cores (k : Nat) : (s.dropMsg k).cores = s.cores := rfl
@[simp] theorem dropMsg_lanes (k : Nat) : (s.dropMsg k).lanes = s.lanes := rfl
@[simp] theorem dropMsg_gangs (k : Nat) : (s.dropMsg k).gangs = s.gangs := rfl
@[simp] theorem dropMsg_groups (k : Nat) : (s.dropMsg k).groups = s.groups := rfl
@[simp] theorem dropMsg_blocks (k : Nat) : (s.dropMsg k).blocks = s.blocks := rfl
@[simp] theorem dropMsg_launches (k : Nat) : (s.dropMsg k).launches = s.launches := rfl
@[simp] theorem dropMsg_net (k : Nat) : (s.dropMsg k).net = tdel s.net k := rfl
@[simp] theorem dropMsg_requests (k : Nat) : (s.dropMsg k).requests = s.requests := rfl
@[simp] theorem dropMsg_records (k : Nat) : (s.dropMsg k).records = s.records := rfl
@[simp] theorem dropMsg_drains (k : Nat) : (s.dropMsg k).drains = s.drains := rfl
@[simp] theorem dropMsg_l2 (k : Nat) : (s.dropMsg k).l2 = s.l2 := rfl
@[simp] theorem dropMsg_hostLines (k : Nat) : (s.dropMsg k).hostLines = s.hostLines := rfl
@[simp] theorem dropMsg_leaseTab (k : Nat) : (s.dropMsg k).leaseTab = s.leaseTab := rfl
@[simp] theorem dropMsg_leaseQueue (k : Nat) : (s.dropMsg k).leaseQueue = s.leaseQueue := rfl
@[simp] theorem dropMsg_regionDir (k : Nat) : (s.dropMsg k).regionDir = s.regionDir := rfl
@[simp] theorem dropMsg_absent (k : Nat) : (s.dropMsg k).absent = s.absent := rfl
@[simp] theorem dropMsg_failed (k : Nat) : (s.dropMsg k).failed = s.failed := rfl
@[simp] theorem dropMsg_pfRecords (k : Nat) : (s.dropMsg k).pfRecords = s.pfRecords := rfl
@[simp] theorem dropMsg_mreds (k : Nat) : (s.dropMsg k).mreds = s.mreds := rfl
@[simp] theorem dropMsg_migrations (k : Nat) : (s.dropMsg k).migrations = s.migrations := rfl
@[simp] theorem dropMsg_policy (k : Nat) : (s.dropMsg k).policy = s.policy := rfl
@[simp] theorem dropMsg_freeFrames (k : Nat) : (s.dropMsg k).freeFrames = s.freeFrames := rfl
@[simp] theorem dropMsg_spareUsed (k : Nat) : (s.dropMsg k).spareUsed = s.spareUsed := rfl
@[simp] theorem dropMsg_sampleK (k : Nat) : (s.dropMsg k).sampleK = s.sampleK := rfl
@[simp] theorem dropMsg_sampleBase (k : Nat) : (s.dropMsg k).sampleBase = s.sampleBase := rfl
@[simp] theorem dropMsg_sampleHead (k : Nat) : (s.dropMsg k).sampleHead = s.sampleHead := rfl
@[simp] theorem dropMsg_samples (k : Nat) : (s.dropMsg k).samples = s.samples := rfl
@[simp] theorem dropMsg_sampleLost (k : Nat) : (s.dropMsg k).sampleLost = s.sampleLost := rfl
@[simp] theorem dropMsg_regions (k : Nat) : (s.dropMsg k).regions = s.regions := rfl
@[simp] theorem dropMsg_queues (k : Nat) : (s.dropMsg k).queues = s.queues := rfl
@[simp] theorem dropMsg_commands (k : Nat) : (s.dropMsg k).commands = s.commands := rfl
@[simp] theorem dropMsg_nextSeq (k : Nat) : (s.dropMsg k).nextSeq = s.nextSeq := rfl
@[simp] theorem dropMsg_journalBase (k : Nat) : (s.dropMsg k).journalBase = s.journalBase := rfl
@[simp] theorem dropMsg_journalSize (k : Nat) : (s.dropMsg k).journalSize = s.journalSize := rfl
@[simp] theorem dropMsg_logBase (k : Nat) : (s.dropMsg k).logBase = s.logBase := rfl
@[simp] theorem dropMsg_logSize (k : Nat) : (s.dropMsg k).logSize = s.logSize := rfl
@[simp] theorem dropMsg_logSeq (k : Nat) : (s.dropMsg k).logSeq = s.logSeq := rfl
@[simp] theorem dropMsg_corrected (k : Nat) : (s.dropMsg k).corrected = s.corrected := rfl
@[simp] theorem dropMsg_notes (k : Nat) : (s.dropMsg k).notes = s.notes := rfl
@[simp] theorem dropMsg_haltControl (k : Nat) : (s.dropMsg k).haltControl = s.haltControl := rfl
@[simp] theorem dropMsg_channels (k : Nat) : (s.dropMsg k).channels = s.channels := rfl
@[simp] theorem dropMsg_emulationTable (k : Nat) : (s.dropMsg k).emulationTable = s.emulationTable := rfl
@[simp] theorem dropMsg_emulationLease (k : Nat) : (s.dropMsg k).emulationLease = s.emulationLease := rfl
@[simp] theorem dropMsg_recoveryAddr (k : Nat) : (s.dropMsg k).recoveryAddr = s.recoveryAddr := rfl
@[simp] theorem dropMsg_recoveryLength (k : Nat) : (s.dropMsg k).recoveryLength = s.recoveryLength := rfl
@[simp] theorem dropMsg_power (k : Nat) : (s.dropMsg k).power = s.power := rfl
@[simp] theorem dropMsg_emberArmed (k : Nat) : (s.dropMsg k).emberArmed = s.emberArmed := rfl
@[simp] theorem dropMsg_warned (k : Nat) : (s.dropMsg k).warned = s.warned := rfl
@[simp] theorem dropMsg_supplied (k : Nat) : (s.dropMsg k).supplied = s.supplied := rfl
@[simp] theorem dropMsg_badRecords (k : Nat) : (s.dropMsg k).badRecords = s.badRecords := rfl
@[simp] theorem dropMsg_frames (k : Nat) : (s.dropMsg k).frames = s.frames := rfl
@[simp] theorem dropMsg_peers (k : Nat) : (s.dropMsg k).peers = s.peers := rfl
@[simp] theorem dropMsg_ports (k : Nat) : (s.dropMsg k).ports = s.ports := rfl
@[simp] theorem dropMsg_firmware (k : Nat) : (s.dropMsg k).firmware = s.firmware := rfl
@[simp] theorem dropMsg_replies (k : Nat) : (s.dropMsg k).replies = s.replies := rfl
@[simp] theorem dropMsg_irqs (k : Nat) : (s.dropMsg k).irqs = s.irqs := rfl
@[simp] theorem dropMsg_uses (k : Nat) : (s.dropMsg k).uses = s.uses := rfl
@[simp] theorem dropMsg_nextId (k : Nat) : (s.dropMsg k).nextId = s.nextId := rfl
@[simp] theorem dropMsg_fresh (k : Nat) : (s.dropMsg k).fresh = s.fresh := rfl
@[simp] theorem dropMsg_issued (k : Nat) : (s.dropMsg k).issued = s.issued := rfl
@[simp] theorem dropMsg_agenda (k : Nat) : (s.dropMsg k).agenda = s.agenda := rfl
@[simp] theorem dropMsg_turn (k : Nat) : (s.dropMsg k).turn = s.turn := rfl
@[simp] theorem dropMsg_cur (k : Nat) : (s.dropMsg k).cur = s.cur := rfl
@[simp] theorem dropMsg_heldIssues (k : Nat) : (s.dropMsg k).heldIssues = s.heldIssues := rfl

/-! `bump` -/

@[simp] theorem bump_time : (s.bump).time = s.time := rfl
@[simp] theorem bump_cycle : (s.bump).cycle = s.cycle := rfl
@[simp] theorem bump_mem : (s.bump).mem = s.mem := rfl
@[simp] theorem bump_writes : (s.bump).writes = s.writes := rfl
@[simp] theorem bump_cores : (s.bump).cores = s.cores := rfl
@[simp] theorem bump_lanes : (s.bump).lanes = s.lanes := rfl
@[simp] theorem bump_gangs : (s.bump).gangs = s.gangs := rfl
@[simp] theorem bump_groups : (s.bump).groups = s.groups := rfl
@[simp] theorem bump_blocks : (s.bump).blocks = s.blocks := rfl
@[simp] theorem bump_launches : (s.bump).launches = s.launches := rfl
@[simp] theorem bump_net : (s.bump).net = s.net := rfl
@[simp] theorem bump_requests : (s.bump).requests = s.requests := rfl
@[simp] theorem bump_records : (s.bump).records = s.records := rfl
@[simp] theorem bump_drains : (s.bump).drains = s.drains := rfl
@[simp] theorem bump_l2 : (s.bump).l2 = s.l2 := rfl
@[simp] theorem bump_hostLines : (s.bump).hostLines = s.hostLines := rfl
@[simp] theorem bump_leaseTab : (s.bump).leaseTab = s.leaseTab := rfl
@[simp] theorem bump_leaseQueue : (s.bump).leaseQueue = s.leaseQueue := rfl
@[simp] theorem bump_regionDir : (s.bump).regionDir = s.regionDir := rfl
@[simp] theorem bump_absent : (s.bump).absent = s.absent := rfl
@[simp] theorem bump_failed : (s.bump).failed = s.failed := rfl
@[simp] theorem bump_pfRecords : (s.bump).pfRecords = s.pfRecords := rfl
@[simp] theorem bump_mreds : (s.bump).mreds = s.mreds := rfl
@[simp] theorem bump_migrations : (s.bump).migrations = s.migrations := rfl
@[simp] theorem bump_policy : (s.bump).policy = s.policy := rfl
@[simp] theorem bump_freeFrames : (s.bump).freeFrames = s.freeFrames := rfl
@[simp] theorem bump_spareUsed : (s.bump).spareUsed = s.spareUsed := rfl
@[simp] theorem bump_sampleK : (s.bump).sampleK = s.sampleK := rfl
@[simp] theorem bump_sampleBase : (s.bump).sampleBase = s.sampleBase := rfl
@[simp] theorem bump_sampleHead : (s.bump).sampleHead = s.sampleHead := rfl
@[simp] theorem bump_samples : (s.bump).samples = s.samples := rfl
@[simp] theorem bump_sampleLost : (s.bump).sampleLost = s.sampleLost := rfl
@[simp] theorem bump_regions : (s.bump).regions = s.regions := rfl
@[simp] theorem bump_queues : (s.bump).queues = s.queues := rfl
@[simp] theorem bump_commands : (s.bump).commands = s.commands := rfl
@[simp] theorem bump_nextSeq : (s.bump).nextSeq = s.nextSeq := rfl
@[simp] theorem bump_journalBase : (s.bump).journalBase = s.journalBase := rfl
@[simp] theorem bump_journalSize : (s.bump).journalSize = s.journalSize := rfl
@[simp] theorem bump_logBase : (s.bump).logBase = s.logBase := rfl
@[simp] theorem bump_logSize : (s.bump).logSize = s.logSize := rfl
@[simp] theorem bump_logSeq : (s.bump).logSeq = s.logSeq := rfl
@[simp] theorem bump_corrected : (s.bump).corrected = s.corrected := rfl
@[simp] theorem bump_notes : (s.bump).notes = s.notes := rfl
@[simp] theorem bump_haltControl : (s.bump).haltControl = s.haltControl := rfl
@[simp] theorem bump_channels : (s.bump).channels = s.channels := rfl
@[simp] theorem bump_emulationTable : (s.bump).emulationTable = s.emulationTable := rfl
@[simp] theorem bump_emulationLease : (s.bump).emulationLease = s.emulationLease := rfl
@[simp] theorem bump_recoveryAddr : (s.bump).recoveryAddr = s.recoveryAddr := rfl
@[simp] theorem bump_recoveryLength : (s.bump).recoveryLength = s.recoveryLength := rfl
@[simp] theorem bump_power : (s.bump).power = s.power := rfl
@[simp] theorem bump_emberArmed : (s.bump).emberArmed = s.emberArmed := rfl
@[simp] theorem bump_warned : (s.bump).warned = s.warned := rfl
@[simp] theorem bump_supplied : (s.bump).supplied = s.supplied := rfl
@[simp] theorem bump_badRecords : (s.bump).badRecords = s.badRecords := rfl
@[simp] theorem bump_frames : (s.bump).frames = s.frames := rfl
@[simp] theorem bump_peers : (s.bump).peers = s.peers := rfl
@[simp] theorem bump_ports : (s.bump).ports = s.ports := rfl
@[simp] theorem bump_firmware : (s.bump).firmware = s.firmware := rfl
@[simp] theorem bump_replies : (s.bump).replies = s.replies := rfl
@[simp] theorem bump_irqs : (s.bump).irqs = s.irqs := rfl
@[simp] theorem bump_uses : (s.bump).uses = s.uses := rfl
@[simp] theorem bump_nextId : (s.bump).nextId = s.nextId := rfl
@[simp] theorem bump_fresh : (s.bump).fresh = s.fresh := rfl
@[simp] theorem bump_issued : (s.bump).issued = s.issued + 1 := rfl
@[simp] theorem bump_agenda : (s.bump).agenda = s.agenda := rfl
@[simp] theorem bump_turn : (s.bump).turn = s.turn := rfl
@[simp] theorem bump_cur : (s.bump).cur = s.cur := rfl
@[simp] theorem bump_heldIssues : (s.bump).heldIssues = s.heldIssues := rfl

/-! `modGang`: it changes a gang that is there. -/

@[simp] theorem modGang_time (n : Nat) (f : Gang → Gang) : (s.modGang n f).time = s.time := by unfold modGang; split <;> rfl
@[simp] theorem modGang_cycle (n : Nat) (f : Gang → Gang) : (s.modGang n f).cycle = s.cycle := by unfold modGang; split <;> rfl
@[simp] theorem modGang_mem (n : Nat) (f : Gang → Gang) : (s.modGang n f).mem = s.mem := by unfold modGang; split <;> rfl
@[simp] theorem modGang_writes (n : Nat) (f : Gang → Gang) : (s.modGang n f).writes = s.writes := by unfold modGang; split <;> rfl
@[simp] theorem modGang_cores (n : Nat) (f : Gang → Gang) : (s.modGang n f).cores = s.cores := by unfold modGang; split <;> rfl
@[simp] theorem modGang_lanes (n : Nat) (f : Gang → Gang) : (s.modGang n f).lanes = s.lanes := by unfold modGang; split <;> rfl
@[simp] theorem modGang_groups (n : Nat) (f : Gang → Gang) : (s.modGang n f).groups = s.groups := by unfold modGang; split <;> rfl
@[simp] theorem modGang_blocks (n : Nat) (f : Gang → Gang) : (s.modGang n f).blocks = s.blocks := by unfold modGang; split <;> rfl
@[simp] theorem modGang_launches (n : Nat) (f : Gang → Gang) : (s.modGang n f).launches = s.launches := by unfold modGang; split <;> rfl
@[simp] theorem modGang_net (n : Nat) (f : Gang → Gang) : (s.modGang n f).net = s.net := by unfold modGang; split <;> rfl
@[simp] theorem modGang_requests (n : Nat) (f : Gang → Gang) : (s.modGang n f).requests = s.requests := by unfold modGang; split <;> rfl
@[simp] theorem modGang_records (n : Nat) (f : Gang → Gang) : (s.modGang n f).records = s.records := by unfold modGang; split <;> rfl
@[simp] theorem modGang_drains (n : Nat) (f : Gang → Gang) : (s.modGang n f).drains = s.drains := by unfold modGang; split <;> rfl
@[simp] theorem modGang_l2 (n : Nat) (f : Gang → Gang) : (s.modGang n f).l2 = s.l2 := by unfold modGang; split <;> rfl
@[simp] theorem modGang_hostLines (n : Nat) (f : Gang → Gang) : (s.modGang n f).hostLines = s.hostLines := by unfold modGang; split <;> rfl
@[simp] theorem modGang_leaseTab (n : Nat) (f : Gang → Gang) : (s.modGang n f).leaseTab = s.leaseTab := by unfold modGang; split <;> rfl
@[simp] theorem modGang_leaseQueue (n : Nat) (f : Gang → Gang) : (s.modGang n f).leaseQueue = s.leaseQueue := by unfold modGang; split <;> rfl
@[simp] theorem modGang_regionDir (n : Nat) (f : Gang → Gang) : (s.modGang n f).regionDir = s.regionDir := by unfold modGang; split <;> rfl
@[simp] theorem modGang_absent (n : Nat) (f : Gang → Gang) : (s.modGang n f).absent = s.absent := by unfold modGang; split <;> rfl
@[simp] theorem modGang_failed (n : Nat) (f : Gang → Gang) : (s.modGang n f).failed = s.failed := by unfold modGang; split <;> rfl
@[simp] theorem modGang_pfRecords (n : Nat) (f : Gang → Gang) : (s.modGang n f).pfRecords = s.pfRecords := by unfold modGang; split <;> rfl
@[simp] theorem modGang_mreds (n : Nat) (f : Gang → Gang) : (s.modGang n f).mreds = s.mreds := by unfold modGang; split <;> rfl
@[simp] theorem modGang_migrations (n : Nat) (f : Gang → Gang) : (s.modGang n f).migrations = s.migrations := by unfold modGang; split <;> rfl
@[simp] theorem modGang_policy (n : Nat) (f : Gang → Gang) : (s.modGang n f).policy = s.policy := by unfold modGang; split <;> rfl
@[simp] theorem modGang_freeFrames (n : Nat) (f : Gang → Gang) : (s.modGang n f).freeFrames = s.freeFrames := by unfold modGang; split <;> rfl
@[simp] theorem modGang_spareUsed (n : Nat) (f : Gang → Gang) : (s.modGang n f).spareUsed = s.spareUsed := by unfold modGang; split <;> rfl
@[simp] theorem modGang_sampleK (n : Nat) (f : Gang → Gang) : (s.modGang n f).sampleK = s.sampleK := by unfold modGang; split <;> rfl
@[simp] theorem modGang_sampleBase (n : Nat) (f : Gang → Gang) : (s.modGang n f).sampleBase = s.sampleBase := by unfold modGang; split <;> rfl
@[simp] theorem modGang_sampleHead (n : Nat) (f : Gang → Gang) : (s.modGang n f).sampleHead = s.sampleHead := by unfold modGang; split <;> rfl
@[simp] theorem modGang_samples (n : Nat) (f : Gang → Gang) : (s.modGang n f).samples = s.samples := by unfold modGang; split <;> rfl
@[simp] theorem modGang_sampleLost (n : Nat) (f : Gang → Gang) : (s.modGang n f).sampleLost = s.sampleLost := by unfold modGang; split <;> rfl
@[simp] theorem modGang_regions (n : Nat) (f : Gang → Gang) : (s.modGang n f).regions = s.regions := by unfold modGang; split <;> rfl
@[simp] theorem modGang_queues (n : Nat) (f : Gang → Gang) : (s.modGang n f).queues = s.queues := by unfold modGang; split <;> rfl
@[simp] theorem modGang_commands (n : Nat) (f : Gang → Gang) : (s.modGang n f).commands = s.commands := by unfold modGang; split <;> rfl
@[simp] theorem modGang_nextSeq (n : Nat) (f : Gang → Gang) : (s.modGang n f).nextSeq = s.nextSeq := by unfold modGang; split <;> rfl
@[simp] theorem modGang_journalBase (n : Nat) (f : Gang → Gang) : (s.modGang n f).journalBase = s.journalBase := by unfold modGang; split <;> rfl
@[simp] theorem modGang_journalSize (n : Nat) (f : Gang → Gang) : (s.modGang n f).journalSize = s.journalSize := by unfold modGang; split <;> rfl
@[simp] theorem modGang_logBase (n : Nat) (f : Gang → Gang) : (s.modGang n f).logBase = s.logBase := by unfold modGang; split <;> rfl
@[simp] theorem modGang_logSize (n : Nat) (f : Gang → Gang) : (s.modGang n f).logSize = s.logSize := by unfold modGang; split <;> rfl
@[simp] theorem modGang_logSeq (n : Nat) (f : Gang → Gang) : (s.modGang n f).logSeq = s.logSeq := by unfold modGang; split <;> rfl
@[simp] theorem modGang_corrected (n : Nat) (f : Gang → Gang) : (s.modGang n f).corrected = s.corrected := by unfold modGang; split <;> rfl
@[simp] theorem modGang_notes (n : Nat) (f : Gang → Gang) : (s.modGang n f).notes = s.notes := by unfold modGang; split <;> rfl
@[simp] theorem modGang_haltControl (n : Nat) (f : Gang → Gang) : (s.modGang n f).haltControl = s.haltControl := by unfold modGang; split <;> rfl
@[simp] theorem modGang_channels (n : Nat) (f : Gang → Gang) : (s.modGang n f).channels = s.channels := by unfold modGang; split <;> rfl
@[simp] theorem modGang_emulationTable (n : Nat) (f : Gang → Gang) : (s.modGang n f).emulationTable = s.emulationTable := by unfold modGang; split <;> rfl
@[simp] theorem modGang_emulationLease (n : Nat) (f : Gang → Gang) : (s.modGang n f).emulationLease = s.emulationLease := by unfold modGang; split <;> rfl
@[simp] theorem modGang_recoveryAddr (n : Nat) (f : Gang → Gang) : (s.modGang n f).recoveryAddr = s.recoveryAddr := by unfold modGang; split <;> rfl
@[simp] theorem modGang_recoveryLength (n : Nat) (f : Gang → Gang) : (s.modGang n f).recoveryLength = s.recoveryLength := by unfold modGang; split <;> rfl
@[simp] theorem modGang_power (n : Nat) (f : Gang → Gang) : (s.modGang n f).power = s.power := by unfold modGang; split <;> rfl
@[simp] theorem modGang_emberArmed (n : Nat) (f : Gang → Gang) : (s.modGang n f).emberArmed = s.emberArmed := by unfold modGang; split <;> rfl
@[simp] theorem modGang_warned (n : Nat) (f : Gang → Gang) : (s.modGang n f).warned = s.warned := by unfold modGang; split <;> rfl
@[simp] theorem modGang_supplied (n : Nat) (f : Gang → Gang) : (s.modGang n f).supplied = s.supplied := by unfold modGang; split <;> rfl
@[simp] theorem modGang_badRecords (n : Nat) (f : Gang → Gang) : (s.modGang n f).badRecords = s.badRecords := by unfold modGang; split <;> rfl
@[simp] theorem modGang_frames (n : Nat) (f : Gang → Gang) : (s.modGang n f).frames = s.frames := by unfold modGang; split <;> rfl
@[simp] theorem modGang_peers (n : Nat) (f : Gang → Gang) : (s.modGang n f).peers = s.peers := by unfold modGang; split <;> rfl
@[simp] theorem modGang_ports (n : Nat) (f : Gang → Gang) : (s.modGang n f).ports = s.ports := by unfold modGang; split <;> rfl
@[simp] theorem modGang_firmware (n : Nat) (f : Gang → Gang) : (s.modGang n f).firmware = s.firmware := by unfold modGang; split <;> rfl
@[simp] theorem modGang_replies (n : Nat) (f : Gang → Gang) : (s.modGang n f).replies = s.replies := by unfold modGang; split <;> rfl
@[simp] theorem modGang_irqs (n : Nat) (f : Gang → Gang) : (s.modGang n f).irqs = s.irqs := by unfold modGang; split <;> rfl
@[simp] theorem modGang_uses (n : Nat) (f : Gang → Gang) : (s.modGang n f).uses = s.uses := by unfold modGang; split <;> rfl
@[simp] theorem modGang_nextId (n : Nat) (f : Gang → Gang) : (s.modGang n f).nextId = s.nextId := by unfold modGang; split <;> rfl
@[simp] theorem modGang_fresh (n : Nat) (f : Gang → Gang) : (s.modGang n f).fresh = s.fresh := by unfold modGang; split <;> rfl
@[simp] theorem modGang_issued (n : Nat) (f : Gang → Gang) : (s.modGang n f).issued = s.issued := by unfold modGang; split <;> rfl
@[simp] theorem modGang_agenda (n : Nat) (f : Gang → Gang) : (s.modGang n f).agenda = s.agenda := by unfold modGang; split <;> rfl
@[simp] theorem modGang_turn (n : Nat) (f : Gang → Gang) : (s.modGang n f).turn = s.turn := by unfold modGang; split <;> rfl
@[simp] theorem modGang_cur (n : Nat) (f : Gang → Gang) : (s.modGang n f).cur = s.cur := by unfold modGang; split <;> rfl
@[simp] theorem modGang_heldIssues (n : Nat) (f : Gang → Gang) : (s.modGang n f).heldIssues = s.heldIssues := by unfold modGang; split <;> rfl
theorem modGang_gangs (n : Nat) (f : Gang → Gang) : (s.modGang n f).gangs = tmod s.gangs n f := by
  unfold modGang tmod; cases tfind s.gangs n <;> rfl

/-! What the accessors read after an update. -/

theorem core_setCore (c d : Nat) (v : Core) : (s.setCore c v).core d = if d = c then v else s.core d := by
  unfold core; rw [setCore_cores, tfind_tput]; split <;> rfl
theorem gang_setGang (n m : Nat) (v : Gang) : (s.setGang n v).gang m = if m = n then v else s.gang m := by
  unfold gang; rw [setGang_gangs, tfind_tput]; split <;> rfl

end Sys2Proof.Machine.State
end

