-- ==== Sys2Proof/Laws/Trap.lean ====
section
/-!
SUPPORT. Taking an exception: one thread's entry, the entries of a group's threads, and the issues that the checks of
03 R97 turn into exceptions.
-/

namespace Sys2Proof.Machine

open State

/-- What an entry to a handler changes: caches on the way to the handler's line, and the thread's own registers. -/
structure Entered (s t : State) : Prop where
  frame : t = { s with cores := t.cores, writes := t.writes, net := t.net, nextId := t.nextId, drains := t.drains,
                       records := t.records, failed := t.failed, fresh := t.fresh, l2 := t.l2, hostLines := t.hostLines
                       lanes := t.lanes }
  live : ∀ u, (t.lane u).live = (s.lane u).live
theorem Entered.refl (s : State) : Entered s s := ⟨rfl, fun _ => rfl⟩
theorem Entered.trans {s t u : State} (h : Entered s t) (k : Entered t u) : Entered s u :=
  ⟨by rw [k.frame, h.frame], fun x => (k.live x).trans (h.live x)⟩
theorem Looked.entered {s t : State} (h : Looked s t) : Entered s t := ⟨by rw [h.frame], fun u => by rw [h.frame]; rfl⟩
/-- ENTRY: when a handler is entered, it is the trap vector's, and only the thread and caches have changed. -/
theorem enterHandler_some (s s1 : State) (u : Nat) (epc vec : W64) (code : Nat) (ea : W64)
    (h : s.enterHandler u epc code ea = (some (vec, .ready), s1)) : vec = s.trapvec (s.regionOf (slotOf u)) ∧ Entered s s1 := by
  have hset : ∀ (s' : State) (l : Lane), Looked s s' → l.live = (s.lane u).live → Entered s (s'.setLane u l) := by
    intro s' l hl hv
    refine ⟨by rw [State.setLane, hl.frame], fun w => ?_⟩
    rw [lane_setLane]
    split
    · rename_i hw; subst hw; exact hv
    · rw [hl.frame]; rfl
  have hf := looked_fetchLine s { s.who u with prv := true } (s.trapvec (s.regionOf (slotOf u)))
  unfold State.enterHandler at h
  simp only [] at h
  split at h
  · cases h
  · split at h
    · cases h
    · split at h
      · cases h
      · split at h <;> (try rename_i he; rw [he] at hf)
        · split at h
          · cases h; exact ⟨rfl, hset _ _ hf rfl⟩
          · cases h
        · cases h
        · cases h
        · cases h
/-- The entries of threads one after another. -/
theorem enters_entered (s s1 : State) (ts : List Nat) (vec epc : W64) (code : Nat) (ea : Nat → W64)
    (h : s.Enters ts vec epc code ea s1) : Entered s s1 := by
  induction ts generalizing s with
  | nil => rw [show s1 = s from h]; exact .refl s
  | cons u us ih =>
    obtain ⟨_, s', h1, h2⟩ := h
    exact (enterHandler_some _ _ _ _ _ _ _ h1).2.trans (ih s' h2)
theorem Entered.stands {s t : State} {gid : Nat} {g : Group} (h : Entered s t) (k : Stands s gid g) : Stands t gid g :=
  k.of_eq (by rw [h.frame]) (fun n => by rw [h.frame]) h.live
/-- Sending threads to their handler. -/
theorem send_enters (s s1 : State) (ts : List Nat) (pc vec epc : W64) (b : Bool) (code : Nat) (ea : Nat → W64)
    (d : Nat → Disp)
    (hd : ∀ a u, send1 pc b a (u, d u) = sendTrap a u epc code (ea u))
    (h : s.Enters ts vec epc code ea s1) (ps : List (Nat × Option (W64 × Status × Bool))) (es : List (Nat × Nat × Nat × W64)) :
    (ts.map (fun u => (u, d u))).foldl (send1 pc b) { places := ps, ends := es, state := s } =
      { places := ps ++ ts.map (fun u => (u, some (vec, .ready, true))), ends := es, state := s1 } := by
  induction ts generalizing s ps with
  | nil => rw [show s1 = s from h]; simp
  | cons u us ih =>
    obtain ⟨h0, s', h1, h2⟩ := h
    rw [List.map_cons, List.foldl_cons, hd]
    have : sendTrap { places := ps, ends := es, state := s } u epc code (ea u) =
        { places := ps ++ [(u, some (vec, .ready, true))], ends := es, state := s' } := by
      unfold sendTrap
      simp only [h0, h1, Bool.false_eq_true, if_false]
    rw [this, ih s' h2]
    simp
/-- A group all of whose threads take an exception stands at the handler. -/
theorem dispose_enters (s s1 : State) (gid : Nat) (g : Group) (vec epc : W64) (code : Nat) (ea : Nat → W64) (d : Nat → Disp)
    (hd : ∀ b a u, send1 g.pc b a (u, d u) = sendTrap a u epc code (ea u)) (st : Stands s gid g)
    (h : s.Enters g.members vec epc code ea s1) :
    s.dispose gid g.pc (g.members.map (fun u => (u, d u))) = { s1 with groups := tput (tdel s1.groups gid) gid (g.put (vec, .ready, true)) } := by
  unfold State.dispose
  simp only []
  rw [send_enters s s1 g.members g.pc vec epc _ code ea d (hd _) h]
  simp only [List.nil_append]
  rw [regroup_one s1 gid g (vec, .ready, true) ((enters_entered _ _ _ _ _ _ _ h).stands st).group st.some]
  simp [State.endGangs, dedup]
theorem trapped_of (s1 : State) (gid : Nat) (g : Group) (vec : W64) :
    Trapped s1 ({ s1 with groups := tput (tdel s1.groups gid) gid (g.put (vec, .ready, true)) } : State).bump gid g vec := by
  refine ⟨rfl, ?_, fun k hk => ?_⟩
  · show tfind (tput _ _ _) gid = _
    rw [tfind_tput, if_pos rfl]
    rfl
  · show tfind (tput _ _ _) k = _
    rw [tfind_tput, if_neg hk, tfind_tdel, if_neg hk]
/-- An exception of the checks in every thread of a group. -/
theorem refuse_enters (s s1 : State) (gid : Nat) (g : Group) (vec : W64) (code : Nat) (ea : Nat → W64) (st : Stands s gid g)
    (h : s.Enters g.members vec g.pc code ea s1) :
    Trapped s1 (s.refuse gid g (g.members.map (fun u => (u, .trap code (ea u))))) gid g vec := by
  unfold State.refuse
  rw [dispose_enters s s1 gid g vec g.pc code ea (fun u => .trap code (ea u)) (fun _ _ _ => rfl) st h]
  exact trapped_of s1 gid g vec

/-! ### The checks (03 R97). -/

/-- The issue reaches its checks for the whole group. -/
theorem issue_checks (s : State) (i : Instr) (h : Hdr) (c gid : Nat) (g : Group)
    (body : Ctx → State → State × List (Nat × Disp)) (hi : Issues s i h c gid g) :
    s.issue i body = s.issueFor i h c gid g body := by
  unfold State.issue
  have hready : (g.status != .ready) = false := by simp [hi.ready]
  have hsplit : (if laneLocal i = true then s else s.splitByGang gid g) = s := by
    split
    · rfl
    · rename_i hl
      rcases hi.oneGang with h | h
      · exact absurd h hl
      · exact splitByGang_one s gid g h
  have hgather : (if gathers i = true then s.arrivals gid else []) = [] := by
    split
    · rename_i hl; exact arrivals_none s gid g hi.stands.group (hi.gathered hl)
    · rfl
  have hhold : (g.hold != 0) = false := by simp [hi.hold]
  simp only [hi.cur, hi.header, hi.stands.group, hready, hhold, Bool.false_eq_true, if_false, hsplit, hgather, Option.getD_some,
    List.isEmpty_nil, if_true, State.separate, List.foldl_nil]
theorem issue_illegal (s s1 : State) (i : Instr) (h : Hdr) (c gid : Nat) (g : Group) (vec : W64)
    (body : Ctx → State → State × List (Nat × Disp)) (hi : Issues s i h c gid g) (hl : illegal (s.headerOf g.slot) i = true)
    (he : s.Enters g.members vec g.pc 0x01 (fun _ => 0) s1) : ∃ t, runInstr i s body = .next t ∧ Trapped s1 t gid g vec := by
  refine ⟨_, rfl, ?_⟩
  rw [issue_checks s i h c gid g body hi]
  unfold State.issueFor
  have hl : illegal (s.headerOf (g.members.head?.elim 0 slotOf)) i = true := hl
  simp only [hl, if_true]
  exact refuse_enters s s1 gid g vec 0x01 (fun _ => 0) hi.stands he
theorem denied_all (s : State) (g : Group) (hp : ∀ u ∈ g.members, s.prvOf u = false) :
    g.members.filter (fun t => !s.prvOf t) = g.members ∧
      g.members.filter (fun t => !(g.members.filter (fun t => !s.prvOf t)).contains t) = [] := by
  have h1 : g.members.filter (fun t => !s.prvOf t) = g.members := List.filter_eq_self.mpr fun t ht => by simp [hp t ht]
  refine ⟨h1, ?_⟩
  rw [h1, List.filter_eq_nil_iff]
  intro t ht; simp [ht]
theorem issue_denied (s s1 : State) (i : Instr) (h : Hdr) (c gid : Nat) (g : Group) (vec : W64)
    (body : Ctx → State → State × List (Nat × Disp)) (hi : Issues s i h c gid g) (hl : illegal (s.headerOf g.slot) i = false)
    (hv : privileged i = true) (hp : ∀ u ∈ g.members, s.prvOf u = false)
    (he : s.Enters g.members vec g.pc 0x03 (fun _ => 0) s1) : ∃ t, runInstr i s body = .next t ∧ Trapped s1 t gid g vec := by
  refine ⟨_, rfl, ?_⟩
  rw [issue_checks s i h c gid g body hi]
  unfold State.issueFor
  have hl : illegal (s.headerOf (g.members.head?.elim 0 slotOf)) i = false := hl
  obtain ⟨h1, h2⟩ := denied_all s g hp
  simp only [hl, Bool.false_eq_true, if_false, hv, if_true, h2, List.isEmpty_nil]
  rw [h1]
  exact refuse_enters s s1 gid g vec 0x03 (fun _ => 0) hi.stands he
theorem denied_none (s : State) (i : Instr) (g : Group) (hp : privileged i = true → ∀ u ∈ g.members, s.prvOf u = true) :
    (if privileged i = true then g.members.filter (fun t => !s.prvOf t) else []) = [] ∧
      g.members.filter (fun t => !([] : List Nat).contains t) = g.members := by
  refine ⟨?_, List.filter_eq_self.mpr fun t _ => rfl⟩
  split
  · rename_i hv
    rw [List.filter_eq_nil_iff]
    intro t ht; simp [hp hv t ht]
  · rfl
theorem issue_fields (s s1 : State) (i : Instr) (h : Hdr) (c gid : Nat) (g : Group) (vec ea : W64)
    (body : Ctx → State → State × List (Nat × Disp)) (hi : Issues s i h c gid g) (hl : illegal (s.headerOf g.slot) i = false)
    (hp : privileged i = true → ∀ u ∈ g.members, s.prvOf u = true)
    (hf : fieldFault (s.headerOf g.slot) (partOf g.slot) i = some ea)
    (he : s.Enters g.members vec g.pc 0x02 (fun _ => ea) s1) : ∃ t, runInstr i s body = .next t ∧ Trapped s1 t gid g vec := by
  refine ⟨_, rfl, ?_⟩
  rw [issue_checks s i h c gid g body hi]
  unfold State.issueFor
  have hl : illegal (s.headerOf (g.members.head?.elim 0 slotOf)) i = false := hl
  have hf : fieldFault (s.headerOf (g.members.head?.elim 0 slotOf)) (partOf (g.members.head?.elim 0 slotOf)) i = some ea := hf
  obtain ⟨h1, h2⟩ := denied_none s i g hp
  have hne : g.members.isEmpty = false := by simpa using hi.stands.some
  simp only [hl, Bool.false_eq_true, if_false, h1, h2, hne, hf, List.map_nil, List.nil_append]
  exact refuse_enters s s1 gid g vec 0x02 (fun _ => ea) hi.stands he
theorem issue_interlocked (s : State) (i : Instr) (h : Hdr) (c gid : Nat) (g : Group)
    (body : Ctx → State → State × List (Nat × Disp)) (hi : Issues s i h c gid g) (hl : illegal (s.headerOf g.slot) i = false)
    (hp : privileged i = true → ∀ u ∈ g.members, s.prvOf u = true)
    (hf : fieldFault (s.headerOf g.slot) (partOf g.slot) i = none)
    (hw : s.waitsFor g.members g.slot i h = true) :
    runInstr i s body = .next (s.holdBack gid g.members g.slot i h) := by
  unfold runInstr
  rw [issue_checks s i h c gid g body hi]
  unfold State.issueFor
  have hl : illegal (s.headerOf (g.members.head?.elim 0 slotOf)) i = false := hl
  have hf : fieldFault (s.headerOf (g.members.head?.elim 0 slotOf)) (partOf (g.members.head?.elim 0 slotOf)) i = none := hf
  have hw : s.waitsFor g.members (g.members.head?.elim 0 slotOf) i h = true := hw
  obtain ⟨h1, h2⟩ := denied_none s i g hp
  have hne : g.members.isEmpty = false := by simpa using hi.stands.some
  simp only [hl, Bool.false_eq_true, if_false, h1, h2, hne, hf, hw, if_true]
  rfl
theorem issue_early (s s1 : State) (i : Instr) (h : Hdr) (c gid : Nat) (g : Group) (vec : W64) (r : RegRef)
    (body : Ctx → State → State × List (Nat × Disp)) (hi : Issues s i h c gid g) (hl : illegal (s.headerOf g.slot) i = false)
    (hp : privileged i = true → ∀ u ∈ g.members, s.prvOf u = true)
    (hf : fieldFault (s.headerOf g.slot) (partOf g.slot) i = none)
    (hw : s.waitsFor g.members g.slot i h = false) (hk : ((s.headerOf g.slot).check || (s.core c).check) = true)
    (hr : ∀ u ∈ g.members, s.scoreboard u (s.operandsOf i h g) = some r)
    (he : s.Enters g.members vec g.pc 0x08 (fun _ => BitVec.ofNat 64 (regNumber r)) s1) :
    ∃ t, runInstr i s body = .next t ∧ Trapped s1 t gid g vec := by
  refine ⟨_, rfl, ?_⟩
  rw [issue_checks s i h c gid g body hi]
  unfold State.issueFor
  have hl : illegal (s.headerOf (g.members.head?.elim 0 slotOf)) i = false := hl
  have hf : fieldFault (s.headerOf (g.members.head?.elim 0 slotOf)) (partOf (g.members.head?.elim 0 slotOf)) i = none := hf
  have hw : s.waitsFor g.members (g.members.head?.elim 0 slotOf) i h = false := hw
  have hk : ((s.headerOf (g.members.head?.elim 0 slotOf)).check || (s.core c).check) = true := hk
  obtain ⟨h1, h2⟩ := denied_none s i g hp
  have hne : g.members.isEmpty = false := by simpa using hi.stands.some
  have hr : ∀ u ∈ g.members, s.scoreboard u (regsOf i h ++ s.namedRegs g.members (g.members.head?.elim 0 slotOf) i) = some r := hr
  generalize hrs : regsOf i h ++ s.namedRegs g.members (g.members.head?.elim 0 slotOf) i = rs at hr ⊢
  have h3 : g.members.filterMap (fun t => (s.scoreboard t rs).map (fun r => (t, Disp.trap 0x08 (BitVec.ofNat 64 (regNumber r))))) =
      g.members.map (fun u => (u, .trap 0x08 (BitVec.ofNat 64 (regNumber r)))) := by
    have : ∀ l : List Nat, (∀ u ∈ l, s.scoreboard u rs = some r) →
        l.filterMap (fun t => (s.scoreboard t rs).map (fun r => (t, Disp.trap 0x08 (BitVec.ofNat 64 (regNumber r))))) =
          l.map (fun u => (u, .trap 0x08 (BitVec.ofNat 64 (regNumber r)))) := by
      intro l hl
      induction l with
      | nil => rfl
      | cons a l ih =>
        rw [List.filterMap_cons, hl a (List.mem_cons_self ..), ih fun u hu => hl u (List.mem_cons_of_mem _ hu)]
        rfl
    exact this _ hr
  have h4 : g.members.filter (fun t => !(g.members.map (fun u => (u, Disp.trap 0x08 (BitVec.ofNat 64 (regNumber r))))).any (fun e => e.1 == t)) = [] := by
    rw [List.filter_eq_nil_iff]
    intro t ht
    have : (g.members.map (fun u => (u, Disp.trap 0x08 (BitVec.ofNat 64 (regNumber r))))).any (fun e => e.1 == t) = true := by
      rw [List.any_eq_true]
      exact ⟨_, List.mem_map.mpr ⟨t, ht, rfl⟩, by simp⟩
    rw [this]; decide
  simp only [hrs, hl, Bool.false_eq_true, if_false, h1, h2, hne, hf, hw, hk, if_true, h3, h4, List.isEmpty_nil, List.map_nil, List.nil_append]
  exact refuse_enters s s1 gid g vec 0x08 _ hi.stands he

/-- An instruction whose effect is to take an exception in every thread of the group, past the instruction. -/
theorem issue_trapPast (s s1 : State) (i : Instr) (h : Hdr) (c gid : Nat) (g : Group) (vec : W64) (code : Nat) (ea : W64)
    (body : Ctx → State → State × List (Nat × Disp)) (hc : Clear s i h c gid g)
    (hb : body (s.issueCtx i h c gid g) s = (s, g.members.map (fun u => (u, .trapPast code ea))))
    (he : s.Enters g.members vec (nextPc g.pc) code (fun _ => ea) s1) :
    ∃ t, runInstr i s body = .next t ∧ GoesTo s1 t i h gid g vec .ready true := by
  refine ⟨_, rfl, ?_⟩
  rw [issue_clear s i h c gid g body hc, hb]
  have hd : ∀ t ∈ g.members, dispOf (g.members.map (fun u => (u, Disp.trapPast code ea))) t = .trapPast code ea := by
    intro t ht
    unfold dispOf
    cases hf : (g.members.map (fun u => (u, Disp.trapPast code ea))).find? (fun d => d.1 == t) with
    | none =>
      rw [List.find?_eq_none] at hf
      exact absurd (by simp) (hf _ (List.mem_map.mpr ⟨t, ht, rfl⟩))
    | some d =>
      obtain ⟨u, _, rfl⟩ := List.mem_map.mp (List.mem_of_find?_eq_some hf)
      rfl
  have hp := placesOf_all g _ _ hd
  obtain ⟨u, hu⟩ := List.exists_mem_of_ne_nil _ hc.stands.some
  refine finish_at s s1 i h gid g _ (vec, .ready, true) ((enters_entered _ _ _ _ _ _ _ he).stands hc.stands) ?_ ?_ ?_
  · rw [hp]
    unfold doneOf
    rw [List.filterMap_map]
    exact List.filterMap_some (l := g.members)
  · rw [hp, List.all_eq_false]
    exact ⟨(u, _), List.mem_map.mpr ⟨u, hu, rfl⟩, by simp⟩
  · rw [hp]
    exact dispose_enters s s1 gid g vec (nextPc g.pc) code (fun _ => ea) (fun _ => .trapPast code ea) (fun _ _ _ => rfl) hc.stands he

/-- EVERY INSTRUCTION IS AN ISSUE: the meaning of each row with an encoding issues it with an effect of its own. -/
theorem exec_instr (i : Instr) (h : (hdrOfInstr i).isSome = true) :
    (∃ w, i = .illegalInstruction w) ∨ ∃ body : State → Ctx → State → State × List (Nat × Disp), ∀ s, exec i s = runInstr i s (body s) := by
  cases i
  case illegalInstruction w => exact .inl ⟨w, rfl⟩
  all_goals first
    | cases h; done
    | exact .inr ⟨_, fun _ => rfl⟩

end Sys2Proof.Machine
end

