-- ==== Sys2Proof/Tests/Slice0.lean ====
section
/-!
SUPPORT. Tests: instruction words written out from the spec's tables and what they decode to, ill-formed terms that are refused,
single steps with results from the spec, and for each statement of the obligations a state that meets its hypotheses.
-/

namespace Sys2Proof.Tests

open Sys2Proof Sys2Proof.Machine

/-! ### Small states. -/

/-- The common fields without a guard, stall 1. -/
def hd : Hdr := { stall := 1, y := false, guard := 7, neg := false }
/-- Fields all zero. -/
def a0 : FmtA := ⟨0, 0, 0, 0, .vec, .vec, .vec, 0, 0, false, 0, 0⟩
def i0 : FmtI := ⟨0, 0, .vec, 0, 0, false, 0, 0⟩
def m0 : FmtM := ⟨0, 0, 0, 0, .vec, .vec, 0, 0, 0, 0, false, 0, 0⟩
def c0 : FmtC := ⟨0, 0, .vec, 0, false, 0, 0⟩
def x0 : FmtX := ⟨0, 0, false, 0, 0, 0, 0, 0, 0, 0, 0, 0⟩

/-- Page of VA 0x10000 to 0x1FFFF at PA 0x20000, all rights. -/
def page : TlbEntry := { asid := 0, level := 0, vpn := 1, pte := 0x200FF, pteAt := 0 }
def core0 : Core := { Core.reset with tlb := [page] }
def head0 : Header := { fetchHeader with addr := 0x40000 }
def launch0 : Launch := { Launch.none with seq := 1, header := head0, nblocks := 1, popsize := 32, nextBlock := 1, ranOn := [0] }
def block0 : Block := { Block.none with launch := 1, threads := 32, gangs := 1, parts := [{ BlockPart.none with slots := [0] }] }
/-- A ready group of threads `ts` at `pc`. -/
def group (ts : List Nat) (pc : W64 := 0x10000) : Group :=
  { core := 0, pc := pc, members := ts, status := .ready, branched := false, loose := false, waitCount := 0
    yielded := false, hold := 0, prio := none, answers := [] }
/-- Core 0 with one gang of live threads `ts` in slot 0, in group 1, which issues. -/
def demo (ts : List Nat) (l : Lane := fetchLane) (g : Gang := fetchGang) : State :=
  { State.reset with
    cores := [(0, core0)], launches := [(1, launch0)], blocks := [(blockKey 1 0, block0)], gangs := [(0, g)]
    groups := [(1, group ts)], nextId := 2, lanes := ts.map (fun t => (t, l)), regions := [(0, Region.none)], cur := some (0, 1) }
def one : State := demo [0]
def two : State := demo [0, 1]

/-- The checks of `Clear`, as a Bool. -/
def issuesB (s : State) (i : Instr) (h : Hdr) (c gid : Nat) (g : Group) : Bool :=
  s.cur == some (c, gid) && hdrOfInstr i == some h && tfind s.groups gid == some g && s.groups.all (fun x => x.1 != gid || x.2 == g) &&
    !g.members.isEmpty && decide g.members.Nodup && s.groups.all (fun x => x.1 == gid || g.members.all (fun t => !x.2.members.contains t)) &&
    g.members.all (fun t => (tfind s.gangs (slotOf t)).isSome && (s.lane t).live) && g.status == .ready && g.hold == 0 &&
    (laneLocal i || g.members.all (fun t => slotOf t == g.slot)) &&
    (!gathers i || s.groups.all (fun x => !State.arrivedIn gid g.slot g.pc x))
theorem issues_of {s : State} {i : Instr} {h : Hdr} {c gid : Nat} {g : Group} (e : issuesB s i h c gid g = true) :
    Issues s i h c gid g := by
  simp only [issuesB, Bool.and_eq_true, beq_iff_eq, List.all_eq_true, Bool.or_eq_true, bne_iff_ne, ne_eq, Bool.not_eq_true',
    List.isEmpty_eq_false_iff, decide_eq_true_eq, List.contains_eq_mem, decide_eq_false_iff_not] at e
  obtain ⟨⟨⟨⟨⟨⟨⟨⟨⟨⟨⟨e1, e2⟩, e3⟩, e4⟩, e5⟩, e6⟩, e7⟩, e8⟩, e9⟩, e9'⟩, e10⟩, e11⟩ := e
  refine ⟨e1, e2, ⟨e3, fun x hx hg => (e4 x hx).resolve_left (fun hn => hn hg), e5, e6,
    fun x hx hg t ht => (e7 x hx).resolve_left hg t ht, fun t ht => (e8 t ht).1, fun t ht => (e8 t ht).2⟩, e9, e9', e10,
    fun hg x hx => (e11.resolve_left (fun hf => by simp [hf] at hg)) x hx⟩
def clearB (s : State) (i : Instr) (h : Hdr) (c gid : Nat) (g : Group) : Bool :=
  issuesB s i h c gid g && !illegal (s.headerOf g.slot) i && (!privileged i || g.members.all (fun t => s.prvOf t)) &&
    fieldFault (s.headerOf g.slot) (partOf g.slot) i == none && !s.waitsFor g.members g.slot i h &&
    (!((s.headerOf g.slot).check || (s.core c).check) || g.members.all (fun t => s.scoreboard t (s.operandsOf i h g) == none)) &&
    s.failed.isEmpty
theorem clear_of {s : State} {i : Instr} {h : Hdr} {c gid : Nat} {g : Group} (e : clearB s i h c gid g = true) :
    Clear s i h c gid g := by
  simp only [clearB, Bool.and_eq_true, beq_iff_eq, List.all_eq_true, Bool.or_eq_true, Bool.not_eq_true', List.isEmpty_iff] at e
  obtain ⟨⟨⟨⟨⟨⟨e1, e2⟩, e3⟩, e4⟩, e5⟩, e6⟩, e7⟩ := e
  exact ⟨issues_of e1, e2, fun hp => e3.resolve_left (fun hf => by simp [hf] at hp), e4, e5,
    fun hc => e6.resolve_left (fun hf => by rw [hf] at hc; cases hc), fun _ _ _ => by simp [e7]⟩

theorem operands_of {s : State} {cx : State.Ctx} {ts : List Nat} {srcs : List Src} {opnd : BitVec 20} (h : cx.act ≠ [])
    (hc : s.readers cx srcs = [cx.act]) (hr : (s.readSrcs cx ts opnd srcs).1 = none) :
    ∃ v s1, s.Operands cx ts srcs opnd v s1 :=
  ⟨(s.readSrcs cx ts opnd srcs).2.1, (s.readSrcs cx ts opnd srcs).2.2, by
    unfold State.Operands
    rw [if_neg h]
    exact ⟨hc, Prod.ext hr (Prod.ext rfl rfl)⟩⟩
theorem gang_operands_of {s : State} {cx : State.Ctx} {srcs : List Src} {opnd : BitVec 20} (h : cx.act ≠ [])
    (hr : (s.readSrcs cx cx.act opnd srcs).1 = none) : ∃ v s1, s.GangOperands cx srcs opnd v s1 :=
  ⟨(s.readSrcs cx cx.act opnd srcs).2.1, (s.readSrcs cx cx.act opnd srcs).2.2, by
    unfold State.GangOperands
    rw [if_neg h]
    exact Prod.ext hr (Prod.ext rfl rfl)⟩
/-- The sources of a row can be read in a state where an instruction issues. -/
abbrev Reads (s : State) (i : Instr) (srcs : List Src) (f : FmtA) : Prop :=
  ∃ v s1, s.Operands (s.issueCtx i hd 0 1 (group [0])) (s.issueCtx i hd 0 1 (group [0])).act srcs f.opnd v s1
abbrev GangReads (s : State) (i : Instr) (srcs : List Src) (f : FmtA) : Prop :=
  ∃ v s1, s.GangOperands (s.issueCtx i hd 0 1 (group [0])) srcs f.opnd v s1

/-! ### Witnesses: instructions on registers. -/

/-- .s32 of v1 and v2 to v3; an immediate; a 64-bit pair. -/
def fs32 : FmtA := { a0 with d := 3, a := 1, b := 2, ty := 6 }
def fimm : FmtA := { a0 with d := 3, a := 1, kB := .imm, ty := 6, opnd := 0xFFFFF }
theorem witness_IntegerResults : (∃ r, integerRow (.isad hd { fs32 with c := 4 }) = some r ∧
      Clear one (.isad hd { fs32 with c := 4 }) r.h 0 1 (group [0]) ∧ Reads one (.isad hd { fs32 with c := 4 }) r.srcs r.f) ∧
    (∃ r, integerRow (.iadd hd fimm) = some r ∧ Clear one (.iadd hd fimm) r.h 0 1 (group [0]) ∧ Reads one (.iadd hd fimm) r.srcs r.f) :=
  ⟨⟨_, rfl, clear_of (by decide), operands_of (by decide) (by decide) (by decide)⟩,
   ⟨_, rfl, clear_of (by decide), operands_of (by decide) (by decide) (by decide)⟩⟩
/-- With a guard that holds in no thread. -/
theorem witness_no_guard : Clear one (.iadd { hd with neg := true } fs32) { hd with neg := true } 0 1 (group [0]) ∧
    one.Operands (one.issueCtx (.iadd { hd with neg := true } fs32) { hd with neg := true } 0 1 (group [0])) [] [tyA fs32, tyB fs32] 0
      (fun _ => []) one :=
  ⟨clear_of (by decide), by unfold State.Operands; rw [if_pos (by decide)]⟩
def fcarry : FmtA := { a0 with d := 4, a := 8, b := 10, ty := 3, mods := 0b111000 }
theorem witness_CarryResults (sub : Bool) : Clear one (if sub then Instr.isubx hd fcarry else Instr.iaddx hd fcarry) hd 0 1 (group [0]) ∧
    Reads one (if sub then Instr.isubx hd fcarry else Instr.iaddx hd fcarry) [tyA fcarry, tyB fcarry] fcarry := by
  cases sub <;> exact ⟨clear_of (by decide), operands_of (by decide) (by decide) (by decide)⟩
def fb32 : FmtA := { a0 with d := 3, a := 1, b := 2, ty := 8 }
theorem witness_MoveAndLogicResults_logic : ∃ r, logicRow (.andn hd fb32) = some r ∧ Clear one (.andn hd fb32) r.h 0 1 (group [0]) ∧
    Reads one (.andn hd fb32) r.srcs r.f :=
  ⟨_, rfl, clear_of (by decide), operands_of (by decide) (by decide) (by decide)⟩
theorem witness_MoveAndLogicResults_select : Clear one (.isel hd { fb32 with c := 7 }) hd 0 1 (group [0]) ∧
    Reads one (.isel hd { fb32 with c := 7 }) [tyA fb32, tyB fb32] fb32 :=
  ⟨clear_of (by decide), operands_of (by decide) (by decide) (by decide)⟩
theorem witness_MoveAndLogicResults_long : Clear one (.movi hd { i0 with d := 6, ty := 7, imm := 0x80000000 }) hd 0 1 (group [0]) ∧
    Clear one (.movi hd { i0 with d := 383, ty := 8 }) hd 0 1 (group [0]) := ⟨clear_of (by decide), clear_of (by decide)⟩
theorem witness_PredicateResults_compare : (∃ r, compareRow (.icmp hd { fs32 with d := 6, mods := 5 }) = some r ∧
      Clear one (.icmp hd { fs32 with d := 6, mods := 5 }) r.h 0 1 (group [0]) ∧
      Reads one (.icmp hd { fs32 with d := 6, mods := 5 }) r.srcs r.f) ∧
    (∃ r, compareRow (.fcmp hd { fs32 with d := 7, ty := 0x10, mods := 7 }) = some r ∧
      Clear one (.fcmp hd { fs32 with d := 7, ty := 0x10, mods := 7 }) r.h 0 1 (group [0]) ∧
      Reads one (.fcmp hd { fs32 with d := 7, ty := 0x10, mods := 7 }) r.srcs r.f) :=
  ⟨⟨_, rfl, clear_of (by decide), operands_of (by decide) (by decide) (by decide)⟩,
   ⟨_, rfl, clear_of (by decide), operands_of (by decide) (by decide) (by decide)⟩⟩
theorem witness_PredicateLogicResult :
    Clear one (.plop hd { a0 with d := 3, a := 1, b := 7, c := 7, opnd := 0x88000 }) hd 0 1 (group [0]) := clear_of (by decide)
def ff32 : FmtA := { a0 with d := 3, a := 1, b := 2, ty := 0x10 }
theorem witness_FloatResults : (∃ r, floatRow (.fadd hd ff32) = some r ∧ Clear one (.fadd hd ff32) r.h 0 1 (group [0]) ∧
      Reads one (.fadd hd ff32) r.srcs r.f) ∧
    (∃ r, functionRow (.fdiv hd ff32) = some r ∧ Clear one (.fdiv hd ff32) r.h 0 1 (group [0]) ∧
      Reads one (.fdiv hd ff32) r.srcs r.f) :=
  ⟨⟨_, rfl, clear_of (by decide), operands_of (by decide) (by decide) (by decide)⟩,
   ⟨_, rfl, clear_of (by decide), operands_of (by decide) (by decide) (by decide)⟩⟩
def fcvt : FmtA := { a0 with d := 3, a := 1, ty := 0x11, rnd := 4, mods := 0x10 }
def fcvtn : FmtA := { a0 with d := 3, a := 1, ty := 0x13, rnd := 4, mods := 0x23 }
theorem witness_ConversionResults : (Clear one (.cvt hd fcvt) hd 0 1 (group [0]) ∧
      Reads one (.cvt hd fcvt) [srcA fcvt 1 (tyImm fcvt.cvtSrcTy)] fcvt) ∧
    (Clear one (.cvtn hd fcvtn) hd 0 1 (group [0]) ∧ Reads one (.cvtn hd fcvtn) [tyA fcvtn] fcvtn) ∧
    Clear one (.rng hd { a0 with d := 4, ty := 9 }) hd 0 1 (group [0]) :=
  ⟨⟨clear_of (by decide), operands_of (by decide) (by decide) (by decide)⟩,
   ⟨clear_of (by decide), operands_of (by decide) (by decide) (by decide)⟩, clear_of (by decide)⟩
theorem witness_CrossLaneResults : (∃ r, crossRow (.bcast hd { fb32 with kB := .imm, b := 0, opnd := 31 }) = some r ∧
      Clear one (.bcast hd { fb32 with kB := .imm, b := 0, opnd := 31 }) r.h 0 1 (group [0]) ∧
      Reads one (.bcast hd { fb32 with kB := .imm, b := 0, opnd := 31 }) r.srcs r.f) ∧
    Clear one (.cons hd { a0 with d := 1, a := 2, mods := 3 }) hd 0 1 (group [0]) ∧
    Clear one (.pmask hd { a0 with d := 1, a := 2 }) hd 0 1 (group [0]) :=
  ⟨⟨_, rfl, clear_of (by decide), operands_of (by decide) (by decide) (by decide)⟩, clear_of (by decide), clear_of (by decide)⟩
def fk : FmtA := { a0 with d := 3, a := 1, b := 2, kA := .scl, kB := .scl, ty := 6 }
theorem witness_ScalarResults : (∃ r, scalarRow (.sadd hd fk) = some r ∧ Clear one (.sadd hd fk) r.h 0 1 (group [0]) ∧
      GangReads one (.sadd hd fk) r.srcs r.f) ∧
    Clear one (.smovi hd { i0 with d := 158, ty := 7, imm := 0xFFFFFFFF }) hd 0 1 (group [0]) ∧
    (Clear one (.rdlane hd { fb32 with kB := .imm, b := 0, opnd := 31 }) hd 0 1 (group [0]) ∧
      GangReads one (.rdlane hd { fb32 with kB := .imm, b := 0, opnd := 31 }) [cntB { fb32 with kB := .imm, b := 0, opnd := 31 }]
        { fb32 with kB := .imm, b := 0, opnd := 31 }) ∧
    Clear one (.redux hd { fs32 with b := 0, mods := 32 }) hd 0 1 (group [0]) ∧
    Clear one (.pmask hd { a0 with d := 1, a := 2, mods := 32 }) hd 0 1 (group [0]) :=
  ⟨⟨_, rfl, clear_of (by decide), gang_operands_of (by decide) (by decide)⟩, clear_of (by decide),
   ⟨clear_of (by decide), gang_operands_of (by decide) (by decide)⟩, clear_of (by decide), clear_of (by decide)⟩
theorem witness_SpecialRegisterReads : Clear one (.srd hd { a0 with d := 1 }) hd 0 1 (group [0]) ∧
    Clear one (.srd hd { a0 with d := 2, mods := 38 }) hd 0 1 (group [0]) := ⟨clear_of (by decide), clear_of (by decide)⟩

/-! ### Witnesses: operands, control, exceptions. -/

/-- A context over the one thread of `one`. -/
def cx1 : State.Ctx := one.issueCtx (.iadd hd fs32) hd 0 1 (group [0])
/-- The same, window c0 at VA 0x10000. -/
def cxw : State.Ctx := { cx1 with head := { head0 with windows := [0x10000, 0, 0, 0, 0, 0, 0, 0] } }
theorem witness_OperandValues : ([0] : List Nat) ≠ [] ∧ (∃ src : Src, src.k = .vec) ∧ (∃ src : Src, src.k = .win ∧ src.n = 1) ∧
    cx1.head.windows.getD ((0 : BitVec 20).extractLsb' 17 3).toNat 0 = 0 ∧
    cxw.head.windows.getD ((0x1FFFF : BitVec 20).extractLsb' 17 3).toNat 0 ≠ 0 ∧
    (translate one (one.who 0) (0x10000 + BitVec.ofNat 64 (4 * 0x3FFF)) .read).1 = .ok 0x2FFFC 0x200FF ∧ one.failed = [] ∧
      one.record (0x2FFFC / 128) = none ∧ tfind one.drains (0x2FFFC / 128) = none ∧ tfind (one.core 0).ccache (0x2FFFC / 4) = none :=
  ⟨by decide, ⟨⟨.vec, 0, 1, .int 32⟩, rfl⟩, ⟨⟨.win, 0, 1, .int 32⟩, rfl, rfl⟩, by decide, by decide, by decide, rfl, by decide, rfl,
    by decide⟩
theorem witness_NopYieldSleep : Clear one (.nop hd c0) hd 0 1 (group [0]) ∧ Clear one (.yield hd c0) hd 0 1 (group [0]) ∧
    Clear one (.sleep hd { c0 with mods := 0x3FFFF }) hd 0 1 (group [0]) ∧ Clear one (.sleep hd c0) hd 0 1 (group [0]) ∧
    Clear one (.sleep hd { c0 with a := 1, kA := .scl, mods := 0x40000 }) hd 0 1 (group [0]) ∧
    Clear one (.sleep hd { c0 with a := 1, mods := 0x40000 }) hd 0 1 (group [0]) ∧ (∀ u ∈ (group [0]).members, one.acts hd u = true) :=
  ⟨clear_of (by decide), clear_of (by decide), clear_of (by decide), clear_of (by decide), clear_of (by decide), clear_of (by decide),
    by decide⟩

/-- Core 0 with a line of NOPs whose slots are all targets at VA 0x10000 and 0x10040. -/
def nopLine : Line := mkLine [0x0001C0000000000000000000, 0x0001C0000000000000000000, 0x0001C0000000000000000000,
  0x0001C0000000000000000000, 0x0001C0000000000000000000] 31 0
def withCode (s : State) : State := s.modCore 0 (fun k => { k with icache := [(0x800, nopLine), (0x801, nopLine)] })
def target (s : State) (t : Nat) (pc : W64) : Bool :=
  canonicalVa pc && pcOk pc && (match fetchLine s (s.who t) pc with
    | (.ok l, _) => lineTarget l (pcSlot pc)
    | _ => false)
theorem reaches_one {s : State} {t : Nat} {pc : W64} (h : target s t pc = true) : ∃ s1, s.Reaches [t] pc s1 := by
  simp only [target, Bool.and_eq_true] at h
  obtain ⟨⟨h1, h2⟩, h3⟩ := h
  split at h3
  · rename_i l s' hl
    exact ⟨s', h1, h2, l, s', hl, h3, rfl⟩
  · cases h3
def code1 : State := withCode one
theorem witness_Transfers : Clear code1 (.bra hd { c0 with off := 7 }) hd 0 1 (group [0]) ∧ (∀ u ∈ (group [0]).members, code1.acts hd u = true) ∧
    ((slotNumber (group [0]).pc : Int) + (7 : BitVec 32).toInt = (5127 : Nat)) ∧ slotPC 5127 < 2 ^ 64 ∧
    (∃ s1, code1.Reaches [0] (BitVec.ofNat 64 (slotPC 5127)) s1) ∧
    (Clear code1 (.bra { hd with neg := true } c0) { hd with neg := true } 0 1 (group [0]) ∧
      ∀ u ∈ (group [0]).members, code1.acts { hd with neg := true } u = false) ∧
    (∀ x ∈ code1.groups, x.1 < code1.nextId) ∧
    (Clear code1 (.brs hd { c0 with a := 3, kA := .scl, mods := 0x10000, off := 7 }) hd 0 1 (group [0]) ∨
      Clear code1 (.brs hd { c0 with a := 3, kA := .scl, mods := 0x20000, off := 7 }) hd 0 1 (group [0])) ∧
    Clear code1 (.call hd { c0 with d := 4, off := 7 }) hd 0 1 (group [0]) :=
  ⟨clear_of (by decide), by decide, by decide, by decide, reaches_one (by decide), ⟨clear_of (by decide), by decide⟩, by decide,
    .inr (clear_of (by decide)), clear_of (by decide)⟩

/-- With a handler at VA 0x10040. -/
def trapping (s : State) : State := { withCode s with regions := [(0, { Region.none with csrTrapvec := some 0x10040 })] }
def trap1 : State := trapping one
theorem enters_one {s : State} {u : Nat} {vec epc : W64} {code : Nat} {ea : Nat → W64}
    (h : s.entryFails u = false ∧ (s.enterHandler u epc code (ea u)).1 = some (vec, .ready)) :
    ∃ s1, s.Enters [u] vec epc code ea s1 :=
  ⟨_, h.1, _, Prod.ext h.2 rfl, rfl⟩
theorem witness_ExceptionEntry : (trap1.lane 0).status.getLsbD 2 = false ∧ trap1.trapvec (trap1.regionOf (slotOf 0)) = 0x10040 ∧
    target trap1 0 0x10040 = true ∧ one.trapvec (one.regionOf (slotOf 0)) = 0 ∧
    ((demo [0] { fetchLane with status := 5 }).lane 0).status.getLsbD 2 = true ∧
    (Issues one (.illegalInstruction 0x0281C0000000000000000000) { hd with stall := 0 } 0 1 (group [0]) ∧
      illegal (one.headerOf 0) (.illegalInstruction 0x0281C0000000000000000000) = true ∧
      ∀ u ∈ (group [0]).members, one.trapvec (one.regionOf (slotOf u)) = 0) :=
  ⟨by decide, by decide, by decide, by decide, by decide, issues_of (by decide), by decide, by decide⟩
def user1 : State := trapping (demo [0] { fetchLane with status := 0 })
theorem witness_TrapsAndReturns : Clear trap1 (.trap hd { c0 with mods := 0xFFFF }) hd 0 1 (group [0]) ∧
    (∃ s1, trap1.Enters [0] 0x10040 (nextPc 0x10000) 0x1B (fun _ => 0xFFFF) s1) ∧ Clear trap1 (.dbrk hd c0) hd 0 1 (group [0]) ∧
    (∃ s1, trap1.Enters [0] 0x10040 (nextPc 0x10000) 0x1C (fun _ => 0) s1) ∧
    Clear (demo [0] { fetchLane with status := 7, epc := 0x1000C }) (.rtt hd c0) hd 0 1 (group [0]) ∧
    (∀ u ∈ (group [0]).members, ((demo [0] { fetchLane with status := 7, epc := 0x1000C }).lane u).epc = 0x1000C) :=
  ⟨clear_of (by decide), enters_one (by decide), clear_of (by decide), enters_one (by decide), clear_of (by decide), by decide⟩
theorem witness_ThreadsEnd : Clear two (.halt hd c0) hd 0 1 (group [0, 1]) ∧ (∃ u ∈ (group [0, 1]).members, two.acts hd u = true) ∧
    Clear two (.exit hd c0) hd 0 1 (group [0, 1]) ∧ (∀ u ∈ (group [0, 1]).members, (two.gang (slotOf u)).weirs = []) :=
  ⟨clear_of (by decide), by decide, clear_of (by decide), by decide⟩
/-- An encoding version without weirs. -/
def old1 : State := { trap1 with launches := [(1, { launch0 with header := { head0 with version := 3 } })] }
theorem witness_IllegalPrivilegedFields :
    Issues trap1 (.illegalInstruction 0x0281C0000000000000000000) { hd with stall := 0 } 0 1 (group [0]) ∧
    (∃ s1, trap1.Enters [0] 0x10040 0x10000 0x01 (fun _ => 0) s1) ∧
    (Issues old1 (.wsign hd { c0 with wv := true }) hd 0 1 (group [0]) ∧
      illegal (old1.headerOf 0) (.wsign hd { c0 with wv := true }) = true) ∧
    (Issues user1 (.csrw hd { m0 with width := 2, off := 0x10 }) hd 0 1 (group [0]) ∧
      privileged (.csrw hd { m0 with width := 2, off := 0x10 }) = true ∧ (∀ u ∈ (group [0]).members, user1.prvOf u = false) ∧
      ∃ s1, user1.Enters [0] 0x10040 0x10000 0x03 (fun _ => 0) s1) ∧
    (Issues trap1 (.iadd hd { fs32 with d := 384 }) hd 0 1 (group [0]) ∧
      fieldFault (trap1.headerOf 0) 0 (.iadd hd { fs32 with d := 384 }) = some 384 ∧
      ∃ s1, trap1.Enters [0] 0x10040 0x10000 0x02 (fun _ => 384) s1) :=
  ⟨issues_of (by decide), enters_one (by decide), ⟨issues_of (by decide), by decide⟩,
    ⟨issues_of (by decide), by decide, by decide, enters_one (by decide)⟩, ⟨issues_of (by decide), by decide, enters_one (by decide)⟩⟩
/-- A fixed-latency result of v1 not reached, and the scoreboard on; v1 interlocked. -/
def early1 : State :=
  (trapping (demo [0] { fetchLane with pend := [⟨.v 1, 5, 4⟩] })).modCore 0 (fun k => { k with check := true })
def locked1 : State := demo [0] { fetchLane with lock := [.v 1] }
theorem witness_ScoreboardAndInterlock : Issues early1 (.iadd hd fs32) hd 0 1 (group [0]) ∧
    fieldFault (early1.headerOf 0) 0 (.iadd hd fs32) = none ∧ early1.waitsFor [0] 0 (.iadd hd fs32) hd = false ∧
    (early1.core 0).check = true ∧ early1.scoreboard 0 (early1.operandsOf (.iadd hd fs32) hd (group [0])) = some (.v 1) ∧
    (∃ s1, early1.Enters [0] 0x10040 0x10000 0x08 (fun _ => BitVec.ofNat 64 (regNumber (.v 1))) s1) ∧
    Issues locked1 (.iadd hd fs32) hd 0 1 (group [0]) ∧ locked1.waitsFor [0] 0 (.iadd hd fs32) hd = true :=
  ⟨issues_of (by decide), by decide, by decide, by decide, by decide, enters_one (by decide), issues_of (by decide), by decide⟩

/-! ### Witnesses: loads, stores, atomics, leases. -/

/-- The accesses of threads that pass, with the state after them. -/
def translated (s : State) (acc : Acc) (align : Nat) (va : Nat → W64) : List Nat → Option (List LaneAcc × State)
  | [] => some ([], s)
  | u :: us =>
    if canonicalVa (va u) && (va u).toNat % align == 0 then
      match translate s (s.who u) (va u) acc with
      | (.ok key pte, s') => (translated s' acc align va us).map (fun r => (⟨u, va u, key, pte⟩ :: r.1, r.2))
      | _ => none
    else none
theorem translates_of {acc : Acc} {align : Nat} {va : Nat → W64} {us : List Nat} : ∀ {s : State} {r : List LaneAcc × State},
    translated s acc align va us = some r → s.Translates acc align va us r.1 r.2 := by
  induction us with
  | nil => intro s r h; cases h; exact ⟨rfl, rfl⟩
  | cons u us ih =>
    intro s r h
    simp only [translated] at h
    split at h
    · rename_i hc
      simp only [Bool.and_eq_true, beq_iff_eq] at hc
      split at h
      · rename_i key pte s' ht
        simp only [Option.map_eq_some_iff] at h
        obtain ⟨x, hx, rfl⟩ := h
        exact ⟨hc.1, hc.2, key, pte, s', x.1, ht, rfl, ih hx⟩
      · cases h
    · cases h
/-- Thread 0's pair v8:v9 holds an address. -/
def at' (va : Nat) : Lane := { fetchLane with v := [(8, BitVec.ofNat 32 va), (9, 0)].filter (fun x => x.2 != 0) }
def mem1 : State := demo [0] (at' 0x1FFFC)
def ldT (f : FmtM) : FmtM := { f with d := 4, a := 8, width := 2 }
/-- Access of the last word of the page. -/
def acc1 : LaneAcc := ⟨0, 0x1FFFC, 0x2FFFC, 0x200FF⟩
theorem mem1_translates (acc : Acc) (i : Instr) (f : FmtM) (n : Nat) (h : (translated mem1 acc n
    (mem1.globalVa (mem1.issueCtx i hd 0 1 (group [0])) f) [0]) = some ([acc1], mem1)) :
    mem1.Translates acc n (mem1.globalVa (mem1.issueCtx i hd 0 1 (group [0])) f) [0] [acc1] mem1 := translates_of h
/-- No hold and no trap. -/
def quiet (d : Done) : Bool := d.hold.isNone && d.traps.isEmpty && d.absent.isEmpty
theorem quiet_eq {d : Done × State} (h : quiet d.1 = true) : ∃ waits uses t, d = ({ waits := waits, uses := uses }, t) := by
  obtain ⟨⟨hold, traps, absent, waits, uses⟩, t⟩ := d
  simp only [quiet, Bool.and_eq_true, Option.isNone_iff_eq_none, List.isEmpty_iff] at h
  obtain ⟨⟨rfl, rfl⟩, rfl⟩ := h
  exact ⟨waits, uses, t, rfl⟩
/-- And nothing to wait for. -/
theorem quiet_done {d : Done × State} (h : (quiet d.1 && d.1.waits.isEmpty) = true) : ∃ uses t, d = ({ uses := uses }, t) := by
  obtain ⟨⟨hold, traps, absent, waits, uses⟩, t⟩ := d
  simp only [quiet, Bool.and_eq_true, Option.isNone_iff_eq_none, List.isEmpty_iff] at h
  obtain ⟨⟨⟨rfl, rfl⟩, rfl⟩, rfl⟩ := h
  exact ⟨uses, t, rfl⟩
/-- The page holds FP8 elements of format code 4. -/
def fmtPte : W64 := 0x200FF ||| 4 <<< 55
def fmt1 : State := mem1.modCore 0 (fun k => { k with tlb := [{ page with pte := fmtPte }] })
def kmem1 : State := demo [0] fetchLane { fetchGang with k := [(8, 0x1FFFC)] }
def cxOf (s : State) (i : Instr) (ts : List Nat := [0]) : State.Ctx := s.issueCtx i hd 0 1 (group ts)
theorem witness_GlobalLoads : (Clear mem1 (.ld hd (ldT m0)) hd 0 1 (group [0]) ∧
      mem1.Translates .read 4 (mem1.globalVa (mem1.issueCtx (.ld hd (ldT m0)) hd 0 1 (group [0])) (ldT m0)) [0] [acc1] mem1 ∧
      ∃ waits uses t, mem1.performLoads 0 [(acc1, loadOf (ldT m0) false .zext acc1)] false false false =
        ({ waits := waits, uses := uses }, t)) ∧
    Clear kmem1 (.sld hd { ldT m0 with kA := .scl }) hd 0 1 (group [0]) ∧
    (translated kmem1 .read 4 (kmem1.globalVa (kmem1.issueCtx (.sld hd { ldT m0 with kA := .scl }) hd 0 1 (group [0]))
      { ldT m0 with kA := .scl }) [0]).isSome = true ∧
    (Clear fmt1 (.ldf hd { m0 with d := 4, a := 8, width := 5 }) hd 0 1 (group [0]) ∧
      (translated fmt1 .read 1 (fmt1.globalVa (fmt1.issueCtx (.ldf hd { m0 with d := 4, a := 8, width := 5 }) hd 0 1 (group [0]))
        { m0 with d := 4, a := 8, width := 5 }) [0]).isSome = true ∧
      formatFault ⟨0, 0x1FFFC, 0x2FFFC, fmtPte⟩ = none ∧ fmt1.loadFault 0 ⟨0, 0x1FFFC, 0x2FFFC, fmtPte⟩ 1 false = none ∧
      fmt1.Scales (cxOf fmt1 (.ldf hd { m0 with d := 4, a := 8, width := 5 })) false [⟨0, 0x1FFFC, 0x2FFFC, fmtPte⟩] [none] [] fmt1) :=
  ⟨⟨clear_of (by decide), mem1_translates _ _ _ _ (by decide), quiet_eq (by decide)⟩, clear_of (by decide), by decide,
    clear_of (by decide), by decide, by decide, by decide, rfl, rfl, rfl⟩
/-- L1 holds the line of the access, with its last four bytes. -/
def l1Of (cells : Tab (Byte × Bool)) : Tab L1Line := [(0x2FFFC / 128, { L1Line.empty with cells := cells })]
def hit1 : State := mem1.modCore 0 (fun k => { k with l1 := l1Of [(124, 1, false), (125, 2, false), (126, 3, false), (127, 4, true)] })
def load1 : LaneAcc × LaneLoad := (acc1, loadOf (ldT m0) false .zext acc1)
theorem witness_LoadsDeliver : ([load1].map (fun l => l.2.thread)).Nodup ∧
    (∀ l ∈ [load1], l.2.scalar = false ∧ (tfind hit1.lanes l.2.thread).isSome = true ∧ l.2.key = l.1.key ∧ 0 < l.2.size) ∧
    (∀ x ∈ hit1.requests, x.1 < hit1.nextId) ∧ (∀ x ∈ hit1.net, x.1 < hit1.nextId) ∧
    (∀ l ∈ [load1], cacheable l.1.key = true ∧ hit1.lineBusy 0 (l.1.key / 128) = false ∧ hit1.redPending 0 l.1.key l.2.size = false ∧
      hit1.loadFault 0 l.1 l.2.size false = none ∧ hit1.loadFault 0 l.1 l.2.size true = none) ∧
    hit1.outstanding 0 + (dedup ([load1].map (fun l => l.1.key / 128))).length ≤ Config.maxOutstanding ∧
    hit1.l1Serves 0 load1.1.key load1.2.size false = true ∧ hit1.l1Serves 0 load1.1.key load1.2.size true = false ∧
    (tfind hit1.gangs (slotOf load1.2.thread)).isSome = true := by decide
theorem witness_GlobalStores : (Clear mem1 (.st hd { m0 with a := 8, b := 3, width := 2 }) hd 0 1 (group [0]) ∧
      mem1.Translates .write 4 (mem1.globalVa (mem1.issueCtx (.st hd { m0 with a := 8, b := 3, width := 2 }) hd 0 1 (group [0]))
        { m0 with a := 8, b := 3, width := 2 }) [0] [acc1] mem1 ∧
      ∃ uses t, mem1.performStores (mem1.issueCtx (.st hd { m0 with a := 8, b := 3, width := 2 }) hd 0 1 (group [0]))
        [(acc1, [1, 2, 3, 4])] false false false (fun _ => none) = ({ uses := uses }, t)) ∧
    Clear kmem1 (.sst hd { m0 with a := 8, b := 4, kA := .scl, kB := .scl, width := 2 }) hd 0 1 (group [0]) ∧
    (Clear fmt1 (.stf hd { m0 with a := 8, b := 3, width := 5 }) hd 0 1 (group [0]) ∧
      (translated fmt1 .write 1 (fmt1.globalVa (fmt1.issueCtx (.stf hd { m0 with a := 8, b := 3, width := 5 }) hd 0 1 (group [0]))
        { m0 with a := 8, b := 3, width := 5 }) [0]).isSome = true ∧
      ∃ uses t, fmt1.performStores (cxOf fmt1 (.stf hd { m0 with a := 8, b := 3, width := 5 }))
        [(⟨0, 0x1FFFC, 0x2FFFC, fmtPte⟩, [1])] false false false formatFault = ({ uses := uses }, t)) :=
  ⟨⟨clear_of (by decide), mem1_translates _ _ _ _ (by decide), quiet_done (by decide)⟩, clear_of (by decide), clear_of (by decide),
    by decide, quiet_done (by decide)⟩
theorem witness_StoresAndReleases : let cx := hit1.issueCtx (.st hd { m0 with a := 8, b := 3, width := 2 }) hd 0 1 (group [0])
    (∀ a ∈ [(acc1, ([1, 2, 3, 4] : List Byte))], hit1.storeRoute cx.core cx.gid false a.1 a.2.length = .l1 ∧ a.1.key % 128 + a.2.length ≤ 128 ∧
      (hit1.l1Line cx.core (a.1.key / 128)).isSome = true ∧ hit1.storeFault cx.core a.1 a.2.length = none) ∧
    hit1.outstanding cx.core + 1 ≤ Config.maxOutstanding ∧ hit1.mayWrite cx.core [acc1.thread] true false = true ∧
    targetOf acc1.key ≠ .host ∧ hit1.mayWrite cx.core [acc1.thread] true true = true ∧
    hit1.setRoom cx.core (acc1.key / 128) = true ∧ (hit1.core cx.core).epoch + 1 < 2 ^ 32 ∧
    (let s := mem1.modCore 0 (fun k => { k with epoch := 2 ^ 32 - 1, l1 := l1Of [] })
     s.storeRoute 0 1 false acc1 4 = .l1 ∧ s.mayWrite 0 [0] true true = true ∧ s.setRoom 0 (acc1.key / 128) = true ∧ (s.core 0).pinned = [] ∧ s.dirtyLines 0 = [] ∧ s.writeBacks 0 = []) := by decide
def scr1 : State := demo [0] { fetchLane with v := [(8, 786428)] }
theorem witness_ScratchAccesses : (∃ r, scratchLoadRow (.ld hd { ldT m0 with space := 1 }) = some r ∧
      Clear scr1 (.ld hd { ldT m0 with space := 1 }) r.h 0 1 (group [0])) ∧
    (∃ r, scratchStoreRow (.st hd { m0 with a := 8, b := 3, width := 2, space := 1 }) = some r ∧
      Clear scr1 (.st hd { m0 with a := 8, b := 3, width := 2, space := 1 }) r.h 0 1 (group [0])) ∧
    (∃ r, scratchLoadRow (.lds hd { ldT m0 with b := 3, space := 1 }) = some r ∧
      Clear scr1 (.lds hd { ldT m0 with b := 3, space := 1 }) r.h 0 1 (group [0])) ∧
    scr1.scratchCheck 0 (scr1.scratchAt (scr1.issueCtx (.ld hd { ldT m0 with space := 1 }) hd 0 1 (group [0]))
      { ldT m0 with space := 1 } 0 0) 4 = .inl 786428 ∧
    scr1.scratchFailed 0 786428 4 = false ∧ scr1.readsQuiet 0 = true ∧ scr1.threadQuiet 0 = true :=
  ⟨⟨_, rfl, clear_of (by decide)⟩, ⟨_, rfl, clear_of (by decide)⟩, ⟨_, rfl, clear_of (by decide)⟩, by decide, by decide, by decide, by decide⟩
/-- A segment at offset 0 tagged with FP8. -/
def tag1 : State := { demo [0] with blocks := [(blockKey 1 0, { block0 with parts := [{ BlockPart.none with slots := [0], tags := [(0, 4)] }] })] }
theorem witness_ScratchFormatted : Clear tag1 (.ldf hd { m0 with d := 4, a := 8, width := 5, space := 1 }) hd 0 1 (group [0]) ∧
    Clear tag1 (.stf hd { m0 with a := 8, b := 3, width := 5, space := 1 }) hd 0 1 (group [0]) ∧
    tag1.scratchTag 0 0 ≠ 0 ∧ 0 + elemSize (tag1.scratchTag 0 0) ≤ (tag1.headerOf 0).scratch :=
  ⟨clear_of (by decide), clear_of (by decide), by decide, by decide⟩
theorem witness_ScratchEffects : Clear scr1 (.atoms hd { ldT m0 with b := 3, space := 1, scope := 1 }) hd 0 1 (group [0]) ∧
    Clear scr1 (.cass hd { ldT m0 with b := 3, c := 5, space := 1, scope := 1 }) hd 0 1 (group [0]) ∧
    (∃ p ∈ (one.block (one.blockOf 0)).parts, p.core = coreOf 0) ∧ (tfind one.blocks (one.blockOf 0)).isSome = true ∧
    canonical 0 (one.scratchPart 0).scratch = true :=
  ⟨clear_of (by decide), clear_of (by decide), by decide, by decide, by decide⟩
/-- A kernel with window c0 at VA 0x10000. -/
def ldcF : FmtM := { ldT m0 with a := 1, space := 2 }
def win1 : State := { demo [0] with launches := [(1, { launch0 with header := { head0 with windows := [0x10000] } })] }
theorem witness_WindowsAndCacheHints : (Clear win1 (.ldc hd ldcF) hd 0 1 (group [0]) ∧
      win1.ReadsWindow win1 ((cxOf win1 (.ldc hd ldcF)).head.windows.getD 0 0) (fun _ => 0) 1 [0]
        (fun _ => (constWords win1 (win1.who 0) 0x10000 0 1).1) (constWords win1 (win1.who 0) 0x10000 0 1).2.2) ∧
    (Clear mem1 (.pref hd { m0 with a := 8 }) hd 0 1 (group [0]) ∧ ∀ x ∈ mem1.requests, x.1 < mem1.nextId) ∧ Clear mem1 (.cctl hd m0) hd 0 1 (group [0]) ∧
    (Clear hit1 (.cctl hd { m0 with a := 8, op := 3 }) hd 0 1 (group [0]) ∧
      (translated hit1 .read 1 (hit1.globalVa (cxOf hit1 (.cctl hd { m0 with a := 8, op := 3 })) { m0 with a := 8, op := 3 }) [0]).isSome = true ∧
      hit1.pinnedLine 0 (0x2FFFC / 128) = false ∧ hit1.leasedLine 0 (0x2FFFC / 128) = false ∧
      (hit1.writeBackFit 0 [0x2FFFC / 128]).1 = true ∧ (hit1.writeBackFit 0 (hit1.dirtyLines 0)).1 = true) :=
  ⟨⟨clear_of (by decide), by decide, by decide, by decide, _, Prod.ext rfl (Prod.ext (by decide) rfl), rfl⟩,
    ⟨clear_of (by decide), by decide⟩, clear_of (by decide), clear_of (by decide), by decide, by decide, by decide, by decide, by decide⟩
def misaligned1 : State := trapping (demo [0] (at' 0x1FFFE))
/-- The page, near, and one without the write right; a region in state S. -/
def nearPage (pte : W64 := 0x80000000000200FF) (s : State) : State := s.modCore 0 (fun k => { k with tlb := [{ page with pte := pte }] })
def readOnlyEntry : TlbEntry := { page with pte := 0x200F7, pteAt := 0x50008 }
/-- With its tables from PA 0 on. -/
def readOnly1 : State := { trapping (mem1.modCore 0 (fun k => { k with tlb := [readOnlyEntry] })) with
  mem := [(0, 1), (2, 3), (0x30000, 1), (0x30002, 4), (0x40000, 1), (0x40002, 5), (0x50008, 0xF7), (0x5000A, 2)] }
def shared1 : State := { trapping (nearPage (s := mem1)) with regionDir := [(47, { state := 2, pending := 0, queue := [], await := none })] }
def accNear : LaneAcc := { acc1 with pte := 0x80000000000200FF }
def atomF : FmtM := { m0 with d := 4, a := 8, b := 3, width := 2, op := 1, order := 3, scope := 4 }
def stF : FmtM := { m0 with a := 8, b := 3, width := 2 }
theorem denies_fault {s : State} {acc : Acc} {align code u : Nat} {va : Nat → W64}
    (h : canonicalVa (va u) = true ∧ (va u).toNat % align = 0 ∧ (translate s (s.who u) (va u) acc).1 = .fault code) :
    ∃ s1, s.Denies acc align va code [u] s1 := ⟨_, .inr (.inr ⟨h.1, h.2.1, _, Prod.ext h.2.2 rfl, rfl⟩)⟩
theorem witness_AccessTraps : (∃ r, accessRow (.ld hd (ldT m0)) = some r ∧ Clear misaligned1 (.ld hd (ldT m0)) r.1 0 1 (group [0]) ∧
      misaligned1.Denies r.2.2.1 r.2.2.2.1 (misaligned1.globalVa (cxOf misaligned1 (.ld hd (ldT m0))) r.2.1) 0x15 [0] misaligned1 ∧
      ∃ s2, (misaligned1.countUses 0 (asidOf misaligned1 (cxOf misaligned1 (.ld hd (ldT m0)))) 0
        (State.faultUses [] [(0, .trap 0x15 0x1FFFE)])).Enters [0] 0x10040 0x10000 0x15 (fun _ => 0x1FFFE) s2) ∧
    (Clear readOnly1 (.st hd stF) hd 0 1 (group [0]) ∧
      (∃ s1, readOnly1.Denies .write 4 (readOnly1.globalVa (cxOf readOnly1 (.st hd stF)) stF) 0x11 [0] s1) ∧
      ∃ s2, (readOnly1.countUses 0 (asidOf readOnly1 (cxOf readOnly1 (.st hd stF))) 1
        (State.faultUses [] [(0, .trap 0x11 0x1FFFC)])).Enters [0] 0x10040 0x10000 0x11 (fun _ => 0x1FFFC) s2) := by
  refine ⟨⟨_, rfl, clear_of (by decide), .inr (.inl ⟨by decide, by decide, by decide, rfl⟩), enters_one (by decide)⟩,
    clear_of (by decide), denies_fault (by decide), enters_one (by decide)⟩
theorem witness_AccessTraps_region : accessRow (.atom hd atomF) = some (hd, atomF, .rw, 4, 2) ∧
    Clear shared1 (.atom hd atomF) hd 0 1 (group [0]) ∧
    (translated shared1 .rw 4 (shared1.globalVa (cxOf shared1 (.atom hd atomF)) atomF) [0]) = some ([accNear], shared1) ∧
    InSharedRegion shared1 (cxOf shared1 (.atom hd atomF)) (.atom hd atomF) [accNear] ∧
    (∃ s2, ((shared1.markDraw (marked (.atom hd atomF))).countUses 0 (asidOf shared1 (cxOf shared1 (.atom hd atomF))) 2
      (State.faultUses [] [(0, .trap 0x12 0x1FFFC)])).Enters [0] 0x10040 0x10000 0x12 (fun _ => 0x1FFFC) s2) ∧
    canonicalVa 0x1FFFC = true ∧ (readOnly1.core 0).tlb.find? (fun x => tlbHit x 0 0x1FFFC) = some readOnlyEntry ∧
    permits readOnlyEntry.pte true .write = false ∧ (walk readOnly1 (readOnly1.who 0) 0x1FFFC false).2.1 = some readOnlyEntry := by
  refine ⟨rfl, clear_of (by decide), by decide, ?_, enters_one (by decide), by decide, by decide, by decide, by decide⟩
  unfold InSharedRegion
  decide
def atomOps (red : Bool) (f : FmtM) (i : Instr) : List (LaneAcc × LaneOp × Place) :=
  mem1.atomics (cxOf mem1 i) f red f.op.toNat (atomOf mem1 (cxOf mem1 i) f) [acc1]
theorem eager_free {s : State} {c gid : Nat} {skip : Nat → Bool} (h : (s.core c).pinned = [] ∧ s.dirtyLines c = [] ∧ s.writeBacks c = []) :
    s.EagerFree c gid skip := .inr ⟨h.1, by simp [h.2.1], h.2.2⟩
theorem witness_AtomicsSend : (Clear mem1 (.atom hd atomF) hd 0 1 (group [0]) ∧
      mem1.Translates .rw 4 (mem1.globalVa (cxOf mem1 (.atom hd atomF)) atomF) [0] [acc1] mem1 ∧
      AtomicsRun mem1 (cxOf mem1 (.atom hd atomF)) atomF (atomOps false atomF (.atom hd atomF))) ∧
    Clear mem1 (.cas hd { atomF with c := 5, op := 0 }) hd 0 1 (group [0]) ∧
    (Clear mem1 (.red hd { atomF with d := 0, order := 2 }) hd 0 1 (group [0]) ∧
      RedsRun mem1 (cxOf mem1 (.red hd { atomF with d := 0, order := 2 })) { atomF with d := 0, order := 2 }
        (atomOps true { atomF with d := 0, order := 2 } (.red hd { atomF with d := 0, order := 2 }))) := by
  refine ⟨⟨clear_of (by decide), mem1_translates _ _ _ _ (by decide), ?_⟩, clear_of (by decide), clear_of (by decide), ?_⟩
  · exact ⟨by decide, by decide, by decide, by decide, by decide, by decide, fun _ => ⟨by decide, fun _ => eager_free (by decide)⟩⟩
  · exact ⟨by decide, by decide, by decide, by decide, by decide, by decide, fun _ => ⟨by decide, fun _ => eager_free (by decide)⟩⟩
theorem witness_AtomicsSend_requests : let ops := atomOps false atomF (.atom hd atomF)
    (∀ x ∈ mem1.requests, x.1 < mem1.nextId) ∧ (∀ x ∈ mem1.net, x.1 < mem1.nextId) ∧
    (ops.map (fun o => o.2.1.thread)).Nodup ∧ (∀ o ∈ ops, (tfind mem1.lanes o.2.1.thread).isSome = true) ∧ ops ≠ [] := by decide
/-- Thread 0 holds the lease of its line, granted in cycle 0. -/
def lease0 : Lease := { line := 0x2FFFC / 128, holder := some 0, granted := 0, leasemax := 256, stl := [], revoked := false
                        ending := false, farLine := false, notify := none }
def leased1 : State := mem1.modCore 0 (fun k => { k with leases := [lease0], l1 := l1Of [] })
def leaseF : FmtM := { m0 with d := 4, a := 8, width := 2, op := 2, scope := 4 }
def stlF : FmtM := { m0 with a := 8, b := 3, width := 2, op := 2 }
def lsendF : FmtM := { m0 with a := 8, op := 2 }
def req1 : Request := { core := 0, line := 0x2FFFC / 128, kind := .leaseLoad, loads := [lseLoad leaseF acc1], ops := [], va := 0x1FFFC
                        acquire := false, release := none, near := true }
def lq1 : LeaseReq := { core := 0, line := 0x2FFFC / 128, holder := some 0, req := 0, pred := 2, stall := 1, leasemax := 256 }
theorem witness_LeaseInstructions : (Clear mem1 (.lse hd leaseF) hd 0 1 (group [0]) ∧ (cxOf mem1 (.lse hd leaseF)).act = [0] ∧
      mem1.Translates .lease 4 (mem1.globalVa (cxOf mem1 (.lse hd leaseF)) leaseF) [0] [acc1] mem1 ∧
      leaseTrap mem1 true acc1 = none ∧ mem1.readsQuiet 0 = true ∧ leaseTaken mem1 (cxOf mem1 (.lse hd leaseF)) = false ∧
      lseCases mem1 0 [acc1] = [(acc1, .ask)] ∧ lineFree mem1 (0x2FFFC / 128) = true ∧ mem1.leaseQueue = [] ∧
      (mem1.core 0).leases = [] ∧ (mem1.core 0).outside = false ∧ grantReady mem1 req1 mem1.nextId = true ∧ grantFault mem1 req1 = none ∧
      mem1.record (0x2FFFC / 128) = none ∧ mem1.drainFor (0x2FFFC / 128) = none ∧
      ([(acc1, LseCase.ask)].foldl (lseAsk hd leaseF (cxOf mem1 (.lse hd leaseF))) ([], mem1)).1 = []) ∧
    (req1.loads = [lseLoad leaseF acc1] ∧ (lseLoad leaseF acc1).key / 128 = req1.line ∧ (lseLoad leaseF acc1).key % 128 + 4 ≤ 128 ∧
      (tfind mem1.lanes 0).isSome = true ∧ Memory.wf mem1.mem ∧ mem1.ownCells 0 req1.line = [] ∧ mem1.l1Line 0 req1.line = none ∧
      lq1.pred < 7 ∧ (mem1.setOf 0 req1.line).length < Config.l1Ways) ∧
    (Clear leased1 (.stl hd stlF) hd 0 1 (group [0]) ∧ leaseTrap leased1 false acc1 = none ∧ leased1.readsQuiet 0 = true ∧
      leaseOf leased1 0 (0x2FFFC / 128) 0 = some lease0 ∧ leased1.clockOf 0 - lease0.granted < lease0.leasemax ∧
      leased1.storeFault 0 acc1 4 = none ∧ (leased1.l1Line 0 (0x2FFFC / 128)).isSome = true) ∧
    leaseOf mem1 0 (0x2FFFC / 128) 0 = none ∧ lease0.leasemax ≤ ({ leased1 with cycle := 256 } : State).clockOf 0 - lease0.granted ∧
    (Clear leased1 (.lsend hd lsendF) hd 0 1 (group [0]) ∧ liveLease leased1 0 lease0 = true ∧ leased1.mayWrite 0 [0] true false = true ∧
      leased1.probesAwait 0 [0x2FFFC / 128] = true ∧ leased1.setRoom 0 (0x2FFFC / 128) = true ∧ farLease leased1 acc1 = false ∧
      leased1.pinnedLine 0 (0x2FFFC / 128) = false ∧ leased1.outstanding 0 < Config.maxOutstanding ∧ (leased1.core 0).epoch + 1 < 2 ^ 32) :=
  ⟨⟨clear_of (by decide), by decide, mem1_translates _ _ _ _ (by decide), by decide⟩, by decide,
    ⟨clear_of (by decide), by decide⟩, by decide, by decide, clear_of (by decide), by decide⟩

/-! ### Witnesses: synchronisation, weirs, engines, populations. -/

def fenceF : FmtM := { m0 with order := 3, scope := 4 }
theorem witness_FencesAndBarriers : (Clear one (.fence hd fenceF) hd 0 1 (group [0]) ∧ one.releaseReady 0 [0] true = true ∧
      one.EagerFree 0 1 (fun _ => false)) ∧
    (∀ w : Bool, Clear one (if w then Instr.bar hd c0 else Instr.bara hd c0) hd 0 1 (group [0])) ∧
    Clear one (.bar hd { c0 with mods := 16 }) hd 0 1 (group [0]) ∧ one.missing (cxOf one (.bar hd c0)) = [] ∧
    0 ∉ (barState (one.block (one.blockOf 0)) 0).arrived ∧ (tfind one.blocks (blockKey 1 0)).isSome = true ∧
    (one.block (blockKey 1 0)).saved = false :=
  ⟨⟨clear_of (by decide), by decide, eager_free (by decide)⟩, by intro w; cases w <;> exact clear_of (by decide), clear_of (by decide),
    by decide, by decide, by decide, by decide⟩
/-- A kernel with weirs; weir 3 open for lanes 0 and 1. -/
def weirGang (signed declared : W32) : Gang := { fetchGang with weirs := [(3, { Weir.idle with declared := declared, state := .opened, signed := signed })] }
def weir1 (signed declared : W32) : State := { demo [0] fetchLane (weirGang signed declared) with
  launches := [(1, { launch0 with header := { head0 with weirs := 16 } })] }
def wF : FmtC := { c0 with weir := 3, wv := true }
theorem witness_WeirsDeclareAndSign : Clear (weir1 0 3) (.wdecl hd { wF with a := 1, kA := .scl }) hd 0 1 (group [0]) ∧
    Clear (weir1 0 3) (.wdecl hd { wF with mods := 1 }) hd 0 1 (group [0]) ∧
    Clear (weir1 0 3) (.wsign hd wF) hd 0 1 (group [0]) ∧ Clear (weir1 0 3) (.wjoin hd { wF with d := 2, mods := 5 }) hd 0 1 (group [0]) ∧
    State.weirFault ((weir1 0 3).weir 0 3) (laneMask [0]) none = false ∧
    (laneMask [0] ≠ ((weir1 0 3).weir 0 3).declared ∧ laneMask [0] = ((weir1 0 1).weir 0 3).declared) ∧
    (weir1 0 3).threadQuiet 0 = true ∧
    (Clear (trapping (weir1 0 2)) (.wsign hd wF) hd 0 1 (group [0]) ∧
      State.weirFault ((trapping (weir1 0 2)).weir 0 3) (laneMask [0]) none = true ∧
      ∃ s1, (trapping (weir1 0 2)).Enters [0] 0x10040 0x10000 0x0A (fun _ => 3) s1) :=
  ⟨clear_of (by decide), clear_of (by decide), clear_of (by decide), clear_of (by decide), by decide, by decide, by decide,
    clear_of (by decide), by decide, enters_one (by decide)⟩
def tok (done : Bool) (fault : Option (Nat × W64)) : State := demo [0] fetchLane { fetchGang with
  k := [(5, 9)], tokens := [{ value := 9, unit := .channel 0, job := 3, thread := 0, done := done, fault := fault }] }
def tkF : FmtC := { c0 with a := 5, kA := .scl }
/-- The page is near, and a pair of scalar registers holds its first line's address. -/
def near1 : State := (demo [0] fetchLane { fetchGang with k := [(8, 0x10000)] }).modCore 0 (fun k => { k with tlb := [{ page with pte := 0x80000000000200FF }] })
def rgnF : FmtM := { m0 with a := 8, kA := .scl, order := 3, scope := 5, op := 1 }
theorem witness_TokensAndRegions : Clear one (.tkwait hd tkF) hd 0 1 (group [0]) ∧
    (Clear (tok true none) (.tkwait hd tkF) hd 0 1 (group [0]) ∧
      ((tok true none).gang 0).tokens.all (fun x => (tok true none).tokenComplete 0 x) = true) ∧
    (Clear (trapping (tok true (some (7, 5)))) (.tkwait hd tkF) hd 0 1 (group [0]) ∧
      ∃ s1, (trapping (tok true (some (7, 5)))).Enters [0] 0x10040 0x10000 7 (fun _ => 5) s1) ∧
    (Clear near1 (.rgn hd rgnF) hd 0 1 (group [0]) ∧
      near1.globalVa (cxOf near1 (.rgn hd rgnF)) rgnF 0 = 0x10000 ∧ canonicalVa 0x10000 = true ∧
      (translate near1 (near1.who 0) 0x10000 .write).1 = .ok 0x20000 0x80000000000200FF ∧ pteNear 0x80000000000200FF = true ∧ targetOf 0x20000 = .hbm ∧
      near1.releaseReady 0 [0] true = true ∧ near1.EagerFree 0 1 (fun _ => false)) :=
  ⟨clear_of (by decide), ⟨clear_of (by decide), by decide⟩, ⟨clear_of (by decide), enters_one (by decide)⟩,
    clear_of (by decide), by decide, by decide, by decide, by decide, by decide, by decide, eager_free (by decide)⟩
/-- ACCZ of eight rows. -/
def acczF : FmtX := { x0 with rows := 7 }
def engine1 : State := { weir1 0 1 with launches := [(1, { launch0 with header := { head0 with weirs := 16, accrows := 8 } })] }
def closed1 : State := { weir1 0 3 with launches := [(1, { launch0 with header := { head0 with weirs := 16, accrows := 8 } })] }
def mswpF : FmtX := { x0 with mods := 2 }
/-- What an instruction of gang 0 captures for lane 0, with scalar registers `ks`. -/
def once1 (i : Instr) (ks : Tab W32 := []) : Once := { slot := 0, instr := i, lanes := 1, thread := 0, act := true, regs := ks, locked := [] }
def onceIn (s : State) (i : Instr) : Once := s.onceOf (cxOf s i) i (laneMask [0]) true []
/-- Gangs 0 and 1 are a pair; gang 0's role is `role`, and gang 1 waits with `op`. -/
def pair1 (op : Option PairOp) (role : PairState := .paired) : State :=
  { demo [0] with
    launches := [(1, { launch0 with header := { head0 with version := 5, pairFlag := true, accrows := 8 } })]
    gangs := [(0, { fetchGang with pair := role, partner := some 1 }), (1, { fetchGang with pair := .paired, partner := some 0, pairOp := op })] }
def waiting (i : Instr) : PairOp := { op := { once1 i with slot := 1 }, scale := [] }
theorem once_done {r : OnceRes × State} (h : r.1 = .done) : ∃ s1, r = (.done, s1) := ⟨_, Prod.ext h rfl⟩
theorem accepts_engine {s : State} {o : Once} {f : FmtX} (hi : ∃ h, o.instr = .accz h f ∨ o.instr = .mswp h f) (hf : f.sc = false)
    (h : tfind (s.gang o.slot).engineFault f.eng.toNat = none ∧
      matrixFault (s.headerOf o.slot) s o.slot o.instr f o.scalars (s.engine o.core f.eng.toNat) = none ∧ valuesLocked s o f = false ∧ valueFailed s o f = none) :
    Accepts s o f := by
  obtain ⟨x, hi | hi⟩ := hi <;> rw [hi] at h <;> unfold Accepts <;> rw [hi] <;>
    exact ⟨h.1, h.2.1, h.2.2.1, h.2.2.2, fun hs => by rw [hf] at hs; cases hs⟩
def acczW : FmtX := { acczF with weir := 3, wv := true }
/-- A group that completes its weir, one that does not, and one without a weir. -/
theorem witness_OnceInstructions : (∃ b, roundBody (.accz hd acczF) = some (acczF, b) ∧
      Clear engine1 (.accz hd acczF) hd 0 1 (group [0]) ∧ engine1.missing (cxOf engine1 (.accz hd acczF)) = [] ∧
      engine1.setQuiet (cxOf engine1 (.accz hd acczF)) (.accz hd acczF) acczF = true ∧
      (cxOf engine1 (.accz hd acczF)).act ≠ [] ∧ ∃ s1, b (onceIn engine1 (.accz hd acczF)) engine1 = (.done, s1)) ∧
    (∃ b, roundBody (.accz hd acczW) = some (acczW, b) ∧
      Clear engine1 (.accz hd acczW) hd 0 1 (group [0]) ∧ Clear closed1 (.accz hd acczW) hd 0 1 (group [0]) ∧
      State.weirFault (engine1.weir 0 3) (laneMask [0]) (some (0x10000, .accz hd acczW)) = false ∧
      engine1.setQuiet (cxOf engine1 (.accz hd acczW)) (.accz hd acczW) acczW = true ∧
      (engine1.weir 0 3).signed ||| laneMask [0] = (engine1.weir 0 3).declared ∧
      (closed1.weir 0 3).signed ||| laneMask [0] ≠ (closed1.weir 0 3).declared ∧
      (cxOf engine1 (.accz hd acczW)).act ≠ [] ∧
      (∃ s1, b (onceIn engine1 (.accz hd acczW)) engine1 = (.done, s1)) ∧ Accepts engine1 (onceIn engine1 (.accz hd acczW)) acczW) :=
  ⟨⟨_, rfl, clear_of (by decide), by decide, by decide, by decide, once_done (by decide)⟩,
   ⟨_, rfl, clear_of (by decide), clear_of (by decide), by decide, by decide, by decide, by decide, by decide, once_done (by decide),
    accepts_engine ⟨hd, .inl rfl⟩ rfl (by decide)⟩⟩
/-- MSWP with the pair bit: the first gang, the second with equal fields and with others, and a gang alone after PDISS. -/
theorem witness_OnceInstructions_pairs : fmtX? (.mswp hd mswpF) = some mswpF ∧ mswpF.wv = false ∧
    (∀ s ∈ [pair1 none, pair1 (some (waiting (.mswp hd mswpF))), trapping (pair1 (some (waiting (.mguide hd mswpF)))), pair1 none .solo],
      let i := Instr.mswp hd mswpF
      clearB s i hd 0 1 (group [0]) = true ∧ State.pairedInstr (cxOf s i).head i = true ∧ s.missing (cxOf s i) = [] ∧
      (s.gang 0).pair ≠ .dissolved ∧ (s.gang 0).partner = some 1 ∧ (s.gang 0).pairOp = none ∧
      tfind (s.gang 0).engineFault 0 = none ∧ matrixFault (s.headerOf 0) s 0 i mswpF (onceIn s i).scalars (s.engine 0 0) = none ∧
      valuesLocked s (onceIn s i) mswpF = false ∧ valueFailed s (onceIn s i) mswpF = none) ∧
    pairKey (onceIn (pair1 none) (.mswp hd mswpF)) = pairKey (waiting (.mswp hd mswpF)).op ∧
    pairKey (onceIn (pair1 none) (.mswp hd mswpF)) ≠ pairKey (waiting (.mguide hd mswpF)).op ∧
    (∃ s1, (answerPair (trapping (pair1 (some (waiting (.mguide hd mswpF))))) (waiting (.mguide hd mswpF)) (some (0x0C, 0))).Enters
      [0] 0x10040 0x10000 0x0C (fun _ => 0) s1) ∧
    Stands (answerPair (trapping (pair1 (some (waiting (.mguide hd mswpF))))) (waiting (.mguide hd mswpF)) (some (0x0C, 0))) 1 (group [0]) :=
  ⟨rfl, rfl, by decide, by decide, by decide, enters_one (by decide), (issues_of (i := .nop hd c0) (h := hd) (c := 0) (by decide)).stands⟩
def op1 (i : Instr) (ks : List W32 := []) : EngineOp :=
  { id := 7, instr := i, block := 0, gang := 0, thread := 0, lanes := 1, token := none, scalars := ks, other := none, doSelf := true
    doOther := false, selfCond := true, accBase := 0, values := [], scale := [], scaleOther := [], locked := [] }
def queued (o : EngineOp) : State := engine1.modEngine 0 0 (fun e => { e with queue := [o] })
def mldF : FmtX := { x0 with tfmt := 4 }
def mmaF : FmtX := { x0 with sfmt := 4, tfmt := 4 }
def accrdF : FmtX := { x0 with sfmt := 1 }
/-- MGUIDE of rows 0 and 1 of both gangs; the other gang's rows begin at 4. -/
def guide1 : EngineOp := { op1 (.mguide hd { x0 with rows := 1 }) [0x3F800000] with
  other := some (1, .mguide hd { x0 with rows := 1, rowBase := 4 }, [0x3F800000], none), doOther := true }
/-- MMAP of a pair, rows 0 and 1 of this gang and 4 and 5 of the other. -/
def mmapOp : EngineOp := { op1 (.mmap hd { mmaF with rows := 1 }) [0, 0, 0x3F800000, 0x3F800000, 0] with
  other := some (1, .mmap hd { mmaF with rows := 1, rowBase := 4 }, [0, 0, 0x3F800000, 0x3F800000, 0], none), doOther := true }
def mmap1 : State := queued mmapOp
theorem performed {r : Performed} (h : r.1 = none) : ∃ s1, r = (none, s1) := ⟨_, Prod.ext h rfl⟩
theorem witness_EngineQueuesAndEffects : (fmtX? (.accz hd acczF) = some acczF ∧ classOf (.accz hd acczF) = 0xA ∧ acczF.sc = false ∧
      (once1 (.accz hd acczF)).act = true ∧ tfind (engine1.gang 0).engineFault acczF.eng.toNat = none ∧
      matrixFault (engine1.headerOf 0) engine1 0 (.accz hd acczF) acczF (once1 (.accz hd acczF)).scalars (engine1.engine 0 0) = none ∧
      valuesLocked engine1 (once1 (.accz hd acczF)) acczF = false ∧ valueFailed engine1 (once1 (.accz hd acczF)) acczF = none) ∧
    (classOf (.mguide hd x0) = 0xA ∧ opcodeOfInstr (.mguide hd x0) = 0x284 ∧
      State.pairedInstr ((pair1 none .solo).headerOf 0) (.mguide hd x0) = true ∧ ((pair1 none .solo).gang 0).pair ≠ .paired) ∧
    (((queued (op1 (.accz hd acczF))).engine 0 0).queue = [op1 (.accz hd acczF)] ∧
      ∃ s1, performOp 0 0 (op1 (.accz hd acczF)) ((queued (op1 (.accz hd acczF))).modEngine 0 0 (fun e => { e with queue := [] })) = (none, s1)) ∧
    engine1.failed = [] ∧ (∃ h f, (op1 (.mswp hd mswpF)).instr = .mswp h f) ∧ (∃ h f, (op1 (.mld hd mldF) [0, 0]).instr = .mld h f) ∧
    (accrdF.sfmt = 1 ∧ 0 ∈ maskLanes (op1 (.accrd hd accrdF) [4]).lanes ∧ (engine1.lane (32 * (op1 (.accrd hd accrdF) [4]).gang)).live = true) ∧
    (∃ h f h' f' p ks tk, guide1.instr = .mguide h f ∧ guide1.other = some (p, .mguide h' f', ks, tk) ∧
      guide1.accBase + f.rowBase.toNat + rowCount f ≤ guide1.accBase + f'.rowBase.toNat) ∧
    (mmap1.failed = [] ∧ ∃ h f h' f' p ks tk, mmapOp.instr = .mmap h f ∧ mmapOp.other = some (p, .mmap h' f', ks, tk)) ∧
    (∃ h f, (op1 (.mma hd mmaF) [0, 0, 0x3F800000, 0x3F800000, 0]).instr = .mma h f) ∧ (∃ h f, (op1 (.accwr hd accrdF) [4]).instr = .accwr h f) ∧
    ((∃ h f, (op1 (.acc2s hd accrdF) [0, 0]).instr = .acc2s h f) ∧ (∃ p ∈ (engine1.block (engine1.blockOf 0)).parts, p.core = coreOf 0) ∧
      (tfind engine1.blocks (engine1.blockOf 0)).isSome = true ∧ engine1.scratchWf 0) ∧
    ((∃ h f, (op1 (.scld hd x0) [0, 0]).instr = .scld h f) ∧ risingFrom none (engine1.engine 0 0).scaleMem = true) :=
  ⟨by decide, by decide, ⟨by decide, performed (by decide)⟩, by decide, ⟨_, _, rfl⟩, ⟨_, _, rfl⟩, by decide,
    ⟨_, _, _, _, _, _, _, rfl, rfl, by decide⟩, ⟨by decide, _, _, _, _, _, _, _, rfl, rfl⟩, ⟨_, _, rfl⟩, ⟨_, _, rfl⟩, ⟨⟨_, _, rfl⟩, ⟨_, .head _, rfl⟩, by decide, by unfold State.scratchWf; decide⟩,
    ⟨⟨_, _, rfl⟩, by decide⟩⟩
/-- CPY from scratch 0 to scratch 64: source k1, destination k2, size k3. -/
def cpyF : FmtX := { x0 with kP := 1, kQ := 2, kS := 3, tok := 4, mods := 6 }
def cpy1 : State := demo [0] fetchLane { fetchGang with k := [(2, 64), (3, 32)] }
def job1 : Job := { id := 7, channel := 0, block := 0, gang := 0, thread := 0, token := 9, op := .copy
                    moves := [(⟨true, 0, 32⟩, ⟨true, 64, 32⟩)], reads := [⟨true, 0, 32⟩], writes := [⟨true, 64, 32⟩], offsets := [], tags := [], pages := [] }
def working : State := cpy1.modCore 0 (fun k => { k with jobs := [job1] })
def cpyOnce : Once := once1 (.cpy hd cpyF) [(2, 64), (3, 32)]
theorem witness_JobsComplete : (∃ b, roundBody (.cpy hd cpyF) = some (cpyF, b) ∧ classOf (.cpy hd cpyF) = 0xB ∧
      (∃ t, b cpyOnce cpy1 = (.done, t)) ∧ (tfind cpy1.gangs 0).isSome = true) ∧
    (let k := fun r => (cpyOnce.k r).toNat
     cpyF.srcScr = true ∧ cpyF.dstScr = true ∧ k 1 = 0 ∧ k 2 = 64 ∧ k 3 = 32 ∧ 96 ≤ (cpy1.headerOf 0).scratch ∧
      ∀ x, 0 ≤ 4096 * x + 4095 → 4096 * x < 0 + 32 → cpy1.scratchTag 0 (4096 * x) = cpy1.scratchTag 0 0) ∧
    ((working.core 0).jobs.find? (fun x => x.channel == 0) = some job1 ∧ (tfind working.gangs 0).isSome = true ∧ jobReady working 0 job1 = true ∧
      working.homeReadyAll (spanLines job1.reads) = (true, working) ∧ jobFault working 0 job1 = none ∧ (performJob 0 job1 working).1 = []) ∧
    (∃ p ∈ (cpy1.block (cpy1.blockOf 0)).parts, p.core = 0) ∧ (tfind cpy1.blocks (cpy1.blockOf 0)).isSome = true ∧ cpy1.scratchWf 0 :=
  ⟨⟨_, rfl, by decide, once_done (by decide), by decide⟩,
    ⟨by decide, by decide, by decide, by decide, by decide, by decide, fun x _ h => by rw [show x = 0 by omega]⟩,
    ⟨by decide, by decide, by decide, by decide, by decide, by decide⟩, by decide, by decide, by unfold State.scratchWf; decide⟩
/-- Jobs of QDUAL and CAST in the scratch of `working`. -/
def quantJob : Job := { job1 with op := .quant 1 36 256, offsets := [0, 16384, 20480, 24576, 24704] }
def castJob : Job := { job1 with op := .cast 1 2 0 false 7 0 3 0, offsets := [0, 64, 16] }
theorem witness_JobsComplete_bytes : job1.op = .copy ∧ working.HasScratch 0 ∧
    (∀ m ∈ job1.moves, m.1.len = m.2.len ∧ m.1.scr = true ∧ m.2.scr = true) ∧
    overlaps (job1.moves.map (fun m => m.1)) (job1.moves.map (fun m => m.2)) = false ∧
    (quantJob.op = .quant 1 36 256 ∧ quantJob.offsets = [0, 16384, 20480, 24576, 24704] ∧
      ([⟨true, 16384, 4096⟩, ⟨true, 20480, 4096⟩, ⟨true, 24576, 128⟩, ⟨true, 24704, 128⟩] : List Span).Pairwise
        (fun x y => overlap x y = false)) ∧
    castJob.op = .cast 1 2 0 false 7 0 3 0 ∧ overlap ⟨true, 0, 16 * elemSize 1⟩ ⟨true, 64, 16 * elemSize 2⟩ = false :=
  ⟨by decide, ⟨by decide, by decide, by unfold State.scratchWf; decide⟩, by decide, by decide, by decide, by decide, by decide⟩
/-- MRED of one FP32 word at VA 0x10000 to VA 0x10040. -/
def mredF : FmtX := { x0 with kP := 2, kQ := 6, sfmt := 1, tok := 9 }
def mred1 : State := demo [0] fetchLane { fetchGang with k := [(2, 0x10000), (4, 1), (6, 0x10040)] }
def mredOp1 (phase : Nat) (wait : Option (Nat × W32 × BitVec 4)) : Mred :=
  { core := 0, gang := 0, thread := 0, region := 0, token := 9, src := ⟨false, 0x20000, 4⟩, fmt := 1, operator := 0, dst := 0x20040
    wait := wait, publish := none, far := false, phase := phase, since := 0, regions := [], il := 0, dstIl := 0, waitIl := 0, pubIl := 0, lead := 0, contexts := [0] }
def reducing (phase : Nat) (wait : Option (Nat × W32 × BitVec 4)) : State := { one with mreds := [(1, mredOp1 phase wait)] }
theorem witness_BankReductionsRun :
    ((∃ t, mredBody mredF (once1 (.mred hd mredF) (mred1.gang 0).k) mred1 = (.done, t)) ∧ (tfind mred1.gangs 0).isSome = true ∧
      ∀ x ∈ mred1.mreds, x.1 < mred1.nextId) ∧
    (tfind (reducing 0 none).mreds 1 = some (mredOp1 0 none) ∧ banksRun (reducing 0 none) = true ∧
      contextsFree (reducing 0 none) 1 (mredOp1 0 none) = true) ∧
    (failedByte (reducing 1 (some (0x20080, 1, 5))) 0x20080 4 = none ∧
      ∃ x s1, readFlag (reducing 1 (some (0x20080, 1, 5))) (mredOp1 1 (some (0x20080, 1, 5))) 0x20080 5 = (some x, s1)) ∧
    (let s := { reducing 1 (some (0x20080, 1, 5)) with time := 2 ^ 32 }
     (mredOp1 1 (some (0x20080, 1, 5))).since + waitLimit s (mredOp1 1 (some (0x20080, 1, 5))) = s.time ∧
      (readFlag s (mredOp1 1 (some (0x20080, 1, 5))) 0x20080 5).1 ≠ some 1) ∧
    (contextsFree (reducing 2 none) 1 (mredOp1 2 none) = true ∧ mredQuiet (reducing 2 none) (mredOp1 2 none) = true ∧
      mredBusy (reducing 2 none) (mredOp1 2 none) = false ∧
      ((reducing 2 none).homeReadyAll (spanLines [(mredOp1 2 none).src])).1 = true ∧
      failedByte ((reducing 2 none).homeReadyAll (spanLines [(mredOp1 2 none).src])).2 0x20000 4 = none ∧
      (mredOp1 2 none).far = false) :=
  ⟨⟨once_done (by decide), by decide, by decide⟩, by decide, ⟨by decide, _, _, Prod.ext (by decide) rfl⟩, by decide, by decide⟩
/-- Segments 0 to 3 of the block's scratch hold FP32. -/
def tagged1 (k : Tab W32) : State := { demo [0] fetchLane { fetchGang with k := k } with
  blocks := [(blockKey 1 0, { block0 with parts := [{ BlockPart.none with slots := [0], tags := [(0, 1), (1, 1), (2, 1), (3, 1)] }] })] }
/-- GATH of two rows of 16 bytes from VA 0x10000 to scratch 4096; the index array stands at scratch 8192. -/
def gathF : FmtX := { cpyF with kP := 8, kS := 20, rows := 2, mods := 2 }
def gath1 : State := tagged1 [(2, 4096), (8, 0x10000), (20, 16), (21, 8192), (22, 16)]
/-- QDUAL of the tile at offset 0: tiles at 16384 and 20480, scales at 24576 and 24704. -/
def qdualF : FmtX := { x0 with kP := 10, kQ := 12, kS := 14, tok := 4, mods := 6, sfmt := 1, tfmt := 36 }
def qdual1 : State := tagged1 [(12, 16384), (13, 20480), (14, 24576), (15, 24704)]
/-- CAST of 16 elements from FP32 at 0 to FP16 at 64. -/
def castF : FmtX := { x0 with kP := 1, kQ := 2, kS := 3, tok := 4, mods := 6, sfmt := 1, tfmt := 2 }
def cast1 : State := tagged1 [(2, 64), (3, 16)]
theorem qdual_scratch (n : Nat) (h : n ∈ [16384, 20480] ∨ n ∈ [24576, 24704]) (len : Nat) (hl : len ≤ 4096) :
    ScratchOk qdual1 0 n [(n, len)] none := by
  have hs : (qdual1.headerOf 0).scratch = 786432 := by decide
  refine ⟨?_, ?_, fun f hf => by cases hf⟩
  · simp only [List.mem_cons, List.not_mem_nil, or_false] at h
    omega
  · intro r hr
    simp only [List.mem_cons, List.not_mem_nil, or_false] at h hr
    subst hr
    rw [hs]
    simp only
    omega
/-- An instruction of group 1 issues once for the gang, and its operands pass their checks. -/
def Passes (s : State) (i : Instr) (f : FmtX) : Prop :=
  (∃ b, roundBody i = some (f, b)) ∧ Clear s i hd 0 1 (group [0]) ∧ State.pairedInstr (cxOf s i).head i = false ∧ f.wv = false ∧
    s.setQuiet (cxOf s i) i f = true ∧ s.missing (cxOf s i) = [] ∧ (cxOf s i).act ≠ [] ∧ Accepts s (onceIn s i) f
theorem witness_OnceInstructions_accepts_engine : Passes engine1 (.accz hd acczF) acczF :=
  ⟨⟨_, rfl⟩, clear_of (by decide), by decide, rfl, by decide, by decide, by decide, accepts_engine ⟨hd, .inl rfl⟩ rfl (by decide)⟩
theorem witness_OnceInstructions_accepts_cpy : Passes cpy1 (.cpy hd cpyF) cpyF :=
  ⟨⟨_, rfl⟩, clear_of (by decide), by decide, rfl, by decide, by decide, by decide, ⟨1, 32, 0, 0, fun _ => 0, fun _ => 0, []⟩, by rfl,
    by decide, by decide, by decide⟩
theorem witness_OnceInstructions_accepts_gath : Passes gath1 (.gath hd gathF) gathF :=
  ⟨⟨_, rfl⟩, clear_of (by decide), by decide, rfl, by decide, by decide, by decide, _, by rfl, by decide, by decide, by decide⟩
theorem witness_OnceInstructions_accepts_qdual : Passes qdual1 (.qdual hd qdualF) qdualF :=
  ⟨⟨_, rfl⟩, clear_of (by decide), by decide, rfl, by decide, by decide, by decide, by decide, by decide,
    ⟨by decide, by decide, fun f hf => by cases hf; decide +kernel⟩, fun a ha => qdual_scratch a (.inl ha) 4096 (by decide),
    fun a ha => qdual_scratch a (.inr ha) 128 (by decide), by decide, by decide +kernel⟩
theorem witness_OnceInstructions_accepts_cast : Passes cast1 (.cast hd castF) castF :=
  ⟨⟨_, rfl⟩, clear_of (by decide), by decide, rfl, by decide, by decide, by decide, by decide, by decide,
    ⟨by decide, by decide, fun f hf => by cases hf; decide⟩, ⟨by decide, by decide, fun f hf => by cases hf⟩, by decide⟩
theorem witness_OnceInstructions_accepts_mred : Passes mred1 (.mred hd mredF) mredF := by
  refine ⟨⟨_, rfl⟩, clear_of (by decide), by decide, rfl, by decide, by decide, by decide, ?_⟩
  refine ⟨by decide, by decide, by decide, by decide, by decide, by decide, ?_⟩
  refine ⟨⟨0x10000, 0x20000, 0x200FF⟩, mred1, ⟨0x10000, 0x20000, 0x200FF⟩, ⟨0x10040, 0x20040, 0x200FF⟩, [], mred1, ?_, ?_, ?_⟩
  · exact Prod.ext rfl rfl
  · exact Prod.ext rfl rfl
  · exact ⟨by decide, fun y hy => (by cases hy), fun y hy => (by cases hy), by decide, by decide, by decide, by decide⟩
/-- A population of one gang, and one with two slots in its spawn pool. -/
def pop1 : State := { one with launches := [(1, { launch0 with header := { head0 with version := 5, population := true }, threads := 32 })] }
def rsmpF : FmtX := { x0 with kP := 1, kQ := 2, kS := 3 }
def pooled : State := { demo [0] fetchLane { fetchGang with k := [(1, 5)] } with
  launches := [(1, { launch0 with header := { head0 with entryCount := 1, entries := [0x10000], spawnpool := 2 }, threads := 32
                                  pool := [(1, 128), (2, 256)] })] }
def spawnF : FmtC := { c0 with d := 3, a := 1, kA := .scl }
theorem stands_of {s : State} {i : Instr} {h : Hdr} {c gid : Nat} {g : Group} (e : issuesB s i h c gid g = true) : Stands s gid g :=
  (issues_of e).stands
theorem witness_PopulationInstructions : (Clear pop1 (.rsmp hd rsmpF) hd 0 1 (group [0]) ∧ pop1.missing (cxOf pop1 (.rsmp hd rsmpF)) = [] ∧
      (cxOf pop1 (.rsmp hd rsmpF)).act ≠ [] ∧ (pop1.endLeasesOf 0).releaseReady 0 [0] true = true ∧
      (pop1.endLeasesOf 0).EagerFree 0 1 (fun _ => false)) ∧
    (Clear (pair1 none) (.pdiss hd c0) hd 0 1 (group [0]) ∧ (pair1 none).acts hd 0 = true ∧
      ((pair1 none).gang 0).pair = .paired ∧ ((pair1 none).gang 0).partner = some 1 ∧ ((pair1 none).gang 1).pairOp = none ∧
      (tfind (pair1 none).gangs 1).isSome = true ∧ ((pair1 none).gang 1).pair = .paired) ∧
    (let s := pair1 (some (waiting (.mswp hd mswpF)))
     let s1 := performAlone (s.modGang 0 (fun y => { y with pair := .solo, role := 2, partner := none })) 0
     let s2 := s1.modGang 1 (fun y => { y with pair := if y.pair == .paired then .dissolved else y.pair, partner := none })
     Clear s (.pdiss hd c0) hd 0 1 (group [0]) ∧ Stands (answerPair s2 (waiting (.mswp hd mswpF)) (some (0x0D, 0xFFFF))) 1 (group [0])) ∧
    Clear (pair1 none .dissolved) (.pdiss hd c0) hd 0 1 (group [0]) ∧
    (Clear one (.pdiss hd c0) hd 0 1 (group [0]) ∨ Clear (pair1 none .unpaired) (.pdiss hd c0) hd 0 1 (group [0])) ∧
    (Clear pooled (.spawn hd spawnF) hd 0 1 (group [0]) ∧ (cxOf pooled (.spawn hd spawnF)).act ≠ [] ∧
      pooled.releaseReady 0 [issuer (cxOf pooled (.spawn hd spawnF))] false = true ∧
      Stands ([(1, 128), (2, 256)].foldl (fun s' p => spawnOne (cxOf pooled (.spawn hd spawnF)) 0
        ((List.range 8).map (fun j => pooled.kreg [0] 0 j)) s' p.1 p.2) pooled) 1 (group [0])) ∧
    State.reset.tableFree (coreOf 0) (partOf 0) = true :=
  ⟨⟨clear_of (by decide), by decide, by decide, by decide, eager_free (by decide)⟩, ⟨clear_of (by decide), by decide⟩,
    ⟨clear_of (by decide), stands_of (i := .nop hd c0) (h := hd) (c := 0) (by decide)⟩, clear_of (by decide), .inr (clear_of (by decide)),
    ⟨clear_of (by decide), by decide, by decide, stands_of (i := .nop hd c0) (h := hd) (c := 0) (by decide +kernel)⟩, by decide⟩
/-- All of the population at RSMP: weight v1, two threads wanted. -/
def resampling : State :=
  { demo [0] { fetchLane with v := [(1, 1)] } { fetchGang with k := [(1, 1), (2, 2)] } with
    launches := [(1, { launch0 with header := { head0 with version := 5, population := true }, threads := 2 })]
    groups := [(1, { group [0] with status := .rsmp 1 2 3 1 })] }
theorem witness_PopulationResamples : (0 < 4 ∧ 7 < 2 ^ 32 ∧ 0 < ([1, 0, 2] : List Nat).sum) ∧
    ((popGangs resampling 1).filter (fun n => resampling.liveOf n != []) = [0] ∧ (resampling.launch 1).rsmp = .idle ∧
      popArrived resampling 1 = true ∧ rsmpStand resampling 0 = some (0x10000, 1, 2, 3, 1) ∧
      (∀ n ∈ [0], scalarHash resampling n = scalarHash resampling 0) ∧ resampling.failed = [] ∧
      (let k := fun r => (resampling.kreg (resampling.liveOf 0) 0 r).toNat
       k 2 = 2 ∧ 2 ≤ (popThreads resampling 1).length ∧ k 1 < (resampling.headerOf 0).vregs) ∧ (popThreads resampling 1).Nodup) ∧
    (let s := resampling.modLaunch 1 (fun l => { l with rsmp := .stageIn 0x10000 (.rsmp 1 2 3 1) [(0, 0), (0, 1)] })
     (s.launch 1).rsmp = .stageIn 0x10000 (.rsmp 1 2 3 1) [(0, 0), (0, 1)] ∧ (tfind s.launches 1).isSome = true ∧
      badImage s 1 [(0, 0), (0, 1)] = none ∧ ∀ x ∈ s.groups, x.1 < s.nextId) := by decide +kernel
def csrF : FmtM := { m0 with d := 4, width := 2, off := 0x011 }
theorem pmig_of {s : State} {cx : State.Ctx} {f : FmtM} (h : (pmigLeaves s cx f).1.isSome = true) :
    ∃ ls s1, pmigLeaves s cx f = (some ls, s1) := by
  obtain ⟨x, hx⟩ := Option.isSome_iff_exists.mp h
  exact ⟨x, _, Prod.ext hx rfl⟩
theorem witness_SystemInstructions : Clear one (.csrr hd csrF) hd 0 1 (group [0]) ∧ Clear one (.csrr hd { csrF with op := 1 }) hd 0 1 (group [0]) ∧
    Clear one (.csrr hd { csrF with off := 0 }) hd 0 1 (group [0]) ∧ Clear one (.csrw hd { csrF with d := 0, b := 4 }) hd 0 1 (group [0]) ∧
    Clear one (.csrw hd { csrF with d := 0, b := 4, off := 2 }) hd 0 1 (group [0]) ∧
    ((tfind one.gangs 0).isSome = true ∧ (tfind one.regions (one.regionOf 0)).isSome = true ∧
      (tfind one.launches (one.gang 0).launch).isSome = true) ∧
    Clear mem1 (.tinv hd { m0 with a := 8, scope := 5 }) hd 0 1 (group [0]) ∧
    Clear mem1 (.tinv hd { m0 with a := 8, kA := .scl, scope := 5, op := 1 }) hd 0 1 (group [0]) ∧
    Clear mem1 (.tinv hd { m0 with scope := 5, op := 2 }) hd 0 1 (group [0]) ∧
    (Clear mem1 (.pmig hd { m0 with d := 4, a := 8 }) hd 0 1 (group [0]) ∧
      ∃ ls s1, pmigLeaves mem1 (cxOf mem1 (.pmig hd { m0 with d := 4, a := 8 })) { m0 with d := 4, a := 8 } = (some ls, s1)) :=
  ⟨clear_of (by decide), clear_of (by decide), clear_of (by decide), clear_of (by decide), clear_of (by decide), by decide,
    clear_of (by decide), clear_of (by decide), clear_of (by decide), clear_of (by decide), pmig_of (by decide)⟩

/-! ### Witnesses: homes, leases, paging, timers. -/

/-- One message of core 0 about the line of VA 0x1FFFC. -/
def msg1 (toHome : Bool) (body : MsgBody) : Msg := { core := 0, toHome := toHome, line := 0x2FFFC / 128, body := body }
def sent (m : Msg) (s : State := mem1) : State := { s with net := [(1, m)] }
def loadReq : Request := { req1 with kind := .load, loads := [lseLoad leaseF acc1] }
def record1 : State := { mem1 with records := [(0x2FFFC / 128, .pointer [(2, 5)])] }
/-- Channel 0 of the line retrains, and the region is in state M. -/
def retraining1 : State := { sent (msg1 true (.read 1)) with
  channels := [((channelOf loadReq.il (loadReq.line * 128)).getD 0, { Channel.reset with retraining := some (true, 1) })]
  regionDir := [(0x2F, { state := 1, pending := 0, queue := [], await := none })] }
theorem witness_HomeReadsAndFills : (let s := { sent (msg1 true (.read 1)) with requests := [(1, loadReq)] }
     arriving s 1 = some (msg1 true (.read 1)) ∧ tfind s.requests 1 = some loadReq ∧ loadReq.kind = .load ∧ s.channelHolds loadReq = false ∧
      s.drainFor (0x2FFFC / 128) = none ∧ (∀ x ∈ s.net, x.1 < s.nextId) ∧ s.record (0x2FFFC / 128) = none) ∧
    (let s := { retraining1 with requests := [(1, loadReq)] }
     arriving s 1 = some (msg1 true (.read 1)) ∧ (∀ x ∈ s.net, x.1 < s.nextId) ∧ s.channelHolds loadReq = true) ∧
    (let s := { sent (msg1 true (.read 1)) record1 with requests := [(1, loadReq)] }
     arriving s 1 = some (msg1 true (.read 1)) ∧ (∀ x ∈ s.net, x.1 < s.nextId) ∧ s.channelHolds loadReq = false ∧
      tfind s.drains (0x2FFFC / 128) = none ∧ s.probesOf (0x2FFFC / 128) (.pointer [(2, 5)]) = [(2, some 5)]) ∧
    ((hit1.l1Line 0 (0x2FFFC / 128)).any (fun k => k.cells.all (fun p => p.1 < 128) && decide (k.cells.map (·.1)).Nodup) = true ∧ hit1.net = []) ∧
    (let s := { sent (msg1 false (.fill 1 (List.replicate 128 7) 0)) with requests := [(1, loadReq)] }
     arriving s 1 = some (msg1 false (.fill 1 (List.replicate 128 7) 0)) ∧ tfind s.requests 1 = some loadReq ∧
      loadReq.kind = .load ∧ loadReq.ops = [] ∧ (s.lane (lseLoad leaseF acc1).thread).live = true) := by decide +kernel
def draining (s : State) : State := { s with drains := [(0x2FFFC / 128, { await := [0], reads := [], regs := [] })] }
/-- L1 holds a dirty byte of the line, of epoch 0. -/
def dirty1 : State := mem1.modCore 0 (fun k => { k with l1 := [(0x2FFFC / 128, { L1Line.empty with cells := [(124, 7, true)], epoch := some 0 })] })
def probe1 (e : Nat) : Probe := { line := 0x2FFFC / 128, epoch := some e, region := none, started := false, await := [] }
theorem witness_RecordsAndWriteBacks : (let s := sent (msg1 true (.register 5))
     arriving s 1 = some (msg1 true (.register 5)) ∧ s.sentBack 0 (0x2FFFC / 128) = false ∧ s.drainFor (0x2FFFC / 128) = none ∧ s.record (0x2FFFC / 128) = none ∧
      (s.records.filter (fun p => homeOf p.1 == homeOf (0x2FFFC / 128))).length < Config.recordsPerSlice ∧ (s.core 0).probes = [] ∧
      (s.core 0).leases = []) ∧
    (let s := { sent (msg1 true (.register 5)) with launches := [] }
     arriving s 1 = some (msg1 true (.register 5)) ∧ (∀ l ∈ s.launches, l.2.ranOn.contains 0 = false) ∧ s.drainFor (0x2FFFC / 128) = none) ∧
    ((draining (sent (msg1 true (.register 5)))).drainFor (0x2FFFC / 128) = some (0x2FFFC / 128) ∧
      arriving (draining (sent (msg1 true (.register 5)))) 1 = some (msg1 true (.register 5))) ∧
    (let s := sent (msg1 false (.probe (some 5)))
     arriving s 1 = some (msg1 false (.probe (some 5))) ∧ (s.core 0).probes = [] ∧ s.writeBacks 0 = [] ∧
      s.probeLines 0 (probe1 5) = [] ∧ (s.core 0).leases = []) ∧
    (let s := sent (msg1 false (.probe (some 5))) dirty1
     let r := ((s.dropMsg 1).modCore 0 (fun k => { k with probes := [probe1 5] })).writeBackFit 0 (s.probeLines 0 (probe1 5))
     arriving s 1 = some (msg1 false (.probe (some 5))) ∧ (s.core 0).probes = [] ∧ probeBlocked s 0 (probe1 5) = false ∧
      r.1 = true ∧ r.2.writeBacks 0 ≠ []) ∧
    (let s := draining (sent (msg1 true .drainAck))
     arriving s 1 = some (msg1 true .drainAck) ∧ (tfind s.drains (0x2FFFC / 128)).any (fun d => (ackedCores d).isEmpty) = true) ∧
    (∀ x ∈ (draining mem1).drains, x.2.regs = []) ∧
    (let s := sent (msg1 true (.writeBack [(3, 7)] []))
     arriving s 1 = some (msg1 true (.writeBack [(3, 7)] [])) ∧ s.sentBack 0 (0x2FFFC / 128) = false ∧ ([(3, (7 : Byte))].map (·.1)).Nodup) ∧
    (let s := { sent (msg1 true (.writeBack [(3, 7)] [])) with launches := [] }
     ∀ l ∈ s.launches, l.2.ending = none ∧ l.2.ranOn.contains 0 = false) := by
  refine ⟨?_, ?_, ?_, ?_, ?_, ?_, ?_, ?_, ?_⟩ <;> decide +kernel
/-- Host memory's home has `n + 1` records, the first of which drains. -/
def hostRecords (n : Nat) : State := { mem1 with
  records := (List.range (n + 1)).map (fun i => (hostBase / 128 + i, .pointer [(2, 5)]))
  drains := [(hostBase / 128, { await := [2], reads := [], regs := [] })] }
theorem home_host {n : Nat} (h : n ≤ 4096) : homeOf (hostBase / 128 + n) = 96 := by
  have ht : targetOf ((hostBase / 128 + n) * 128) = .host := by
    unfold targetOf hostBase
    rw [if_neg (by omega), show ((2 ^ 52 / 128 + n) * 128 - 2 ^ 52) / 2 ^ 50 = 0 by omega]
    rfl
  unfold homeOf
  simp only [ht]
theorem tfind_map_none {α : Type} (f : Nat → Nat) (v : α) (k : Nat) (l : List Nat) (h : ∀ i ∈ l, f i ≠ k) :
    tfind (l.map (fun i => (f i, v))) k = none := by
  induction l with
  | nil => rfl
  | cons x l ih =>
    rw [List.map_cons]
    unfold tfind
    rw [if_neg (by simpa using h x (by simp))]
    exact ih (fun i hi => h i (by simp [hi]))
theorem full_room {n : Nat} (hn : n + 1 ≤ 4096) (hf : ¬ n + 1 < Config.recordsPerSlice) :
    (hostRecords n).recordRoom (hostBase / 128 + (n + 1)) 0 = (some (hostBase / 128), hostRecords n) := by
  have hr : (hostRecords n).records.filter (fun p => homeOf p.1 == homeOf (hostBase / 128 + (n + 1))) = (hostRecords n).records := by
    refine List.filter_eq_self.mpr fun p hp => ?_
    obtain ⟨i, hi, rfl⟩ := List.mem_map.mp hp
    have := List.mem_range.mp hi
    rw [home_host hn, home_host (by omega)]
    rfl
  have hm : (hostRecords n).record (hostBase / 128 + (n + 1)) = none :=
    tfind_map_none _ _ _ _ (fun i hi => by have := List.mem_range.mp hi; omega)
  have hd : (hostRecords n).records.find? (fun p => (tfind (hostRecords n).drains p.1).isSome) =
      some (hostBase / 128, .pointer [(2, 5)]) := by
    unfold hostRecords
    simp only [List.range_succ_eq_map, List.map_cons]
    exact List.find?_cons_of_pos rfl
  have hl : (hostRecords n).records.length = n + 1 := by simp [hostRecords]
  unfold State.recordRoom
  simp only [hr, hm, hd]
  rw [if_neg (by simpa [hl] using hf)]
theorem witness_RecordsAndWriteBacks_full : (hostRecords 4095).drainFor (hostBase / 128 + 4096) = none ∧
    (hostRecords 4095).recordRoom (hostBase / 128 + 4096) 0 = (some (hostBase / 128), hostRecords 4095) :=
  ⟨rfl, full_room (by decide) (by decide)⟩
def redBody (held : Bool) : MsgBody := .red [(0x2FFFC, 5)] 4 0 none held [0]
/-- Region 0x2F with a transition to M at the head of its queue, and group 1 waiting for it. -/
def transition1 (d : RegionDir) : State :=
  { mem1 with regionDir := [(0x2F, d)], groups := [(1, { group [0] with status := .region 9 })] }
theorem witness_ReductionsAndRegions : (let s := sent (msg1 true (redBody true))
     arriving s 1 = some (msg1 true (redBody true)) ∧ (s.net.map (·.1)).Nodup ∧
      ∀ p ∈ s.net, p.1 ≠ 1 → mayMerge (redBody true) p.2.body = false) ∧
    mergeable 0 = true ∧
    (let s := { mem1 with net := [(1, msg1 true (redBody true)), (2, { msg1 true (redBody true) with core := 1 })] }
     s.deliverable 1 = true ∧ s.deliverable 2 = true) ∧
    (let s := sent (msg1 true (redBody false))
     arriving s 1 = some (msg1 true (redBody false)) ∧ s.drainFor (0x2FFFC / 128) = none ∧ s.record (0x2FFFC / 128) = none ∧
      s.channelKeeps (0x2FFFC / 128) = false ∧ (∀ g ∈ [0], s.sentBack (coreOf g) (0x2FFFC / 128) = false) ∧
      [((0x2FFFC : Nat), (5 : Nat))].Pairwise (fun x y => x.1 + 4 ≤ y.1 ∨ y.1 + 4 ≤ x.1) ∧ Memory.wf s.mem) ∧
    (let s := sent (msg1 true (.red [(0x2FFFC, 5)] 4 0 (some 3) false [0]))
     arriving s 1 = some (msg1 true (.red [(0x2FFFC, 5)] 4 0 (some 3) false [0])) ∧
      (s.records.filter (fun p => homeOf p.1 == homeOf (0x2FFFC / 128))).length < Config.recordsPerSlice) ∧
    (∀ d ∈ [({ state := 0, pending := 0, queue := [(1, 0, 9)], await := some [] } : RegionDir),
        { state := 1, pending := 0, queue := [(0, 0, 9)], await := none }, { state := 2, pending := 0, queue := [(1, 0, 9)], await := none },
        { state := 3, pending := 0, queue := [(0, 0, 9)], await := none }],
      (transition1 d).migrations = [] ∧ (transition1 d).leaseTab = [] ∧ regionEntry (transition1 d) 0x2F = d ∧
        (transition1 d).sentBack 0 (32 * 0x2F) = false ∧
        (let old := if d.state = 3 then 0 else d.state
         let target := (d.queue.headD (0, 0, 0)).1
         old = target ∨ (old = 0 ∧ d.await = some []) ∨ (old = 1 ∧ d.pending = 0) ∨ old = 2)) ∧
    (let s := { transition1 { state := 1, pending := 0, queue := [(0, 0, 9)], await := none } with
        leaseTab := [(0x2FFFC / 128, { core := 0, holder := none, tick := 0, leasemax := 256 })] }
     (regionEntry s 0x2F).queue = [(0, 0, 9)] ∧ (if (regionEntry s 0x2F).state = 3 then 0 else (regionEntry s 0x2F).state) ≠ 0 ∧
      ∃ e ∈ s.leaseTab, e.1 / 32 = 0x2F) ∧
    (let s := sent (msg1 false (.regionDrain 0x2F))
     arriving s 1 = some (msg1 false (.regionDrain 0x2F)) ∧ (s.core 0).probes = [] ∧ s.writeBacks 0 = [] ∧ (s.core 0).leases = [] ∧
      s.probeLines 0 { line := 0x2FFFC / 128, epoch := none, region := some 0x2F, started := false, await := [] } = []) ∧
    (let s := { sent (msg1 true (.regionDrain 0x2F)) with
        regionDir := [(0x2F, { state := 2, pending := 0, queue := [(1, 0, 9)], await := some [0] })] }
     arriving s 1 = some (msg1 true (.regionDrain 0x2F)) ∧ (tfind s.regionDir 0x2F).isSome = true) := by decide +kernel
theorem witness_CoresAndTime : ((mem1.core 0).powered = true ∧ (mem1.core 0).leases = [] ∧ (mem1.core 0).pinned = [] ∧
      (∀ r ∈ mem1.requests, r.2.core ≠ 0) ∧ (∀ l ∈ (mem1.core 0).l1, State.dirtyCells l.2 = []) ∧ mem1.writeBacks 0 = []) ∧
    ((mem1.modCore 0 (fun k => { k with powered := false })).core 0).powered = false := by decide
/-- The request of `lq1`, or of the atomic unit for the same line, waits at the home. -/
def asking (holder : Option Nat) (kind : ReqKind := .leaseLoad) : State :=
  { mem1 with leaseQueue := [{ lq1 with holder := holder, req := 9 }], requests := [(9, { req1 with kind := kind })], nextId := 10
              groups := [(1, { group [0] with status := .requests [9] })] }
def atHome (tick : Nat) (s : State) : State :=
  { s with leaseTab := [(0x2FFFC / 128, { core := 0, holder := some 0, tick := tick, leasemax := 256 })] }
theorem witness_LeasesGrantAndEnd : (∀ x ∈ [(none, ReqKind.atomic), (none, .atomicFar), (some 0, .leaseLoad)], let s := asking x.1 x.2
      (s.leaseQueue.find? (fun x => x.line == 0x2FFFC / 128)).isSome = true ∧ tfind s.requests 9 = some { req1 with kind := x.2 } ∧
      (if x.2 = .atomicFar then tfind s.leaseTab (0x2FFFC / 128) = none else lineFree s (0x2FFFC / 128) = true) ∧
      grantReady s { req1 with kind := x.2 } 9 = true ∧ s.channelHolds { req1 with kind := x.2 } = false ∧
      (s.homeReady (0x2FFFC / 128)).1 = true ∧ req1.release = none) := by
  decide +kernel
theorem witness_LeasesGrantAndEnd_ends : (let s := asking (some 0)
     let l := lseLoad leaseF acc1
     req1.kind = .leaseLoad ∧ req1.line = 0x2FFFC / 128 ∧ req1.loads = [l] ∧ req1.acquire = false ∧ l.thread = 0 ∧ l.scalar = false ∧
      s.channelKeeps (0x2FFFC / 128) = false ∧
      l.conv = .zext ∧ l.size = 4 ∧ l.key / 128 = 0x2FFFC / 128 ∧ l.key % 128 + l.size ≤ 128 ∧ s.drainFor (0x2FFFC / 128) = none ∧
      s.record (0x2FFFC / 128) = none ∧ s.failed = [] ∧ lq1.pred < 7 ∧ (tfind s.lanes 0).isSome = true ∧
      s.l1Line 0 (0x2FFFC / 128) = none ∧ findLease s 0 (0x2FFFC / 128) (some 0) = none ∧
      s.groupWith 0 = some (1, { group [0] with status := .requests [9] })) ∧
    (let o : LaneOp := { thread := 0, dst := 4, key := 0x2FFFC, size := 4, op := 0, operand := 1, expected := 0 }
     (tfind hit1.lanes 0).isSome = true ∧ (hit1.l1Line 0 (o.key / 128)).isSome = true) ∧
    ((leased1.core 0).leases.filter (fun x => x.line == 0x2FFFC / 128) = [lease0] ∧ lease0.ending = false ∧
      lease0.revoked = false ∧ lease0.record = false ∧ lease0.flush = [] ∧ leased1.outstanding 0 < Config.maxOutstanding ∧ leased1.failed = [] ∧ (leased1.l1Line 0 (0x2FFFC / 128)).isSome = true ∧
      leased1.pinnedLine 0 (0x2FFFC / 128) = false ∧ lease0.holder ≠ none ∧
      lease0.leasemax ≤ ({ leased1 with cycle := 256 } : State).clockOf 0 - lease0.granted) ∧
    (let s := leased1.modCore 0 (fun k => { k with leases := [{ lease0 with holder := none }] })
     (s.core 0).leases.filter (fun x => x.line == 0x2FFFC / 128) = [{ lease0 with holder := none }] ∧ s.pinnedLine 0 (0x2FFFC / 128) = false ∧
      (s.l1Line 0 (0x2FFFC / 128)).isSome = true) ∧
    (let s := atHome 0 (sent (msg1 true (.leaseWrite [(3, 7)] [] (some 0))) leased1)
     arriving s 1 = some (msg1 true (.leaseWrite [(3, 7)] [] (some 0))) ∧
      (tfind s.leaseTab (0x2FFFC / 128)).any (fun e => e.core == 0 && e.holder == some 0 && decide (s.time ≤ ceiling e)) = true ∧
      s.sentBack 0 (0x2FFFC / 128) = false ∧ findLease s 0 (0x2FFFC / 128) (some 0) = some lease0) ∧
    (let s := sent (msg1 true (.leaseWrite [(3, 7)] [] (some 0))) leased1
     arriving s 1 = some (msg1 true (.leaseWrite [(3, 7)] [] (some 0))) ∧ tfind s.leaseTab (0x2FFFC / 128) = none ∧
      s.sentBack 0 (0x2FFFC / 128) = false ∧ findLease s 0 (0x2FFFC / 128) (some 0) = some lease0) ∧
    (let s := { atHome 0 mem1 with time := 513 }
     (tfind s.leaseTab (0x2FFFC / 128)).any (fun e => decide (ceiling e < s.time)) = true) ∧
    (let s := sent (msg1 false (.revoked (some 0))) leased1
     arriving s 1 = some (msg1 false (.revoked (some 0))) ∧ findLease (s.dropMsg 1) 0 (0x2FFFC / 128) (some 0) = some lease0 ∧
      lease0.ending = false) ∧
    (lease0.notify = none ∧ (leased1.lane 0).live = true ∧ findLease leased1 0 (0x2FFFC / 128) (some 0) = some lease0) := by decide +kernel
def pf1 : PfRecord := { core := 0, slot := 0, age := 0, lanes := 1, at' := [(0, 0x30000)], access := 0, asid := 0, region := 0, sent := true
                        issue := none }
def parked1 : State := trapping { one with groups := [(1, { group [0] with status := .parked 5 })], pfRecords := [(5, pf1)] }
/-- A page of DRAM frame 2 is to move to the other tier; its entry stands at 0x100000. -/
def mig1 (step : Nat) : Migration := { va := 0x10000, asid := 0, pteAt := 0x100000, pte := 0x200FF, toTier := 1, step := step, frame := 0, await := [] }
def migrating (step : Nat) : State :=
  { one with migrations := [(1, mig1 step)], freeFrames := [2 ^ 23], mem := [(0x100000, 0xFF), (0x100002, 0x02)] }
def policy1 : Policy := { enable := false, cold := 0, hot := 0, window := 10, most := 0, reserve := 0, started := 0 }
theorem witness_PagesFaultAndMigrate : ((one.modCore 0 (fun k => { k with pfQueue := [5] })).core 0).pfQueue = [5] ∧
    (tfind parked1.pfRecords 5 = some pf1 ∧ pf1.sent = true ∧ pf1.issue = none ∧ recordSaved parked1 pf1 = false ∧
      parked1.groups.filter (fun x => x.2.status == .parked 5) = [(1, { group [0] with status := .parked 5 })] ∧ (group [0]).toEnter ≠ some true) ∧
    ((let x := { pf1 with issue := some (once1 (.cpy hd cpyF)) }
      x.sent = true ∧ recordSaved { parked1 with pfRecords := [(5, x)] } x = false)) ∧
    (∃ s1, ({ parked1 with pfRecords := tdel parked1.pfRecords 5 } : State).Enters [0] 0x10040 0x10000 0x10
      (fun u => (tfind pf1.at' u).getD pf1.va) s1) ∧
    ((∀ x ∈ (migrating 0).migrations, x.2.step = 0) ∧ migrates (migrating 0) = true ∧ ((migrating 0).homeReady (0x100000 / 128)).1 = true ∧
      (let p : W64 := BitVec.ofNat 64 (((migrating 0).homeReady (0x100000 / 128)).2.natAt 0x100000 8)
       pteBit p 0 = true ∧ pteBit p 1 = true ∧ leafOk p 0 = true ∧ pteHost p = false ∧ pteMigrating p = false ∧ ptePa p = ptePa (mig1 0).pte ∧
        pteBit p 10 = ((mig1 0).toTier == 0))) ∧
    frameQuiet (migrating 1) (mig1 1) = true ∧
    ((mig1 2).await = [] ∧ frameQuiet (migrating 2) (mig1 2) = true ∧ frameDirty (migrating 2) (oldFrame (mig1 2)) = false ∧
      frameRecords (migrating 2) (oldFrame (mig1 2)) = (true, migrating 2) ∧ (migrating 2).failed = [] ∧ Memory.wf (migrating 2).mem ∧
      (∀ k ∈ (migrating 2).cores, ∀ l ∈ k.2.leases, inFrame (oldFrame (mig1 2)) (l.line * 128) = false) ∧
      (migrating 2).freeFrames.find? (fun y => (2 ^ 23 ≤ y) == ((mig1 2).toTier == 1)) = some (2 ^ 23) ∧
      (mig1 2).pteAt + 8 ≤ 2 ^ 23 * 65536) ∧
    (let s : State := { one with policy := some policy1, time := 10 }
     s.policy = some policy1 ∧ policy1.started + policy1.window ≤ s.time ∧ policy1.enable = false) ∧
    (let s : State := { one with samples := [List.replicate 32 1], sampleBase := 12 }
     s.samples = [List.replicate 32 1] ∧ s.sampleBase.toNat % 32 = 12 ∧ s.sampleLost = false ∧ (List.replicate 32 (1 : Byte)).length = 32) :=
  ⟨by decide, by decide, by decide, enters_one (by decide), by decide, by decide, by decide, by decide, by decide⟩
/-- Group 1 waits in a timed WJOIN on weir 3, whose timeout is over. -/
def joining : State := { demo [0] fetchLane { fetchGang with weirs := [(3, { Weir.idle with declared := 3, signed := 1, state := .opened, timeout := 1, round := some none })] } with
  groups := [(1, { group [0] with status := .join 3 true 2 })] }
def fair1 : State := { demo [0] fetchLane { fetchGang with fairCount := 256, fairtime := 256, fairDue := true } with
  launches := [(1, { launch0 with header := { head0 with progress := true } })] }
def overdue : State := { demo [0] fetchLane { fetchGang with quantum := 100 } with regions := [(0, { Region.none with quantum := 100 })] }
theorem witness_TimersExpire : tfind ({ one with groups := [(1, { group [0] with status := .sleep 0 })] } : State).groups 1 =
      some { group [0] with status := .sleep 0 } ∧
    issuesLeft { one with agenda := [.issue 0 1] } 0 = true ∧
    (issuesLeft joining 0 = false ∧ (tfind joining.gangs 0).isSome = true ∧ (joining.weir 0 3).timeout = 1 ∧
      tfind joining.groups 1 = some { group [0] with status := .join 3 true 2 } ∧ slotOf 0 = 0) ∧
    ((fair1.headerOf 0).progress = true ∧ (fair1.gang 0).fairDue = true ∧ (∀ x ∈ gangGroups fair1 0, x.2.prio = none) ∧
      longestWaiting fair1 0 = some (1, group [0])) ∧
    ((tfind overdue.gangs 0).isSome = true ∧ overdue.quantumOf (overdue.regionOf 0) ≠ 0 ∧
      overdue.quantumOf (overdue.regionOf 0) ≤ (overdue.gang 0).quantum ∧ overdue.liveOf 0 ≠ []) := by decide

/-! ### Witnesses: the management core. -/

/-- Bytes from their fields: offset, length, value. -/
def fieldBytes (n : Nat) (fs : List (Nat × Nat × Nat)) : List Byte := (List.range n).map (fun k =>
  match fs.find? (fun f => f.1 ≤ k && k < f.1 + f.2.1) with
  | some f => BitVec.ofNat 8 (f.2.2 / 256 ^ (k - f.1))
  | none => 0)
/-- A command in state 1. -/
def cmd (fs : List (Nat × Nat × Nat)) (state : Nat := 1) : Command :=
  { queue := 0, index := 0, bytes := fieldBytes 64 fs, state := state, before := 0, fault := 0, time := 0, slot := 0, detail := 0
    updates := 1, startTime := 0 }
/-- Two levels of tables map VA 0 to 2^36 - 1 to itself; a region at 0x1000 uses them; a kernel header stands at 0x20000. -/
def tables : Tab Byte := [(0x1000 + 8, 3), (0x1000 + 0x60, 1), (0x4000, 1), (0x4002, 1), (0x10000, 0xFF), (0x20000, 0x58), (0x20001, 0x42), (0x20002, 0x57),
  (0x20003, 0x4B), (0x20004, 4), (0x20008, 8), (0x2000A, 1), (0x2000E, 1), (0x30000, 7)]
def region1 : Region := { Region.none with
  cores := 3, gangBudget := 96, rowBudget := 4096, vregBudget := 2 ^ 24, scratchBudget := 2 ^ 24, walkbase := 0x4000 }
def host1 (cs : List (Nat × Command)) : State := { State.reset with mem := tables, regions := [(0x1000, region1)], commands := cs, nextSeq := 9 }
theorem opened {r : Option Command × State} (h : r.1.isSome = true) : ∃ c s1, r = (some c, s1) := by
  obtain ⟨x, hx⟩ := Option.isSome_iff_exists.mp h
  exact ⟨x, _, Prod.ext hx rfl⟩
/-- Queue 0 enabled, with one record pending: tail 1, head 0. -/
def queue1 : State := { host1 [] with
  queues := [(0, { base := 0x30000, tail := 0x31000, head := 0x32000, ctl := 4 })], mem := tables ++ [(0x31000, 1)] }
theorem witness_CommandsRun : ((queue1.queue 0).enabled = true ∧ queue1.power ≠ .recovery ∧
      (let a := fwReadPhys queue1 0x31000 4
       let b := fwReadPhys a.2 0x32000 4
       a.1 = .ok [1, 0, 0, 0] ∧ b.1 = .ok [0, 0, 0, 0] ∧ journalFree b.2 = true ∧ b.2.queue 0 = queue1.queue 0 ∧
         (fwReadPhys b.2 0x30000 64).1 = .ok (7 :: List.replicate 63 0))) ∧
    ((({ queue1 with mem := tables } : State).queue 0).enabled = true ∧
      (let a := fwReadPhys { queue1 with mem := tables } 0x31000 4
       a.1 = .ok [0, 0, 0, 0] ∧ (fwReadPhys a.2 0x32000 4).1 = .ok [0, 0, 0, 0])) ∧
    (∀ q < Config.numQueues, ((host1 []).queue q).enabled = false) ∧
    (let s := host1 [(1, cmd [(0, 1, 2)] 2), (2, cmd [(0, 1, 3), (8, 8, 0x1000)])]
     (tfind s.commands 2).any (fun c => c.state == 1) = true ∧ (1, cmd [(0, 1, 2)] 2) ∈ s.commands ∧
      (cmd [(0, 1, 2)] 2).incomplete = true ∧ (cmd [(0, 1, 2)] 2).type = 2) ∧
    (let c := cmd [(0, 1, 3), (8, 8, 0x1000)]
     startable (host1 [(2, c)]) 2 c = true ∧ regionKnown (host1 [(2, c)]) c = true ∧ c.type = 3) ∧
    (let c := cmd [(0, 1, 3), (8, 8, 0x5000)]
     startable (host1 [(2, c)]) 2 c = true ∧ regionKnown (host1 [(2, c)]) c = false) ∧
    (∀ x ∈ [((4 : Nat), (2 : Nat)), (5, 1)], (cmd [(0, 1, x.1), (if x.1 = 4 then 0x18 else 0x10, 1, x.2)]).type = x.1) ∧
    (let c := cmd [(0, 1, 1)]
     c.type < 256 ∧ c.state < 256 ∧ c.fault < 256 ∧ c.queue < 256) := by decide +kernel
/-- LAUNCH of one block of 32 threads. -/
def launchCmd : Command := cmd [(0, 1, 1), (8, 8, 0x1000), (0x10, 8, 0x20000), (0x20, 4, 1), (0x24, 4, 1), (0x28, 4, 1), (0x2C, 4, 32)]
def popTables : Tab Byte := tables.map (fun p => if p.1 == 0x20004 then (p.1, 5) else p)
/-- The same with a population kernel. -/
def popHost : State := { host1 [(2, launchCmd)] with
  mem := tput (popTables.map (fun p => p)) 0x20005 1 }
def readsOk (s : State) (pop : Bool) (fits : Bool) : Bool := match readLaunch s 2 launchCmd with
  | (.ok l, t) => l.header.population == pop && neverFits t l == !fits
  | _ => false
theorem reads_ok {s : State} {pop fits : Bool} (h : readsOk s pop fits = true) :
    ∃ l t, readLaunch s 2 launchCmd = (.ok l, t) ∧ l.header.population = pop ∧ neverFits t l = !fits := by
  unfold readsOk at h
  split at h
  · rename_i l t heq
    simp only [Bool.and_eq_true, beq_iff_eq] at h
    exact ⟨l, t, heq, h.1, h.2⟩
  · cases h
def headerOk (bs : List Byte) : Bool := match parseHeader bs 0x20000 32 with
  | .inr _ => true
  | .inl _ => false
theorem header_ok {bs : List Byte} (h : headerOk bs = true) : ∃ x, parseHeader bs 0x20000 32 = .inr x := by
  unfold headerOk at h
  split at h
  · exact ⟨_, by assumption⟩
  · cases h
/-- All of HBM but the size of the population's staging area is reserved, below it. -/
def fullHost : State := { popHost with launches := [(1, { Launch.none with staging := some (0, 2 ^ 39 - 2048) })] }
def fitsAll (s : State) : Bool := match readLaunch s 2 launchCmd with
  | (.ok l, t) =>
    let u := { t with launches := tput t.launches 2 l }
    l.nblocks.toNat * l.threads ≤ 589824 && (u.launch 2).popsize.toNat * imageSize (u.launch 2).header == 2048 &&
      (reservedAreas u).contains (0, 2 ^ 39 - 2048) && lowestBase (2 ^ 39) 2048 (reservedAreas u) == some (2 ^ 39 - 2048) &&
      (bindAll (u.modLaunch 2 (fun l => { l with staging := some (2 ^ 39 - 2048, 2048) })) 2 l.nblocks.toNat 0).isSome
  | _ => false
theorem staging_last {s : State} {q : Nat} (hn : (s.launch q).popsize.toNat * imageSize (s.launch q).header = 2048)
    (hr : (0, 2 ^ 39 - 2048) ∈ reservedAreas s) (hl : lowestBase (2 ^ 39) 2048 (reservedAreas s) = some (2 ^ 39 - 2048)) :
    reserveStaging s q = some (s.modLaunch q (fun l => { l with staging := some (2 ^ 39 - 2048, 2048) })) := by
  have key : areaFor s (Config.stagingArea q) 2048 = some (2 ^ 39 - 2048) := by
    unfold areaFor
    split
    · rename_i hf
      simp only [areaFree, clear, Bool.and_eq_true, decide_eq_true_eq, Bool.not_eq_true', List.any_eq_false] at hf
      have := hf.2 _ hr
      simp only [not_and, Nat.not_lt] at this
      exact congrArg some (by omega)
    · exact hl
  unfold reserveStaging
  rw [hn]
  dsimp only
  rw [key]
  rfl
theorem fits_all {s : State} (h : fitsAll s = true) : ∃ l t sr u, readLaunch s 2 launchCmd = (.ok l, t) ∧
    l.nblocks.toNat * l.threads ≤ 589824 ∧ reserveStaging { t with launches := tput t.launches 2 l } 2 = some sr ∧
    bindAll sr 2 l.nblocks.toNat 0 = some u := by
  unfold fitsAll at h
  split at h
  · rename_i l t heq
    simp only [Bool.and_eq_true, decide_eq_true_eq, beq_iff_eq, List.contains_iff_mem] at h
    obtain ⟨⟨⟨⟨h1, h2⟩, h3⟩, h4⟩, h5⟩ := h
    obtain ⟨u, hu⟩ := Option.isSome_iff_exists.mp h5
    exact ⟨l, t, _, u, heq, h1, staging_last h2 h3 h4, hu⟩
  · cases h
theorem witness_LaunchesStart : (∃ x, parseHeader ((host1 []).bytesAt 0x20000 256) 0x20000 32 = .inr x) ∧
    leNat (([] : List Byte).take 4) ≠ 0x4B574258 ∧
    (tfind (host1 [(2, launchCmd)]).launches 2 = none ∧ openCommand (host1 [(2, launchCmd)]) 2 1 true = (some launchCmd, host1 [(2, launchCmd)]) ∧
      ∃ l t, readLaunch (host1 [(2, launchCmd)]) 2 launchCmd = (.ok l, t) ∧ l.header.population = false ∧ neverFits t l = !true) ∧
    (∃ l t, readLaunch popHost 2 launchCmd = (.ok l, t) ∧ l.header.population = true ∧ neverFits t l = !true) ∧
    (∃ l t sr u, readLaunch fullHost 2 launchCmd = (.ok l, t) ∧ l.nblocks.toNat * l.threads ≤ 589824 ∧
      reserveStaging { t with launches := tput t.launches 2 l } 2 = some sr ∧ bindAll sr 2 l.nblocks.toNat 0 = some u) ∧
    (∃ l t, readLaunch { popHost with regions := [(0x1000, { region1 with gangBudget := 0 })] } 2 launchCmd = (.ok l, t) ∧
      l.header.population = true ∧ neverFits t l = !false) ∧
    (∃ l t, readLaunch { host1 [(2, launchCmd)] with regions := [(0x1000, { region1 with gangBudget := 0 })] } 2 launchCmd = (.ok l, t) ∧
      l.header.population = false ∧ neverFits t l = !false) ∧
    (readLaunch { host1 [(2, launchCmd)] with mem := [(0x4000, 1), (0x4002, 1), (0x10000, 0xFF)] } 2 launchCmd).1 = .fault 0x01 0 :=
  ⟨header_ok (by decide +kernel), by decide, ⟨by decide, by decide +kernel, reads_ok (by decide +kernel)⟩, reads_ok (by decide +kernel),
    fits_all (by decide +kernel), reads_ok (by decide +kernel), reads_ok (by decide +kernel), by decide +kernel⟩
def waitCmd (state : Nat) (addr : Nat := 0x30000) : Command := cmd [(0, 1, 2), (8, 8, 0x1000), (0x10, 8, addr), (0x18, 4, 9), (0x20, 8, 5)] state
def signalCmd : Command := cmd [(0, 1, 3), (8, 8, 0x1000), (0x10, 8, 0x30000), (0x18, 4, 9)] 2
def wordOk (s : State) (c : Command) (acc : Acc) : Bool := match commandWord s c acc with
  | (.ok key, t) => (match fwReadKey t 0 key 4 with
    | (.ok bs, _) => leNat bs == 7
    | _ => false)
  | _ => false
def policyCmd : Command := cmd [(0, 1, 8), (8, 8, 0x1000), (0x10, 8, 0x100000), (0x1D, 1, 12), (0x20, 8, 10 ^ 6)]
theorem witness_WaitSignalPolicy : (openCommand (host1 [(2, waitCmd 2)]) 2 2 false = (some (waitCmd 2), host1 [(2, waitCmd 2)]) ∧
      wordOk (host1 [(2, waitCmd 2)]) (waitCmd 2) .read = true) ∧
    (let s := { host1 [(2, waitCmd 2)] with time := 5 }
     (waitCmd 2).type = 2 ∧ (waitCmd 2).state = 2 ∧ (waitCmd 2).field 0x20 8 = 5 ∧ (waitCmd 2).startTime + 5 ≤ s.time ∧
      (tfind (pollWait s 2 (waitCmd 2)).commands 2).any (fun c => c.state == 2) = true) ∧
    (openCommand (host1 [(2, signalCmd)]) 2 3 false = (some signalCmd, host1 [(2, signalCmd)]) ∧
      wordOk (host1 [(2, signalCmd)]) signalCmd .write = true ∧ targetOf 0x30000 ≠ .peer ∧ isDevMem 0x30000 = true) ∧
    ((waitCmd 2 0x30002).field 0x10 8 % 4 ≠ 0 ∧ (openCommand (host1 [(2, waitCmd 2 0x30002)]) 2 2 false).1.isSome = true) ∧
    ((openCommand (host1 [(2, policyCmd)]) 2 8 false).1.isSome = true) := by decide +kernel
/-- VA 0x30000 is in peer 0's memory, and its replay buffer is full. -/
def fullPeer : State := { host1 [(2, signalCmd)] with
  mem := tables.flatMap (fun p => if p.1 == 0x10000 then [p, (0x10001, 0x02), (0x10006, 0x08)] else [p])
  peers := [(0, { nextSeq := 1, path := some 0, expect := 0, held := []
                  replay := [{ access := { source := 0, seq := 0, op := .store, parts := [(0, List.replicate Config.replayBytes 0)] }
                               endToEnd := false, slot := 0, accepted := false }] })] }
theorem witness_WaitSignalPolicy_peer : openCommand fullPeer 2 3 false = (some signalCmd, fullPeer) ∧
    (∃ t, commandWord fullPeer signalCmd .write = (.ok (hostBase + 2 ^ 51 + 0x30000), t)) ∧
    targetOf (hostBase + 2 ^ 51 + 0x30000) = .peer ∧ fullPeer.peerFits [(State.peerOf (hostBase + 2 ^ 51 + 0x30000), 4)] = false := by
  refine ⟨rfl, ⟨_, Prod.ext rfl rfl⟩, by decide, ?_⟩
  rw [show State.peerOf (hostBase + 2 ^ 51 + 0x30000) = 0 by decide]
  simp [State.peerFits, State.servedBy, State.partBytes, fullPeer, State.peer, tfind]
def regionCmd (action target region : Nat) : Command := cmd [(0, 1, 4), (8, 8, region), (0x10, 8, target), (0x18, 1, action)]
def rootless : State := { host1 [(2, regionCmd 0 0x1000 0)] with regions := [] }
theorem witness_RegionCommands : ((openCommand rootless 2 4 true).1.isSome = true ∧ (regionCmd 0 0x1000 0).field 0x18 1 = 0 ∧
      (regionCmd 0 0x1000 0).field 0x10 8 = 0x1000 ∧ isDevMem 0x1000 = true ∧ (parseRegion (rootless.bytesAt 0x1000 128)).isSome = true ∧
      (fwReadPhys rootless 0x1000 128).1 = .ok (rootless.bytesAt 0x1000 128) ∧ (fwReadPhys rootless 0x1000 128).2.regions = [] ∧
      ((parseRegion (rootless.bytesAt 0x1000 128)).map (fun r => r.parent)) = some 0) ∧
    (let s := host1 [(2, regionCmd 1 0x1000 0x1000)]
     (openCommand s 2 4 true).1.isSome = true ∧ (parseRegion (s.bytesAt 0x1000 128)).any (fun r => r.parent == region1.parent) = true ∧
      tfind s.regions 0x1000 = some region1) ∧
    (∀ x ∈ [((0x10 : Byte), false), (0x20, true), (0x30, true)],
     let s := { host1 [(2, regionCmd 1 0x2000 0x1000)] with mem := tput tables 0x2001 x.1
                                                            regions := [(0x1000, region1), (0x1800, { region1 with parent := 0x1000 }),
                                                              (0x2000, { region1 with parent := 0x1800 })] }
     (openCommand s 2 4 true).1.isSome = true ∧ (fwReadPhys s 0x2000 128).1 = .ok (s.bytesAt 0x2000 128) ∧
      (parseRegion (s.bytesAt 0x2000 128)).any (fun r => r.parent != 0x1800 &&
        ((tfind s.regions r.parent).isNone || (subtree s 0x2000).contains r.parent) == x.2) = true) ∧
    (let s := host1 [(2, regionCmd 2 0x1000 0x1000)]
     (openCommand s 2 4 true).1.isSome = true ∧ (subtree s 0x1000).all (fun b => !regionBusy s b) = true) ∧
    (let s := { host1 [(2, regionCmd 2 0x1000 0x1000)] with launches := [(1, { launch0 with region := 0x1000, nextBlock := 0 })] }
     (subtree s 0x1000).any (regionBusy s) = true) := by decide +kernel
/-- Two waiting blocks of one gang each. -/
def launch2 : Launch := { launch0 with region := 0x1000, threads := 32, nblocks := 2, nextBlock := 0, header := { head0 with vregs := 8, weirs := 0 }
                                       grid := (2, 1, 1) }
def waiting2 : State := { host1 [] with launches := [(1, launch2)] }
def planOk (s : State) (l : Launch) (b : Nat) : Bool := match planBlock s (roomOf s) l b with
  | some p => fitsBudgets s l.region true (planNeed l.header p) && decide ((planGangs p).map (fun x => x.2.1)).Nodup
  | none => false
/-- A block of a region of higher priority could start too. -/
def rivals : State := { waiting2 with
  regions := [(0x1000, region1), (0x2000, { region1 with priority := 9 })], launches := [(1, launch2), (2, { launch2 with region := 0x2000 })] }
theorem witness_BlocksStart : (launch2.place = none ∧ planOk waiting2 launch2 1 = true) ∧
    (tfind waiting2.launches 1 = some launch2 ∧ launch2.ending = none ∧ waiting2.power = .running ∧ launch2.nextBlock ≤ 1 ∧ 1 < launch2.nblocks.toNat ∧
      outranked waiting2 launch2 = false) ∧
    (tfind rivals.launches 1 = some launch2 ∧ outranked rivals launch2 = true) ∧
    risingFrom none waiting2.regions = true := by decide +kernel
def stopped1 : State := one.modCore 0 (fun k => { k with saving := [0] })
def frame1 : Frame := { core := 0, time := 0, base := 0x50000, size := 4096, dispatch := false, blocks := [blockKey 1 0]
                        gangs := [(0, fetchGang)], groups := [(1, group [0])], lanes := [(0, fetchLane)], engines := [], acc := [] }
def saved1 : State := { one with
  gangs := [], groups := [], lanes := [], frames := [(5, frame1)], blocks := [(blockKey 1 0, { block0 with saved := true })]
  regions := [(0, region1)], mem := [(0x50000, 0x46), (0x50001, 0x53), (0x50002, 0x57), (0x50003, 0x4B), (0x50004, 1)] }
theorem witness_BlocksSaveAndRestore : (∃ k ∈ closure one ([blockKey 1 0].filter (fun k => (partsOn one 0).any (fun p => p.1 == k))),
      ∃ b, tfind one.blocks k = some b ∧ ∃ p ∈ b.parts, partSaved one p.core k = false) ∧
    (∀ u ∈ (group [0]).members, threadStopped stopped1 u = true) ∧
    ((stopped1.core 0).saving ≠ [] ∧ (∀ n ∈ (stopped1.core 0).saving, Machine.draining stopped1 n = false) ∧ (stopped1.core 0).saveFlush = none ∧
      (stopped1.core 0).pinned = [] ∧ stopped1.dirtyLines 0 = [] ∧ stopped1.writeBacks 0 = []) ∧
    (let s := stopped1.modCore 0 (fun k => { k with l1 := [(5, { L1Line.empty with cells := [(0, 7, true)], epoch := some 0 })] })
     let r := s.writeBackFit 0 (s.dirtyLines 0)
     (s.core 0).saving ≠ [] ∧ (∀ n ∈ (s.core 0).saving, Machine.draining s n = false) ∧ (s.core 0).saveFlush = none ∧ (s.core 0).pinned = [] ∧
      (s.core 0).leases = [] ∧ r.1 = true ∧ r.2.writeBacks 0 ≠ []) ∧
    (let s := stopped1.modCore 0 (fun k => { k with saveFlush := some [7] })
     (∀ n ∈ (s.core 0).saving, Machine.draining s n = false) ∧ (s.core 0).saveFlush = some [7] ∧ ∀ i ∈ [7], tfind s.net i = none) ∧
    (frameSet saved1 5 ≠ [] ∧ saved1.power = .running ∧ restorable saved1 (frameSet saved1 5) = true ∧
      ∀ f ∈ saved1.frames, restoresFirst saved1 (frameSet saved1 f.1) (frameSet saved1 5) = true → restorable saved1 (frameSet saved1 f.1) = false) ∧
    ((saved1.homeFault frame1.base frame1.size).isSome = false ∧ saved1.natAt frame1.base 4 = 0x4B575346 ∧
      saved1.natAt (frame1.base + 4) 4 = 1 ∧ risingFrom none frame1.gangs = true ∧ risingFrom none frame1.lanes = true) :=
  ⟨⟨blockKey 1 0, by decide, block0, by decide, by decide⟩, by decide, by decide, by decide, by decide, by decide +kernel, by decide⟩
def halted1 : State := demo [0] fetchLane { fetchGang with halted := true }
theorem witness_RegistersAndHalt : ((0 : W64).extractLsb' 0 5 = 0 ∧ 4 ≤ ((4 : W64).extractLsb' 0 5).toNat ∧ ((16 : W64).extractLsb' 0 5).toNat ≤ 16) ∧
    ((3 : W64).extractLsb' 0 5 ≠ 0 ∧ ((3 : W64).extractLsb' 0 5).toNat < 4 ∧ 16 < ((17 : W64).extractLsb' 0 5).toNat) ∧
    ((halted1.gang 0).halted = true ∧ (tfind halted1.gangs 0).isSome = true ∧ (halted1.gang 0).weirs = []) ∧
    (haltedGang one 0 = false ∧ ((0x30000 : W64).extractLsb' 16 2).toNat = 3) ∧
    (State.reset.badRecords = [] ∧ 6 ≤ (10 : W64).toNat ∧ (10 : W64).toNat ≤ 16 ∧
      ({ State.reset with badRecords := [(3, 0)], logBase := 0x60000 } : State).logBase ≠ 0) := by decide

/-! ### Witnesses: the platform. -/

def wide (k : Channel) : State := { State.reset with channels := [(3, k)] }
theorem witness_ChannelWidths : ((1 : W32).getLsbD 0 = true ∧ (State.reset.channel 3).half = false ∧ (State.reset.channel 3).retraining = none) ∧
    ((0 : W32).getLsbD 0 = false ∧ ((wide { Channel.reset with half := true, cause := 1, reg := 1 }).channel 3).half = true ∧
      policyCause { Channel.reset with half := true, cause := 1, reg := 0 &&& 0x00FFFF07 } = none) ∧
    ((let k := (wide { Channel.reset with reg := 0x502 }).channel 3
      k.reg.getLsbD 0 = false ∧ k.reg.getLsbD 1 = true ∧ (k.reg.extractLsb' 8 8).toNat ≠ 0 ∧ (k.reg.extractLsb' 8 8).toNat ≤ 5) ∧
     (let k := (wide { Channel.reset with reg := 2 }).channel 3
      k.reg.getLsbD 0 = false ∧ k.reg.getLsbD 1 = true ∧ k.reg.extractLsb' 8 8 = 0 ∧ k.reg.getLsbD 2 = false) ∧
     (let k := (wide { Channel.reset with reg := 0x500004 }).channel 3
      k.reg.getLsbD 0 = false ∧ k.reg.getLsbD 1 = false ∧ k.reg.getLsbD 2 = true ∧ (k.reg.extractLsb' 16 8).toNat ≤ 0x50)) ∧
    (((wide { Channel.reset with retraining := some (true, 1), failing := some 3 }).channel 3).retraining = some (true, 1) ∧
      (wide { Channel.reset with retraining := some (true, 1) }).power = .running ∧ (wide Channel.reset).logSize = 0 ∧ 3 < hbmChannels) := by decide
def emberCmd (action state : Nat) : Command := cmd [(0, 1, 5), (8, 8, 0x1000), (0x10, 1, action)] state
def entering (n : Nat) : State := { host1 [(1, cmd [(0, 1, 1)] 2), (2, emberCmd 0 2)] with power := .entering n }
def exiting (n : Nat) : State := { host1 [(1, cmd [(0, 1, 1)] 6), (2, cmd [(0, 1, 6)] 2)] with power := .exiting n }
/-- The first journal slot, which the next command would take, holds a command that is not complete. -/
def journalFull : State := { host1 [(1, cmd [(0, 1, 1)] 2)] with journalSize := 6, nextSeq := 65, emberArmed := true }
theorem witness_EmberState_warnings : (journalFull.power = .running ∧ journalFree journalFull = false ∧ journalFree (exiting 2) = true) ∧
    (∀ n ∈ [2, 4], ({ exiting n with emberArmed := true } : State).power = .exiting n) ∧
    (let s := { saved1 with power := .exiting 4, commands := [(2, cmd [(0, 1, 6)] 2)] }
     ∃ f ∈ s.frames, restorable s (frameSet s f.1) = true) ∧
    (let s := { exiting 5 with launches := [(1, { launch0 with ending := some [] })], commands := [(1, { cmd [(0, 1, 1)] 6 with before := 2 })] }
     (s.launch 1).ending = some []) ∧
    (let s := { one with power := .exiting 5, commands := [(1, { cmd [(0, 1, 1)] 6 with before := 5 })] }
     (s.launch 1).ending = none ∧ s.gangs.any (fun g => g.2.launch == 1) = true) := by
  refine ⟨by decide, by decide, ⟨(5, frame1), by decide, by decide +kernel⟩, by decide, by decide⟩
theorem witness_EmberState : (∀ a ∈ [0, 1, 2], (openCommand (host1 [(2, emberCmd a 1)]) 2 5 false).1.isSome = true ∧ (emberCmd a 1).field 0x10 1 = a) ∧
    (openCommand { host1 [(2, emberCmd 0 1)] with power := .ember } 2 5 false).1.isSome = true ∧
    ((emberCmd 0 2).type = 5 ∧ (emberCmd 0 2).state = 2 ∧ (saveAll (entering 1)).1 = true ∧ risingFrom none (entering 2).commands = true ∧
      (entering 4).migrations = []) ∧
    (∀ k < 192, (({ entering 3 with cores := (List.range 192).map (fun c => (c, { Core.reset with powered := false })) } : State).core k).powered = false) ∧
    (let s := { host1 [(2, cmd [(0, 1, 6), (8, 8, 0x1000)])] with power := .ember }
     (openCommand s 2 6 false).1.isSome = true) ∧
    ((cmd [(0, 1, 6)] 2).type = 6 ∧ (∀ k ∈ (exiting 2).channels, k.2.retraining = none) ∧ (exiting 4).frames = [] ∧
      risingFrom none (exiting 5).commands = true ∧ (exiting 6).warned = false) ∧
    (State.reset.emberArmed = false ∧ ({ State.reset with emberArmed := true } : State).power = .running) := by decide +kernel
/-- An image of 4096 zero bytes whose header does not verify. An image that does verify cannot be shown: the key that
signs one is not in the spec. -/
def firmwareCmd (state : Nat) : Command := cmd [(0, 1, 7), (8, 8, 0x1000), (0x10, 8, 0x40000), (0x18, 8, 0x10C0)] state
def imgOk (s : State) : Bool := match fwReadPhys s 0x40000 128 with
  | (.ok bs, t) => bs == List.replicate 128 0 && t.frames.isEmpty && !t.warned
  | _ => false
theorem witness_FirmwareLoads : ((openCommand (host1 [(2, firmwareCmd 1)]) 2 7 false).1.isSome = true ∧ (host1 []).power = .running) ∧
    ((firmwareCmd 2).type = 7 ∧ (firmwareCmd 2).state = 2 ∧ saveAll { host1 [(2, firmwareCmd 2)] with power := .loading } =
      (true, { host1 [(2, firmwareCmd 2)] with power := .loading }) ∧ imgOk (host1 [(2, firmwareCmd 2)]) = true ∧
      (host1 [(2, firmwareCmd 2)]).frames = [] ∧ imageVersion 0 (List.replicate 128 0) = none) ∧
    (State.reset.writes = [] ∧ imageVersion 0 State.reset.firmware.image = none ∧
      ({ State.reset with power := .recovery } : State).power = .recovery) := by decide +kernel
theorem no_l1 (c : Nat) : one.l1Line c 0x40 = none := by
  by_cases h : c = 0
  · subst h
    decide
  · simp [State.l1Line, one, demo, State.core, tfind, Ne.symm h]
    rfl
def access1 : PeerAccess := { source := 3, seq := 5, op := .store, parts := [(0x2000, [1, 2, 3, 4])] }
def peer1 (expect : Nat) : State := { State.reset with peers := [(3, { nextSeq := 0, replay := [{ access := access1, endToEnd := false, slot := 0, accepted := false }], path := some 2, expect := expect, held := [] })] }
theorem witness_HostAndPeerAccesses : ((∀ c ∈ coreNumbers one, one.leasedLine c 0x40 = false ∧ one.pinnedLine c 0x40 = false) ∧ lineQuiet one 0x40 = true ∧
      (one.homeReadyAll [0x40]).1 = true ∧ ∀ c, one.l1Line c 0x40 = none) ∧
    (0 ∈ coreNumbers leased1 ∧ leased1.leasedLine 0 (0x2FFFC / 128) = true) ∧
    (0x2000 + 4 ≤ 2 ^ 41 ∧ one.failed = [] ∧ Memory.wf one.mem ∧
      ∀ l, 0x2000 / 128 ≤ l → l ≤ (0x2000 + 4) / 128 → one.record l = none ∧ tfind one.drains l = none) ∧
    (access1.seq = ((peer1 5).peer 3).expect ∧ ((peer1 5).peer 3).held = [] ∧ access1.op = .store) ∧
    ((setPeer (peer1 5) 3 { (peer1 5).peer 3 with held := [{ access1 with op := .red 0 true }] }).homeReady (0x2000 / 128)).1 = true ∧
    (access1.seq < ((peer1 6).peer 3).expect ∧ 6 ≤ access1.seq + 2 ^ 47) ∧ (((peer1 4).peer 3).expect < access1.seq ∧ access1.seq < 4 + 2 ^ 47) ∧
    ((State.reset.port 2).up = true ∧ (State.reset.port 2).retries < 15 ∧
      15 ≤ (({ State.reset with ports := [(2, { Port.reset with retries := 15 })] } : State).port 2).retries) ∧
    ((tfind (peer1 5).peers 3).map (fun x => x.path) = some (some 2) ∧ risingFrom none (peer1 5).peers = true) ∧
    ((State.reset.port 17).up = true ∧ hopSilent State.reset 2 = false) ∧
    (let s := { peer1 5 with time := 10000 }
     s.unaccepted 2 = true ∧ (s.port 2).since + 10000 ≤ s.time) :=
  ⟨⟨by decide, by decide, by decide, no_l1⟩,
    by decide, ⟨by decide, rfl, by decide, fun _ _ _ => ⟨rfl, rfl⟩⟩, by decide, by decide, by decide, by decide, by decide, by decide, by decide,
    by decide⟩
theorem witness_AttestationAndReads : (1 ≤ 3 ∧ 3 ≤ 3) ∧ State.reset.writes = [] ∧ Memory.wf State.reset.mem ∧
    (∃ ws t, exec (.vendorRead .emberState) State.reset = .next t ∧ t.replies = [.vendor ws]) := ⟨by decide, rfl, by decide, _, _, rfl, rfl⟩
theorem witness_StepKeepsBetween : State.reset.Between ∧ ∃ t, step State.reset = .next t := ⟨⟨by decide, rfl, rfl⟩, _, rfl⟩

/-! ### Instruction words, written out bit by bit from the tables of 03 R78, R86-R92 and R94. -/

theorem test_decode_control :
    decodeSlot 0x00C9C0002A020007FFFFFFF0 = .brs ⟨2, false, 7, false⟩ ⟨0, 5, .scl, 0, false, 131079, 0xFFFFFFF0⟩ ∧
    decodeSlot 0x0104E0A00000000000000123 = .call ⟨1, false, 3, true⟩ ⟨10, 0, .vec, 0, false, 0, 0x123⟩ ∧
    decodeSlot 0x0203C0000002FFFF00000000 = .sleep ⟨0, true, 7, false⟩ ⟨0, 0, .vec, 0, false, 196607, 0x0⟩ := by decide
theorem test_decode_integer :
    decodeSlot 0x1199C08050503C21C4000000 = .imad ⟨6, false, 7, false⟩ ⟨8, 10, 20, 30, .vec, .scl, .vec, 7, 0, true, 0, 0⟩ ∧
    decodeSlot 0x10C017F00800006082AFFFFE = .isubx ⟨0, false, 0, false⟩ ⟨383, 1, 0, 0, .vec, .imm, .vec, 2, 0, false, 42, 1048574⟩ := by decide
theorem test_decode_logic :
    decodeSlot 0x2141C010100C0802000E8000 = .blog ⟨0, false, 7, false⟩ ⟨1, 2, 3, 4, .vec, .vec, .vec, 8, 0, false, 0, 950272⟩ ∧
    decodeSlot 0x2551C0C000800000DEADBEEF = .movi ⟨4, false, 7, false⟩ ⟨12, 0, .vec, 8, 0, false, 0, 0xDEADBEEF⟩ ∧
    decodeSlot 0x2401C060382000418034001F = .icmp ⟨0, false, 7, false⟩ ⟨6, 7, 8, 0, .vec, .win, .vec, 6, 0, false, 3, 262175⟩ := by decide
theorem test_decode_float :
    decodeSlot 0x3097C04028180E04DE000000 = .ffma ⟨5, true, 7, false⟩ ⟨4, 5, 6, 7, .vec, .vec, .vec, 19, 3, true, 32, 0⟩ ∧
    decodeSlot 0x3201C04028000064000FFFF0 = .fscale ⟨0, false, 7, false⟩ ⟨4, 5, 0, 0, .vec, .imm, .vec, 16, 0, false, 0, 1048560⟩ := by decide
theorem test_decode_conversion :
    decodeSlot 0x4281C02018000001A1000000 = .cvt ⟨0, false, 7, false⟩ ⟨2, 3, 0, 0, .vec, .vec, .vec, 6, 4, false, 16, 0⟩ ∧
    decodeSlot 0x434060201800000200500000 = .unpk ⟨0, false, 1, true⟩ ⟨2, 3, 0, 0, .vec, .vec, .vec, 8, 0, false, 5, 0⟩ := by decide
theorem test_decode_crossLane :
    decodeSlot 0x5001C0101000006200E0001F = .lxch ⟨0, false, 7, false⟩ ⟨1, 2, 0, 0, .vec, .imm, .vec, 8, 0, false, 14, 31⟩ ∧
    decodeSlot 0x50C1C0901000000182000000 = .redux ⟨0, false, 7, false⟩ ⟨9, 2, 0, 0, .vec, .vec, .vec, 6, 0, false, 32, 0⟩ := by decide
theorem test_decode_scalar :
    decodeSlot 0x6141C9F0080806A980000000 = .smad ⟨0, false, 7, false⟩ ⟨159, 1, 2, 3, .scl, .scl, .scl, 6, 0, false, 0, 0⟩ ∧
    decodeSlot 0x6041C9E00070000080000001 = .smovi ⟨0, false, 7, false⟩ ⟨158, 0, .vec, 7, 0, false, 0, 0x80000001⟩ ∧
    decodeSlot 0x6341C08080000090000FFFF0 = .sld ⟨0, false, 7, false⟩ ⟨8, 16, 0, 0, .scl, .vec, 4, 0, 0, 0, false, 0, 1048560⟩ ∧
    decodeSlot 0x6401C0300000000002600000 = .srd ⟨0, false, 7, false⟩ ⟨3, 0, 0, 0, .vec, .vec, .vec, 0, 0, false, 38, 0⟩ := by decide
theorem test_decode_memory :
    decodeSlot 0x700DC0404000000588C80000 = .ld ⟨3, false, 7, false⟩ ⟨4, 8, 0, 0, .vec, .vec, 1, 6, 1, 1, true, 0, 524288⟩ ∧
    decodeSlot 0x7141C00040241428D0100000 = .sts ⟨0, false, 7, false⟩ ⟨0, 8, 9, 10, .vec, .scl, 2, 3, 2, 0, false, 1, 0⟩ ∧
    decodeSlot 0x7181C0400800000C002E0010 = .ldc ⟨0, false, 7, false⟩ ⟨4, 1, 0, 0, .vec, .vec, 3, 0, 0, 0, false, 2, 917520⟩ := by decide
theorem test_decode_atomics :
    decodeSlot 0x8041C040400C0A0A98C00004 = .cas ⟨0, false, 7, false⟩ ⟨4, 8, 3, 5, .vec, .vec, 2, 10, 3, 1, true, 0, 4⟩ ∧
    decodeSlot 0x8181C0004010000801000000 = .stl ⟨0, false, 7, false⟩ ⟨0, 8, 4, 0, .vec, .vec, 2, 0, 0, 2, false, 0, 0⟩ ∧
    decodeSlot 0x8201CCC0002060A0C095140E = .mred ⟨0, false, 7, false⟩ ⟨1, 9, true, 0, 2, 6, 10, 3, 0, 149, 20, 14⟩ := by decide
theorem test_decode_sync :
    decodeSlot 0x9001C0000000000158800000 = .fence ⟨0, false, 7, false⟩ ⟨0, 0, 0, 0, .vec, .vec, 0, 5, 3, 1, false, 0, 0⟩ ∧
    decodeSlot 0x9141C02000FFFFFF00000000 = .wjoin ⟨0, false, 7, false⟩ ⟨2, 0, .vec, 15, true, 524287, 0x0⟩ ∧
    decodeSlot 0x91C1C000A000008158800000 = .rgn ⟨0, false, 7, false⟩ ⟨0, 20, 0, 0, .scl, .vec, 0, 5, 3, 1, false, 0, 0⟩ ∧
    decodeSlot 0x9181C0004A00000000000000 = .tkwait ⟨0, false, 7, false⟩ ⟨0, 9, .scl, 0, false, 0, 0x0⟩ := by decide
theorem test_decode_matrix :
    decodeSlot 0xA081D83FF010204866FF0781 = .mma ⟨0, false, 7, false⟩ ⟨3, 0, false, 1023, 1, 2, 4, 33, 38, 255, 7, 129⟩ ∧
    decodeSlot 0xA201C0000010200080070058 = .acc2s ⟨0, false, 7, false⟩ ⟨0, 0, false, 0, 1, 2, 0, 2, 0, 7, 0, 88⟩ := by decide
theorem test_decode_engines :
    decodeSlot 0xB041D0000020508000100902 = .cpy2d ⟨0, false, 7, false⟩ ⟨2, 0, false, 0, 2, 5, 8, 0, 0, 16, 9, 2⟩ ∧
    decodeSlot 0xB141D8000010203065000466 = .cast ⟨0, false, 7, false⟩ ⟨3, 0, false, 0, 1, 2, 3, 1, 37, 0, 4, 102⟩ := by decide
theorem test_decode_population :
    decodeSlot 0xC001C0000010203000000000 = .rsmp ⟨0, false, 7, false⟩ ⟨0, 0, false, 0, 1, 2, 3, 0, 0, 0, 0, 0⟩ ∧
    decodeSlot 0xC081C0300A00000F00000000 = .spawn ⟨0, false, 7, false⟩ ⟨3, 1, .scl, 0, false, 15, 0x0⟩ ∧
    decodeSlot 0xC0C1C0600000000240000000 = .rng ⟨0, false, 7, false⟩ ⟨6, 0, 0, 0, .vec, .vec, .vec, 9, 0, false, 0, 0⟩ := by decide
theorem test_decode_system :
    decodeSlot 0xD0C1C0000010000C00000021 = .csrw ⟨0, false, 7, false⟩ ⟨0, 0, 4, 0, .vec, .vec, 3, 0, 0, 0, false, 0, 33⟩ ∧
    decodeSlot 0xD101C0004000000140000000 = .tinv ⟨0, false, 7, false⟩ ⟨0, 8, 0, 0, .vec, .vec, 0, 5, 0, 0, false, 0, 0⟩ ∧
    decodeSlot 0xD181C0000000FFFF00000000 = .dbrk ⟨0, false, 7, false⟩ ⟨0, 0, .vec, 0, false, 65535, 0x0⟩ := by decide

/-! ### Ill-formed terms: each is refused by its check. -/

theorem test_wellFormed_example : (Instr.iadd hd fs32).wellFormed = true := by decide

/-! ### Ill-formed terms: each check of `wellFormed` refuses one. -/

def allRefused (l : List Instr) : Bool := l.all (fun i => !i.wellFormed)
/-- .f32 of v1 and v2, then v3. -/
def fw32 : FmtA := { a0 with d := 4, a := 1, b := 2, ty := 0x10 }
def fw32x3 : FmtA := { fw32 with c := 3 }
/-- .n64 pairs, and .n32 scalars. -/
def fn64 : FmtA := { a0 with d := 4, a := 8, b := 10, ty := 3 }
def fsc : FmtA := { a0 with d := 4, a := 8, b := 10, kA := .scl, kB := .scl, ty := 2 }
/-- The bases of the terms below are well formed. -/
theorem test_wellFormed_bases :
    ([.iadd hd fs32, .iadd hd fn64, .fadd hd fw32, .ffma hd fw32x3, .sadd hd fsc, .icmp hd { fs32 with d := 6 },
      .ld hd { m0 with d := 4, a := 8, width := 2 }, .st hd { m0 with a := 8, b := 4, width := 2 },
      .ldf hd { m0 with d := 4, a := 8, width := 5 }, .atom hd { m0 with d := 4, a := 8, b := 6, width := 2, scope := 4 },
      .fence hd { m0 with order := 3, scope := 1 }, .mma hd { x0 with kP := 1, kQ := 2, kS := 3, sfmt := 2, tfmt := 3 },
      .cpy hd { x0 with mods := 6, kP := 1, kQ := 2, kS := 3, tok := 4 }] : List Instr).all (fun i => i.wellFormed) = true := by decide
/-- 03 R84: register numbers in range, pairs even, a field zero with kinds 10 and 11. -/
theorem test_refused_registers : allRefused
    [.iadd hd { fs32 with d := 384 }, .iadd hd { fs32 with a := 384 }, .iadd hd { fs32 with a := 160, kA := .scl },
     .iadd hd { fn64 with d := 5 }, .iadd hd { fn64 with b := 11 }, .iadd hd { fn64 with b := 11, kB := .scl },
     .iadd hd { fs32 with kB := .imm }, .iadd hd { fs32 with kB := .win }, .icmp hd { fs32 with d := 8 },
     .sadd hd { fsc with d := 160 }, .sadd hd { fsc with kA := .vec }, .sadd hd { fsc with d := 5, ty := 3 },
     .isel hd { a0 with d := 4, a := 1, b := 2, c := 8, ty := 8 }, .isel hd { a0 with d := 4, a := 1, b := 2, kC := .scl, ty := 8 },
     .imadw hd { a0 with d := 5, a := 1, b := 2, c := 4, ty := 2 }, .imadw hd { a0 with d := 4, a := 1, b := 2, c := 5, ty := 2 },
     .lea hd { a0 with d := 4, a := 7, b := 2, ty := 2 }, .lea hd { a0 with d := 4, b := 2, kA := .imm, ty := 2 },
     .plop hd { a0 with d := 8 }, .plop hd { a0 with kB := .scl }, .smovi hd { i0 with d := 160, ty := 8 }] = true := by decide
/-- 03 R85, R86, 04 R119, 05 R128: unused sources, the operand field, its immediates and windows. -/
theorem test_refused_operands : allRefused
    [.iadd hd { fs32 with c := 1 }, .iadd hd { fs32 with kC := .scl }, .iadd hd { fs32 with opnd := 1 },
     .ffma hd { fw32x3 with b := 0, c := 0, kB := .imm, kC := .win }, .iadd hd { fn64 with b := 0, kB := .win, opnd := 0x1FFFF },
     .fadd hd { fw32 with ty := 0x11, b := 0, kB := .imm, opnd := 0x18000 }, .cvt hd { a0 with d := 4, kA := .imm, ty := 0x10, mods := 0x15, opnd := 256 },
     .shl hd { a0 with d := 4, a := 1, kB := .imm, ty := 8, opnd := 64 }, .bcast hd { a0 with d := 4, a := 1, kB := .imm, ty := 8, opnd := 32 },
     .lxch hd { a0 with d := 4, a := 1, kB := .imm, ty := 8, mods := 3, opnd := 2 ^ 20 - 32 },
     .lxch hd { a0 with d := 4, a := 1, kB := .imm, ty := 8, opnd := 2 ^ 20 - 1 }, .blog hd { a0 with d := 4, kC := .imm, ty := 8 },
     .blog hd { a0 with d := 4, ty := 8, opnd := 1 }, .rdlane hd { a0 with d := 4, kA := .scl, kB := .scl, ty := 8 },
     .srd hd { a0 with d := 4, a := 1 }, .srd hd { a0 with d := 4, opnd := 1 }, .pmask hd { a0 with d := 4, b := 1 }] = true := by decide
/-- Types, rounding modes, saturation and modifiers outside an entry's list (05 R129-R161, 06 R163-R167). -/
theorem test_refused_modes : allRefused
    [.iadd hd { fs32 with ty := 8 }, .iadd hd { fs32 with rnd := 1 }, .iadd hd { fs32 with mods := 1 }, .imulh hd { fs32 with sat := true },
     .iaddx hd { fs32 with ty := 6 }, .iabs hd { a0 with d := 3, a := 1, ty := 2 }, .idot4 hd { fs32 with ty := 2 },
     .isad hd { fn64 with c := 4 }, .and hd fs32, .sar hd { fs32 with ty := 2 }, .fshf hd { fs32 with ty := 9 },
     .icmp hd { fs32 with d := 6, mods := 6 }, .isel hd { a0 with d := 4, ty := 8, mods := 2 }, .lea hd { a0 with d := 4, a := 8, ty := 3 },
     .mov hd { a0 with d := 4, a := 1, ty := 2 }, .movi hd { i0 with ty := 2 }, .movi hd { i0 with ty := 8, mods := 1 },
     .bswz hd { a0 with ty := 9 }, .fadd hd { fw32 with ty := 2 }, .fadd hd { fw32 with rnd := 4 }, .fadd hd { fw32 with mods := 1 },
     .fmin hd { fw32 with sat := true }, .fcmp hd { fw32 with ty := 0x13 }, .fclass hd { fw32 with b := 0, ty := 0x13 },
     .fdot2 hd fw32x3, .fscale hd { fw32 with ty := 0x13 }, .frnd hd { fw32 with b := 0, sat := true }, .fsin hd { fw32 with b := 0, ty := 0x14 },
     .cvt hd { a0 with ty := 0x10, mods := 0x13 }, .cvt hd { a0 with ty := 0x13, mods := 2 }, .cvt hd { a0 with ty := 2, mods := 2, rnd := 1 },
     .cvt hd { a0 with ty := 2, mods := 0x10, sat := true }, .cvt hd { a0 with ty := 0x10, mods := 0x27 }, .cvt hd { a0 with ty := 0x10, mods := 2, rnd := 5 },
     .cvtn hd { a0 with ty := 0x10, mods := 0x1F }, .pack hd { a0 with ty := 0x10 }, .pack hd { a0 with ty := 8, rnd := 1 },
     .unpk hd { a0 with ty := 8, mods := 6 }, .unpk hd { a0 with ty := 0x13, mods := 2 }, .lxch hd { a0 with ty := 8, mods := 0x20 },
     .lxch hd { a0 with ty := 8, mods := 24 }, .cons hd { a0 with mods := 4 }, .pmask hd { a0 with mods := 1 },
     .redux hd { a0 with ty := 0x10, mods := 3 }, .redux hd { a0 with ty := 8 }, .redux hd { a0 with ty := 2, mods := 1, sat := true },
     .scan hd { a0 with ty := 2, rnd := 1 }, .eqmask hd { a0 with ty := 8, mods := 2 }, .sshl hd { fsc with ty := 2 },
     .scmp hd { fsc with mods := 6 }, .srd hd { a0 with mods := 16 }, .srd hd { a0 with mods := 0x2A }] = true := by decide
/-- 03 R88-R90, 06 R173-R191: widths, runs, spaces, orders, scopes, the mark and operations of format M. -/
theorem test_refused_memory : allRefused
    [.ld hd { m0 with d := 5, a := 8, width := 3 }, .ld hd { m0 with d := 6, a := 8, width := 4 }, .ld hd { m0 with a := 9, width := 2 },
     .ld hd { m0 with a := 8, width := 5 }, .ld hd { m0 with a := 8, width := 2, space := 3 }, .ld hd { m0 with a := 8, width := 2, order := 2, scope := 1 },
     .ld hd { m0 with a := 8, width := 2, scope := 1 }, .ld hd { m0 with a := 8, width := 2, order := 1, scope := 7 },
     .ld hd { m0 with a := 8, width := 2, space := 1, order := 1, scope := 4 }, .ld hd { m0 with a := 8, width := 2, space := 1, mark := true },
     .ld hd { m0 with a := 8, width := 2, op := 1 }, .ld hd { m0 with a := 8, width := 1, space := 2 }, .ld hd { m0 with a := 8, kA := .imm, width := 2 },
     .st hd { m0 with d := 1, a := 8, width := 2 }, .st hd { m0 with a := 8, width := 2, space := 2 }, .st hd { m0 with a := 8, b := 1, width := 3 },
     .st hd { m0 with a := 8, kB := .imm, width := 2 }, .stf hd { m0 with a := 8, width := 5, op := 4 }, .ldf hd { m0 with a := 8, width := 2 },
     .lds hd { m0 with width := 2 }, .sts hd { m0 with width := 2, space := 1, mark := true }, .ldc hd { m0 with a := 8, width := 0, space := 2 },
     .pref hd { m0 with a := 8, width := 1 }, .cctl hd { m0 with a := 8 }, .cctl hd { m0 with op := 5 }, .sld hd { m0 with a := 8, width := 2 },
     .sst hd { m0 with a := 8, kA := .scl, width := 2 }, .atom hd { m0 with a := 8, width := 1, scope := 4 },
     .atom hd { m0 with a := 8, width := 2, scope := 0 }, .atom hd { m0 with a := 8, width := 3, scope := 4, op := 9 },
     .atom hd { m0 with a := 8, width := 2, scope := 4, op := 12 }, .atom hd { m0 with a := 8, width := 2, scope := 4, order := 4 },
     .cas hd { m0 with a := 8, width := 2, scope := 4, op := 1, order := 2 }, .red hd { m0 with a := 8, width := 2, scope := 4, op := 8 },
     .red hd { m0 with a := 8, width := 2, scope := 4, order := 1 }, .atoms hd { m0 with width := 2, space := 1, scope := 4 },
     .cass hd { m0 with width := 2, space := 1, scope := 1, mark := true }, .lse hd { m0 with a := 8, width := 2, scope := 6 },
     .lse hd { m0 with a := 8, width := 2, scope := 1, op := 8 }, .stl hd { m0 with a := 8, width := 2, scope := 1 },
     .lsend hd { m0 with a := 8, order := 1, scope := 1 }, .lsend hd { m0 with a := 8, order := 2 }, .fence hd { m0 with order := 0, scope := 1 },
     .fence hd { m0 with order := 3, scope := 0 }, .fence hd { m0 with order := 3, scope := 4, op := 1 }, .rgn hd { m0 with kA := .scl, order := 3, scope := 4 },
     .rgn hd { m0 with kA := .scl, order := 3, scope := 5, op := 3 }, .csrr hd { m0 with width := 3, off := 0x10 }, .csrr hd { m0 with width := 2, off := 5 },
     .csrr hd { m0 with width := 2, op := 1, off := 0 }, .csrw hd { m0 with d := 1, width := 2, off := 0x10 }, .tinv hd { m0 with scope := 4 },
     .tinv hd { m0 with scope := 5, op := 3 }, .pmig hd { m0 with a := 8, op := 2 }] = true := by decide
/-- 03 R91, 04 R107-R118, 06 R204-R212: format C. -/
theorem test_refused_control : allRefused
    [.nop hd { c0 with d := 1 }, .nop hd { c0 with off := 1 }, .bra hd { c0 with weir := 1 }, .bra hd { c0 with mods := 1 },
     .brx hd { c0 with a := 9 }, .brx hd { c0 with a := 8, kA := .imm }, .brs hd { c0 with a := 8 }, .brs hd { c0 with kA := .scl, mods := 3 * 2 ^ 17 },
     .brs hd { c0 with kA := .scl, mods := 1 }, .call hd { c0 with d := 5 }, .ret hd { c0 with a := 8, off := 1 }, .exit hd { c0 with mods := 1 },
     .sleep hd { c0 with mods := 2 ^ 18 + 1 }, .sleep hd { c0 with a := 1 }, .trap hd { c0 with mods := 2 ^ 16 }, .bar hd { c0 with mods := 32 },
     .bara hd { c0 with mods := 16 }, .wdecl hd { c0 with kA := .scl, weir := 16, wv := true }, .wdecl hd { c0 with kA := .scl },
     .wsign hd c0, .wjoin hd { c0 with d := 8, wv := true }, .tkwait hd c0, .spawn hd { c0 with kA := .scl, mods := 16 },
     .pdiss hd { c0 with weir := 1 }, .halt hd { c0 with off := 1 }, .dbrk hd { c0 with mods := 2 ^ 16 }] = true := by decide
/-- 03 R92, 06 R196, 07 R213-R226, 08 R235: format X. -/
theorem test_refused_engines : allRefused
    [.mma hd { x0 with sfmt := 2, tfmt := 0x20 }, .mma hd { x0 with sfmt := 2, tfmt := 2, kS := 159 }, .mma hd { x0 with sfmt := 2, tfmt := 2, mods := 1 },
     .mma hd { x0 with sfmt := 0x20, tfmt := 0x20, mods := 4 }, .mma hd { x0 with sfmt := 0x20, tfmt := 0x20, mods := 5, kS := 1 },
     .mma hd { x0 with sfmt := 0x20, tfmt := 0x20, mods := 5, eng := 1 }, .mma hd { x0 with sfmt := 2, tfmt := 2, weir := 1 },
     .mma hd { x0 with sfmt := 2, tfmt := 2, tok := 1 }, .mma hd { x0 with sfmt := 2, tfmt := 2, mods := 0x80, tok := 160 },
     .mld hd { x0 with tfmt := 1 }, .mld hd { x0 with tfmt := 2, rowBase := 1 }, .mswp hd { x0 with kP := 1 }, .mguide hd { x0 with sfmt := 1 },
     .accz hd { x0 with kQ := 1 }, .accrd hd { x0 with sfmt := 4 }, .accrd hd { x0 with sfmt := 1, mods := 0x20 }, .accwr hd { x0 with sfmt := 2 },
     .acc2s hd { x0 with sfmt := 1, kS := 1 }, .scld hd { x0 with sfmt := 0x20 }, .cpy hd { x0 with mods := 4, kP := 1, kQ := 1 },
     .cpy hd { x0 with rows := 1 }, .cpy2d hd { x0 with kS := 158 }, .gath hd { x0 with mods := 4 }, .scat hd { x0 with mods := 2 },
     .qdual hd { x0 with sfmt := 1, tfmt := 2, mods := 6 }, .cast hd { x0 with mods := 6, sfmt := 5 }, .cast hd { x0 with mods := 0x2E, sfmt := 1, tfmt := 1 },
     .cast hd { x0 with mods := 2, sfmt := 1, tfmt := 1 }, .rsmp { hd with guard := 0 } x0, .rsmp hd { x0 with wv := true },
     .mred hd { x0 with eng := 2, sfmt := 1 }, .mred hd { x0 with sfmt := 1, mods := 3 }, .mred hd { x0 with sfmt := 1, mods := 8, rows := 0x40 },
     .mred hd { x0 with sfmt := 1, kP := 1 }, .mred hd { x0 with sfmt := 1, mods := 4, rows := 5, kS := 1 }] = true := by decide
/-- Events name parts the device has; an assigned opcode is no illegal instruction (03 R94). -/
theorem test_refused_events : allRefused
    [.coreLeave Config.numCores, .jobComplete 0 4, .matrixComplete 0 4, .weirTimeout 0 0 16, .quantumExpiry 0 Config.slotsPerCore,
     .queueWake Config.numQueues, .queueTableWrite 0 4 0, .haltResume (Config.numCores * Config.slotsPerCore), .halfWidthRequest 256 0,
     .hostMemRead (2 ^ 41) 1, .endToEndAck 256 0, .flitRetry 20, .illegalInstruction 0] = true := by decide

/-! ### Witnesses: a step, and decoding. -/

/-- The state that issues NOP next. -/
def placed : State := State.reset.withFetchWord 96 0x0001C0000000000000000000
theorem witness_StepRunsDecoded_issue :
    placed.agenda = [.issue 0 1] ∧
    (let s0 := { placed with agenda := [] }
     let g := (tfind placed.groups 1).getD (group [])
     let r := fetchGroup s0 g
     let i := match r.1 with | .ok l => decodeSlot (l.extractLsb' (96 * pcSlot g.pc) 96) | _ => .illegalInstruction 0
     let s3 := r.2.mergeHere 1 g
     (tfind placed.groups 1).isSome = true ∧ mayIssue s0 0 g = true ∧ issuePart s0 g = g.members ∧ (useOf s0 0 0).issuers.length < 2 ∧
       (match r.1 with | .ok l => lineTarget l (pcSlot g.pc) | _ => false) = true ∧ i = .nop { hd with stall := 0 } c0 ∧
       (tfind s3.groups 1).any (fun x => mayIssue s3 0 x && freshIssue s3 0 1 0 x) = true ∧ hasRoom s3 0 0 i = true ∧
       (match exec i { s3 with cur := some (0, 1) } with | .next _ => true | _ => false) = true) := by
  refine ⟨by decide, ?_⟩
  decide +kernel

/-! ### Results that the spec states. -/

/-- What core 0's gang reads next from a vector register, predicate or scalar register after `i` issues in `one` with these
vector registers, predicates and scalar registers: the value of the write that is under way. -/
def after (i : Instr) (v : Tab W32) (p : BitVec 7 := 0) (k : Tab W32 := []) : Lane × Gang :=
  match exec i (demo [0] { fetchLane with v := v, p := p } { fetchGang with k := k }) with
  | .next t => (t.lane 0, t.gang 0)
  | _ => (Lane.reset, Gang.reset)
def getsV (i : Instr) (v : Tab W32) (r : Nat) (p : BitVec 7 := 0) : Option (W32 × Nat) :=
  ((after i v p).1.pend.find? (fun x => x.reg == .v r || x.reg == .p r)).map (fun x => (x.value, x.due))
def getsK (i : Instr) (k : Tab W32) (r : Nat) : Option W32 := ((after i [] 0 k).2.kpend.find? (fun x => x.reg == r)).map (fun x => x.value)

/-- 05 R131: 3 - 10 in .n16, saturated and not. -/
theorem test_isub_saturates :
    getsV (.isub hd { fs32 with d := 5, a := 5, b := 6, ty := 1, sat := true }) [(5, 3), (6, 10)] 5 = some (0, 4) ∧
    getsV (.isub hd { fs32 with d := 5, a := 5, b := 6, ty := 1 }) [(5, 3), (6, 10)] 5 = some (0xFFF9, 4) := by decide
/-- 05 R132: a 64-bit sum carries out of the pair. -/
theorem test_iaddx_carries :
    getsV (.iaddx hd { a0 with d := 4, a := 8, b := 10, ty := 3, mods := 0b001111 }) [(8, 0xFFFFFFFF), (9, 0xFFFFFFFF), (10, 1)] 4 = some (0, 4) ∧
    getsV (.iaddx hd { a0 with d := 4, a := 8, b := 10, ty := 3, mods := 0b001111 }) [(8, 0xFFFFFFFF), (9, 0xFFFFFFFF), (10, 1)] 1 = some (1, 4) := by decide
/-- 05 R134: the high half of the square of -2^31 is 2^30. -/
theorem test_imulh_signed : getsV (.imulh hd fs32) [(1, 0x80000000), (2, 0x80000000)] 3 = some (0x40000000, 6) := by decide
/-- 05 R148: the selectors 0x5140 and 0x8810. -/
theorem test_bswz_interleaves :
    getsV (.bswz hd { fb32 with c := 4 }) [(1, 0x44332211), (2, 0x88776655), (4, 0x5140)] 3 = some (0x66225511, 4) ∧
    getsV (.bswz hd { fb32 with c := 4 }) [(1, 0x44332211), (2, 0x88776655), (4, 0x8810)] 3 = some (0x00002211, 4) := by decide
/-- 03 R81, R86: 1.0 + 2.0, readable five cycles of stall later. -/
theorem test_fadd_adds : getsV (.fadd hd { fw32 with b := 5 }) [(1, 0x3F800000), (5, 0x40000000)] 4 = some (0x40400000, 5) := by decide
/-- Scalar sums clamp to the type. -/
theorem test_sadd_saturates :
    getsK (.sadd hd { fsc with sat := true }) [(8, 0xFFFFFFFF), (10, 1)] 4 = some 0xFFFFFFFF ∧
    getsK (.ssub hd { fsc with sat := true }) [(10, 1)] 4 = some 0 ∧ getsK (.ssub hd fsc) [(10, 1)] 4 = some 0xFFFFFFFF := by decide
/-- 02 R57's table: 0.3 in FP32 to binary8p4 to nearest and with two draws; 300.0 to infinity, to the largest value, and to NaN. -/
theorem test_binary8_rounds :
    b8Round 0x23 0 0 false (foperand f32 false 0x3E99999A) = 0x32 ∧ b8Round 0x23 4 0x40000000 false (foperand f32 false 0x3E99999A) = 0x32 ∧
    b8Round 0x23 4 0xC0000000 false (foperand f32 false 0x3E99999A) = 0x31 ∧ b8Round 0x23 0 0 false (foperand f32 false 0x43960000) = 0x7F ∧
    b8Round 0x23 0 0 true (foperand f32 false 0x43960000) = 0x7E ∧ b8Round 0x2B 0 0 false (foperand f32 false 0x43960000) = 0x80 := by decide
/-- 08 R234 with 02 R53: 0.3125 = 1.25 × 2^-2 in binary8p3, and 0.28125 to 0.25, the tie to the even code. -/
theorem test_binary8_converts :
    b8Round 0x22 0 0 false (b8Decode 0x23 0x32) = 0x39 ∧ b8Round 0x22 0 0 false (b8Decode 0x23 0x31) = 0x38 := by decide
/-- 12 R316: the indices of VA 0x45_6789_0000. -/
theorem test_va_indices : [3, 2, 1, 0].map (vaIndex 0x4567890000) = [0, 4, 0x159, 0x389] := by decide

/-! ### Witnesses: fetch from memory, a scheduled event, an empty schedule, decoding. -/

/-- A line of NOPs at PA 0x20000, its parity and format right. -/
def inMemory : State := { one with mem := ((leBytes 64 nopLine.toNat).zip (List.range 64)).filterMap (fun p =>
  if p.1 == 0 then none else some (0x20000 + p.2, p.1)) }
def fetcher : Who := { core := 0, walkbase := 0, asid := 0, prv := true }
theorem witness_StepRunsDecoded_line :
    pcOk 0x10000 = true ∧ translate inMemory fetcher (0x10000 - BitVec.ofNat 64 0) .fetch = (.ok 0x20000 0x200FF, (translate inMemory fetcher 0x10000 .fetch).2) ∧
    (let s1 := (translate inMemory fetcher 0x10000 .fetch).2
     tfind (s1.core 0).icache (0x20000 / 64) = none ∧ s1.failed = [] ∧ s1.record (0x20000 / 128) = none ∧ tfind s1.drains (0x20000 / 128) = none ∧
       (BitVec.ofNat 512 (s1.natAt 0x20000 64) : Line) = nopLine) ∧
    lineParityOk nopLine = true ∧ lineFormatOk nopLine = true ∧ Memory.wf inMemory.mem := by decide +kernel
theorem witness_StepRunsDecoded_event : hdrOfInstr .queuePoll = none ∧ Instr.queuePoll.wellFormed = true ∧
    (match exec .queuePoll State.reset with | .next _ => true | _ => false) = true ∧
    State.reset.agenda = [] ∧ State.reset.turn = [] ∧ State.reset.heldIssues = [] := by decide
theorem witness_DecodeEncode : Instr.wellFormed (.isad hd { fs32 with c := 4 }) = true ∧
    (encode (.isad hd { fs32 with c := 4 })).isSome = true ∧ hdrOfInstr (.isad hd { fs32 with c := 4 }) = some hd ∧
    12 ≤ (List.replicate 14 (0x80 : Byte)).length ∧ ([1, 2] : List Byte).length < 12 := by decide

end Sys2Proof.Tests
end

section
/-!
THE FETCH OF STEP_RUNS_DECODED. A drain of another line, which makes room for a release record of the fetched line (10 R285),
holds the fetch back as a drain of the line itself does.
-/

namespace Sys2Proof.Machine

open State

/-- A read at the home waits while a drain has to end before it. -/
theorem homeReady_of_drainFor {s : State} {line : Nat} (h : ((s.startDrain line).drainFor line).isSome = true) :
    (s.homeReady line).1 = false := by
  simp only [homeReady, h, if_true]
/-- A fetch that misses the instruction cache waits while its home cannot serve the line. -/
theorem fetchLine_waits {s s1 : State} {w : Who} {pc pte : W64} {key : Nat}
    (ht : translate s w (pc - BitVec.ofNat 64 (pc.toNat % 64)) .fetch = (.ok key pte, s1))
    (hc : tfind (s1.core w.core).icache (key / 64) = none) (hr : (s1.homeReady (key / 128)).1 = false) :
    (fetchLine s w pc).1 = .wait := by
  simp only [fetchLine, ht, hc, hr, Bool.not_false, if_true]

/-- Core 0 translates VA 0x10000 to PA 0x20000, where memory holds a line of zeros, and a drain of line 0 makes room for a
release record of core 1 for that line, 0x400. -/
def roomDrain : State :=
  { State.reset with
    cores := [(0, { Core.reset with tlb := [{ asid := 0, level := 0, vpn := 1, pte := 0x200FF, pteAt := 0 }] })]
    drains := [(0, { await := [2], reads := [], regs := [(0x400, 1, 0)] })] }
/-- Supervisor code of core 0 in address space 0. -/
def roomReader : Who := { core := 0, walkbase := 0, asid := 0, prv := true }

theorem translate_roomDrain : translate roomDrain roomReader 0x10000 .fetch = (.ok 0x20000 0x200FF, roomDrain) := by decide +kernel
theorem natAt_roomDrain : roomDrain.natAt 0x20000 64 = 0 := by decide
theorem lineOk_zero : lineParityOk 0 = true ∧ lineFormatOk 0 = true := by decide +kernel

/-- Refutes O58, in its second clause: memory holds a well-formed line, and neither a record nor a drain of it stands at its
home, but the fetch waits for the drain of another line, which makes room for the line's record (10 R285). -/
theorem not_stepRunsDecoded : ¬ Obligations.StepRunsDecoded := by
  unfold Obligations.StepRunsDecoded
  rintro ⟨-, hfetch, -⟩
  have hline : (BitVec.ofNat 512 (roomDrain.natAt 0x20000 64) : Line) = 0 := by rw [natAt_roomDrain]; rfl
  obtain ⟨t, ht⟩ := hfetch roomDrain roomDrain roomReader 0x10000 0x20000 0x200FF (by decide) rfl translate_roomDrain rfl rfl rfl
    (by rw [hline]; exact lineOk_zero.1) (by rw [hline]; exact lineOk_zero.2)
  have hwait : (fetchLine roomDrain roomReader 0x10000).1 = .wait :=
    fetchLine_waits translate_roomDrain rfl (homeReady_of_drainFor rfl)
  rw [ht] at hwait
  cases hwait

end Sys2Proof.Machine
end

section
/-!
SCRATCH ACCESSES. What a scratch access leaves of the groups, and where the threads of one that passes its checks go.
-/

namespace Sys2Proof.Machine

open State

/-! ### What an effect leaves of the groups. -/

/-- Every group, every gang's residence and every thread's life stay: an issuing group stands after it as before. -/
structure Steady (s t : State) : Prop where
  groups : t.groups = s.groups
  gangs : ∀ n, (tfind t.gangs n).isSome = (tfind s.gangs n).isSome
  live : ∀ u, (t.lane u).live = (s.lane u).live
theorem Steady.refl (s : State) : Steady s s := ⟨rfl, fun _ => rfl, fun _ => rfl⟩
theorem Steady.trans {s t u : State} (h : Steady s t) (k : Steady t u) : Steady s u :=
  ⟨k.groups.trans h.groups, fun n => (k.gangs n).trans (h.gangs n), fun x => (k.live x).trans (h.live x)⟩
theorem Steady.stands {s t : State} {gid : Nat} {g : Group} (h : Steady s t) (k : Stands s gid g) : Stands t gid g :=
  k.of_eq h.groups h.gangs h.live
/-- An effect on other parts of the state. -/
theorem Steady.of_eq {s t : State} (hg : t.groups = s.groups) (hk : t.gangs = s.gangs) (hl : t.lanes = s.lanes) : Steady s t :=
  ⟨hg, fun _ => by rw [hk], fun _ => by unfold State.lane; rw [hl]⟩
theorem steady_foldl {α : Type} (f : State → α → State) (h : ∀ s a, Steady s (f s a)) (l : List α) (s : State) :
    Steady s (l.foldl f s) := by
  induction l generalizing s with
  | nil => exact .refl s
  | cons a l ih => exact (h s a).trans (ih _)
theorem steady_modGang (s : State) (n : Nat) (f : Gang → Gang) : Steady s (s.modGang n f) :=
  ⟨by simp, fun m => isSome_modGang s n m f, fun u => by unfold State.lane; simp⟩
theorem steady_modLane (s : State) (u : Nat) (f : Lane → Lane) (h : (f (s.lane u)).live = (s.lane u).live) :
    Steady s (s.modLane u f) := by
  refine ⟨rfl, fun _ => rfl, fun v => ?_⟩
  rw [lane_modLane]
  split
  · next e => rw [e, h]
  · rfl
theorem Lane.write_live (l : Lane) (r : RegRef) (x : W32) (lat : Option Nat) : (l.write r x lat).live = l.live :=
  show (l.write r x lat).rest.live = l.rest.live from congrArg Lane.live (Lane.write_rest l r x lat)
theorem steady_writeKs (s : State) (ts : List Nat) (slot : Nat) (lat : Option Nat) (d : Nat) (ws : List W32) :
    Steady s (s.writeKs ts slot lat d ws) := by
  have h := writeKs_frame s ts slot lat d ws
  exact ⟨by rw [h], isSome_writeKs s ts slot lat d ws, fun u => by rw [h]; rfl⟩
theorem steady_writeVs (s : State) (u : Nat) (lat : Option Nat) (d : Nat) (ws : List W32) : Steady s (s.writeVs u lat d ws) := by
  induction ws generalizing s d with
  | nil => exact .refl s
  | cons x xs ih => exact (steady_modLane s u _ (Lane.write_live ..)).trans (ih _ _)
/-- A load's value changes registers only. -/
theorem steady_deliver (s : State) (l : LaneLoad) (x : Nat) : Steady s (s.deliver l x) := by
  unfold State.deliver
  simp only []
  split
  · exact (steady_modGang ..).trans (steady_writeKs ..)
  · split
    · exact .refl s
    · exact (steady_modLane _ _ _ rfl).trans (steady_writeVs ..)
/-- A write in scratch changes a block's bytes and the failed words. -/
theorem steady_scratchWrite (s : State) (slot off : Nat) (bs : List Byte) : Steady s (s.scratchWrite slot off bs) := by
  unfold State.scratchWrite
  simp only []
  split <;> exact .of_eq rfl rfl rfl

/-! ### The checks of scratch accesses. -/

/-- A pass over lanes that refuses none collects what it finds for each. -/
theorem foldl_collect {α β γ : Type} (step : List β × List γ → α → List β × List γ) (k : α → β) (l : List α) (p : List β × List γ)
    (h : ∀ a ∈ l, ∀ p, step p a = (p.1 ++ [k a], p.2)) : l.foldl step p = (p.1 ++ l.map k, p.2) := by
  induction l generalizing p with
  | nil => simp
  | cons a l ih =>
    rw [List.foldl_cons, h a List.mem_cons_self, ih _ fun b hb => h b (List.mem_cons_of_mem _ hb)]
    simp
/-- The lanes of a scratch access that pass its checks, with their offsets, and no fault (01 R29). -/
theorem scratchLanes_pass {s : State} {cx : Ctx} {f : FmtM} {ts : List Nat} {index off : Nat → Nat} {reads : Bool}
    (h : s.InScratch cx f index reads ts off) :
    scratchLanes s cx f ts (accessBytes f) index reads = (ts.map (fun u => (u, off u)), []) := by
  refine foldl_collect _ (fun u => (u, off u)) ts ([], []) fun u hu p => ?_
  obtain ⟨hcheck, hsound⟩ := h u hu
  have hfail : (reads && s.scratchFailed (slotOf u) (off u) (accessBytes f)) = false := by cases reads <;> simp_all
  simp only [hcheck, hfail, Bool.false_eq_true, if_false]
/-- The lanes of a formatted scratch access that pass its checks, with their offsets and tags, and no fault (01 R29, 06 R178). -/
theorem formatScratch_pass {s : State} {cx : Ctx} {f : FmtM} {off : Nat → Nat} {reads : Bool}
    (h : s.FormatInScratch cx f reads cx.act off) :
    formatScratch s cx f reads = (cx.act.map (fun u => (u, off u, s.scratchTag (slotOf u) (off u))), []) := by
  refine foldl_collect _ (fun u => (u, off u, s.scratchTag (slotOf u) (off u))) cx.act ([], []) fun u hu p => ?_
  obtain ⟨hoff, htag, halign, hend, hstart, hsound⟩ := h u hu
  have hin : (decide ((off u : Int) < 0) || decide (((s.headerOf (slotOf u)).scratch : Int) ≤ off u)) = false := by simp; omega
  have hlast : ¬ (s.headerOf (slotOf u)).scratch < off u + max 1 (elemSize (s.scratchTag (slotOf u) (off u))) := by omega
  have hfail : (reads && s.scratchFailed (slotOf u) (off u) (elemSize (s.scratchTag (slotOf u) (off u)))) = false := by
    cases reads <;> simp_all
  simp only [hoff, hin, Int.toNat_natCast, hlast, beq_false_of_ne htag, halign, bne_self_eq_false, hfail, Bool.false_eq_true, if_false]
/-- Threads whose earlier accesses are complete as far as the write needs it do not wait (09 R260). -/
theorem scratchOrder_go {s : State} {cx : Ctx} {f : FmtM} {ts : List Nat} (go : State → State × List (Nat × Disp))
    (h : ∀ u ∈ ts, s.readsQuiet u = true ∧ (memRel f = true → s.threadQuiet u = true)) : scratchOrder s cx f ts go = go s := by
  have hr : ts.all s.readsQuiet = true := List.all_eq_true.mpr fun u hu => (h u hu).1
  have hq : (memRel f && !ts.all s.threadQuiet) = false := by
    cases hf : memRel f with
    | false => rfl
    | true => simp only [List.all_eq_true.mpr fun u hu => (h u hu).2 hf, Bool.not_true, Bool.and_false]
  simp only [scratchOrder, hr, hq, Bool.not_true, Bool.or_self, Bool.false_eq_true, if_false]

/-! ### The effects. -/

theorem loadScratch_pass {s : State} {cx : Ctx} {f : FmtM} {ts : List Nat} {index off : Nat → Nat} (scalar : Bool) (conv : LoadConv)
    (h : s.InScratch cx f index true ts off) :
    loadScratch s cx f ts scalar conv index = (ts.foldl (fun s' u => s'.deliver (loadOf f scalar conv ⟨u, 0, 0, 0⟩)
      (s.scratchRead (slotOf u) (off u) (accessBytes f))) s, []) := by
  simp only [loadScratch, scratchLanes_pass h, List.foldl_map, loadOf]
theorem storeScratch_pass {s : State} {cx : Ctx} {f : FmtM} {ts : List Nat} {index off : Nat → Nat} (data : Nat → Nat)
    (h : s.InScratch cx f index false ts off)
    (hq : ∀ u ∈ ts, s.readsQuiet u = true ∧ (memRel f = true → s.threadQuiet u = true)) :
    storeScratch s cx f ts data index =
      (ts.foldl (fun s' u => s'.scratchWrite (slotOf u) (off u) (leBytes (accessBytes f) (data u))) s, []) := by
  simp only [storeScratch, scratchLanes_pass h, scratchOrder_go _ hq, List.foldl_map]

/-- An instruction whose effect leaves the groups, and stops no thread, goes on to the next slot. -/
theorem issue_next {s s1 : State} {i : Instr} {h : Hdr} {c gid : Nat} {g : Group} {body : Ctx → State → State × List (Nat × Disp)}
    (hc : Clear s i h c gid g) (hb : body (s.issueCtx i h c gid g) s = (s1, [])) (hs : Steady s s1) :
    ∃ t, runInstr i s body = .next t ∧ GoesTo s1 t i h gid g (nextPc g.pc) .ready false :=
  issue_goes s s1 i h c gid g body [] .seq (nextPc g.pc, .ready, false) hc hb (hs.stands hc.stands) (fun _ _ => rfl) rfl rfl

/-- LD, LDS and SLD of scratch deliver what stands at each thread's offset (06 R173, R179, 04 R124). -/
theorem scratchLoad_goes {i : Instr} {r : ScratchRow} (hr : scratchLoadRow i = some r) (s : State) (c gid : Nat) (g : Group)
    (off : Nat → Nat) :
    let cx := s.issueCtx i r.h c gid g
    let ts := if r.scalar then [issuer cx] else cx.act
    Clear s i r.h c gid g → cx.act ≠ [] → s.InScratch cx r.f (r.index s cx) true ts off →
    let s1 := ts.foldl (fun s' u => s'.deliver (loadOf r.f r.scalar r.conv ⟨u, 0, 0, 0⟩)
      (s.scratchRead (slotOf u) (off u) (accessBytes r.f))) s
    ∃ t, exec i s = .next t ∧ GoesTo s1 t i r.h gid g (nextPc g.pc) .ready false := by
  intro cx ts hc ha hin s1
  have hs : Steady s s1 := steady_foldl _ (fun s' u => steady_deliver s' _ _) ts s
  cases i <;> simp only [scratchLoadRow, reduceCtorEq] at hr
  case ld h f =>
    split at hr <;> cases hr
    next hspace =>
    refine issue_next hc ?_ hs
    simp only [hspace, beq_self_eq_true, if_true]
    exact loadScratch_pass false (ldConv f) hin
  case lds h f =>
    cases hr
    exact issue_next hc (loadScratch_pass false (ldConv f) hin) hs
  case sld h f =>
    split at hr <;> cases hr
    next hspace =>
    have he : (s.issueCtx (.sld h f) h c gid g).act.isEmpty = false := List.isEmpty_eq_false_iff.mpr ha
    refine issue_next hc ?_ hs
    simp only [he, beq_false_of_ne hspace, Bool.false_eq_true, if_false]
    exact congrArg (wholeGroup cx) (loadScratch_pass true .zext hin)
/-- ST, STS and SST of scratch write at each thread's offset, lowest lane first (06 R174, R179, 04 R124). -/
theorem scratchStore_goes {i : Instr} {r : ScratchStoreRow} (hr : scratchStoreRow i = some r) (s : State) (c gid : Nat) (g : Group)
    (off : Nat → Nat) :
    let cx := s.issueCtx i r.h c gid g
    let ts := if r.scalar then [issuer cx] else cx.act
    Clear s i r.h c gid g → cx.act ≠ [] → s.InScratch cx r.f (r.index s cx) false ts off →
    (∀ u ∈ ts, s.readsQuiet u = true ∧ (memRel r.f = true → s.threadQuiet u = true)) →
    let s1 := ts.foldl (fun s' u => s'.scratchWrite (slotOf u) (off u) (leBytes (accessBytes r.f) (r.data s cx u))) s
    ∃ t, exec i s = .next t ∧ GoesTo s1 t i r.h gid g (nextPc g.pc) .ready false := by
  intro cx ts hc ha hin hq s1
  have hs : Steady s s1 := steady_foldl _ (fun s' u => steady_scratchWrite s' _ _ _) ts s
  cases i <;> simp only [scratchStoreRow, reduceCtorEq] at hr
  case st h f =>
    split at hr <;> cases hr
    next hspace =>
    refine issue_next hc ?_ hs
    simp only [beq_false_of_ne hspace, Bool.false_eq_true, if_false]
    exact storeScratch_pass _ hin hq
  case sts h f =>
    cases hr
    exact issue_next hc (storeScratch_pass _ hin hq) hs
  case sst h f =>
    split at hr <;> cases hr
    next hspace =>
    have he : (s.issueCtx (.sst h f) h c gid g).act.isEmpty = false := List.isEmpty_eq_false_iff.mpr ha
    refine issue_next hc ?_ hs
    simp only [he, beq_false_of_ne hspace, Bool.false_eq_true, if_false]
    exact congrArg (wholeGroup cx) (storeScratch_pass _ hin hq)
/-- LDF of scratch delivers each thread's element in the format of its segment's tag (06 R178). -/
theorem scratchLdf_goes (h : Hdr) (f : FmtM) (s : State) (c gid : Nat) (g : Group) (off : Nat → Nat) (hspace : f.space = 1) :
    let tag := fun u => s.scratchTag (slotOf u) (off u)
    let cx := s.issueCtx (.ldf h f) h c gid g
    Clear s (.ldf h f) h c gid g → s.FormatInScratch cx f true cx.act off →
    let s1 := cx.act.foldl (fun s' u => s'.deliver { thread := u, dst := f.d.toNat, scalar := false, key := 0
                                                     size := elemSize (tag u), conv := .fmt (tag u) none }
      (s.scratchRead (slotOf u) (off u) (elemSize (tag u)))) s
    ∃ t, exec (.ldf h f) s = .next t ∧ GoesTo s1 t (.ldf h f) h gid g (nextPc g.pc) .ready false := by
  intro tag cx hc hin s1
  have hf : formatScratch s (s.issueCtx (.ldf h f) h c gid g) f true = _ := formatScratch_pass hin
  refine issue_next hc ?_ (steady_foldl _ (fun s' u => steady_deliver s' _ _) cx.act s)
  simp only [hspace, beq_self_eq_true, if_true, hf, List.foldl_map]
  rfl
/-- STF of scratch writes each thread's element in the format of its segment's tag (06 R178). -/
theorem scratchStf_goes (h : Hdr) (f : FmtM) (s : State) (c gid : Nat) (g : Group) (off : Nat → Nat) (hspace : f.space = 1) :
    let tag := fun u => s.scratchTag (slotOf u) (off u)
    let cx := s.issueCtx (.stf h f) h c gid g
    Clear s (.stf h f) h c gid g → s.FormatInScratch cx f false cx.act off →
    (∀ u ∈ cx.act, s.readsQuiet u = true ∧ (memRel f = true → s.threadQuiet u = true)) →
    let s1 := cx.act.foldl (fun s' u => s'.scratchWrite (slotOf u) (off u)
      (stfBytes (tag u) (f.op.toNat % 8) (f.op.getLsbD 3) (s.fieldValue cx f.kB f.b 1 u))) s
    ∃ t, exec (.stf h f) s = .next t ∧ GoesTo s1 t (.stf h f) h gid g (nextPc g.pc) .ready false := by
  intro tag cx hc hin hq s1
  have hf : formatScratch s (s.issueCtx (.stf h f) h c gid g) f false = _ := formatScratch_pass hin
  refine issue_next hc ?_ (steady_foldl _ (fun s' u => steady_scratchWrite s' _ _ _) cx.act s)
  simp only [hspace, beq_self_eq_true, if_true, hf]
  refine (scratchOrder_go _ hq).trans ?_
  simp only [List.foldl_map]
  rfl

/-- Settles O21: the lanes pass their checks, so the effect is the fold over them, and it leaves the groups as they are. -/
theorem scratchAccesses : Obligations.ScratchAccesses :=
  ⟨fun _ _ hr => scratchLoad_goes hr, fun _ _ hr => scratchStore_goes hr, fun h f s c gid g off hspace =>
    ⟨scratchLdf_goes h f s c gid g off hspace, scratchStf_goes h f s c gid g off hspace⟩⟩

end Sys2Proof.Machine
end

section
/-!
WHAT THE EFFECTS OF ONCE_INSTRUCTIONS LEAVE OF THE GROUPS. Caches, the network, tokens and locks change, the groups do not.
-/

namespace Sys2Proof.Machine

open State

/-! ### L1 and write-backs. -/

theorem Looked.steady {s t : State} (h : Looked s t) : Steady s t := .of_eq (by rw [h.frame]) (by rw [h.frame]) (by rw [h.frame])
theorem steady_modCore (s : State) (c : Nat) (f : Core → Core) : Steady s (s.modCore c f) := .of_eq rfl rfl rfl
theorem steady_send (s : State) (m : Msg) : Steady s (s.send m).2 := .of_eq rfl rfl rfl
theorem steady_pruneL1 (s : State) (c : Nat) : Steady s (s.pruneL1 c) := by
  unfold State.pruneL1
  split
  · exact .refl s
  · exact .of_eq rfl rfl rfl
theorem steady_replaceL1 (s : State) (c line : Nat) : Steady s (s.replaceL1 c line) := (steady_modCore ..).trans (steady_pruneL1 ..)
theorem steady_dropScales (s : State) (c : Nat) : Steady s (s.dropScales c) := by
  unfold State.dropScales
  split
  · exact .refl s
  · exact steady_modCore ..
theorem steady_loseBytes (s : State) (c line : Nat) (l : List Nat) : Steady s (s.loseBytes c line l) := by
  unfold State.loseBytes
  split
  · simp only []
    split
    · exact .refl s
    · refine Steady.trans ?_ (steady_pruneL1 ..)
      exact .of_eq rfl rfl rfl
  · exact .refl s
theorem steady_writeBack (s : State) (c line : Nat) : Steady s (s.writeBack c line).2 := by
  unfold State.writeBack
  split
  · exact .refl s
  · split
    · exact .refl s
    · exact ((steady_send ..).trans (steady_modCore ..)).trans (steady_loseBytes ..)
theorem steady_writeBackAll (s : State) (c : Nat) (lines : List Nat) : Steady s (s.writeBackAll c lines).2 := by
  suffices H : ∀ p : List Nat × State,
      Steady p.2 (lines.foldl (fun acc l => let r := acc.2.writeBack c l; (acc.1 ++ r.1, r.2)) p).2 from H ([], s)
  induction lines with
  | nil => exact fun p => .refl p.2
  | cons l ls ih => exact fun p => (steady_writeBack p.2 c l).trans (ih (p.1 ++ (p.2.writeBack c l).1, (p.2.writeBack c l).2))
theorem steady_writeBackFit (s : State) (c : Nat) (lines : List Nat) : Steady s (s.writeBackFit c lines).2 := steady_writeBackAll ..
theorem steady_evictOne (s : State) (c : Nat) (lines : List Nat) : Steady s (s.evictOne c lines) := by
  unfold State.evictOne
  simp only []
  split
  · refine Steady.trans (Steady.trans ?_ (steady_writeBack ..)) (steady_replaceL1 ..)
    exact .of_eq rfl rfl rfl
  · exact .refl s
theorem steady_makeRoom (s : State) (c line : Nat) : Steady s (s.makeRoom c line) := by
  unfold State.makeRoom
  simp only []
  split
  · exact .refl s
  · exact steady_evictOne ..
theorem steady_allocL1 (s : State) (c line : Nat) : Steady s (s.allocL1 c line).2 := by
  unfold State.allocL1
  split
  · exact .refl s
  · simp only [State.setL1]
    refine Steady.trans ?_ (steady_modCore ..)
    split
    · exact .refl s
    · exact steady_makeRoom ..
theorem steady_l1Fill (s : State) (c line off : Nat) (bs : List Byte) (a b : Bool) : Steady s (s.l1Fill c line off bs a b) := by
  unfold State.l1Fill
  exact (steady_allocL1 s c line).trans (steady_modCore ..)
theorem steady_homeReady (s : State) (line : Nat) : Steady s (s.homeReady line).2 := (looked_homeReady s line).steady
/-- A relaxed read serves itself from L1 or the home, and may fill L1. -/
theorem steady_relaxedRead (s : State) (c key n : Nat) (pte : W64) : Steady s (s.relaxedRead c key n pte).2 := by
  have hd := steady_homeReady s (key / 128)
  unfold State.relaxedRead
  simp only []
  split
  · exact .of_eq rfl rfl rfl
  · split
    · exact .refl s
    · split
      · exact .refl s
      · split
        · exact .refl s
        · split
          · exact hd
          · split
            · exact hd
            · split <;> split
              · exact hd
              · exact hd.trans (steady_l1Fill ..)
              · exact hd
              · exact hd.trans (steady_l1Fill ..)
theorem steady_dropFailed (s : State) (c key n : Nat) : Steady s (s.dropFailed c key n) := by
  unfold State.dropFailed
  simp only []
  split
  · refine Steady.trans ?_ (steady_dropScales ..)
    exact .of_eq rfl rfl rfl
  · refine Steady.trans (Steady.trans (Steady.trans ?_ (steady_dropScales ..)) (steady_modCore ..)) (steady_pruneL1 ..)
    exact .of_eq rfl rfl rfl

/-! ### Scales and the sampler. -/

theorem steady_keepScale (s : State) (c line : Nat) (bs : List Byte) : Steady s (s.keepScale c line bs) := .of_eq rfl rfl rfl
theorem steady_cachedScale (s : State) (o : Once) (va : W64) : Steady s (s.cachedScale o va).2 := by
  unfold State.cachedScale
  simp only []
  split
  · exact .refl s
  · have ht := (looked_translate s (s.who o.thread) va .read).steady
    split <;> (rename_i he; rw [he] at ht)
    case h_4 key pte s' =>
      split
      · exact ht
      · split <;> (rename_i hr; obtain ⟨-, rfl⟩ := Prod.ext_iff.mp hr)
        case h_3 => exact (ht.trans (steady_relaxedRead ..)).trans (steady_dropFailed ..)
        case h_4 =>
          dsimp only
          split
          · exact (ht.trans (steady_relaxedRead ..)).trans (steady_keepScale ..)
          · exact ht.trans (steady_relaxedRead ..)
        all_goals exact ht.trans (steady_relaxedRead ..)
    all_goals exact ht
theorem steady_cachedScales (s : State) (o : Once) (vas : List W64) : Steady s (s.cachedScales o vas).2 := by
  induction vas generalizing s with
  | nil => exact .refl s
  | cons va vs ih =>
    have h1 := steady_cachedScale s o va
    unfold State.cachedScales
    split
    · next r s1 he => rw [he] at h1; exact h1
    · next b s1 he =>
      rw [he] at h1
      have h2 := ih s1
      split
      · next r s2 hf => rw [hf] at h2; exact h1.trans h2
      · next bs s2 hf => rw [hf] at h2; exact h1.trans h2
theorem steady_countLine (s : State) (c asid : Nat) (va : W64) (key : Option Nat) (kind : Nat) (hit far : Bool) :
    Steady s (s.countLine c asid va key kind hit far) := by
  unfold State.countLine
  split
  · exact .refl s
  · simp only []
    split
    · exact steady_modCore ..
    · split <;> exact .of_eq rfl rfl rfl
theorem steady_countUses (s : State) (c a k : Nat) (us : List LineUse) : Steady s (s.countUses c a k us) := by
  unfold State.countUses
  split
  · exact .refl s
  · exact steady_foldl _ (fun _ _ => steady_countLine ..) us s
theorem steady_countSpans (s : State) (o : Once) (kind : Nat) (far : Bool) (ps : List (W64 × Span)) :
    Steady s (countSpans s o kind far ps) := by
  unfold countSpans
  split
  · exact .refl s
  · exact steady_foldl _ (fun _ _ => steady_foldl _ (fun _ _ => steady_countLine ..) _ _) ps s

/-! ### Tokens, locks and weirs. -/

theorem steady_giveToken (s : State) (o : Once) (r : Nat) (u : TokenUnit) (job : Nat) : Steady s (s.giveToken o r u job).2 := by
  unfold State.giveToken
  refine Steady.trans (Steady.trans ?_ (steady_modGang ..)) (steady_modGang ..)
  exact .of_eq rfl rfl rfl
theorem steady_tokenFor (m id : Nat) (o : Once) (s : State) : Steady s (tokenFor m id o s).2 := by
  unfold tokenFor
  split
  · split
    · exact steady_giveToken ..
    · exact .refl s
  · exact .refl s
theorem steady_lockAll (s : State) (rs : List (Nat × RegRef)) : Steady s (s.lockAll rs) := by
  unfold State.lockAll
  refine steady_foldl _ (fun s r => ?_) rs s
  exact steady_modLane s r.1 _ rfl
theorem steady_unlockAll (s : State) (rs : List (Nat × RegRef)) : Steady s (s.unlockAll rs) := by
  unfold State.unlockAll
  refine steady_foldl _ (fun s r => ?_) rs s
  exact steady_modLane s r.1 _ rfl
theorem steady_setWeir (s : State) (slot w : Nat) (x : Weir) : Steady s (s.setWeir slot w x) := steady_modGang ..
theorem steady_closeRound (s : State) (slot w : Nat) : Steady s (s.closeRound slot w) := steady_setWeir ..

/-! ### The bodies. -/

theorem steady_matrixEntry (i : Instr) (f : FmtX) (o : Once) (s : State) : Steady s (matrixEntry i f o s).2 := by
  have hscales := steady_cachedScales s o (scaleVas o.scalars (rowsOf o.scalars f.sfmt (rowCount f)))
  unfold matrixEntry
  simp only []
  split
  · exact .refl s
  · split
    · exact steady_modGang ..
    · split
      · exact .refl s
      · split
        · exact .refl s
        · split
          · exact .refl s
          · split
            · exact .refl s
            · split <;> (rename_i he; rw [he] at hscales)
              · exact hscales
              · exact hscales.trans (steady_countUses ..)
/-- An entry that lets its instruction pass changes no gang and no launch. -/
theorem kept_matrixEntry {i : Instr} {f : FmtX} {o : Once} {s u : State} {sc : List Byte}
    (h : matrixEntry i f o s = (.inr sc, u)) : Kept s u := by
  have hscales := kept_cachedScales s o (scaleVas o.scalars (rowsOf o.scalars f.sfmt (rowCount f)))
  unfold matrixEntry at h
  simp only [] at h
  split at h
  · cases h; exact .refl s
  · split at h
    · cases h
    · split at h
      · cases h
      · split at h
        · cases h
        · split at h
          · cases h
          · split at h
            · cases h; exact .refl s
            · split at h <;> cases h
              rename_i he
              rw [he] at hscales
              exact hscales.trans (kept_countUses ..)
theorem Kept.gang {s t : State} (h : Kept s t) (n : Nat) : t.gang n = s.gang n := by unfold State.gang; rw [h.gangs]
theorem Kept.headerOf {s t : State} (h : Kept s t) (n : Nat) : t.headerOf n = s.headerOf n := by
  unfold State.headerOf State.launch
  rw [h.gang, h.launches]
theorem steady_enqueue (f : FmtX) (own : PairOp) (mate : Option PairOp) (s : State) : Steady s (enqueue f own mate s) := by
  unfold enqueue
  refine Steady.trans (Steady.trans ?_ (steady_lockAll ..)) (steady_modCore ..)
  have hnext : Steady s { s with nextId := s.nextId + 1 } := .of_eq rfl rfl rfl
  cases mate with
  | none => exact hnext.trans (steady_tokenFor ..)
  | some p => exact (hnext.trans (steady_tokenFor ..)).trans (steady_tokenFor ..)
/-- An engine's instruction of a gang that is not in a pair for it. -/
theorem steady_matrixBody {i : Instr} {f : FmtX} {o : Once} {s s1 : State}
    (hp : pairedInstr (s.headerOf o.slot) i = false) (h : matrixBody i f o s = (.done, s1)) : Steady s s1 := by
  have hentry := steady_matrixEntry i f o s
  unfold matrixBody at h
  split at h <;> (rename_i he; rw [he] at hentry)
  · cases h; exact hentry
  · simp only [(kept_matrixEntry he).headerOf, hp, Bool.false_and, Bool.false_eq_true, if_false, Bool.not_false, Bool.and_true] at h
    cases h
    split
    · exact hentry.trans (steady_enqueue ..)
    · exact hentry
theorem steady_addJob (o : Once) (f : FmtX) (op : JobOp) (moves : List (Span × Span)) (reads writes : List Span)
    (offsets : List Nat) (tags : List (Nat × BitVec 6)) (pages : List (Nat × W64)) (s : State) :
    Steady s (addJob o f op moves reads writes offsets tags pages s).2 := by
  unfold addJob
  simp only []
  refine Steady.trans (Steady.trans ?_ (steady_giveToken ..)) (steady_modCore ..)
  exact .of_eq rfl rfl rfl
theorem steady_walkPiece (o : Once) (write : Bool) (acc : Walked × State) (p : W64 × Nat) :
    Steady acc.2 (walkPiece o write acc p).2 := by
  have ht := (looked_translate acc.2 (acc.2.who o.thread) p.1 (if write then .write else .read)).steady
  unfold walkPiece
  simp only []
  split
  · exact .refl _
  · split
    · exact .refl _
    · split
      · split <;> exact .refl _
      · split <;> (rename_i he; rw [he] at ht)
        case h_4 =>
          split
          · exact ht
          · split
            · exact ht
            · split <;> exact ht
        all_goals exact ht
theorem steady_mapGlobal (o : Once) (write : Bool) (rows : List (W64 × Nat)) (s : State) :
    Steady s (mapGlobal o write rows s).2 := by
  suffices H : ∀ (l : List (W64 × Nat)) (a : Walked × State), Steady a.2 (l.foldl (walkPiece o write) a).2 from H _ ({}, s)
  intro l
  induction l with
  | nil => exact fun a => .refl a.2
  | cons p l ih => exact fun a => (steady_walkPiece o write a p).trans (ih _)
theorem steady_copyOperand (o : Once) (scr write : Bool) (r stride : Nat) (mult : Nat → Nat) (n len : Nat) (s : State) :
    Steady s (copyOperand o scr write r stride mult n len s).2 := by
  unfold copyOperand
  split
  · exact .refl s
  · split
    · exact .refl s
    · exact steady_mapGlobal ..
theorem steady_copyIssue (o : Once) (f : FmtX) (n len sst dst : Nat) (ms md : Nat → Nat) (index : List Span)
    (late : Option OnceRes) (s : State) : Steady s (copyIssue o f n len sst dst ms md index late s).2 := by
  have hsrc := steady_copyOperand o f.srcScr false f.kP.toNat sst ms n len s
  have hdst := hsrc.trans (steady_copyOperand o f.dstScr true f.kQ.toNat dst md n len _)
  unfold copyIssue
  simp only []
  split
  · exact hsrc
  · split
    · exact hdst
    · split
      · exact hdst
      · refine hdst.trans (Steady.trans ?_ (steady_addJob ..))
        have hcount : ∀ (s : State) (c : Bool) (k : Nat) (r : List (W64 × Nat)) (ps : List Span),
            Steady s (if c then s else countPieces s o k r ps) := fun s c k r ps => by
          cases c
          · exact steady_countSpans ..
          · exact .refl s
        exact (hcount ..).trans (hcount ..)
theorem steady_cpyBody (f : FmtX) (o : Once) (s : State) : Steady s (cpyBody f o s).2 := by
  unfold cpyBody
  simp only []
  split
  · exact .refl s
  · exact steady_copyIssue ..
theorem steady_cpy2dBody (f : FmtX) (o : Once) (s : State) : Steady s (cpy2dBody f o s).2 := by
  unfold cpy2dBody
  simp only []
  split
  · exact .refl s
  · exact steady_copyIssue ..
theorem steady_indexBody (f : FmtX) (gather : Bool) (o : Once) (s : State) : Steady s (indexBody f gather o s).2 := by
  unfold indexBody
  simp only []
  split
  · exact .refl s
  · split
    · exact .refl s
    · split <;> exact steady_copyIssue ..
theorem steady_qdualBody (f : FmtX) (o : Once) (s : State) : Steady s (qdualBody f o s).2 := by
  unfold qdualBody
  extract_lets
  split
  · exact .refl s
  · split
    · exact .refl s
    · split
      · exact .refl s
      · exact steady_addJob ..
theorem steady_castBody (f : FmtX) (o : Once) (s : State) : Steady s (castBody f o s).2 := by
  unfold castBody
  simp only []
  split
  · exact .refl s
  · split
    · exact .refl s
    · split
      · exact .refl s
      · refine Steady.trans ?_ (steady_addJob ..)
        split
        · exact steady_modLane _ _ _ rfl
        · exact .refl s
theorem steady_mredPlace (o : Once) (va : W64) (n : Nat) (write : Bool) (s : State) : Steady s (mredPlace o va n write s).2 := by
  have ht := (looked_translate s (s.who o.thread) va (if write then .write else .read)).steady
  unfold mredPlace
  split <;> (rename_i he; rw [he] at ht)
  case h_4 =>
    simp only []
    split
    · exact ht
    · split
      · exact ht
      · split <;> exact ht
  all_goals exact ht
theorem steady_mredPlaces (o : Once) (l : List (W64 × Nat × Bool)) (s : State) : Steady s (mredPlaces o s l).2 := by
  induction l generalizing s with
  | nil => exact .refl s
  | cons x l ih =>
    obtain ⟨va, n, w⟩ := x
    have h1 := steady_mredPlace o va n w s
    unfold mredPlaces
    split
    · next he => rw [he] at h1; exact h1
    · next a s1 he =>
      rw [he] at h1
      have h2 := h1.trans (ih s1)
      split <;> (rename_i hl; rw [hl] at h2; exact h2)
theorem steady_mredSource (m : MredArgs) (o : Once) (s : State) : Steady s (mredSource m o s).2 := by
  have h1 := steady_mredPlace o m.src (m.n * m.es) false s
  unfold mredSource
  split
  · exact .refl s
  · split <;> (rename_i he; rw [he] at h1; exact h1)
theorem steady_flushAll (s : State) (c : Nat) (skip : Nat → Bool) : Steady s (s.flushAll c skip).2 := steady_writeBackFit ..
/-- An eager part that is done marks no group. -/
theorem steady_eager {s s1 : State} {c gid : Nat} {skip : Nat → Bool} (h : s.eager c gid skip = (none, s1)) : Steady s s1 := by
  unfold State.eager at h
  split at h
  · cases h; exact .refl s
  · split at h
    · cases h
    · simp only [] at h
      split at h
      · obtain ⟨-, rfl⟩ := Prod.ext_iff.mp h
        exact steady_flushAll ..
      · cases h
theorem steady_mredFlush {o : Once} {s s1 : State} (h : mredFlush o s = (none, s1)) : Steady s s1 := by
  unfold mredFlush at h
  split at h
  · split at h
    · next he => cases h; exact steady_eager he
    · cases h
    · cases h
  · obtain ⟨-, rfl⟩ := Prod.ext_iff.mp h
    exact steady_flushAll ..
theorem mredFlush_stop (o : Once) (s : State) : (mredFlush o s).1 ≠ some .done := by
  unfold mredFlush
  split
  · split <;> simp
  · simp only []
    split <;> simp
theorem steady_mredPut (f : FmtX) (m : MredArgs) (x : MredTo) (o : Once) (s : State) : Steady s (mredPut f m x o s) := by
  unfold mredPut
  extract_lets c inM srcR far regs nodes s1 s2 id t ctx op
  have hcount : Steady s s1 := steady_countSpans ..
  have hregions : Steady s1 s2 := by
    refine steady_foldl _ (fun _ _ => ?_) regs s1
    exact .of_eq rfl rfl rfl
  have htoken : Steady { s2 with nextId := id + 1 } t.2 := steady_giveToken ..
  exact ((hcount.trans hregions).trans (show Steady s2 { s2 with nextId := id + 1 } from .of_eq rfl rfl rfl)).trans
    (htoken.trans (.of_eq rfl rfl rfl))
theorem steady_mredBody {f : FmtX} {o : Once} {s s1 : State} (h : mredBody f o s = (.done, s1)) : Steady s s1 := by
  have hsrc := steady_mredSource (mredArgs f o) o s
  have hall := hsrc.trans (steady_mredPlaces o (mredArgs f o).operands _)
  unfold mredBody at h
  extract_lets m first at h
  split at h
  · cases h
  · split at h
    · cases h; exact hsrc
    · split at h <;> (rename_i he; rw [he] at hall)
      · cases h; exact hall
      · extract_lets x lines wb at h
        split at h
        · cases h; exact hall
        · split at h
          · cases h
          · split at h
            · cases h
            · have hwb : Steady s wb.2 := hall.trans (steady_writeBackFit ..)
              split at h <;> cases h <;> rename_i hf <;> split at hf
              · exact (mredFlush_stop _ _ (congrArg Prod.fst hf)).elim
              · cases hf
              · exact (hwb.trans (steady_mredFlush hf)).trans (steady_mredPut ..)
              · cases hf; exact hwb.trans (steady_mredPut ..)
      · cases h; exact hall

/-- The effect of an instruction that issues once for the gang, when it is done (01 R18). -/
theorem steady_roundBody {i : Instr} {f : FmtX} {b : OnceBody} (hb : roundBody i = some (f, b)) {o : Once} {s s1 : State}
    (hp : pairedInstr (s.headerOf o.slot) i = false) (h : b o s = (.done, s1)) : Steady s s1 := by
  have hdone : ∀ {b : OnceBody}, (∀ s, Steady s (b o s).2) → b o s = (.done, s1) → Steady s s1 := fun hs h => by
    have := hs s
    rwa [h] at this
  cases i <;> simp only [roundBody, Option.some.injEq, Prod.mk.injEq, reduceCtorEq] at hb <;> obtain ⟨rfl, rfl⟩ := hb
  case cpy => exact hdone (steady_cpyBody _ o) h
  case cpy2d => exact hdone (steady_cpy2dBody _ o) h
  case gath => exact hdone (steady_indexBody _ true o) h
  case scat => exact hdone (steady_indexBody _ false o) h
  case qdual => exact hdone (steady_qdualBody _ o) h
  case cast => exact hdone (steady_castBody _ o) h
  case mred => exact steady_mredBody h
  all_goals exact steady_matrixBody hp h

end Sys2Proof.Machine
end

section
/-!
THE ISSUE OF ONCE_INSTRUCTIONS. An instruction that issues once for the gang, alone or in a weir round (01 R18, 07 R203).
-/

namespace Sys2Proof.Machine

open State

/-- The meaning of an instruction that a round can issue is its issue once for a set of lanes. -/
theorem exec_once {i : Instr} {f : FmtX} {b : OnceBody} (hb : roundBody i = some (f, b)) (s : State) :
    exec i s = runInstr i s (issueOnce i f b) := by
  cases i <;> simp only [roundBody, Option.some.injEq, Prod.mk.injEq, reduceCtorEq] at hb <;> obtain ⟨rfl, rfl⟩ := hb <;> rfl
/-- A gang meets the loss of its partner only at a paired instruction. -/
theorem dissolvedFault_none {s : State} {i : Instr} {slot : Nat}
    (h : pairedInstr (s.headerOf slot) i = true → (s.gang slot).pair ≠ .dissolved) : s.dissolvedFault i slot = none := by
  unfold State.dissolvedFault
  cases hp : pairedInstr (s.headerOf slot) i with
  | false => rfl
  | true => simp only [beq_false_of_ne (h hp), Bool.and_false, Bool.false_eq_true, if_false]
/-- Without a weir the gang issues when all its live threads are at the instruction. -/
theorem issueOnce_gang {i : Instr} {f : FmtX} {b : OnceBody} {cx : Ctx} {s : State} (hd : s.dissolvedFault i cx.slot = none)
    (hv : f.wv = false) (ha : cx.act ≠ [] ∨ pairedInstr cx.head i = true) (hq : s.setQuiet cx i f = true) (hm : s.missing cx = []) :
    issueOnce i f b cx s = settleOnce cx (s.runOnce (s.onceOf cx i (laneMask cx.ts) (!cx.act.isEmpty) []) b) := by
  have hact : (cx.act.isEmpty && !pairedInstr cx.head i) = false := by
    rcases ha with ha | ha
    · rw [List.isEmpty_eq_false_iff.mpr ha, Bool.false_and]
    · rw [ha, Bool.not_true, Bool.and_false]
  simp only [issueOnce, hd, hv, hact, hq, hm, Bool.not_false, Bool.true_and, Bool.not_true, Bool.false_eq_true, if_false,
    List.isEmpty_nil, if_true]
/-- With a weir it signs the round. -/
theorem issueOnce_weir {i : Instr} {f : FmtX} {b : OnceBody} {cx : Ctx} {s : State} (hd : s.dissolvedFault i cx.slot = none)
    (hv : f.wv = true) (hq : s.setQuiet cx i f = true) : issueOnce i f b cx s = signRound i f b cx s := by
  simp only [issueOnce, hd, hv, hq, Bool.not_true, Bool.false_and, Bool.false_eq_true, if_false, if_true]
/-- A signature that does not complete the declared set is noted, with the registers that the round interlocks. -/
theorem signRound_open {i : Instr} {f : FmtX} {b : OnceBody} {cx : Ctx} {s : State}
    (hf : weirFault (s.weir cx.slot f.weir.toNat) (laneMask cx.ts) (some (cx.pc, i)) = false)
    (hs : (s.weir cx.slot f.weir.toNat).signed ||| laneMask cx.ts ≠ (s.weir cx.slot f.weir.toNat).declared) :
    signRound i f b cx s = ((s.lockAll (s.roundLocks cx i f)).setWeir cx.slot f.weir.toNat { s.weir cx.slot f.weir.toNat with
      signed := (s.weir cx.slot f.weir.toNat).signed ||| laneMask cx.ts, round := some (some (cx.pc, i)), state := .opened
      guardHeld := (s.weir cx.slot f.weir.toNat).guardHeld || !cx.act.isEmpty
      locked := (s.weir cx.slot f.weir.toNat).locked ++ s.roundLocks cx i f }, []) := by
  simp only [signRound, hf, Bool.false_eq_true, if_false, bne_iff_ne, ne_eq, hs, not_false_eq_true, if_true]
/-- The signature that completes it issues for the set, and the round closes. -/
theorem signRound_done {i : Instr} {f : FmtX} {b : OnceBody} {cx : Ctx} {s u : State}
    (hf : weirFault (s.weir cx.slot f.weir.toNat) (laneMask cx.ts) (some (cx.pc, i)) = false)
    (hs : (s.weir cx.slot f.weir.toNat).signed ||| laneMask cx.ts = (s.weir cx.slot f.weir.toNat).declared)
    (hr : s.runOnce (s.onceOf cx i (s.weir cx.slot f.weir.toNat).declared
      ((s.weir cx.slot f.weir.toNat).guardHeld || !cx.act.isEmpty) (s.weir cx.slot f.weir.toNat).locked) b = (.done, u)) :
    signRound i f b cx s =
      ((u.closeRound cx.slot f.weir.toNat).unlockAll (s.weir cx.slot f.weir.toNat).locked, []) := by
  simp only [signRound, hf, Bool.false_eq_true, if_false, bne_iff_ne, ne_eq, hs, not_true_eq_false, hr, settleOnce]

section
variable {i : Instr} {h : Hdr} {f : FmtX} {b : OnceBody} {s u : State} {c gid : Nat} {g : Group}

/-- A gang alone at its instruction issues it, and goes on. -/
theorem gang_goes (hb : roundBody i = some (f, b)) (hc : Clear s i h c gid g) (hp : pairedInstr (s.headerOf g.slot) i = false)
    (hq : s.setQuiet (s.issueCtx i h c gid g) i f = true) (hv : f.wv = false) (hm : s.missing (s.issueCtx i h c gid g) = [])
    (ha : (s.issueCtx i h c gid g).act ≠ [])
    (hd : b (s.onceOf (s.issueCtx i h c gid g) i (laneMask g.members) true []) s = (.done, u)) :
    ∃ t, exec i s = .next t ∧ GoesTo u t i h gid g (nextPc g.pc) .ready false := by
  rw [exec_once hb]
  refine issue_next hc ?_ (steady_roundBody hb hp hd)
  refine (issueOnce_gang (dissolvedFault_none fun k => absurd (hp.symm.trans k) (by decide)) hv (.inl ha) hq hm).trans ?_
  rw [List.isEmpty_eq_false_iff.mpr ha]
  exact congrArg (settleOnce _) hd
/-- A group that does not complete the declared set signs, and goes on. -/
theorem weir_signs (hb : roundBody i = some (f, b)) (hc : Clear s i h c gid g) (hp : pairedInstr (s.headerOf g.slot) i = false)
    (hq : s.setQuiet (s.issueCtx i h c gid g) i f = true) (hv : f.wv = true) :
    let cx := s.issueCtx i h c gid g
    let w := f.weir.toNat
    let x := s.weir g.slot w
    let locks := s.roundLocks cx i f
    weirFault x (laneMask g.members) (some (g.pc, i)) = false → x.signed ||| laneMask g.members ≠ x.declared →
    ∃ t, exec i s = .next t ∧ GoesTo ((s.lockAll locks).setWeir g.slot w
      { x with signed := x.signed ||| laneMask g.members, round := some (some (g.pc, i)), state := .opened
               guardHeld := x.guardHeld || !cx.act.isEmpty, locked := x.locked ++ locks }) t i h gid g (nextPc g.pc) .ready false := by
  intro cx w x locks hf hs
  rw [exec_once hb]
  refine issue_next hc ?_ ((steady_lockAll ..).trans (steady_setWeir ..))
  exact (issueOnce_weir (dissolvedFault_none fun k => absurd (hp.symm.trans k) (by decide)) hv hq).trans (signRound_open hf hs)
/-- The group that completes it issues for the set; the round closes and its registers are free. -/
theorem weir_goes (hb : roundBody i = some (f, b)) (hc : Clear s i h c gid g) (hp : pairedInstr (s.headerOf g.slot) i = false)
    (hq : s.setQuiet (s.issueCtx i h c gid g) i f = true) (hv : f.wv = true) :
    let cx := s.issueCtx i h c gid g
    let w := f.weir.toNat
    let x := s.weir g.slot w
    weirFault x (laneMask g.members) (some (g.pc, i)) = false → x.signed ||| laneMask g.members = x.declared →
    (x.guardHeld = true ∨ cx.act ≠ []) → b (s.onceOf cx i x.declared true x.locked) s = (.done, u) →
    ∃ t, exec i s = .next t ∧ GoesTo ((u.closeRound g.slot w).unlockAll x.locked) t i h gid g (nextPc g.pc) .ready false := by
  intro cx w x hf hs ha hd
  have hheld : (x.guardHeld || !cx.act.isEmpty) = true := by
    rcases ha with ha | ha
    · rw [ha, Bool.true_or]
    · rw [List.isEmpty_eq_false_iff.mpr ha, Bool.not_false, Bool.or_true]
  have hr : s.runOnce (s.onceOf cx i x.declared (x.guardHeld || !cx.act.isEmpty) x.locked) b = (.done, u) := by
    rw [hheld]
    exact hd
  rw [exec_once hb]
  refine issue_next hc ?_ (((steady_roundBody hb hp hd).trans (steady_closeRound ..)).trans (steady_unlockAll ..))
  exact (issueOnce_weir (dissolvedFault_none fun k => absurd (hp.symm.trans k) (by decide)) hv hq).trans (signRound_done hf hs hr)
end

end Sys2Proof.Machine
end

section
/-!
THE PAIRS OF ONCE_INSTRUCTIONS. Groups that wait or trap at an instruction as a whole, and the pair matcher (07 R215, 18 R401).
-/

namespace Sys2Proof.Machine

open State

/-! ### A whole group that waits, or traps. -/

/-- A disposition that all threads of a group share, as the end of the issue sees it. -/
theorem placesOf_map (g : Group) (d : Disp) : placesOf g (g.members.map (fun t => (t, d))) = g.members.map (fun t => (t, d)) := by
  refine placesOf_all g _ d fun t ht => ?_
  unfold dispOf
  cases hf : (g.members.map (fun u => (u, d))).find? (fun x => x.1 == t) with
  | none => exact absurd (beq_self_eq_true t) (List.find?_eq_none.mp hf _ (List.mem_map.mpr ⟨t, ht, rfl⟩))
  | some x =>
    obtain ⟨u, -, rfl⟩ := List.mem_map.mp (List.mem_of_find?_eq_some hf)
    rfl
/-- A disposition that is no exception, or one for no new error, is not logged (16 R381). -/
theorem reportErrors_map (s : State) (i : Instr) (ts : List Nat) (d : Disp)
    (h : ∀ code ea, d = .trap code ea → newError i code = false) : s.reportErrors i (ts.map (fun t => (t, d))) = s := by
  have herr : errorsOf i (ts.map (fun t => (t, d))) = [] := by
    unfold errorsOf
    induction ts with
    | nil => rfl
    | cons t ts ih =>
      rw [List.map_cons, List.foldl_cons]
      cases d with
      | trap code ea => simpa only [h code ea rfl, Bool.false_and, Bool.false_eq_true, if_false] using ih
      | _ => exact ih
  unfold State.reportErrors
  rw [herr]
  rfl
/-- A group all of whose threads stay is one group still, held back. -/
theorem dispose_stay {s : State} {gid : Nat} {g : Group} (st : Stands s gid g) (x : Status) :
    s.dispose gid g.pc (g.members.map (fun t => (t, .stay x))) =
      { s with groups := tput (tdel s.groups gid) gid (g.put (g.pc, x, g.branched)) } := by
  have hsend : ∀ (l : List Nat) (ps : List (Nat × Option (W64 × Status × Bool))),
      (l.map (fun t => (t, Disp.stay x))).foldl (send1 g.pc g.branched) { places := ps, ends := [], state := s } =
        { places := ps ++ l.map (fun t => (t, some (g.pc, x, g.branched))), ends := [], state := s } := by
    intro l
    induction l with
    | nil => intro ps; simp
    | cons t l ih =>
      intro ps
      rw [List.map_cons, List.foldl_cons]
      exact (ih _).trans (by simp)
  unfold State.dispose
  simp only [st.group, Option.any_some]
  rw [hsend, List.nil_append, regroup_one s gid g _ st.group st.some]
  rfl
theorem all_stay_ready {ts : List Nat} (h : ts ≠ []) {d : Disp} (hd : d ≠ .stay .ready) :
    (ts.map (fun t => (t, d))).all (fun x => x.2 == .stay .ready) = false := by
  obtain ⟨t, ht⟩ := List.exists_mem_of_ne_nil _ h
  exact List.all_eq_false.mpr ⟨(t, d), List.mem_map.mpr ⟨t, ht, rfl⟩, by simpa using hd⟩
/-- When every thread of the group stays, held back by `x`, the issue ends with the group there. -/
theorem finish_waits {s : State} {i : Instr} {h : Hdr} {gid : Nat} {g : Group} (st : Stands s gid g) {x : Status} (hx : x ≠ .ready) :
    Waits s (s.finish i h gid g (g.members.map (fun t => (t, .stay x)))) gid g x := by
  have hdone : doneOf (g.members.map (fun t => (t, Disp.stay x))) = [] := by
    unfold doneOf
    rw [List.filterMap_map]
    exact List.filterMap_eq_nil_iff.mpr fun _ _ => rfl
  have hall := all_stay_ready st.some (d := .stay x) (by simpa using hx)
  unfold State.finish
  simp only [placesOf_map, reportErrors_map s i g.members (.stay x) (fun _ _ h => nomatch h), dispose_stay st, hall, hdone,
    List.isEmpty_nil, Bool.false_eq_true, if_false, if_true]
  refine ⟨rfl, ?_, fun k hk => ?_⟩
  · show tfind (tput _ _ _) gid = _
    rw [tfind_tput_self]
    simp [Group.put]
  · show tfind (tput _ _ _) k = _
    rw [tfind_tput, if_neg hk, tfind_tdel, if_neg hk]
/-- When every thread of the group takes an exception that is no new error, the issue ends with the group at the handler. -/
theorem finish_traps {s s1 : State} {i : Instr} {h : Hdr} {gid : Nat} {g : Group} {vec : W64} {code : Nat} {ea : W64}
    (st : Stands s gid g) (hn : newError i code = false) (he : s.Enters g.members vec g.pc code (fun _ => ea) s1) :
    Trapped s1 (s.finish i h gid g (g.members.map (fun t => (t, .trap code ea)))) gid g vec := by
  have hdone : doneOf (g.members.map (fun t => (t, Disp.trap code ea))) = [] := by
    unfold doneOf
    rw [List.filterMap_map]
    exact List.filterMap_eq_nil_iff.mpr fun _ _ => rfl
  have hall := all_stay_ready st.some (d := .trap code ea) (fun h => nomatch h)
  have hdisp := dispose_enters s s1 gid g vec g.pc code (fun _ => ea) (fun _ => .trap code ea) (fun _ _ _ => rfl) st he
  have hrep := reportErrors_map s i g.members (.trap code ea) (fun _ _ h => by cases h; exact hn)
  unfold State.finish
  simp only [placesOf_map, hrep, hdisp, hall, hdone, List.isEmpty_nil, Bool.false_eq_true, if_false, if_true]
  exact trapped_of s1 gid g vec

/-! ### The matcher's answer. -/

/-- A group that goes on from an instruction it left behind is another than the issuing one. -/
theorem stands_finishGroup {s : State} {gid k : Nat} {g : Group} (hs : Stands s gid g) (hk : k ≠ gid) (st : Status) (stall : Nat) :
    Stands (s.finishGroup k st stall) gid g := by
  unfold State.finishGroup
  split
  · exact hs
  · next x hx =>
    have hsteady : Steady s (x.members.foldl (fun s t => s.modLane t (fun l => l.advance stall)) s) := by
      refine steady_foldl _ (fun s t => ?_) x.members s
      exact steady_modLane s t _ (Lane.advance_live ..)
    have hs1 := hsteady.stands hs
    rw [← hsteady.groups] at hx
    refine ⟨?_, fun y hy he => ?_, hs.some, hs.nodup, fun y hy he => ?_, hs1.gangs, hs1.live⟩
    · show tfind (tput _ _ _) gid = _
      rw [tfind_tput_of_ne _ _ (Ne.symm hk)]
      exact hs1.group
    · rcases mem_tput hy with rfl | hy
      · exact absurd he hk
      · exact hs1.once y hy he
    · rcases mem_tput hy with rfl | hy
      · exact hs1.alone (k, x) (tfind_mem hx) hk
      · exact hs1.alone y hy he
/-- The groups that go on when a descriptor is answered wait for their partner, so the issuing group is none of them. -/
theorem stands_answerPair {s : State} {gid : Nat} {g : Group} (hs : Stands s gid g) (hr : g.status = .ready) (x : PairOp) :
    Stands (answerPair s x none) gid g := by
  have hfold : ∀ (n : Nat) (ws : List (Nat × Group)) (s : State), (∀ w ∈ ws, w.1 ≠ gid) → Stands s gid g →
      Stands (ws.foldl (fun s w => s.finishGroup w.1 .ready n) s) gid g := by
    intro n ws
    induction ws with
    | nil => exact fun s _ hs => hs
    | cons w ws ih =>
      exact fun s hw hs => ih _ (fun v hv => hw v (List.mem_cons_of_mem _ hv))
        (stands_finishGroup hs (hw w List.mem_cons_self) _ _)
  unfold answerPair
  simp only []
  have hgang := (steady_modGang s x.op.slot (fun g => { g with
    pairOp := none, pairCount := if (none : Option (Nat × W64)).isNone then g.pairCount + 1 else g.pairCount })).stands hs
  refine hfold _ _ _ (fun w hw he => ?_) ((steady_unlockAll ..).stands hgang)
  obtain ⟨hw, hwait⟩ := List.mem_filter.mp hw
  rw [hgang.once w hw he, hr] at hwait
  exact absurd hwait (by simp)

/-! ### The issue of a paired instruction. -/

/-- The instructions that a pair issues together. -/
theorem pairedInstr_cases {d : Header} {i : Instr} {f : FmtX} (hp : pairedInstr d i = true) (hf : fmtX? i = some f) :
    (∃ h, i = .mld h f) ∨ (∃ h, i = .mswp h f) ∨ (∃ h, i = .mmap h f) ∨ ∃ h, i = .mguide h f := by
  cases i <;> simp only [pairedInstr, Bool.and_false, Bool.false_eq_true] at hp <;> cases hf <;> simp
theorem roundBody_paired {d : Header} {i : Instr} {f : FmtX} (hp : pairedInstr d i = true) (hf : fmtX? i = some f) :
    roundBody i = some (f, matrixBody i f) := by
  rcases pairedInstr_cases hp hf with ⟨h, rfl⟩ | ⟨h, rfl⟩ | ⟨h, rfl⟩ | ⟨h, rfl⟩ <;> rfl
theorem classOf_paired {d : Header} {i : Instr} {f : FmtX} (hp : pairedInstr d i = true) (hf : fmtX? i = some f) : classOf i = 0xA := by
  rcases pairedInstr_cases hp hf with ⟨h, rfl⟩ | ⟨h, rfl⟩ | ⟨h, rfl⟩ | ⟨h, rfl⟩ <;>
    simp [classOf, opcodeOfInstr, encode, Laws.opcodeOf_slot]
/-- Unequal descriptors are no error of the memories (16 R381). -/
theorem newError_paired {d : Header} {i : Instr} {f : FmtX} (hp : pairedInstr d i = true) (hf : fmtX? i = some f) :
    newError i 0x0C = false := by
  rcases pairedInstr_cases hp hf with ⟨h, rfl⟩ | ⟨h, rfl⟩ | ⟨h, rfl⟩ | ⟨h, rfl⟩ <;> rfl
/-- An entry whose checks pass lets the instruction go on to the matcher (07 R209). -/
theorem matrixEntry_accepts {d : Header} {i : Instr} {f : FmtX} {s : State} {o : Once} (hp : pairedInstr d i = true)
    (hf : fmtX? i = some f) (hi : o.instr = i) (h : o.act = true → Accepts s o f) : ∃ sc u, matrixEntry i f o s = (.inr sc, u) := by
  cases ha : o.act with
  | false => exact ⟨[], s, by simp only [matrixEntry, ha, Bool.not_false, if_true]⟩
  | true =>
    have hacc := h ha
    have hchecks : tfind (s.gang o.slot).engineFault f.eng.toNat = none ∧
        matrixFault (s.headerOf o.slot) s o.slot i f o.scalars (s.engine o.core f.eng.toNat) = none ∧
        valuesLocked s o f = false ∧ valueFailed s o f = none ∧
        (f.sc = true → ∃ bs s1, s.cachedScales o (scaleVas o.scalars (rowsOf o.scalars f.sfmt (rowCount f))) = (.inr bs, s1)) := by
      unfold Accepts at hacc
      rw [hi] at hacc
      rcases pairedInstr_cases hp hf with ⟨h, rfl⟩ | ⟨h, rfl⟩ | ⟨h, rfl⟩ | ⟨h, rfl⟩ <;> exact hacc
    obtain ⟨hfault, hentry, hlocked, hfailed, hscales⟩ := hchecks
    simp only [matrixEntry, ha, hfault, hentry, hlocked, hfailed, Bool.not_true, Bool.false_eq_true, if_false]
    cases hsc : f.sc with
    | false => exact ⟨[], s, rfl⟩
    | true =>
      obtain ⟨bs, s1, e⟩ := hscales hsc
      exact ⟨_, _, by rw [e]; rfl⟩
/-- An engine's instruction of a gang in a pair goes to the matcher after its entry. -/
theorem matrixBody_paired {i : Instr} {f : FmtX} {o : Once} {s u : State} {sc : List Byte} {p : Nat}
    (he : matrixEntry i f o s = (.inr sc, u)) (hp : pairedInstr (s.headerOf o.slot) i = true) (hr : (s.gang o.slot).pair = .paired)
    (hq : (s.gang o.slot).partner = some p) : matrixBody i f o s = matchPair f { op := o, scale := sc } p u := by
  have hk := kept_matrixEntry he
  simp only [matrixBody, he, hk.headerOf, hk.gang, hp, hr, hq, beq_self_eq_true, Bool.and_self, if_true]
/-- Alone, it is queued by itself, but an MGUIDE does nothing more (07 R215). -/
theorem matrixBody_alone {i : Instr} {f : FmtX} {o : Once} {s u : State} {sc : List Byte} (he : matrixEntry i f o s = (.inr sc, u))
    (hp : pairedInstr (s.headerOf o.slot) i = true) (hf : fmtX? i = some f) (hr : (s.gang o.slot).pair ≠ .paired) :
    matrixBody i f o s =
      (.done, if o.act ∧ opcodeOfInstr i ≠ 0x284 then enqueue f { op := o, scale := sc } none u else u) := by
  have hk := kept_matrixEntry he
  simp only [matrixBody, he, hk.headerOf, hk.gang, hp, beq_false_of_ne hr, Bool.and_false, Bool.false_eq_true, if_false]
  rcases pairedInstr_cases hp hf with ⟨h, rfl⟩ | ⟨h, rfl⟩ | ⟨h, rfl⟩ | ⟨h, rfl⟩ <;>
    simp [opcodeOfInstr, encode, Laws.opcodeOf_slot]

section
variable {f : FmtX} {own x : PairOp} {p : Nat} {s : State}

/-- The first descriptor of a pair is stored. -/
theorem matchPair_first (h : (s.gang own.op.slot).pairOp = none) (hp : (s.gang p).pairOp = none) :
    matchPair f own p s = (.pairWait, s.modGang own.op.slot (fun g => { g with pairOp := some own })) := by
  simp only [matchPair, h, hp, Option.isSome_none, Bool.false_eq_true, if_false]
/-- An equal one is queued with it, once, when a guard of either gang holds. -/
theorem matchPair_equal (h : (s.gang own.op.slot).pairOp = none) (hp : (s.gang p).pairOp = some x)
    (hk : pairKey own.op = pairKey x.op) :
    let s2 := (answerPair s x none).modGang own.op.slot (fun g => { g with pairCount := g.pairCount + 1 })
    matchPair f own p s = (.done, if own.op.act ∨ x.op.act then enqueue f own (some x) s2 else s2) := by
  simp only [matchPair, h, hp, hk, bne_self_eq_false, Option.isSome_none, Bool.false_eq_true, if_false, Bool.or_eq_true]
/-- An unequal one faults in both gangs. -/
theorem matchPair_unequal (h : (s.gang own.op.slot).pairOp = none) (hp : (s.gang p).pairOp = some x)
    (hk : pairKey own.op ≠ pairKey x.op) : matchPair f own p s = (.fault 0x0C 0, answerPair s x (some (0x0C, 0))) := by
  simp only [matchPair, h, hp, bne_iff_ne, ne_eq, hk, not_false_eq_true, Option.isSome_none, Bool.false_eq_true, if_false, if_true]
end

section
variable {i : Instr} {h : Hdr} {f : FmtX} {s u : State} {c gid p : Nat} {g : Group} {sc : List Byte}

/-- When all live threads of a gang are at a paired instruction, and its partner is not lost, the body runs whatever the guards
hold (07 R215). -/
theorem issueOnce_paired {r : OnceRes × State} (hf : fmtX? i = some f) (hv : f.wv = false)
    (hp : pairedInstr (s.headerOf g.slot) i = true) (hm : s.missing (s.issueCtx i h c gid g) = [])
    (hrole : (s.gang g.slot).pair ≠ .dissolved)
    (hb : matrixBody i f (s.onceOf (s.issueCtx i h c gid g) i (laneMask g.members)
      (!(s.issueCtx i h c gid g).act.isEmpty) []) s = r) :
    issueOnce i f (matrixBody i f) (s.issueCtx i h c gid g) s = settleOnce (s.issueCtx i h c gid g) r := by
  have hq : s.setQuiet (s.issueCtx i h c gid g) i f = true := by
    simp only [State.setQuiet, hv, classOf_paired hp hf, Bool.not_false, beq_self_eq_true, Bool.and_self, Bool.true_or]
  refine (issueOnce_gang (dissolvedFault_none fun _ => hrole) hv (.inr hp) hq hm).trans (congrArg (settleOnce _) ?_)
  have hrun : ∀ o : Once, pairedInstr (s.headerOf o.slot) o.instr = true → s.runOnce o (matrixBody i f) = matrixBody i f o s :=
    fun o ho => by simp only [State.runOnce, ho, Bool.or_true, if_true]
  exact (hrun _ hp).trans hb
/-- The body of a paired instruction is done: the group goes on. -/
theorem pair_goes {u' : State} (hc : Clear s i h c gid g) (hf : fmtX? i = some f) (hp : pairedInstr (s.headerOf g.slot) i = true)
    (hb : issueOnce i f (matrixBody i f) (s.issueCtx i h c gid g) s = (u', [])) (hs : Stands u' gid g) :
    ∃ t, exec i s = .next t ∧ GoesTo u' t i h gid g (nextPc g.pc) .ready false := by
  rw [exec_once (roundBody_paired hp hf)]
  exact issue_goes s u' i h c gid g _ [] .seq (nextPc g.pc, .ready, false) hc hb hs (fun _ _ => rfl) rfl rfl
/-- The first gang of a pair leaves its descriptor at the matcher, and waits. -/
theorem pair_waits {u' : State} (hc : Clear s i h c gid g) (hf : fmtX? i = some f) (hp : pairedInstr (s.headerOf g.slot) i = true)
    (hb : issueOnce i f (matrixBody i f) (s.issueCtx i h c gid g) s = (u', g.members.map (fun t => (t, .stay .pairWait))))
    (hs : Stands u' gid g) : ∃ t, exec i s = .next t ∧ Waits u' t gid g .pairWait := by
  rw [exec_once (roundBody_paired hp hf)]
  refine ⟨_, rfl, ?_⟩
  rw [issue_clear s i h c gid g _ hc, hb]
  exact finish_waits hs (fun h => nomatch h)
/-- The second gang of a pair with an unequal descriptor traps. -/
theorem pair_traps {u' s2 : State} {vec : W64} (hc : Clear s i h c gid g) (hf : fmtX? i = some f)
    (hp : pairedInstr (s.headerOf g.slot) i = true)
    (hb : issueOnce i f (matrixBody i f) (s.issueCtx i h c gid g) s = (u', g.members.map (fun t => (t, .trap 0x0C 0))))
    (he : u'.Enters g.members vec g.pc 0x0C (fun _ => 0) s2) (hs : Stands u' gid g) :
    ∃ t, exec i s = .next t ∧ Trapped s2 t gid g vec := by
  rw [exec_once (roundBody_paired hp hf)]
  refine ⟨_, rfl, ?_⟩
  rw [issue_clear s i h c gid g _ hc, hb]
  exact finish_traps hs (newError_paired hp hf) he
end

/-- Settles O30: the effect of an instruction that issues once leaves the groups as they are, so the group goes on from its
issue; the matcher's answer to the partner touches only groups that wait at a paired instruction. -/
theorem onceInstructions : Obligations.OnceInstructions := by
  unfold Obligations.OnceInstructions
  constructor
  · intro i h f b hb s s1 c gid g cx w x mask hc hp hq
    have haccepts : ∀ {o : Once}, o.instr = i → o.act = true → o.slot = g.slot → Accepts s o f → ∃ u, b o s = (.done, u) :=
      fun hi ha ho => accepts_done hb hi ha fun k => by rw [ho] at k; exact absurd (hp.symm.trans k) (by decide)
    refine ⟨fun hv hm ha => ⟨gang_goes hb hc hp hq hv hm ha, fun hacc => ?_⟩, fun hv hf => ⟨weir_signs hb hc hp hq hv hf,
      fun hs hheld => ⟨weir_goes hb hc hp hq hv hf hs hheld, fun hacc => ?_⟩⟩⟩
    · obtain ⟨u, hu⟩ := haccepts rfl rfl rfl hacc
      obtain ⟨t, ht⟩ := gang_goes hb hc hp hq hv hm ha hu
      exact ⟨u, t, hu, ht⟩
    · obtain ⟨u, hu⟩ := haccepts rfl rfl rfl hacc
      obtain ⟨t, ht⟩ := weir_goes hb hc hp hq hv hf hs hheld hu
      exact ⟨u, t, hu, ht⟩
  · intro i h f hf hv s c gid p g cx o role hc hp hm hrole hacc
    have hentry : ∃ sc u, matrixEntry i f o s = (.inr sc, u) :=
      matrixEntry_accepts hp hf rfl fun ha => hacc fun he => by
        have : (!cx.act.isEmpty) = true := ha
        simp [he] at this
    obtain ⟨sc, u, he⟩ := hentry
    have hk := kept_matrixEntry he
    have hsteady : Steady s u := by
      have := steady_matrixEntry i f o s
      rwa [he] at this
    have hstands : Stands u gid g := hsteady.stands hc.stands
    refine ⟨sc, u, he, fun hr hpartner _ hown => ?_, fun hr => ?_⟩
    · have hissue : ∀ {r : OnceRes × State}, matchPair f { op := o, scale := sc } p u = r →
          issueOnce i f (matrixBody i f) cx s = settleOnce cx r := fun hr' =>
        issueOnce_paired hf hv hp hm hrole ((matrixBody_paired he hp hr hpartner).trans hr')
      have hnone : (u.gang o.slot).pairOp = none := (congrArg Gang.pairOp (hk.gang o.slot)).trans hown
      refine ⟨fun hq => ?_, fun x hx hkey => ?_, fun x vec s2 hx hkey henters hst => ?_⟩
      · have hb := hissue (matchPair_first hnone ((congrArg Gang.pairOp (hk.gang p)).trans hq))
        exact pair_waits hc hf hp hb ((steady_modGang ..).stands hstands)
      · have hb := hissue (matchPair_equal hnone ((congrArg Gang.pairOp (hk.gang p)).trans hx) hkey)
        refine pair_goes hc hf hp hb ?_
        have hanswered := (steady_modGang _ g.slot (fun y => { y with pairCount := y.pairCount + 1 })).stands
          (stands_answerPair hstands hc.ready x)
        split
        · exact (steady_enqueue ..).stands hanswered
        · exact hanswered
      · have hb := hissue (matchPair_unequal hnone ((congrArg Gang.pairOp (hk.gang p)).trans hx) hkey)
        exact pair_traps hc hf hp hb henters hst
    · refine pair_goes hc hf hp (issueOnce_paired hf hv hp hm hrole (matrixBody_alone he hp hf hr)) ?_
      split
      · exact (steady_enqueue ..).stands hstands
      · exact hstands

end Sys2Proof.Machine
end

section
/-!
THE ROWS OF THE INTEGER, LOGIC, FLOAT AND COMPARE TABLES. Each entry's meaning is the lane result of its row, at the row's
latency: what the model computes of the operands is the value that the row states.
-/

namespace Sys2Proof.Machine

open State

/-! ### Values. -/

theorem laneResult_congr (i : Instr) (f : FmtA) (srcs : List Src) (n : Nat) {val val' : List Nat → Nat} (s : State)
    (h : ∀ v, val v = val' v) : laneResult i f srcs n val s = laneResult i f srcs n val' s := by rw [funext h]
theorem at0_opA (f : FmtA) (v : List Nat) : at0 (v.map (tyVal f.ty)) = opA f v := at0_map ..
theorem at1_opB (f : FmtA) (v : List Nat) : at1 (v.map (tyVal f.ty)) = opB f v := at1_map ..
theorem at2_opC (f : FmtA) (v : List Nat) : at2 (v.map (tyVal f.ty)) = opC f v := at2_map ..

theorem pick_lt_eq_min (a b : Int) : (if b < a then b else a) = min a b := by split <;> omega
theorem pick_lt_eq_max (a b : Int) : (if a < b then b else a) = max a b := by split <;> omega
theorem neg_if_neg_eq_natAbs (a : Int) : (if a < 0 then -a else a) = (a.natAbs : Int) := by split <;> omega
theorem distance_eq_natAbs (a b : Int) : (if a < b then b - a else a - b) = ((a - b).natAbs : Int) := by split <;> omega
/-- The low bits of A − B − k, without a negative number on the way (05 R132). -/
theorem wrap_sub_sub (w a b k : Nat) (hb : b < 2 ^ w) (hk : k ≤ 2 ^ w) :
    wrap w ((a : Int) - b - k) = (a + 2 ^ w - b + 2 ^ w - k) % 2 ^ w := by
  have hcast : ∀ W : Nat, b < W → k ≤ W → ((a + W - b + W - k : Nat) : Int) = (a : Int) - b - k + W * 2 := by omega
  have hmod : (((a + 2 ^ w - b + 2 ^ w - k) % 2 ^ w : Nat) : Int) = ((a : Int) - b - k) % 2 ^ w := by
    rw [Int.natCast_emod, hcast _ hb hk, Int.add_mul_emod_self_left, Int.natCast_pow, Int.cast_ofNat_Int]
  rw [wrap, ← hmod, Int.toNat_natCast]

theorem join_if (c : Bool) (a a' b b' k : Nat) :
    (if c then a + b * k else a' + b' * k) = (if c then a else a') + (if c then b else b') * k := by cases c <;> rfl

theorem notBits_mod (w x : Nat) : notBits w x % 2 ^ w = 2 ^ w - 1 - x % 2 ^ w :=
  Nat.mod_eq_of_lt (by have := Nat.two_pow_pos w; unfold notBits; omega)
theorem shlBits_mod (w a b : Nat) : shlBits w a b % 2 ^ w = if w ≤ b then 0 else a * 2 ^ b % 2 ^ w := by
  unfold shlBits
  split
  · exact Nat.zero_mod _
  · exact Nat.mod_mod ..
theorem shrBits_mod (w a b : Nat) : shrBits w a b % 2 ^ w = if w ≤ b then 0 else a % 2 ^ w / 2 ^ b % 2 ^ w := by
  unfold shrBits
  split
  · exact Nat.zero_mod _
  · rfl

/-! ### Latencies (03 R82). -/

/-- The latency of a class whose entries do not state their own. -/
def latencyOfClass : Nat → Option Nat
  | 1 | 2 | 6 => some 4
  | 3 => some 5
  | 5 => some 8
  | _ => none
theorem classOf_of_encode {i : Instr} {op : BitVec 10} {h : Hdr} {b : BitVec 77} (he : encode i = some (slot op h b)) :
    classOf i = op.toNat / 64 := by simp only [classOf, opcodeOfInstr, he, Laws.opcodeOf_slot]
theorem latencyOf_by_class {i : Instr} {op : BitVec 10} {h : Hdr} {b : BitVec 77} {n : Nat} (he : encode i = some (slot op h b))
    (hc : latencyOf i = latencyOfClass (classOf i)) (hl : (latencyOfClass (op.toNat / 64)).getD 0 = n) :
    (latencyOf i).getD 0 = n := by rw [hc, classOf_of_encode he, hl]

/-! ### The rows. -/

theorem integerRow_exec {i : Instr} {r : LaneRow} (hr : integerRow i = some r) (s : State) :
    exec i s = laneResult i r.f r.srcs r.regs r.val s ∧ (latencyOf i).getD 0 = r.lat := by
  cases i with
  | iadd h f | isub h f =>
    cases hr
    exact ⟨laneResult_congr _ f _ _ s fun v => by simp only [at0_opA, at1_opB], latencyOf_by_class rfl rfl rfl⟩
  | imul h f | imulh h f =>
    cases hr
    exact ⟨laneResult_congr _ f _ _ s fun v => by simp only [at0_opA, at1_opB], rfl⟩
  | imad h f =>
    cases hr
    exact ⟨laneResult_congr _ f _ _ s fun v => by simp only [at0_opA, at1_opB, at2_opC], rfl⟩
  | imadw h f | idot4 h f =>
    cases hr
    exact ⟨rfl, rfl⟩
  | imin h f =>
    cases hr
    exact ⟨laneResult_congr _ f _ _ s fun v => by simp only [at0_opA, at1_opB, pick_lt_eq_min],
      latencyOf_by_class rfl rfl rfl⟩
  | imax h f =>
    cases hr
    exact ⟨laneResult_congr _ f _ _ s fun v => by simp only [at0_opA, at1_opB, pick_lt_eq_max],
      latencyOf_by_class rfl rfl rfl⟩
  | iabs h f =>
    cases hr
    exact ⟨laneResult_congr _ f _ _ s fun v => by simp only [at0_opA, neg_if_neg_eq_natAbs], latencyOf_by_class rfl rfl rfl⟩
  | ineg h f =>
    cases hr
    exact ⟨laneResult_congr _ f _ _ s fun v => by simp only [at0_opA], latencyOf_by_class rfl rfl rfl⟩
  | isad h f =>
    cases hr
    exact ⟨laneResult_congr _ f _ _ s fun v => by simp only [at0_opA, at1_opB, at2_opC, distance_eq_natAbs],
      latencyOf_by_class rfl rfl rfl⟩
  | _ => cases hr

theorem logicRow_exec {i : Instr} {r : LaneRow} (hr : logicRow i = some r) (s : State) :
    exec i s = laneResult i r.f r.srcs r.regs r.val s ∧ (latencyOf i).getD 0 = r.lat := by
  cases i with
  | not h f =>
    cases hr
    exact ⟨laneResult_congr _ f _ _ s fun v => notBits_mod .., latencyOf_by_class rfl rfl rfl⟩
  | shl h f =>
    cases hr
    exact ⟨laneResult_congr _ f _ _ s fun v => shlBits_mod .., latencyOf_by_class rfl rfl rfl⟩
  | shr h f =>
    cases hr
    exact ⟨laneResult_congr _ f _ _ s fun v => shrBits_mod .., latencyOf_by_class rfl rfl rfl⟩
  | and | or | xor | andn | blog | sar | rot | fshf | bfe | bfi | popc | clz | brev | lea | mov | bswz =>
    cases hr
    exact ⟨rfl, latencyOf_by_class rfl rfl rfl⟩
  | _ => cases hr

theorem compareRow_exec {i : Instr} {r : PredRow} (hr : compareRow i = some r) (s : State) :
    exec i s = lanePred i r.f r.srcs r.val s ∧ (latencyOf i).getD 0 = r.lat := by
  cases i with
  | icmp | fcmp =>
    cases hr
    exact ⟨rfl, latencyOf_by_class rfl rfl rfl⟩
  | _ => cases hr

theorem floatRow_exec {i : Instr} {r : LaneRow} (hr : floatRow i = some r) (s : State) :
    exec i s = laneResult i r.f r.srcs r.regs r.val s ∧ (latencyOf i).getD 0 = r.lat := by
  cases i with
  | fadd | fmul | ffma | fmin | fmax | fclass | fscale =>
    cases hr
    exact ⟨rfl, latencyOf_by_class rfl rfl rfl⟩
  | frnd | unpk =>
    cases hr
    exact ⟨rfl, rfl⟩
  | fdot2 h f =>
    cases hr
    exact ⟨laneResult_congr _ f _ _ s fun v => by simp only [Nat.mul_zero, Nat.pow_zero, Nat.div_one]; rfl, rfl⟩
  | pack h f =>
    cases hr
    exact ⟨laneResult_congr _ f _ _ s fun v => join_if .., rfl⟩
  | _ => cases hr

theorem functionRow_exec {i : Instr} {r : LaneRow} (hr : functionRow i = some r) (s : State) :
    exec i s = laneResult i r.f r.srcs r.regs r.val s ∧ (latencyOf i).getD 0 = r.lat := by
  cases i with
  | frcp | frsq | fsqrt | fdiv | fex2 | flg2 | fsin | fcos | ftanh =>
    cases hr
    exact ⟨rfl, latencyOf_by_class rfl rfl rfl⟩
  | _ => cases hr

/-- An instruction of a table whose rows say its meaning writes the row's result. -/
theorem laneTable_spec {table : Instr → Option LaneRow}
    (ht : ∀ {i r}, table i = some r → ∀ s, exec i s = laneResult i r.f r.srcs r.regs r.val s ∧ (latencyOf i).getD 0 = r.lat)
    (i : Instr) (r : LaneRow) (hr : table i = some r) (s s1 : State) (c gid : Nat) (g : Group) (v : Nat → List Nat)
    (hc : Clear s i r.h c gid g)
    (ho : s.Operands (s.issueCtx i r.h c gid g) (s.issueCtx i r.h c gid g).act r.srcs r.f.opnd v s1) :
    ∃ t, exec i s = .next t ∧ Looked s s1 ∧ Result s1 t i r.h gid g
      (s.byGuard r.h (fun u => wordWrites r.f.d.toNat r.regs (r.val (v u)) r.lat)) (s.byGuard r.h (fun _ => noWrites)) 0 noWrites :=
  laneRow_spec i r s s1 c gid g v 0 (ht hr s).1 (ht hr s).2 hc ho

/-! ### Effects on threads. -/

/-- LANE EFFECTS, with what the reads of the operands leave of the state. -/
theorem perLane_looked {s s1 : State} {i : Instr} {h : Hdr} {c gid : Nat} {g : Group} {srcs : List Src} {opnd : BitVec 20}
    {eff : Ctx → Nat → Lane → List Nat → Lane} {v : Nat → List Nat} {w : Nat → Nat → Write W32} {p : Nat → Nat → Write Bool}
    (hc : Clear s i h c gid g)
    (ho : s.Operands (s.issueCtx i h c gid g) (s.issueCtx i h c gid g).act srcs opnd v s1)
    (hf : ∀ u ∈ (s.issueCtx i h c gid g).act, LaneWrites (s1.lane u) (eff (s.issueCtx i h c gid g) u (s1.lane u) (v u)) (w u) (p u)) :
    ∃ t, runInstr i s (fun cx s => s.perLane cx srcs opnd (eff cx)) = .next t ∧ Looked s s1 ∧
      Result s1 t i h gid g (s.byGuard h w) (s.byGuard h p) 0 noWrites := by
  obtain ⟨t, ht, hr⟩ := perLane_run s s1 i h c gid g srcs opnd eff v w p 0 hc ho hf
  exact ⟨t, ht, ho.looked, hr⟩

/-- Writes of a known latency. -/
theorem writeVs_at {lat : Option Nat} {k : Nat} (hl : lat.getD 0 = k) (l : Lane) (d n x : Nat) :
    LaneWrites l (l.writeVs d n x lat) (wordWrites d n x k) noWrites := hl ▸ writeVs_spec l lat d n x
theorem writePred_at {lat : Option Nat} {k : Nat} (hl : lat.getD 0 = k) (l : Lane) (d : Nat) (x : Bool) :
    LaneWrites l (l.write (.p d) (if x then 1 else 0) lat) noWrites (predWrites d x k) := hl ▸ writePred_spec l lat d x

/-- DRAWS: an instruction that changes each acting thread by its operands and `n` draws of its own (02 R52). -/
theorem perLane_draws {s s1 : State} {i : Instr} {h : Hdr} {c gid : Nat} {g : Group} {srcs : List Src} {opnd : BitVec 20}
    {eff : State → Ctx → Nat → Lane → List Nat → Lane} {v : Nat → List Nat} {w : Nat → Nat → Write W32} {n : Nat}
    (hc : Clear s i h c gid g)
    (ho : s.Operands (s.issueCtx i h c gid g) (s.issueCtx i h c gid g).act srcs opnd v s1)
    (hf : ∀ u ∈ (s.issueCtx i h c gid g).act, LaneWrites { s1.lane u with rng := (s1.lane u).rng + BitVec.ofNat 24 n }
      (eff s (s.issueCtx i h c gid g) u (s1.lane u) (v u)) (w u) noWrites) :
    ∃ t, runInstr i s (fun cx s => s.perLane cx srcs opnd (eff s cx)) = .next t ∧ Looked s s1 ∧
      Result (s1.drawn (s.issueCtx i h c gid g).act n) t i h gid g (s.byGuard h w) (s.byGuard h (fun _ => noWrites)) 0 noWrites := by
  obtain ⟨t, ht, hr⟩ := draws_spec s s1 i h c gid g (fun cx s => s.perLane cx srcs opnd (eff s cx))
    (fun u l => eff s (s.issueCtx i h c gid g) u l (v u)) w n 0 hc ho.looked (perLane_spec s s1 _ srcs opnd _ v ho) hf
  exact ⟨t, ht, ho.looked, hr⟩

end Sys2Proof.Machine
end

section
/-!
INTEGER_RESULTS, MOVE_AND_LOGIC_RESULTS, PREDICATE_RESULTS, FLOAT_RESULTS. The entries outside the tables: carries, selects,
long immediates and predicate logic.
-/

namespace Sys2Proof.Machine

open State

/-! ### Carries (05 R132). -/

/-- The carry or borrow into a thread: that of the predicate which [22:20] names; predicate 7 gives none. -/
def State.carryIn (s : State) (f : FmtA) (u : Nat) : Nat :=
  if (f.mods.extractLsb' 0 3).toNat ≠ 7 ∧ (s.lane u).pred (f.mods.extractLsb' 0 3).toNat = true then 1 else 0
theorem carryIn_le_one (s : State) (f : FmtA) (u : Nat) : s.carryIn f u ≤ 1 := by
  unfold State.carryIn
  split <;> omega
/-- An entry with carries writes the sum to D and the carry out to the predicate of [25:23]. -/
theorem carryOp_spec (i : Instr) (f : FmtA) (op : Nat → Nat → Nat → Nat → Bool × Nat) (s s1 : State) (h : Hdr) (c gid : Nat)
    (g : Group) (v : Nat → List Nat) {sum : Nat → Nat} {out : Nat → Bool} (hl : (latencyOf i).getD 0 = 4) (hc : Clear s i h c gid g)
    (ho : s.Operands (s.issueCtx i h c gid g) (s.issueCtx i h c gid g).act [tyA f, tyB f] f.opnd v s1)
    (hr : ∀ u, op (tyWidth f.ty) ((v u).getD 0 0 % 2 ^ tyWidth f.ty) ((v u).getD 1 0 % 2 ^ tyWidth f.ty) (s.carryIn f u) =
      (out u, sum u)) :
    ∃ t, carryOp i f op s = .next t ∧ Looked s s1 ∧
      Result s1 t i h gid g (s.byGuard h (fun u => wordWrites f.d.toNat (wideRegs f) (sum u) 4))
        (s.byGuard h (fun u => predWrites (f.mods.extractLsb' 3 3).toNat (out u) 4)) 0 noWrites := by
  refine perLane_looked hc ho fun u _ => ?_
  have hu := hr u
  rw [State.carryIn, ← ho.looked.lane u] at hu
  simp only [nat0, nat1, Bool.and_eq_true, bne_iff_ne, hu]
  exact (writeVs_at hl ..).both (writePred_at hl ..)

theorem subBorrow_eq (w a b k : Nat) (hb : b < 2 ^ w) (hk : k ≤ 1) :
    subBorrow w a b k = (decide (a < b + k), (a + 2 ^ w - b + 2 ^ w - k) % 2 ^ w) :=
  Prod.ext rfl (wrap_sub_sub w a b k hb (Nat.le_trans hk Nat.one_le_two_pow))

/-- Settles O1: the rows of class 0x1, and the carries. -/
theorem integerResults : Obligations.IntegerResults := by
  unfold Obligations.IntegerResults
  refine ⟨laneTable_spec integerRow_exec, fun sub h f s s1 c gid g v hc ho => ?_⟩
  cases sub with
  | false => exact carryOp_spec _ f addCarry s s1 h c gid g v (latencyOf_by_class rfl rfl rfl) hc ho fun _ => rfl
  | true => exact carryOp_spec _ f subBorrow s s1 h c gid g v (latencyOf_by_class rfl rfl rfl) hc ho fun u =>
      subBorrow_eq _ _ _ _ (Nat.mod_lt _ (Nat.two_pow_pos _)) (carryIn_le_one s f u)

/-! ### Selects and long immediates (05 R144, R147). -/

theorem isel_spec (h : Hdr) (f : FmtA) (s s1 : State) (c gid : Nat) (g : Group) (v : Nat → List Nat)
    (hc : Clear s (.isel h f) h c gid g)
    (ho : s.Operands (s.issueCtx (.isel h f) h c gid g) (s.issueCtx (.isel h f) h c gid g).act [tyA f, tyB f] f.opnd v s1) :
    ∃ t, exec (.isel h f) s = .next t ∧ Looked s s1 ∧ Result s1 t (.isel h f) h gid g
      (s.byGuard h (fun u => wordWrites f.d.toNat (wideRegs f)
        (if (s.lane u).pred f.c.toNat != f.mods.getLsbD 0 then (v u).getD 0 0 else (v u).getD 1 0) 4))
      (s.byGuard h (fun _ => noWrites)) 0 noWrites := by
  refine perLane_looked hc ho fun u _ => ?_
  rw [ho.looked.lane u]
  exact writeVs_at (latencyOf_by_class (i := .isel h f) rfl rfl rfl) ..

theorem signed_toNat (x : W32) : signed 32 x.toNat = x.toInt := by
  have := x.isLt
  unfold signed
  rw [BitVec.toInt_eq_toNat_cond]
  split <;> split <;> omega
/-- What MOVI writes of its immediate, by type. -/
theorem longImm_writes (d : Nat) (f : FmtI) : wordWrites d (longImm f).1 (longImm f).2 4 =
    if f.ty = 8 then wordWrites d 1 f.imm.toNat 4
    else if f.ty = 7 then wordWrites d 2 (wrap 64 f.imm.toInt) 4 else wordWrites d 2 f.imm.toNat 4 := by
  unfold longImm
  by_cases h8 : f.ty = 8
  · simp only [h8, beq_self_eq_true, if_true]
  · by_cases h7 : f.ty = 7
    · simp only [beq_false_of_ne h8, beq_iff_eq.mpr h7, if_neg h8, if_pos h7, Bool.false_eq_true, if_false, if_true,
        sextNat, signed_toNat]
    · simp only [beq_false_of_ne h8, beq_false_of_ne h7, if_neg h8, if_neg h7, Bool.false_eq_true, if_false]
theorem movi_spec (h : Hdr) (f : FmtI) (s : State) (c gid : Nat) (g : Group) (hc : Clear s (.movi h f) h c gid g) :
    ∃ t, exec (.movi h f) s = .next t ∧ Result s t (.movi h f) h gid g
      (s.byGuard h (fun _ => wordWrites f.d.toNat (longImm f).1 (longImm f).2 4)) (s.byGuard h (fun _ => noWrites)) 0 noWrites := by
  refine perLane_run s s (.movi h f) h c gid g [] 0 _ _ _ _ 0 hc (operands_nil ..) fun u _ => ?_
  exact writeVs_at (latencyOf_by_class (i := .movi h f) rfl rfl rfl) ..

/-- Settles O2: the rows of class 0x2, the select, and the long immediate. -/
theorem moveAndLogicResults : Obligations.MoveAndLogicResults := by
  unfold Obligations.MoveAndLogicResults
  refine ⟨laneTable_spec logicRow_exec, isel_spec, fun h f s c gid g hc => ?_⟩
  rw [← longImm_writes]
  exact movi_spec h f s c gid g hc

/-! ### Predicate logic (05 R145). -/

theorem plop_spec (h : Hdr) (f : FmtA) (s : State) (c gid : Nat) (g : Group) (hc : Clear s (.plop h f) h c gid g) :
    ∃ t, exec (.plop h f) s = .next t ∧ Result s t (.plop h f) h gid g (s.byGuard h (fun _ => noWrites))
      (s.byGuard h (fun u => predWrites f.d.toNat (tableBit f.opnd ((s.lane u).pred f.a.toNat) ((s.lane u).pred f.b.toNat)
        ((s.lane u).pred f.c.toNat)) 4)) 0 noWrites := by
  refine perLane_run s s (.plop h f) h c gid g [] f.opnd _ _ _ _ 0 hc (operands_nil ..) fun u _ => ?_
  exact writePred_at (latencyOf_by_class (i := .plop h f) rfl rfl rfl) ..

/-- Settles O3: the two comparisons, and the truth table. -/
theorem predicateResults : Obligations.PredicateResults := by
  unfold Obligations.PredicateResults
  refine ⟨fun i r hr s s1 c gid g v hc ho => ?_, plop_spec⟩
  obtain ⟨hx, hl⟩ := compareRow_exec hr s
  exact predRow_spec i r s s1 c gid g v 0 hx hl hc ho

/-- Settles O4: the rows of classes 0x3 and 0x4. -/
theorem floatResults : Obligations.FloatResults := by
  unfold Obligations.FloatResults
  exact ⟨laneTable_spec floatRow_exec, laneTable_spec functionRow_exec⟩

end Sys2Proof.Machine
end

section
/-!
CONVERSION_RESULTS. A thread's draws, one after another (02 R52), and the conversions that round with them.
-/

namespace Sys2Proof.Machine

open State

/-! ### Draws of one thread. -/

/-- A thread after `n` draws. -/
def Lane.drawnBy (l : Lane) (n : Nat) : Lane := { l with rng := l.rng + BitVec.ofNat 24 n }
@[simp] theorem drawnBy_zero (l : Lane) : l.drawnBy 0 = l := by
  rw [Lane.drawnBy, BitVec.add_zero]
theorem laneDrawn_drawnBy (l : Lane) (n : Nat) : laneDrawn (l.drawnBy n) = l.drawnBy (n + 1) := by
  simp only [laneDrawn, Lane.drawnBy, BitVec.ofNat_add, BitVec.add_assoc]
  rfl
theorem laneDraw_congr (seed : W64) {l l' : Lane} (h : l.rest = l'.rest) : laneDraw seed l = laneDraw seed l' :=
  show laneDraw seed l.rest = laneDraw seed l'.rest from congrArg _ h
theorem seedOf_looked {s s1 : State} (h : Looked s s1) (u : Nat) : seedOf s u = seedOf s1 u := by rw [h.frame]; rfl
/-- The draw of a thread after `j` draws is its `j`-th next. -/
theorem laneDraw_drawnBy (s : State) (u j : Nat) : laneDraw (seedOf s u) ((s.lane u).drawnBy j) = s.drawNo u j := rfl
theorem laneDraw_lane (s : State) (u : Nat) : laneDraw (seedOf s u) (s.lane u) = s.drawNo u 0 := by
  rw [← laneDraw_drawnBy, drawnBy_zero]

/-- One draw to each of `n` registers: the `k`-th register holds the `k`-th draw. -/
theorem drawInto_spec (seed : W64) (d : Nat) (lat : Option Nat) (l : Lane) (n : Nat) :
    LaneWrites (l.drawnBy n) (drawInto seed d lat l n)
      (fun r => if d ≤ r ∧ r < d + n then some (laneDraw seed (l.drawnBy (r - d)), lat.getD 0) else none) noWrites := by
  induction n with
  | zero =>
    have hno : ∀ r, ¬ (d ≤ r ∧ r < d + 0) := by omega
    simp only [hno, if_false, drawnBy_zero]
    exact .refl l
  | succ n ih =>
    have hdraw : laneDraw seed (drawInto seed d lat l n) = laneDraw seed (l.drawnBy n) := laneDraw_congr seed ih.rest
    refine ⟨fun r k => ?_, fun p hp k => ?_, ?_, ?_⟩
    · show (((drawInto seed d lat l n).write (.v (d + n)) (laneDraw seed (drawInto seed d lat l n)) lat).later k).vreg r = _
      rw [Lane.vreg_write, hdraw, ih.vregs]
      by_cases hr : r = d + n
      · subst hr
        have hin : d ≤ d + n ∧ d + n < d + (n + 1) := by omega
        have hout : ¬ (d ≤ d + n ∧ d + n < d + n) := by omega
        rw [if_pos hin, if_neg hout, Nat.add_sub_cancel_left]
        simp only [true_and, Write.seen]
        rfl
      · have hne : ¬ (RegRef.v r = RegRef.v (d + n) ∧ lat.getD 0 ≤ k) := fun hh => hr (RegRef.v.inj hh.1)
        have hiff : (d ≤ r ∧ r < d + n) ↔ (d ≤ r ∧ r < d + (n + 1)) := by omega
        rw [if_neg hne]
        simp only [hiff]
        rfl
    · show (((drawInto seed d lat l n).write (.v (d + n)) (laneDraw seed (drawInto seed d lat l n)) lat).later k).pred p = _
      rw [Lane.pred_write _ _ _ _ _ _ hp, if_neg (fun hh => RegRef.noConfusion hh.1)]
      exact ih.preds p hp k
    · rw [← laneDrawn_drawnBy]
      exact congrArg laneDrawn ((Lane.write_rest ..).trans ih.rest)
    · exact (Lane.write_nd ..).trans ih.nd

/-! ### Rounding with draws. -/

/-- Under `.rst` a thread draws once, else not. -/
theorem roundDrawn_eq (f : FmtA) (l : Lane) : (if f.rnd == 4 then laneDrawn l else l) = l.drawnBy (if f.rnd = 4 then 1 else 0) := by
  by_cases hr : f.rnd = 4
  · simp only [hr, beq_self_eq_true, if_true]
    rfl
  · simp only [beq_false_of_ne hr, if_neg hr, Bool.false_eq_true, if_false, drawnBy_zero]
theorem cvt_spec (h : Hdr) (f : FmtA) (s s1 : State) (c gid : Nat) (g : Group) (v : Nat → List Nat)
    (hc : Clear s (.cvt h f) h c gid g)
    (ho : s.Operands (s.issueCtx (.cvt h f) h c gid g) (s.issueCtx (.cvt h f) h c gid g).act
      [srcA f (if is64Ty f.cvtSrcTy then 2 else 1) (if f.cvtSrcTy = 0x15 ∨ f.cvtSrcTy = 0x16 then .int 32 else tyImm f.cvtSrcTy)]
      f.opnd v s1) :
    ∃ t, exec (.cvt h f) s = .next t ∧ Looked s s1 ∧
      Result (s1.drawn (s.issueCtx (.cvt h f) h c gid g).act (if f.rnd = 4 then 1 else 0)) t (.cvt h f) h gid g
        (s.byGuard h (fun u => wordWrites f.d.toNat (wideRegs f)
          (cvtResult f (if f.rnd = 4 then s1.drawNo u 0 else 0) ((v u).getD 0 0)) 6))
        (s.byGuard h (fun _ => noWrites)) 0 noWrites := by
  have himm : (if f.cvtSrcTy = 0x15 ∨ f.cvtSrcTy = 0x16 then ImmKind.int 32 else tyImm f.cvtSrcTy) =
      if f.cvtSrcTy == 0x15 || f.cvtSrcTy == 0x16 then .int 32 else tyImm f.cvtSrcTy := by
    simp only [Bool.or_eq_true, beq_iff_eq]
  rw [himm] at ho
  refine perLane_draws hc ho fun u _ => ?_
  simp only [roundDrawn_eq, seedOf_looked ho.looked, laneDraw_lane]
  simp only [beq_iff_eq]
  exact writeVs_at (lat := some 6) rfl ..

/-- The code byte of an element, rounded with draw `j` under `.rst` (05 R162). -/
def State.codeOf (s : State) (f : FmtA) (u j x : Nat) : Nat :=
  b8Round f.mods f.rnd.toNat (if f.rnd = 4 then s.drawNo u j else 0) f.sat (foperand (tyFmt f.ty) false x)
/-- CVTN of a thread's word: a draw for each element under `.rst`, the low one first. -/
theorem cvtnWord_eq (f : FmtA) (s : State) (u x : Nat) : cvtnWord f (seedOf s u) (s.lane u) x =
    ((s.lane u).drawnBy (if f.rnd = 4 then (if isPackedTy f.ty then 2 else 1) else 0),
      if isPackedTy f.ty then s.codeOf f u 0 (x % 2 ^ 16) + s.codeOf f u 1 (x / 2 ^ 16) * 256 else s.codeOf f u 0 x) := by
  by_cases hr : f.rnd = 4
  · have hlow := laneDraw_lane s u
    have hhigh : laneDraw (seedOf s u) (laneDrawn (s.lane u)) = s.drawNo u 1 := laneDraw_drawnBy s u 1
    have htwice : laneDrawn (laneDrawn (s.lane u)) = (s.lane u).drawnBy 2 := laneDrawn_drawnBy (s.lane u) 1
    unfold cvtnWord State.codeOf
    simp only [hr, beq_self_eq_true, if_true, hlow, hhigh, htwice]
    split <;> rfl
  · unfold cvtnWord State.codeOf
    simp only [hr, beq_false_of_ne hr, if_false, drawnBy_zero, Bool.false_eq_true]
    split <;> rfl
theorem cvtn_spec (h : Hdr) (f : FmtA) (s s1 : State) (c gid : Nat) (g : Group) (v : Nat → List Nat)
    (hc : Clear s (.cvtn h f) h c gid g)
    (ho : s.Operands (s.issueCtx (.cvtn h f) h c gid g) (s.issueCtx (.cvtn h f) h c gid g).act [tyA f] f.opnd v s1) :
    ∃ t, exec (.cvtn h f) s = .next t ∧ Looked s s1 ∧
      Result (s1.drawn (s.issueCtx (.cvtn h f) h c gid g).act (if f.rnd = 4 then (if isPackedTy f.ty then 2 else 1) else 0)) t
        (.cvtn h f) h gid g
        (s.byGuard h (fun u => wordWrites f.d.toNat 1
          (if isPackedTy f.ty then
            s1.codeOf f u 0 ((v u).getD 0 0 % 2 ^ 16) + s1.codeOf f u 1 ((v u).getD 0 0 / 2 ^ 16) * 256
          else s1.codeOf f u 0 ((v u).getD 0 0)) 6))
        (s.byGuard h (fun _ => noWrites)) 0 noWrites := by
  refine perLane_draws hc ho fun u _ => ?_
  simp only [seedOf_looked ho.looked, cvtnWord_eq, nat0]
  exact writeVs_at (lat := some 6) rfl ..

theorem rng_spec (h : Hdr) (f : FmtA) (s : State) (c gid : Nat) (g : Group) (hc : Clear s (.rng h f) h c gid g) :
    ∃ t, exec (.rng h f) s = .next t ∧
      Result (s.drawn (s.issueCtx (.rng h f) h c gid g).act (wideRegs f)) t (.rng h f) h gid g
        (s.byGuard h (fun u r => if f.d.toNat ≤ r ∧ r < f.d.toNat + wideRegs f then some (s.drawNo u (r - f.d.toNat), 6) else none))
        (s.byGuard h (fun _ => noWrites)) 0 noWrites := by
  refine draws_spec s s (.rng h f) h c gid g _ _ _ (wideRegs f) 0 hc (.refl s) rfl fun u _ => ?_
  exact drawInto_spec (seedOf s u) f.d.toNat (some 6) (s.lane u) (wideRegs f)

/-- Settles O5: each conversion rounds with its thread's own draws, and RNG keeps them. -/
theorem conversionResults : Obligations.ConversionResults := by
  unfold Obligations.ConversionResults
  exact ⟨cvt_spec, cvtn_spec, rng_spec⟩

end Sys2Proof.Machine
end
